-- ==== Sys2Proof/Config.lean ====
section
/-! DEFINITION. What is fixed for the part: the constants the manual gives (00 section 3) and the
free values, opaque constants without a body, for what it leaves open. -/

namespace Sys2Proof.Config

/-- Oscillator ticks in a millisecond: the tick is 10 ns (00 4.1). -/
def ticksPerMs : Nat := 100000

/-- The quiesce: 64 µs, 6,400 oscillator ticks (R170). -/
def quiesceTicks : Nat := 6400

/-- The staging expiry: 2 ms (R127, R133). -/
def expiryTicks : Nat := 200000

/-- The wake delay: 2 ms (R116). -/
def wakeTicks : Nat := 200000

/-- A reply starts no sooner than 4 µs after the POLL's end delimiter (R152). -/
def replyEarliest : Nat := 400

/-- A reply starts no later than 12 µs after the POLL's end delimiter (R152). -/
def replyLatest : Nat := 1200

/-- The first count that is not a valid time (R45; 00 4.1). -/
def timeEnd : Nat := 2 ^ 63

/-- The lock window (R46). -/
def lockWindow : Nat := 16

/-- The slew limit (R46). -/
def slewLimit : Nat := 256

/-- The acquisition count for lock (R46). -/
def lockCount : Nat := 4

/-- The bound of the rate correction, in parts per billion (R46). -/
def rateLimit : Int := 200000

/-- The schedule table's capacity (R5). -/
def tableCapacity : Nat := 128

/-- The event queue's capacity (R98). -/
def eventCapacity : Nat := 64

/-- The staging queue's capacity (R129). -/
def stagingCapacity : Nat := 8

/-- The outbox's capacity (R155). -/
def outboxCapacity : Nat := 16

/-- The alignment log's capacity (R191). -/
def logCapacity : Nat := 8

/-- FREE VALUE (log 6). Which of the events due at one instant the part takes next, on an empty
queue: "either may be taken first" (R21, R42, R78, R93, R134, R184, R196 and others). Applied to the
counter `State.draws`. -/
opaque dueChoice : Nat → Nat

/-- FREE VALUE (log 7). How long after the earliest moment a waiting reply starts; the model takes it
within 4 to 12 µs (R152). Applied to the counter's value at the POLL. -/
opaque replyDelay : Nat → Nat

/-- FREE VALUE (log 16). Local time where its advance, set or step would pass 2^63 − 1: the manual
only says that this does not happen within the life of the part (R45). Applied to the sum. -/
opaque timePastEnd : Nat → Nat

/-- FREE VALUE (log 15). The change of the rate correction for a span that is not positive, for which
R47's quotient has no value. Applied to the error and the span. -/
opaque changeWithoutSpan : Int → Int → Int

end Sys2Proof.Config
end

