-- ==== Sys2Proof/Word.lean ====
section
/-! DEFINITION. The words of the BT-416's link and the vocabulary of its commands: bytes, line
symbols, frames, origins, the catalogue of commands. Types only; every computation on them stands
in `Decode.lean` or under `Machine/`. -/

namespace Sys2Proof

/-- A byte of a frame (R140). -/
abbrev Byte := BitVec 8

/-- The level of a pin or a configured level (R67, R87; codes in R198). -/
inductive Level where
  | low
  | high
  deriving DecidableEq, Repr

/-- The kind of an edge of a capture input (R87). -/
inductive EdgeKind where
  | rising
  | falling
  deriving DecidableEq, Repr

/-- An edge of a capture pin as it meets CAP: its kind, and how many of dispatch's moments of the same
instant pass before it is taken, since an edge may be taken before, between or after what dispatch does
then (R87, R93, R99; log 26). -/
structure PinEdge where
  kind : EdgeKind
  after : Nat
  deriving DecidableEq, Repr

/-- What the receiver can meet on the pair (R140, R142, R143): the two delimiters, a byte, a symbol
that is none of these, and the line being idle for 1 µs. -/
inductive LineSymbol where
  | start
  | byte (b : Byte)
  | stop
  | invalid
  | idle
  deriving DecidableEq, Repr

/-- What ends DISCARDING (R143). -/
inductive RunEnd where
  | stop
  | idle
  deriving DecidableEq, Repr

/-- A run of symbols heard on the pair, given at its last symbol: the symbols that follow the start
delimiter, and the duration in oscillator ticks since that start delimiter arrived (R48, R143). The
link's signalling rate is outside the manual, so the duration is the sender's to give (log 1). -/
structure Heard where
  symbols : List LineSymbol
  since : Nat
  deriving DecidableEq, Repr

/-- An intact frame, less its length field and its check word (R140). -/
structure Frame where
  dest : Byte
  kind : Byte
  seq : Byte
  payload : List Byte
  deriving DecidableEq, Repr

/-- The four fault kinds (R142; codes in R198). -/
inductive FaultKind where
  | framing
  | length
  | oversize
  | checkWord
  deriving DecidableEq, Repr

/-- What the receiver finds at a symbol (R142): nothing yet, the end of an intact frame, or a fault
with the header bytes received (R172). -/
inductive Verdict where
  | nothing
  | intact (f : Frame)
  | fault (k : FaultKind) (header : List Byte)
  deriving DecidableEq, Repr

/-- The receiver's modes (R139). -/
inductive Receiver where
  | off
  | listening
  | receiving
  | discarding
  deriving DecidableEq, Repr

/-- The frame in reception (R139): its bytes, the check word over its header and payload so far
(R141), and the oscillator ticks since its start delimiter, which TBU needs of a SYNC (R48). -/
structure Reception where
  bytes : List Byte
  check : BitVec 16
  age : Nat
  deriving DecidableEq, Repr

/-- How a COMMAND frame was addressed (R123); a UNIT command carries the sequence that names its
outbox record (R155, R156). -/
inductive Origin where
  | unit (seq : Byte)
  | broadcast
  | group
  deriving DecidableEq, Repr

/-- Which of two events at one instant is taken first: the commits of a frame's counting, or the
frame's handling by the block its kind concerns (R132, R150, R196). -/
inductive TakenFirst where
  | commits
  | handling
  deriving DecidableEq, Repr

/-- The orders at the end of a POLL: those of `TakenFirst` (R132), and RPU's handling first with a
staging expiry between it and the counting (R164). -/
inductive PollOrder where
  | commits
  | handling
  | handlingThenExpiry
  deriving DecidableEq, Repr

/-- The forms of a hard reset (R119): the whole of it, NRST going low (or power coming on), and the
end of the reset with the levels of the straps ADDR4 to ADDR0 (R148). -/
inductive ResetPhase where
  | whole (straps : BitVec 5)
  | asserted
  | released (straps : BitVec 5)
  deriving DecidableEq, Repr

/-- The catalogue of commands (R199). -/
inductive Cmd where
  | getStatus
  | getFaultRecord
  | clearFault
  | softReset
  | echo
  | ackAttention
  | setAttentionMask
  | start
  | park
  | resume
  | enterDormant
  | enterAlignment
  | exitAlignment
  | getAlignment
  | setCommitLag
  | setFaultMode
  | setGroups
  | readConfig
  | setTimebase
  | setOffset
  | setTime
  | setLateTolerance
  | getTime
  | configureChannel
  | configureInput
  | addEntry
  | cancelEntry
  | cancelGroup
  | flushSchedule
  | queryEntry
  | listSchedule
  | readEvents
  deriving DecidableEq, Repr

end Sys2Proof
end

