-- ==== Sys2Proof/Syntax.lean ====
section
/-! DEFINITION. The commands of the block: one constructor per row of spec/opcode_table.json, in the
table's order. Link rows carry what was heard on the pair; rows that commit a command carry its
origin and its argument bytes as received, since nothing in them is examined before the commit (R123). -/

namespace Sys2Proof

/-- The rows of the command table. `origin` is how the committed command was addressed; `args` are
its command bytes after the code byte (R199). -/
inductive Instr where
  /-- HARD_RESET (R119). -/
  | hardReset (phase : ResetPhase)
  /-- COMMAND_FRAME (R124). -/
  | commandFrame (h : Heard)
  /-- POLL (R160). -/
  | poll (h : Heard) (order : PollOrder)
  /-- TRANSMIT_START (R152). -/
  | transmitStart
  /-- TRANSMIT_END (R153). -/
  | transmitEnd
  /-- REPLY_ABANDONED (R152). -/
  | replyAbandoned
  /-- SYNC (R48). -/
  | sync (h : Heard) (order : TakenFirst)
  /-- PROBE (R193). -/
  | probe (h : Heard) (order : TakenFirst)
  /-- WAKE (R116). -/
  | wake (h : Heard)
  /-- FILL (R144). -/
  | fill (h : Heard)
  /-- OTHER_INTACT_FRAME (R144). -/
  | otherIntactFrame (h : Heard)
  /-- FAULT_REPORT (R173). -/
  | faultReport (h : Heard)
  /-- QUIESCE_END (R177). -/
  | quiesceEnd
  /-- STAGING_EXPIRY (R133). -/
  | stagingExpiry
  /-- SYNC_WATCH_LOCKED_EXPIRY (R55). -/
  | syncWatchLockedExpiry
  /-- SYNC_WATCH_HOLDOVER_EXPIRY (R56). -/
  | syncWatchHoldoverExpiry
  /-- SYNC_WATCH_ACQUIRING_EXPIRY (R57). -/
  | syncWatchAcquiringExpiry
  /-- SLEW_END (R53). -/
  | slewEnd
  /-- WAKE_DELAY_END (R118). -/
  | wakeDelayEnd
  /-- HEAD_REACHED (R26). -/
  | headReached
  /-- PULSE_END (R74). -/
  | pulseEnd (channel : Fin 16)
  /-- WINDOW_END (R92). -/
  | windowEnd (input : Fin 4)
  /-- DEAD_TIME_END (R89). -/
  | deadTimeEnd (input : Fin 4)
  /-- CAPTURE_EDGE (R88). -/
  | captureEdge (input : Fin 4) (edge : PinEdge)
  /-- SAMPLE_REACHED (R194). -/
  | sampleReached
  /-- GET_STATUS (R166). -/
  | getStatus (origin : Origin) (args : List Byte)
  /-- GET_FAULT_RECORD (R181). -/
  | getFaultRecord (origin : Origin) (args : List Byte)
  /-- CLEAR_FAULT (R180). -/
  | clearFault (origin : Origin) (args : List Byte)
  /-- SOFT_RESET (R114). -/
  | softReset (origin : Origin) (args : List Byte)
  /-- ECHO (R168). -/
  | echo (origin : Origin) (args : List Byte)
  /-- ACK_ATTENTION (R189). -/
  | ackAttention (origin : Origin) (args : List Byte)
  /-- SET_ATTENTION_MASK (R188). -/
  | setAttentionMask (origin : Origin) (args : List Byte)
  /-- START (R106). -/
  | start (origin : Origin) (args : List Byte)
  /-- PARK (R107). -/
  | park (origin : Origin) (args : List Byte)
  /-- RESUME (R108). -/
  | resume (origin : Origin) (args : List Byte)
  /-- ENTER_DORMANT (R115). -/
  | enterDormant (origin : Origin) (args : List Byte)
  /-- ENTER_ALIGNMENT (R109). -/
  | enterAlignment (origin : Origin) (args : List Byte)
  /-- EXIT_ALIGNMENT (R110). -/
  | exitAlignment (origin : Origin) (args : List Byte)
  /-- GET_ALIGNMENT (R197). -/
  | getAlignment (origin : Origin) (args : List Byte)
  /-- SET_COMMIT_LAG (R135). -/
  | setCommitLag (origin : Origin) (args : List Byte)
  /-- SET_FAULT_MODE (R182). -/
  | setFaultMode (origin : Origin) (args : List Byte)
  /-- SET_GROUPS (R149). -/
  | setGroups (origin : Origin) (args : List Byte)
  /-- READ_CONFIG (R167). -/
  | readConfig (origin : Origin) (args : List Byte)
  /-- SET_TIMEBASE (R60). -/
  | setTimebase (origin : Origin) (args : List Byte)
  /-- SET_OFFSET (R64). -/
  | setOffset (origin : Origin) (args : List Byte)
  /-- SET_TIME (R63). -/
  | setTime (origin : Origin) (args : List Byte)
  /-- SET_LATE_TOLERANCE (R25). -/
  | setLateTolerance (origin : Origin) (args : List Byte)
  /-- GET_TIME (R65). -/
  | getTime (origin : Origin) (args : List Byte)
  /-- CONFIGURE_CHANNEL (R71). -/
  | configureChannel (origin : Origin) (args : List Byte)
  /-- CONFIGURE_INPUT (R86). -/
  | configureInput (origin : Origin) (args : List Byte)
  /-- ADD_ENTRY (R10). -/
  | addEntry (origin : Origin) (args : List Byte)
  /-- CANCEL_ENTRY (R15). -/
  | cancelEntry (origin : Origin) (args : List Byte)
  /-- CANCEL_GROUP (R16). -/
  | cancelGroup (origin : Origin) (args : List Byte)
  /-- FLUSH_SCHEDULE (R17). -/
  | flushSchedule (origin : Origin) (args : List Byte)
  /-- QUERY_ENTRY (R18). -/
  | queryEntry (origin : Origin) (args : List Byte)
  /-- LIST_SCHEDULE (R19). -/
  | listSchedule (origin : Origin) (args : List Byte)
  /-- READ_EVENTS (R100). -/
  | readEvents (origin : Origin) (args : List Byte)
  /-- UNKNOWN_COMMAND (R130). -/
  | unknownCommand (origin : Origin) (bytes : List Byte)
  /-- DISCARDING_END (R143). -/
  | discardingEnd (ending : RunEnd)
  deriving DecidableEq, Repr

end Sys2Proof
end

