-- ==== Sys2Proof/Decode.lean ====
section
/-! DEFINITION. Reading and building what travels on the link: multi-byte fields, the check word, the
receiver's table, frames, and the command bytes of the commit rows. No row of the command table has
bits, so `decodeTableWord` spells none (log 22). -/

namespace Sys2Proof

/-- The value of bytes sent most significant first (00 4.2, R140). -/
def beNat (bytes : List Byte) : Nat :=
  bytes.foldl (fun acc b => acc * 256 + b.toNat) 0

/-- A value as `n` bytes, most significant first (00 4.2, R140). -/
def beBytes : Nat → Nat → List Byte
  | 0, _ => []
  | n + 1, v => BitVec.ofNat 8 (v / 256 ^ n) :: beBytes n v

/-! ### The check word (R141) -/

/-- One bit of the check word's division by x^16 + x^12 + x^5 + 1. -/
def crcBit (r : BitVec 16) : BitVec 16 :=
  if r.msb then (r <<< 1) ^^^ 0x1021#16 else r <<< 1

/-- `n` bits of the division. -/
def crcBits : Nat → BitVec 16 → BitVec 16
  | 0, r => r
  | n + 1, r => crcBits n (crcBit r)

/-- The check word after one more byte, fed most significant bit first (R141). -/
def crcFeed (r : BitVec 16) (b : Byte) : BitVec 16 :=
  crcBits 8 (r ^^^ (b.setWidth 16 <<< 8))

/-- The check word of a byte sequence: the register starts at all ones and the remainder is sent as it
stands (R141). -/
def crc (bytes : List Byte) : BitVec 16 :=
  bytes.foldl crcFeed 0xFFFF#16

/-! ### Frames as they are sent (R140) -/

/-- Header and payload, the part the check word covers. -/
def Frame.covered (f : Frame) : List Byte :=
  f.dest :: f.kind :: f.seq :: BitVec.ofNat 8 f.payload.length :: f.payload

/-- The byte sequence of a frame between its delimiters. -/
def Frame.bytes (f : Frame) : List Byte :=
  f.covered ++ beBytes 2 (crc f.covered).toNat

/-- The symbols of a frame after its start delimiter. -/
def Frame.line (f : Frame) : List LineSymbol :=
  f.bytes.map LineSymbol.byte ++ [LineSymbol.stop]

/-! ### The receiver (R140, R142, R143) -/

/-- The reception at a start delimiter: no byte yet, check word register at all ones. -/
def Reception.fresh : Reception :=
  { bytes := [], check := 0xFFFF#16, age := 0 }

/-- Whether the byte at place `n` of a frame is fed into the check word: header and payload are, the
two check word bytes are not (R141). -/
def Reception.covers (f : Reception) (n : Nat) : Bool :=
  match f.bytes[3]? with
  | none => true
  | some len => decide (n < 4 + len.toNat)

/-- A byte taken in RECEIVING: it may find LENGTH at the length byte or OVERSIZE at the 63rd byte
(R142). -/
def Reception.takeByte (f : Reception) (b : Byte) : Receiver × Option Reception × Verdict :=
  let n := f.bytes.length
  let bytes := f.bytes ++ [b]
  if 62 ≤ n then (.discarding, none, .fault .oversize (bytes.take 4))
  else if n = 3 ∧ 56 < b.toNat then (.discarding, none, .fault .length (bytes.take 4))
  else
    (.receiving,
      some { bytes := bytes, check := if f.covers n then crcFeed f.check b else f.check, age := f.age },
      .nothing)

/-- The end delimiter in RECEIVING: the frame is intact, or faulted with LENGTH or CHECK_WORD (R142). -/
def Reception.close (f : Reception) : Receiver × Option Reception × Verdict :=
  match f.bytes with
  | dest :: kind :: seq :: len :: rest =>
    if rest.length = len.toNat + 2 then
      if beNat (rest.drop len.toNat) = f.check.toNat then
        (.listening, none,
          .intact { dest := dest, kind := kind, seq := seq, payload := rest.take len.toNat })
      else (.discarding, none, .fault .checkWord (f.bytes.take 4))
    else (.discarding, none, .fault .length (f.bytes.take 4))
  | short => (.discarding, none, .fault .length short)

/-- What the receiver does with one symbol in each of its modes (R143). `quiet` says that the start
delimiter falls in quiesce or in WAKING. -/
def rxSymbol (quiet : Bool) :
    Receiver → Option Reception → LineSymbol → Receiver × Option Reception × Verdict
  | .off, _, _ => (.off, none, .nothing)
  | .listening, _, .start =>
    if quiet then (.discarding, none, .nothing) else (.receiving, some .fresh, .nothing)
  | .listening, _, _ => (.listening, none, .nothing)
  | .discarding, _, .stop => (.listening, none, .nothing)
  | .discarding, _, .idle => (.listening, none, .nothing)
  | .discarding, _, _ => (.discarding, none, .nothing)
  | .receiving, f, .byte b => (f.getD .fresh).takeByte b
  | .receiving, f, .stop => (f.getD .fresh).close
  | .receiving, f, _ => (.discarding, none, .fault .framing ((f.getD .fresh).bytes.take 4))

/-- The receiver over a run of symbols: its mode and reception after them, and the first thing found. -/
def rxSymbols (quiet : Bool) :
    Receiver → Option Reception → List LineSymbol → Receiver × Option Reception × Verdict
  | r, f, [] => (r, f, .nothing)
  | r, f, x :: rest =>
    match rxSymbol quiet r f x with
    | (r', f', .nothing) => rxSymbols quiet r' f' rest
    | (r', f', v) =>
      let after := rxSymbols quiet r' f' rest
      (after.1, after.2.1, v)

/-- `rxSymbols` for a run whose last symbol must be the one at which something is found. -/
def classifyFrom : Receiver → Option Reception → List LineSymbol → Verdict
  | _, _, [] => .nothing
  | r, f, x :: rest =>
    match rxSymbol false r f x with
    | (r', f', .nothing) => classifyFrom r' f' rest
    | (_, _, v) => if rest.isEmpty then v else .nothing

/-- What the symbols after a start delimiter spell, found at the last of them: an intact frame, a
faulted one (R142), or neither. -/
def classify (symbols : List LineSymbol) : Verdict :=
  classifyFrom .receiving (some .fresh) symbols

/-- The intact frame that a run of symbols spells. -/
def Heard.frame? (h : Heard) : Option Frame :=
  match classify h.symbols with
  | .intact f => some f
  | _ => none

/-- Whether a run of symbols spells an intact frame of one kind (R140). -/
def Heard.isKind (h : Heard) (kind : Byte) : Bool :=
  match h.frame? with
  | some f => f.kind == kind
  | none => false

/-- Whether a run of symbols spells an intact frame that is routed nowhere: an unused kind, the REPLY
of another unit, or a destination above 47 (R144). -/
def Heard.isOther (h : Heard) : Bool :=
  match h.frame? with
  | some f => decide (f.kind.toNat = 0 ∨ 6 < f.kind.toNat ∨ 48 ≤ f.dest.toNat)
  | none => false

/-- Whether a run of symbols ends at the symbol at which a fault is found (R142). -/
def Heard.isFault (h : Heard) : Bool :=
  match classify h.symbols with
  | .fault _ _ => true
  | _ => false

/-! ### Command bytes (R123, R199) -/

/-- The code of a command (R199). -/
def Cmd.code : Cmd → Byte
  | .getStatus => 0x01#8
  | .getFaultRecord => 0x02#8
  | .clearFault => 0x03#8
  | .softReset => 0x04#8
  | .echo => 0x05#8
  | .ackAttention => 0x06#8
  | .setAttentionMask => 0x07#8
  | .start => 0x10#8
  | .park => 0x11#8
  | .resume => 0x12#8
  | .enterDormant => 0x13#8
  | .enterAlignment => 0x14#8
  | .exitAlignment => 0x15#8
  | .getAlignment => 0x16#8
  | .setCommitLag => 0x20#8
  | .setFaultMode => 0x21#8
  | .setGroups => 0x22#8
  | .readConfig => 0x23#8
  | .setTimebase => 0x30#8
  | .setOffset => 0x31#8
  | .setTime => 0x32#8
  | .setLateTolerance => 0x33#8
  | .getTime => 0x34#8
  | .configureChannel => 0x40#8
  | .configureInput => 0x41#8
  | .addEntry => 0x50#8
  | .cancelEntry => 0x51#8
  | .cancelGroup => 0x52#8
  | .flushSchedule => 0x53#8
  | .queryEntry => 0x54#8
  | .listSchedule => 0x55#8
  | .readEvents => 0x60#8

/-- The commands of the catalogue, in the order of their codes (R199). -/
def Cmd.catalogue : List Cmd :=
  [.getStatus,
   .getFaultRecord,
   .clearFault,
   .softReset,
   .echo,
   .ackAttention,
   .setAttentionMask,
   .start,
   .park,
   .resume,
   .enterDormant,
   .enterAlignment,
   .exitAlignment,
   .getAlignment,
   .setCommitLag,
   .setFaultMode,
   .setGroups,
   .readConfig,
   .setTimebase,
   .setOffset,
   .setTime,
   .setLateTolerance,
   .getTime,
   .configureChannel,
   .configureInput,
   .addEntry,
   .cancelEntry,
   .cancelGroup,
   .flushSchedule,
   .queryEntry,
   .listSchedule,
   .readEvents]

/-- The command that a code names, none where it names no command (R130, R199). -/
def Cmd.ofCode (b : Byte) : Option Cmd :=
  Cmd.catalogue.find? fun c => c.code == b

/-- The commit row of a command. -/
def Instr.ofCmd (o : Origin) (args : List Byte) : Cmd → Instr
  | .getStatus => .getStatus o args
  | .getFaultRecord => .getFaultRecord o args
  | .clearFault => .clearFault o args
  | .softReset => .softReset o args
  | .echo => .echo o args
  | .ackAttention => .ackAttention o args
  | .setAttentionMask => .setAttentionMask o args
  | .start => .start o args
  | .park => .park o args
  | .resume => .resume o args
  | .enterDormant => .enterDormant o args
  | .enterAlignment => .enterAlignment o args
  | .exitAlignment => .exitAlignment o args
  | .getAlignment => .getAlignment o args
  | .setCommitLag => .setCommitLag o args
  | .setFaultMode => .setFaultMode o args
  | .setGroups => .setGroups o args
  | .readConfig => .readConfig o args
  | .setTimebase => .setTimebase o args
  | .setOffset => .setOffset o args
  | .setTime => .setTime o args
  | .setLateTolerance => .setLateTolerance o args
  | .getTime => .getTime o args
  | .configureChannel => .configureChannel o args
  | .configureInput => .configureInput o args
  | .addEntry => .addEntry o args
  | .cancelEntry => .cancelEntry o args
  | .cancelGroup => .cancelGroup o args
  | .flushSchedule => .flushSchedule o args
  | .queryEntry => .queryEntry o args
  | .listSchedule => .listSchedule o args
  | .readEvents => .readEvents o args

/-- DECODING A STAGED COMMAND: the row that staged command bytes commit as (R130 step 1). -/
def Instr.ofStaged (o : Origin) : List Byte → Instr
  | [] => .unknownCommand o []
  | b :: args =>
    match Cmd.ofCode b with
    | some c => Instr.ofCmd o args c
    | none => .unknownCommand o (b :: args)

/-- ENCODING IT: the origin and command bytes of a commit row; none for the other rows. -/
def Instr.staged : Instr → Option (Origin × List Byte)
  | .hardReset _ => none
  | .commandFrame _ => none
  | .poll _ _ => none
  | .transmitStart => none
  | .transmitEnd => none
  | .replyAbandoned => none
  | .sync _ _ => none
  | .probe _ _ => none
  | .wake _ => none
  | .fill _ => none
  | .otherIntactFrame _ => none
  | .faultReport _ => none
  | .quiesceEnd => none
  | .stagingExpiry => none
  | .syncWatchLockedExpiry => none
  | .syncWatchHoldoverExpiry => none
  | .syncWatchAcquiringExpiry => none
  | .slewEnd => none
  | .wakeDelayEnd => none
  | .headReached => none
  | .pulseEnd _ => none
  | .windowEnd _ => none
  | .deadTimeEnd _ => none
  | .captureEdge _ _ => none
  | .sampleReached => none
  | .getStatus o args => some (o, Cmd.code .getStatus :: args)
  | .getFaultRecord o args => some (o, Cmd.code .getFaultRecord :: args)
  | .clearFault o args => some (o, Cmd.code .clearFault :: args)
  | .softReset o args => some (o, Cmd.code .softReset :: args)
  | .echo o args => some (o, Cmd.code .echo :: args)
  | .ackAttention o args => some (o, Cmd.code .ackAttention :: args)
  | .setAttentionMask o args => some (o, Cmd.code .setAttentionMask :: args)
  | .start o args => some (o, Cmd.code .start :: args)
  | .park o args => some (o, Cmd.code .park :: args)
  | .resume o args => some (o, Cmd.code .resume :: args)
  | .enterDormant o args => some (o, Cmd.code .enterDormant :: args)
  | .enterAlignment o args => some (o, Cmd.code .enterAlignment :: args)
  | .exitAlignment o args => some (o, Cmd.code .exitAlignment :: args)
  | .getAlignment o args => some (o, Cmd.code .getAlignment :: args)
  | .setCommitLag o args => some (o, Cmd.code .setCommitLag :: args)
  | .setFaultMode o args => some (o, Cmd.code .setFaultMode :: args)
  | .setGroups o args => some (o, Cmd.code .setGroups :: args)
  | .readConfig o args => some (o, Cmd.code .readConfig :: args)
  | .setTimebase o args => some (o, Cmd.code .setTimebase :: args)
  | .setOffset o args => some (o, Cmd.code .setOffset :: args)
  | .setTime o args => some (o, Cmd.code .setTime :: args)
  | .setLateTolerance o args => some (o, Cmd.code .setLateTolerance :: args)
  | .getTime o args => some (o, Cmd.code .getTime :: args)
  | .configureChannel o args => some (o, Cmd.code .configureChannel :: args)
  | .configureInput o args => some (o, Cmd.code .configureInput :: args)
  | .addEntry o args => some (o, Cmd.code .addEntry :: args)
  | .cancelEntry o args => some (o, Cmd.code .cancelEntry :: args)
  | .cancelGroup o args => some (o, Cmd.code .cancelGroup :: args)
  | .flushSchedule o args => some (o, Cmd.code .flushSchedule :: args)
  | .queryEntry o args => some (o, Cmd.code .queryEntry :: args)
  | .listSchedule o args => some (o, Cmd.code .listSchedule :: args)
  | .readEvents o args => some (o, Cmd.code .readEvents :: args)
  | .unknownCommand o bytes => some (o, bytes)
  | .discardingEnd _ => none

/-- The command that a word spells by the table's bits: the table gives no row any bits, so a word
spells none (log 22). -/
def decodeTableWord (_nbits _w : Nat) : Option Instr :=
  none

end Sys2Proof
end

