-- ==== Sys2Proof/Machine/State.lean ====
section
/-! DEFINITION. The state of the BT-416, one structure per functional block (00 section 2.1), the
reasons a step can stop, and the state after a hard reset. -/

namespace Sys2Proof.Machine

/-! ### Reasons to stop -/

/-- Reasons for a fault. There are none: the manual gives every event an effect, and an integrity fault
of the link is an ordinary effect on the state (10). -/
inductive Fault where
  deriving DecidableEq, Repr

/-- Reasons for a refusal. -/
inductive Refusal where
  /-- Raised by `exec` for a row without a meaning yet, by its mnemonic; no row is left. Safe. -/
  | notModelled (mnemonic : String)
  /-- Raised by the link rows and by UNKNOWN_COMMAND for a term that is no command of the block: the
  symbols given do not spell the row's frame, or the code given is a known one (log 20). Safe. -/
  | illFormed
  deriving DecidableEq, Repr

/-! ### State Controller (06) -/

/-- The seven operating states (R103). -/
inductive OpState where
  | config
  | run
  | parked
  | align
  | faultHold
  | dormant
  | waking
  deriving DecidableEq, Repr

/-- The states CLEAR_FAULT can return to (R103). -/
inductive HeldState where
  | config
  | run
  | parked
  | align
  deriving DecidableEq, Repr

/-- The states EXIT_ALIGNMENT can return to (R103). -/
inductive AlignedFrom where
  | config
  | parked
  deriving DecidableEq, Repr

/-- STC's record (R103). -/
structure Stc where
  op : OpState
  beforeFault : Option HeldState
  beforeAlign : Option AlignedFrom
  /-- The wake delay's remaining ticks, none while idle. -/
  wakeDelay : Option Nat
  deriving DecidableEq, Repr

/-! ### Timebase (03) -/

/-- The timebase modes (R46). -/
inductive TbMode where
  | disciplined
  | selfTimed
  deriving DecidableEq, Repr

/-- The timebase states (R46). -/
inductive TbState where
  | unset
  | acquiring
  | locked
  | holdover
  | unlocked
  | free
  deriving DecidableEq, Repr

/-- A slew in progress (R53): the error it removes, the interval it began with, and the oscillator
ticks it has left, all of which fix the amount still to remove. -/
structure Slew where
  amount : Int
  interval : Nat
  left : Nat
  deriving DecidableEq, Repr

/-- A running sync watch (R46): the sync interval it counts, in oscillator ticks, taken when it was
started, and the ticks to its deadline (R55 to R57, R60; log 18). -/
structure Watch where
  interval : Nat
  left : Nat
  deriving DecidableEq, Repr

/-- TBU's record (R46). -/
structure Tbu where
  /-- None while UNSET (R45). -/
  localTime : Option Nat
  /-- The fraction of a tick not yet added (R47). -/
  fraction : Rat
  mode : TbMode
  state : TbState
  offset : Nat
  /-- In ms. -/
  syncInterval : Nat
  holdoverLimit : Nat
  acquisitionCount : Nat
  holdoverCount : Nat
  lastSequence : Option Byte
  /-- The rate correction, in parts per billion (R47). -/
  rate : Int
  slew : Option Slew
  /-- The sync watch, none while idle (R55 to R57). -/
  watch : Option Watch
  /-- Local time elapsed since the arrival of the last processed SYNC, for the span of R47; none when
  none has been processed since the last hard reset or ENTER_DORMANT (log 14). -/
  sinceArrival : Option Nat
  deriving DecidableEq, Repr

/-! ### Schedule Table (01) -/

/-- The six actions with their argument and target mask (R1, R2). -/
inductive Action where
  | noAction
  | pulse (width : Nat) (mask : BitVec 16)
  | setHigh (mask : BitVec 16)
  | setLow (mask : BitVec 16)
  | toggle (mask : BitVec 16)
  | armCapture (length : Nat) (mask : BitVec 4)
  deriving DecidableEq, Repr

/-- The repeat of an entry (R1); count 0 stands for unlimited. -/
structure Repeat where
  period : Nat
  count : Nat
  deriving DecidableEq, Repr

/-- A schedule entry (R1). -/
structure Entry where
  handle : Nat
  due : Nat
  action : Action
  tag : Nat
  /-- Absent for a one-shot entry. -/
  repeats : Option Repeat
  requireLock : Bool
  lateFire : Bool
  report : Bool
  /-- Occurrences still to come, 0 for unlimited (R3). -/
  remaining : Nat
  fired : Nat
  /-- The insertion number (R6). -/
  insertion : Nat
  deriving DecidableEq, Repr

/-- SCT's record (R5, R6): the entries in table order and the next insertion number. -/
structure Sct where
  entries : List Entry
  nextInsertion : Nat
  deriving DecidableEq, Repr

/-- DPU's setting (R24). -/
structure Dpu where
  lateTolerance : Nat
  deriving DecidableEq, Repr

/-! ### Output Unit (04) -/

/-- The overlap policies (R67). -/
inductive OverlapPolicy where
  | restart
  | ignore
  deriving DecidableEq, Repr

/-- An output channel: configuration (R67) and live state (R68). -/
structure Channel where
  enable : Bool
  park : Level
  initial : Level
  policy : OverlapPolicy
  base : Level
  /-- The remaining width of a pulse in flight. -/
  pulse : Option Nat
  overlap : Bool
  deriving DecidableEq, Repr

/-- OUT's sixteen channels. -/
structure Out where
  channels : Vector Channel 16
  deriving DecidableEq, Repr

/-! ### Capture Unit (05) -/

/-- The input modes (R84). -/
inductive InputMode where
  | off
  | continuous
  | windowed
  deriving DecidableEq, Repr

/-- Which edges qualify (R84, R87). -/
inductive EdgeSelect where
  | rising
  | falling
  | both
  deriving DecidableEq, Repr

/-- A capture input: configuration (R84), live state (R85) and the sample last taken (R87). -/
structure Input where
  mode : InputMode
  edges : EdgeSelect
  /-- The dead time in ticks. -/
  dead : Nat
  /-- The remaining length of an open window. -/
  window : Option Nat
  /-- The dead time still to run since the last recorded edge. -/
  lastEdge : Option Nat
  /-- The level last sampled. -/
  level : Level
  /-- The sample of the present tick is settled, so that an input shows at most one edge per tick
  (R87; log 9). -/
  sampled : Bool
  deriving DecidableEq, Repr

/-- An edge sampled at the present instant that CAP has not taken to its record yet, with the number of
dispatch's moments of this instant still to pass before it (R93, R99; log 26). -/
structure WaitingEdge where
  input : Fin 4
  edge : PinEdge
  deriving DecidableEq, Repr

/-- CAP's four inputs, and the model's own list of the edges of this instant that wait (R99; log 26). -/
structure Cap where
  inputs : Vector Input 4
  waiting : List WaitingEdge
  deriving DecidableEq, Repr

/-! ### Event Queue (05) -/

/-- What a source hands to EVQ (R90, R31, R32). -/
inductive EventBody where
  | edge (input : Fin 4) (kind : EdgeKind) (time : Nat) (state : TbState)
  | fired (handle : Nat) (time : Nat) (late : Bool)
  | missed (handle : Nat) (time : Nat) (count : Nat)
  deriving DecidableEq, Repr

/-- A stored event record (R96): EVQ adds the sequence and the GAP flag. -/
structure EventRecord where
  seq : BitVec 16
  gap : Bool
  body : EventBody
  deriving DecidableEq, Repr

/-- EVQ's record (R95). -/
structure Evq where
  records : List EventRecord
  next : BitVec 16
  lost : Nat
  gap : Bool
  deriving DecidableEq, Repr

/-! ### Attention Unit (11) -/

/-- The five conditions (R185). -/
inductive Condition where
  | fault
  | dropped
  | eventLoss
  | timebase
  | missed
  deriving DecidableEq, Repr

/-- One bit for each condition: the flags, or the attention mask. -/
structure Conditions where
  fault : Bool
  dropped : Bool
  eventLoss : Bool
  timebase : Bool
  missed : Bool
  deriving DecidableEq, Repr

/-- ATN's record (R185, R186). -/
structure Atn where
  flags : Conditions
  mask : Conditions
  deriving DecidableEq, Repr

/-! ### Alignment Unit (12) -/

/-- The outcomes of a sample (R190). -/
inductive SampleOutcome where
  | low
  | high
  | tooLate
  | superseded
  deriving DecidableEq, Repr

/-- A pending sample (R190). -/
structure Sample where
  time : Nat
  seq : Byte
  deriving DecidableEq, Repr

/-- An entry of the alignment log (R190). -/
structure LogEntry where
  seq : Byte
  outcome : SampleOutcome
  deriving DecidableEq, Repr

/-- ALN's record (R190). -/
structure Aln where
  pending : Option Sample
  log : List LogEntry
  total : Nat
  deriving DecidableEq, Repr

/-! ### Link Interface (08) -/

/-- The transmitter (R139, R152): WAITING holds the frame, the oscillator ticks since the POLL's end,
and the index of the free value that says when it starts if nothing asks for it sooner (log 7). -/
inductive Transmitter where
  | idle
  | waiting (reply : List Byte) (age : Nat) (draw : Nat)
  | sending (reply : List Byte)
  deriving DecidableEq, Repr

/-- LNK's record (R139), and the model's own two durations, which say how a frame that began a while ago
met the receiver (log 1): for `freeFor` oscillator ticks it has been LISTENING outside quiesce and WAKING,
and a frame that began within them is received; for `quietFor` ticks before these it was LISTENING in
quiesce or WAKING, and a frame that began within them is passed over (R143); what began earlier had no
start delimiter for the receiver (R140, R153). -/
structure Lnk where
  unitAddress : BitVec 5
  groups : BitVec 16
  receiver : Receiver
  reception : Option Reception
  transmitter : Transmitter
  freeFor : Nat
  quietFor : Nat
  deriving DecidableEq, Repr

/-! ### Integrity Monitor (10) -/

/-- The fault modes (R170). -/
inductive FaultMode where
  | latched
  | persistent
  deriving DecidableEq, Repr

/-- The fault record (R171). -/
structure FaultRecord where
  kind : FaultKind
  /-- None stands for the UNSET marker. -/
  time : Option Nat
  op : OpState
  header : List Byte
  voided : Nat
  deriving DecidableEq, Repr

/-- IMN's record (R170). -/
structure Imn where
  flag : Bool
  record : Option FaultRecord
  count : Nat
  mode : FaultMode
  quiesce : Option Nat
  deriving DecidableEq, Repr

/-! ### Command Intake (07) -/

/-- A staged command (R123); a UNIT origin names its reservation. -/
structure Staged where
  origin : Origin
  bytes : List Byte
  remaining : Nat
  deriving DecidableEq, Repr

/-- CIN's record (R122). -/
structure Cin where
  queue : List Staged
  lag : Nat
  expiry : Option Nat
  deriving DecidableEq, Repr

/-! ### Reply Unit (09) -/

/-- The result codes (R165). -/
inductive ResultCode where
  | ok
  | voided
  | expired
  | wrongState
  | faultLatched
  | unknownCommand
  | badLength
  | badArgument
  | duplicateHandle
  | noSuchHandle
  | tableFull
  | tooLate
  | noTime
  | inUse
  deriving DecidableEq, Repr

/-- A result: its code and its payload (R154). -/
structure Result where
  code : ResultCode
  payload : List Byte
  deriving DecidableEq, Repr

/-- A reply record (R154): RESERVED while it has no result, READY when it has. -/
structure ReplyRecord where
  seq : Byte
  result : Option Result
  deriving DecidableEq, Repr

/-- RPU's record (R154). -/
structure Rpu where
  outbox : List ReplyRecord
  deriving DecidableEq, Repr

/-! ### The machine -/

/-- The whole state: the thirteen blocks, the queue of commands that wait, and the counter that the
free values are applied to. -/
structure State where
  lnk : Lnk
  imn : Imn
  cin : Cin
  rpu : Rpu
  stc : Stc
  tbu : Tbu
  sct : Sct
  dpu : Dpu
  out : Out
  cap : Cap
  evq : Evq
  atn : Atn
  aln : Aln
  /-- Commands that wait, first in, first out. -/
  pending : List Instr
  /-- The model's own counter of free values drawn (log 6). -/
  draws : Nat
  deriving DecidableEq, Repr

/-! ### Hard reset values (R119) -/

/-- A channel after a hard reset (R67, R68, R82). -/
def Channel.reset : Channel :=
  { enable := false, park := .low, initial := .low, policy := .restart, base := .low, pulse := none,
    overlap := false }

/-- An input after a hard reset (R84, R85); the level on the pin is not the part's to reset. -/
def Input.reset (level : Level) (sampled : Bool) : Input :=
  { mode := .off, edges := .rising, dead := 0, window := none, lastEdge := none, level := level,
    sampled := sampled }

/-- TBU after a hard reset (R46, R66). -/
def Tbu.reset : Tbu :=
  { localTime := none, fraction := 0, mode := .disciplined, state := .unset, offset := 0,
    syncInterval := 10, holdoverLimit := 10, acquisitionCount := 0, holdoverCount := 0,
    lastSequence := none, rate := 0, slew := none, watch := none, sinceArrival := none }

/-- STC after a hard reset (R103). -/
def Stc.reset : Stc :=
  { op := .config, beforeFault := none, beforeAlign := none, wakeDelay := none }

/-- SCT after any of the resets (R22); numbering starts at 1 (log 24). -/
def Sct.reset : Sct :=
  { entries := [], nextInsertion := 1 }

/-- IMN after a hard reset (R170). -/
def Imn.reset : Imn :=
  { flag := false, record := none, count := 0, mode := .latched, quiesce := none }

/-- CIN after a hard reset (R122). -/
def Cin.reset : Cin :=
  { queue := [], lag := 0, expiry := none }

/-- EVQ after a hard reset (R95). -/
def Evq.reset : Evq :=
  { records := [], next := 0, lost := 0, gap := false }

/-- No condition. -/
def Conditions.clear : Conditions :=
  { fault := false, dropped := false, eventLoss := false, timebase := false, missed := false }

/-- All five conditions. -/
def Conditions.all : Conditions :=
  { fault := true, dropped := true, eventLoss := true, timebase := true, missed := true }

/-- ATN after a hard reset (R186). -/
def Atn.reset : Atn :=
  { flags := .clear, mask := .all }

/-- ALN after any of the resets (R190). -/
def Aln.reset : Aln :=
  { pending := none, log := [], total := 0 }

/-- LNK at the end of a hard reset, with the unit address read from the straps (R139, R148). -/
def Lnk.reset (straps : BitVec 5) : Lnk :=
  { unitAddress := straps, groups := 0, receiver := .listening, reception := none,
    transmitter := .idle, freeFor := 0, quietFor := 0 }

/-- The machine right after a hard reset (R119), with nothing waiting. The unit address is a DESIGN
CHOICE (log 11), and so are the levels sampled from the capture pins (log 12): both are read from pins. -/
def State.reset : State :=
  { lnk := Lnk.reset 0, imn := Imn.reset, cin := Cin.reset, rpu := { outbox := [] },
    stc := Stc.reset, tbu := Tbu.reset, sct := Sct.reset, dpu := { lateTolerance := 0 },
    out := { channels := Vector.replicate 16 Channel.reset },
    cap := { inputs := Vector.replicate 4 (Input.reset .low false), waiting := [] }, evq := Evq.reset,
    atn := Atn.reset, aln := Aln.reset, pending := [], draws := 0 }

end Sys2Proof.Machine
end

