-- ==== Sys2Proof/Machine/Ops.lean ====
section
/-! DEFINITION. The named operations every meaning is built from: one setter per block, durations, and
what EVQ, RPU, CIN and STC do on request. -/

namespace Sys2Proof.Machine

/-! ### Setters, one per block -/

/-- Replaces LNK's record. -/
def State.setLnk (s : State) (x : Lnk) : State :=
  { s with lnk := x }

/-- Replaces IMN's record. -/
def State.setImn (s : State) (x : Imn) : State :=
  { s with imn := x }

/-- Replaces CIN's record. -/
def State.setCin (s : State) (x : Cin) : State :=
  { s with cin := x }

/-- Replaces RPU's record. -/
def State.setRpu (s : State) (x : Rpu) : State :=
  { s with rpu := x }

/-- Replaces STC's record. -/
def State.setStc (s : State) (x : Stc) : State :=
  { s with stc := x }

/-- Replaces TBU's record. -/
def State.setTbu (s : State) (x : Tbu) : State :=
  { s with tbu := x }

/-- Replaces SCT's record. -/
def State.setSct (s : State) (x : Sct) : State :=
  { s with sct := x }

/-- Replaces DPU's record. -/
def State.setDpu (s : State) (x : Dpu) : State :=
  { s with dpu := x }

/-- Replaces OUT's record. -/
def State.setOut (s : State) (x : Out) : State :=
  { s with out := x }

/-- Replaces CAP's record. -/
def State.setCap (s : State) (x : Cap) : State :=
  { s with cap := x }

/-- Replaces EVQ's record. -/
def State.setEvq (s : State) (x : Evq) : State :=
  { s with evq := x }

/-- Replaces ATN's record. -/
def State.setAtn (s : State) (x : Atn) : State :=
  { s with atn := x }

/-- Replaces ALN's record. -/
def State.setAln (s : State) (x : Aln) : State :=
  { s with aln := x }

/-- Counts one more free value drawn. -/
def State.draw (s : State) : State :=
  { s with draws := s.draws + 1 }

/-- Replaces the queue of waiting commands. -/
def State.setPending (s : State) (q : List Instr) : State :=
  { s with pending := q }

/-! ### Who listens -/

/-- The five states that accept commands (06, introduction). -/
def OpState.accepting : OpState → Bool
  | .config | .run | .parked | .align | .faultHold => true
  | .dormant | .waking => false

/-- A hard reset lasts: the receiver is OFF (R139). -/
def State.inReset (s : State) : Bool :=
  s.lnk.receiver == .off

/-- Commands can commit: an accepting state, no hard reset (R104, R119). -/
def State.commits (s : State) : Bool :=
  s.stc.op.accepting && !s.inReset

/-! ### Durations (00 4.1): they count down one per oscillator tick -/

/-- A duration after one more oscillator tick. -/
def countDown (t : Option Nat) : Option Nat :=
  t.map fun n => n - 1

/-- A duration that has run out and whose end has not been taken yet. -/
def ranOut (t : Option Nat) : Bool :=
  t == some 0

/-! ### Conditions (R185) -/

/-- One condition of a set of five. -/
def Conditions.get (f : Conditions) : Condition → Bool
  | .fault => f.fault
  | .dropped => f.dropped
  | .eventLoss => f.eventLoss
  | .timebase => f.timebase
  | .missed => f.missed

/-- A set of five with one of them replaced. -/
def Conditions.put (f : Conditions) (v : Bool) : Condition → Conditions
  | .fault => { f with fault := v }
  | .dropped => { f with dropped := v }
  | .eventLoss => { f with eventLoss := v }
  | .timebase => { f with timebase := v }
  | .missed => { f with missed := v }

/-- A block sets a condition at ATN, whatever the mask holds (R185). -/
def State.raiseCondition (s : State) (c : Condition) : State :=
  s.setAtn { s.atn with flags := s.atn.flags.put true c }

/-! ### The event queue (R97) -/

/-- A record handed to EVQ: stored with the next sequence, and with GAP if one is pending, or discarded
when the queue holds 64 (R97). -/
def State.handEvent (s : State) (body : EventBody) : State :=
  if s.evq.records.length < Config.eventCapacity then
    s.setEvq
      { s.evq with
        records := s.evq.records ++ [{ seq := s.evq.next, gap := s.evq.gap, body := body }]
        next := s.evq.next + 1
        gap := false }
  else
    (s.setEvq { s.evq with lost := min 65535 (s.evq.lost + 1), gap := true }).raiseCondition .eventLoss

/-! ### The outbox (R156, R157) -/

/-- Writes a result into the RESERVED record of a sequence (R157). -/
def fillRecord (seq : Byte) (r : Result) (x : ReplyRecord) : ReplyRecord :=
  if x.seq = seq ∧ x.result = none then { x with result := some r } else x

/-- RPU fills a reservation (R157). -/
def State.fill (s : State) (seq : Byte) (r : Result) : State :=
  s.setRpu { outbox := s.rpu.outbox.map (fillRecord seq r) }

/-- The result of a command goes to its reservation, or nowhere (R131). -/
def State.deliver (s : State) (o : Origin) (r : Result) : State :=
  match o with
  | .unit seq => s.fill seq r
  | .broadcast => s
  | .group => s

/-- RPU appends a RESERVED record (R156). -/
def State.reserve (s : State) (seq : Byte) : State :=
  s.setRpu { outbox := s.rpu.outbox ++ [{ seq := seq, result := none }] }

/-- Whether a sequence stands in the outbox (R125). -/
def Rpu.holds (r : Rpu) (seq : Byte) : Bool :=
  r.outbox.any fun x => x.seq == seq

/-! ### The staging queue (R122) -/

/-- The staging expiry timer as R127 leaves it: 2 ms if commands are staged, else idle. -/
def Cin.restartExpiry (c : Cin) : Cin :=
  { c with expiry := if c.queue.isEmpty then none else some Config.expiryTicks }

/-- The staging expiry timer is idle while the queue is empty (R122). -/
def Cin.idleIfEmpty (c : Cin) : Cin :=
  { c with expiry := if c.queue.isEmpty then none else c.expiry }

/-- A command that commits leaves the staging queue (R128); a UNIT command is known by its reservation
(R123). -/
def State.leaveQueue (s : State) (o : Origin) : State :=
  match o with
  | .unit _ =>
    s.setCin { s.cin with queue := s.cin.queue.filter fun x => x.origin != o }.idleIfEmpty
  | .broadcast => s
  | .group => s

/-- Every staged command of UNIT origin gets one result, with an empty payload (R133, R136). -/
def fillAll (code : ResultCode) : List Staged → State → State
  | [], s => s
  | x :: rest, s => fillAll code rest (s.deliver x.origin { code := code, payload := [] })

/-- Every staged command leaves the queue with one result and the timer becomes idle (R133, R136). -/
def State.emptyQueue (s : State) (code : ResultCode) : State :=
  (fillAll code s.cin.queue s).setCin { s.cin with queue := [], expiry := none }

/-! ### Leaving RUN (R79, R92) -/

/-- Every pulse in flight is cancelled; base levels and overlap flags are kept (R79). -/
def Out.cutPulses (x : Out) : Out :=
  { channels := x.channels.map fun c => { c with pulse := none } }

/-- Every capture window closes (R92). -/
def Cap.closeWindows (x : Cap) : Cap :=
  { x with inputs := x.inputs.map fun i => { i with window := none } }

/-- STC takes the part from one operating state to another outside RUN; leaving RUN cuts the pulses and
closes the windows (R79, R92). -/
def State.goTo (s : State) (op : OpState) : State :=
  let s1 := s.setStc { s.stc with op := op }
  if s.stc.op = .run then (s1.setOut s.out.cutPulses).setCap s.cap.closeWindows else s1

end Sys2Proof.Machine
end

