-- ==== Sys2Proof/Machine/Flags.lean ====
section
/-! DEFINITION. What the part shows of itself: the codes of R198, the condition byte, the levels of
ATTN and of the output pins, and the status summary. -/

namespace Sys2Proof.Machine

/-- A bit as 0 or 1. -/
def bit (b : Bool) : Nat :=
  if b then 1 else 0

/-! ### Codes (R198, R165) -/

/-- Operating state codes (R198). DORMANT and WAKING have none: no summary and no fault record is built
in them (R162, R171), and 7 is never sent. -/
def OpState.code : OpState → Nat
  | .config => 0
  | .run => 1
  | .parked => 2
  | .align => 3
  | .faultHold => 4
  | .dormant => 7
  | .waking => 7

/-- Timebase mode codes (R198). -/
def TbMode.code : TbMode → Nat
  | .disciplined => 0
  | .selfTimed => 1

/-- Timebase state codes (R198). -/
def TbState.code : TbState → Nat
  | .unset => 0
  | .acquiring => 1
  | .locked => 2
  | .holdover => 3
  | .unlocked => 4
  | .free => 5

/-- Action codes (R198). -/
def Action.code : Action → Nat
  | .noAction => 0
  | .pulse _ _ => 1
  | .setHigh _ => 2
  | .setLow _ => 3
  | .toggle _ => 4
  | .armCapture _ _ => 5

/-- Level codes (R198). -/
def levelCode : Level → Nat
  | .low => 0
  | .high => 1

/-- Overlap policy codes (R198). -/
def OverlapPolicy.code : OverlapPolicy → Nat
  | .restart => 0
  | .ignore => 1

/-- Input mode codes (R198). -/
def InputMode.code : InputMode → Nat
  | .off => 0
  | .continuous => 1
  | .windowed => 2

/-- Edges codes (R198). -/
def EdgeSelect.code : EdgeSelect → Nat
  | .rising => 0
  | .falling => 1
  | .both => 2

/-- Fault mode codes (R198). -/
def FaultMode.code : FaultMode → Nat
  | .latched => 0
  | .persistent => 1

/-- Fault kind codes (R198). -/
def faultKindCode : FaultKind → Nat
  | .framing => 1
  | .length => 2
  | .oversize => 3
  | .checkWord => 4

/-- Alignment outcome codes (R198). -/
def SampleOutcome.code : SampleOutcome → Nat
  | .low => 0
  | .high => 1
  | .tooLate => 2
  | .superseded => 3

/-- Result codes (R165). -/
def ResultCode.code : ResultCode → Nat
  | .ok => 0
  | .voided => 1
  | .expired => 2
  | .wrongState => 3
  | .faultLatched => 4
  | .unknownCommand => 5
  | .badLength => 6
  | .badArgument => 7
  | .duplicateHandle => 8
  | .noSuchHandle => 9
  | .tableFull => 10
  | .tooLate => 11
  | .noTime => 12
  | .inUse => 13

/-! ### The condition byte (R198) -/

/-- The condition byte of a set of conditions. -/
def Conditions.toNat (f : Conditions) : Nat :=
  bit f.fault + 2 * bit f.dropped + 4 * bit f.eventLoss + 8 * bit f.timebase + 16 * bit f.missed

/-- The conditions that a condition byte names. -/
def Conditions.ofByte (b : Byte) : Conditions :=
  { fault := b.getLsbD 0, dropped := b.getLsbD 1, eventLoss := b.getLsbD 2, timebase := b.getLsbD 3,
    missed := b.getLsbD 4 }

/-- A condition byte names conditions alone: bits 7 to 5 are unused (R188, R189, R198). -/
def conditionByteOk (b : Byte) : Bool :=
  decide (b.toNat < 32)

/-! ### ATTN (R187) -/

/-- A set flag is enabled by the mask. -/
def Atn.pulls (a : Atn) : Bool :=
  (a.flags.fault && a.mask.fault) || (a.flags.dropped && a.mask.dropped) ||
    (a.flags.eventLoss && a.mask.eventLoss) || (a.flags.timebase && a.mask.timebase) ||
    (a.flags.missed && a.mask.missed)

/-- ATTN is driven low: never in hard reset, DORMANT or WAKING (R187). -/
def State.attnLow (s : State) : Bool :=
  s.commits && s.atn.pulls

/-! ### Output pins (R69, R82) -/

/-- What a channel does to its pin. -/
inductive Pin where
  | highZ
  | driven (l : Level)
  deriving DecidableEq, Repr

/-- The other level. -/
def invert : Level → Level
  | .low => .high
  | .high => .low

/-- The level a channel drives in an operating state (R69). -/
def Channel.pin (c : Channel) (op : OpState) : Pin :=
  if c.enable then
    if op = .run then .driven (if c.pulse.isSome then invert c.base else c.base)
    else .driven c.park
  else .highZ

/-- The pin of a channel: high impedance while a hard reset lasts (R82), else as R69 gives. -/
def State.outPin (s : State) (n : Fin 16) : Pin :=
  if s.inReset then .highZ else (s.out.channels[n]).pin s.stc.op

/-! ### The status summary (R162; layout in R200) -/

/-- The schedule table holds 128 entries (R20). -/
def Sct.full (t : Sct) : Bool :=
  decide (Config.tableCapacity ≤ t.entries.length)

/-- The four bytes of the status summary, from the state of the part at this moment. -/
def State.summary (s : State) : List Byte :=
  [BitVec.ofNat 8 (s.stc.op.code + 8 * s.tbu.mode.code + 16 * s.tbu.state.code + 128 * bit s.imn.flag),
   BitVec.ofNat 8 s.atn.flags.toNat,
   BitVec.ofNat 8 s.rpu.outbox.length,
   BitVec.ofNat 8 (bit (!s.evq.records.isEmpty) + 2 * bit s.sct.full)]

end Sys2Proof.Machine
end

