-- ==== Sys2Proof/Machine/Operands.lean ====
section
/-! DEFINITION. Every operand form of the commands and every layout of a result (R199, R200): reading
argument bytes, and building result payloads from the state. -/

namespace Sys2Proof.Machine

/-! ### Argument bytes: offsets count from the first byte after the code -/

/-- The argument byte at an offset. -/
def argByte (args : List Byte) (i : Nat) : Byte :=
  args.getD i 0

/-- The `n`-byte argument at an offset, most significant byte first. -/
def argNat (args : List Byte) (i n : Nat) : Nat :=
  beNat ((args.drop i).take n)

/-- The top bit of the time field at an offset is clear (R198). -/
def timeOk (args : List Byte) (i : Nat) : Bool :=
  !(argByte args i).msb

/-- A mode byte of SET_TIMEBASE. -/
def tbModeOf (b : Byte) : Option TbMode :=
  match b.toNat with
  | 0 => some .disciplined
  | 1 => some .selfTimed
  | _ => none

/-- An enable byte. -/
def enableOf (b : Byte) : Option Bool :=
  match b.toNat with
  | 0 => some false
  | 1 => some true
  | _ => none

/-- A level byte. -/
def levelOf (b : Byte) : Option Level :=
  match b.toNat with
  | 0 => some .low
  | 1 => some .high
  | _ => none

/-- An overlap policy byte. -/
def policyOf (b : Byte) : Option OverlapPolicy :=
  match b.toNat with
  | 0 => some .restart
  | 1 => some .ignore
  | _ => none

/-- An input mode byte. -/
def inputModeOf (b : Byte) : Option InputMode :=
  match b.toNat with
  | 0 => some .off
  | 1 => some .continuous
  | 2 => some .windowed
  | _ => none

/-- An edges byte. -/
def edgesOf (b : Byte) : Option EdgeSelect :=
  match b.toNat with
  | 0 => some .rising
  | 1 => some .falling
  | 2 => some .both
  | _ => none

/-- A fault mode byte. -/
def faultModeOf (b : Byte) : Option FaultMode :=
  match b.toNat with
  | 0 => some .latched
  | 1 => some .persistent
  | _ => none

/-- The action of ADD_ENTRY from its action byte, argument and target mask; none where R12 refuses
them. -/
def actionOf (code : Byte) (argument mask : Nat) : Option Action :=
  match code.toNat with
  | 0 => if argument = 0 ∧ mask = 0 then some .noAction else none
  | 1 =>
    if 1 ≤ argument ∧ argument ≤ 16777215 ∧ mask ≠ 0 then some (.pulse argument (BitVec.ofNat 16 mask))
    else none
  | 2 => if argument = 0 ∧ mask ≠ 0 then some (.setHigh (BitVec.ofNat 16 mask)) else none
  | 3 => if argument = 0 ∧ mask ≠ 0 then some (.setLow (BitVec.ofNat 16 mask)) else none
  | 4 => if argument = 0 ∧ mask ≠ 0 then some (.toggle (BitVec.ofNat 16 mask)) else none
  | 5 =>
    if 1 ≤ argument ∧ mask ≠ 0 ∧ mask < 16 then some (.armCapture argument (BitVec.ofNat 4 mask))
    else none
  | _ => none

/-- The repeat of ADD_ENTRY from its period and count; none where R12 refuses them. -/
def repeatOf (period count : Nat) : Option (Option Repeat) :=
  if period = 0 then if count = 0 then some none else none
  else if period < 1000 then none
  else some (some { period := period, count := count })

/-- The fields of ADD_ENTRY as R14 sets them, insertion number 0 until SCT places the entry; none where
a field is out of range (R12), the check of REQUIRE_LOCK against the mode less. -/
def entryOf (args : List Byte) : Option Entry :=
  let handle := argNat args 0 2
  let tag := (argByte args 18).toNat
  let attributes := argByte args 25
  match actionOf (argByte args 10) (argNat args 12 4) (argNat args 16 2),
    repeatOf (argNat args 19 4) (argNat args 23 2) with
  | some action, some repeats =>
    if 1 ≤ handle ∧ handle ≤ 255 ∧ tag ≤ 15 ∧ attributes.toNat < 8 then
      some
        { handle := handle, due := argNat args 2 8, action := action, tag := tag, repeats := repeats,
          requireLock := attributes.getLsbD 0, lateFire := attributes.getLsbD 1,
          report := attributes.getLsbD 2,
          remaining := match repeats with
            | none => 1
            | some r => r.count
          fired := 0, insertion := 0 }
    else none
  | _, _ => none

/-! ### Result payloads (R200) -/

/-- A result OK with a payload. -/
def okWith (payload : List Byte) : Result :=
  { code := .ok, payload := payload }

/-- The result OK with an empty payload. -/
def okEmpty : Result :=
  okWith []

/-- A refusal: its code, and an empty payload (R165). -/
def refusedWith (code : ResultCode) : Result :=
  { code := code, payload := [] }

/-- One byte. -/
def byteOf (v : Nat) : List Byte :=
  beBytes 1 v

/-- An entry's argument, 0 for actions that take none (R18). -/
def Action.argument : Action → Nat
  | .pulse width _ => width
  | .armCapture length _ => length
  | .noAction => 0
  | .setHigh _ => 0
  | .setLow _ => 0
  | .toggle _ => 0

/-- An entry's target mask as its 16-bit field (R199). -/
def Action.mask : Action → Nat
  | .pulse _ mask => mask.toNat
  | .setHigh mask => mask.toNat
  | .setLow mask => mask.toNat
  | .toggle mask => mask.toNat
  | .armCapture _ mask => mask.toNat
  | .noAction => 0

/-- The entry attributes byte (R198). -/
def Entry.attributes (e : Entry) : Nat :=
  bit e.requireLock + 2 * bit e.lateFire + 4 * bit e.report

/-- The repeat period and count, both 0 for a one-shot entry (R18). -/
def Entry.repeatFields (e : Entry) : Nat × Nat :=
  match e.repeats with
  | none => (0, 0)
  | some r => (r.period, r.count)

/-- The result payload of QUERY_ENTRY (R18, R200). -/
def queryPayload (e : Entry) (position : Nat) : List Byte :=
  byteOf e.handle ++ beBytes 8 e.due ++ byteOf e.action.code ++ beBytes 4 e.action.argument ++
    beBytes 2 e.action.mask ++ byteOf e.tag ++ beBytes 4 e.repeatFields.1 ++
    beBytes 2 e.repeatFields.2 ++ byteOf e.attributes ++ beBytes 2 e.remaining ++ beBytes 2 e.fired ++
    byteOf position

/-- A listing record (R19, R200). -/
def listingRecord (e : Entry) : List Byte :=
  byteOf e.handle ++ beBytes 8 e.due ++ byteOf e.action.code ++ beBytes 2 e.action.mask ++
    byteOf e.tag ++ byteOf (e.attributes + 128 * bit e.repeats.isSome) ++ beBytes 2 e.remaining ++
    beBytes 2 e.fired

/-- The codes of the edge kinds in an event record (R200). -/
def edgeCode : EdgeKind → Nat
  | .rising => 0
  | .falling => 1

/-- An event record (R96, R200). -/
def eventBytes (x : EventRecord) : List Byte :=
  match x.body with
  | .edge input kind time state =>
    beBytes 2 x.seq.toNat ++ byteOf (4 * bit x.gap + 16 * state.code) ++
      byteOf (input.val + 128 * edgeCode kind) ++ beBytes 8 time ++ beBytes 2 0
  | .fired handle time late =>
    beBytes 2 x.seq.toNat ++ byteOf (1 + 4 * bit x.gap + 8 * bit late) ++ byteOf handle ++
      beBytes 8 time ++ beBytes 2 0
  | .missed handle time count =>
    beBytes 2 x.seq.toNat ++ byteOf (2 + 4 * bit x.gap) ++ byteOf handle ++ beBytes 8 time ++
      beBytes 2 count

/-- The overlap flags, bit n for OUT n (R200). -/
def Out.overlapMask (x : Out) : Nat :=
  x.channels.toList.foldr (fun c acc => 2 * acc + bit c.overlap) 0

/-- The result payload of GET_STATUS (R166, R200). -/
def statusPayload (s : State) : List Byte :=
  byteOf s.sct.entries.length ++ byteOf s.evq.records.length ++ byteOf s.rpu.outbox.length ++
    byteOf s.cin.queue.length ++ byteOf s.cin.lag ++ byteOf s.imn.mode.code ++ byteOf s.imn.count ++
    beBytes 2 s.out.overlapMask

/-- A time, or the UNSET marker (R171, R200). -/
def timeOrMarker : Option Nat → List Byte
  | some t => beBytes 8 t
  | none => List.replicate 8 0xFF#8

/-- The 16 bytes of the fault record, zeros while it is empty (R181, R200). -/
def faultRecordBytes : Option FaultRecord → List Byte
  | none => List.replicate 16 0
  | some r =>
    byteOf (faultKindCode r.kind) ++ timeOrMarker r.time ++ byteOf r.op.code ++
      byteOf r.header.length ++ (r.header ++ List.replicate 4 0).take 4 ++ byteOf r.voided

/-- The result payload of GET_FAULT_RECORD (R181, R200). -/
def faultPayload (x : Imn) : List Byte :=
  byteOf (bit x.flag) ++ byteOf x.count ++ faultRecordBytes x.record

/-- The result payload of GET_TIME (R65, R200). -/
def timePayload (x : Tbu) : List Byte :=
  beBytes 8 (x.localTime.getD 0) ++ byteOf x.mode.code ++ byteOf x.state.code ++
    byteOf (bit x.lastSequence.isSome) ++ [x.lastSequence.getD 0] ++ beBytes 2 x.offset ++
    byteOf x.holdoverCount

/-- An alignment outcome (R200). -/
def logEntryBytes (x : LogEntry) : List Byte :=
  [x.seq] ++ byteOf x.outcome.code

/-- The eight outcome slots, oldest first, unused ones zero (R200). -/
def logSlots (log : List LogEntry) : List Byte :=
  (log.flatMap logEntryBytes ++ List.replicate 16 0).take 16

/-- The result payload of GET_ALIGNMENT (R197, R200). -/
def alignmentPayload (x : Aln) (offset : Nat) : List Byte :=
  byteOf x.log.length ++ logSlots x.log ++ byteOf x.total ++ byteOf (bit x.pending.isSome) ++
    [match x.pending with
      | some p => p.seq
      | none => 0] ++ beBytes 2 offset

/-- A channel's configuration byte in section 2 (R200). -/
def Channel.configByte (c : Channel) : List Byte :=
  byteOf (bit c.enable + 2 * levelCode c.park + 4 * levelCode c.initial + 8 * c.policy.code)

/-- An input's four configuration bytes in section 3 (R200). -/
def Input.configBytes (i : Input) : List Byte :=
  byteOf i.mode.code ++ byteOf i.edges.code ++ beBytes 2 i.dead

/-- The result payload of READ_CONFIG for sections 0 to 3; none for a section above 3 (R167, R200). -/
def configPayload (s : State) (number : Nat) : Option (List Byte) :=
  match number with
  | 0 =>
    some (byteOf 0 ++ beBytes 2 s.lnk.groups.toNat ++ byteOf s.cin.lag ++ byteOf s.imn.mode.code ++
      byteOf s.atn.mask.toNat)
  | 1 =>
    some (byteOf 1 ++ byteOf s.tbu.mode.code ++ beBytes 2 s.tbu.syncInterval ++
      byteOf s.tbu.holdoverLimit ++ beBytes 2 s.tbu.offset ++ beBytes 4 s.dpu.lateTolerance)
  | 2 => some (byteOf 2 ++ s.out.channels.toList.flatMap Channel.configByte)
  | 3 => some (byteOf 3 ++ s.cap.inputs.toList.flatMap Input.configBytes)
  | _ => none

end Sys2Proof.Machine
end

