-- ==== Sys2Proof/Machine/Commit.lean ====
section
/-! DEFINITION. The judgement of a command at its commit (R130): length, admissibility, common argument
checks, owner; and the delivery of its result (R131). -/

namespace Sys2Proof.Machine

/-- The number of command bytes the catalogue gives a command, the code byte included; ECHO, whose
length varies, is given by `Cmd.lengthOk` (R199). -/
def Cmd.byteCount : Cmd → Nat
  | .getStatus => 1
  | .getFaultRecord => 1
  | .clearFault => 1
  | .softReset => 1
  | .echo => 2
  | .ackAttention => 2
  | .setAttentionMask => 2
  | .start => 1
  | .park => 1
  | .resume => 1
  | .enterDormant => 1
  | .enterAlignment => 1
  | .exitAlignment => 1
  | .getAlignment => 1
  | .setCommitLag => 2
  | .setFaultMode => 2
  | .setGroups => 3
  | .readConfig => 2
  | .setTimebase => 6
  | .setOffset => 3
  | .setTime => 9
  | .setLateTolerance => 5
  | .getTime => 1
  | .configureChannel => 6
  | .configureInput => 6
  | .addEntry => 27
  | .cancelEntry => 3
  | .cancelGroup => 2
  | .flushSchedule => 1
  | .queryEntry => 3
  | .listSchedule => 3
  | .readEvents => 2

/-- The second step of the judgement: the command bytes have the command's length (R130, R199). -/
def Cmd.lengthOk (c : Cmd) (args : List Byte) : Bool :=
  match c with
  | .echo => decide (1 ≤ args.length ∧ args.length ≤ 40)
  | c => decide (args.length + 1 = Cmd.byteCount c)

/-- The operating states that admit a command, the rows of R104's table. -/
def Cmd.admittedIn : Cmd → List OpState
  | .getStatus => [.config, .run, .parked, .align, .faultHold]
  | .getFaultRecord => [.config, .run, .parked, .align, .faultHold]
  | .clearFault => [.config, .run, .parked, .align, .faultHold]
  | .softReset => [.config, .run, .parked, .align, .faultHold]
  | .echo => [.config, .run, .parked, .align, .faultHold]
  | .ackAttention => [.config, .run, .parked, .align, .faultHold]
  | .setAttentionMask => [.config, .run, .parked, .align]
  | .start => [.config]
  | .park => [.run]
  | .resume => [.parked]
  | .enterDormant => [.config, .parked]
  | .enterAlignment => [.config, .parked]
  | .exitAlignment => [.align]
  | .getAlignment => [.config, .run, .parked, .align]
  | .setCommitLag => [.config, .run, .parked, .align]
  | .setFaultMode => [.config, .run, .parked, .align]
  | .setGroups => [.config, .run, .parked, .align]
  | .readConfig => [.config, .run, .parked, .align]
  | .setTimebase => [.config, .parked]
  | .setOffset => [.config, .parked, .align]
  | .setTime => [.config, .parked]
  | .setLateTolerance => [.config, .run, .parked]
  | .getTime => [.config, .run, .parked, .align]
  | .configureChannel => [.config, .parked]
  | .configureInput => [.config, .parked]
  | .addEntry => [.config, .run, .parked]
  | .cancelEntry => [.config, .run, .parked]
  | .cancelGroup => [.config, .run, .parked]
  | .flushSchedule => [.config, .run, .parked]
  | .queryEntry => [.config, .run, .parked, .align]
  | .listSchedule => [.config, .run, .parked, .align]
  | .readEvents => [.config, .run, .parked, .align, .faultHold]

/-- The third step of the judgement: the command is admitted in the operating state (R104). -/
def Cmd.admitted (c : Cmd) (op : OpState) : Bool :=
  (Cmd.admittedIn c).contains op

/-- The fourth step of the judgement: reserved bytes are zero and the top bit of a time field is clear
(R130, R198). ADD_ENTRY has one reserved byte and one time, SET_TIME one time (R199). -/
def Cmd.commonOk (c : Cmd) (args : List Byte) : Bool :=
  match c with
  | .addEntry => timeOk args 2 && argByte args 11 == 0
  | .setTime => timeOk args 0
  | _ => true

/-- The result of a command that the operating state does not admit (R104). -/
def notAdmitted (op : OpState) : ResultCode :=
  match op with
  | .faultHold => .faultLatched
  | _ => .wrongState

/-- The commit of a command: it leaves the staging queue, is judged in the order of R130, and its result
is delivered (R131). Where no command commits, in DORMANT, WAKING and hard reset, nothing happens
(R104, R119; log 3). The owner answers the state it leaves and the result. -/
def commitWith (c : Cmd) (o : Origin) (args : List Byte) (owner : State → State × Result) (s : State) :
    State :=
  if s.commits then
    let s1 := s.leaveQueue o
    if !Cmd.lengthOk c args then s1.deliver o (refusedWith .badLength)
    else if !Cmd.admitted c s1.stc.op then s1.deliver o (refusedWith (notAdmitted s1.stc.op))
    else if !Cmd.commonOk c args then s1.deliver o (refusedWith .badArgument)
    else
      let (s2, r) := owner s1
      s2.deliver o r
  else s

/-- An owner that reports and changes nothing. -/
def reporting (payload : State → List Byte) (s : State) : State × Result :=
  (s, okWith (payload s))

/-- An owner that refuses, the part unchanged (R165). -/
def refusing (code : ResultCode) (s : State) : State × Result :=
  (s, refusedWith code)

/-- An owner that acts and answers OK with an empty payload. -/
def acting (act : State → State) (s : State) : State × Result :=
  (act s, okEmpty)

/-- The commit of command bytes whose code names no command, or that are empty (R130 step 1). -/
def commitUnknown (o : Origin) (s : State) : State :=
  if s.commits then (s.leaveQueue o).deliver o (refusedWith .unknownCommand) else s

end Sys2Proof.Machine
end

