-- ==== Sys2Proof/Machine/Reports.lean ====
section
/-! DEFINITION. The commands that report: status, fault record, echo, configuration, time, alignment (R65,
R166 to R168, R181, R197). -/

namespace Sys2Proof.Machine

/-- GET_STATUS reports the part at its commit and then clears the overlap flags (R81, R166). -/
def ownGetStatus (_args : List Byte) (s : State) : State × Result :=
  (s.setOut { channels := s.out.channels.map fun c => { c with overlap := false } },
    okWith (statusPayload s))

/-- GET_STATUS at its commit (R166). -/
def commitGetStatus (o : Origin) (args : List Byte) (s : State) : State :=
  commitWith .getStatus o args (ownGetStatus args) s

/-- The meaning of GET_STATUS. -/
def execGetStatus (o : Origin) (args : List Byte) (s : State) : Host.Outcome State Fault Refusal :=
  .next (commitGetStatus o args s)

/-- GET_FAULT_RECORD reports IMN's record and changes nothing (R181). -/
def ownGetFaultRecord (_args : List Byte) : State → State × Result :=
  reporting fun s => faultPayload s.imn

/-- GET_FAULT_RECORD at its commit (R181). -/
def commitGetFaultRecord (o : Origin) (args : List Byte) (s : State) : State :=
  commitWith .getFaultRecord o args (ownGetFaultRecord args) s

/-- The meaning of GET_FAULT_RECORD. -/
def execGetFaultRecord (o : Origin) (args : List Byte) (s : State) : Host.Outcome State Fault Refusal :=
  .next (commitGetFaultRecord o args s)

/-- ECHO returns its data and changes nothing (R168). -/
def ownEcho (args : List Byte) : State → State × Result :=
  reporting fun _ => args

/-- ECHO at its commit (R168). -/
def commitEcho (o : Origin) (args : List Byte) (s : State) : State :=
  commitWith .echo o args (ownEcho args) s

/-- The meaning of ECHO. -/
def execEcho (o : Origin) (args : List Byte) (s : State) : Host.Outcome State Fault Refusal :=
  .next (commitEcho o args s)

/-- READ_CONFIG reports one section, and refuses a section above 3 (R167). -/
def ownReadConfig (args : List Byte) (s : State) : State × Result :=
  match configPayload s (argByte args 0).toNat with
  | some payload => (s, okWith payload)
  | none => refusing .badArgument s

/-- READ_CONFIG at its commit (R167). -/
def commitReadConfig (o : Origin) (args : List Byte) (s : State) : State :=
  commitWith .readConfig o args (ownReadConfig args) s

/-- The meaning of READ_CONFIG. -/
def execReadConfig (o : Origin) (args : List Byte) (s : State) : Host.Outcome State Fault Refusal :=
  .next (commitReadConfig o args s)

/-- GET_TIME reports TBU as it stands at the commit (R65). -/
def ownGetTime (_args : List Byte) : State → State × Result :=
  reporting fun s => timePayload s.tbu

/-- GET_TIME at its commit (R65). -/
def commitGetTime (o : Origin) (args : List Byte) (s : State) : State :=
  commitWith .getTime o args (ownGetTime args) s

/-- The meaning of GET_TIME. -/
def execGetTime (o : Origin) (args : List Byte) (s : State) : Host.Outcome State Fault Refusal :=
  .next (commitGetTime o args s)

/-- GET_ALIGNMENT reports the log, the pending sample and the offset (R197). -/
def ownGetAlignment (_args : List Byte) : State → State × Result :=
  reporting fun s => alignmentPayload s.aln s.tbu.offset

/-- GET_ALIGNMENT at its commit (R197). -/
def commitGetAlignment (o : Origin) (args : List Byte) (s : State) : State :=
  commitWith .getAlignment o args (ownGetAlignment args) s

/-- The meaning of GET_ALIGNMENT. -/
def execGetAlignment (o : Origin) (args : List Byte) (s : State) : Host.Outcome State Fault Refusal :=
  .next (commitGetAlignment o args s)

end Sys2Proof.Machine
end

