-- ==== Sys2Proof/Machine/Outputs.lean ====
section
/-! DEFINITION. What an action does at an output channel or a capture input (R72 to R77, R91), and the
outputs and inputs through the resets (R83, R94). -/

namespace Sys2Proof.Machine

/-! ### Output channels -/

/-- PULSE of a width at a channel: a pulse starts, or an overlap is flagged and the channel's policy
decides (R73). -/
def Channel.firePulse (width : Nat) (c : Channel) : Channel :=
  match c.pulse, c.policy with
  | none, _ => { c with pulse := some width }
  | some _, .restart => { c with pulse := some width, overlap := true }
  | some _, .ignore => { c with overlap := true }

/-- SET_HIGH and SET_LOW at a channel (R75). -/
def Channel.setBase (l : Level) (c : Channel) : Channel :=
  { c with base := l, pulse := none }

/-- TOGGLE at a channel (R76). -/
def Channel.toggleBase (c : Channel) : Channel :=
  { c with base := invert c.base, pulse := none }

/-- Applies `f` to every channel of a mask that is enabled; the others are passed over (R28). -/
def Out.onMask (x : Out) (mask : BitVec 16) (f : Channel → Channel) : Out :=
  { channels := Vector.ofFn fun n : Fin 16 =>
      let c := x.channels[n]
      if mask.getLsbD n.val && c.enable then f c else c }

/-- SOFT_RESET and ENTER_DORMANT at a channel (R83). -/
def Channel.softReset (c : Channel) : Channel :=
  { c with base := c.initial, pulse := none, overlap := false }

/-- Replaces one channel by what `f` makes of it. -/
def Out.update (x : Out) (n : Fin 16) (f : Channel → Channel) : Out :=
  { channels := x.channels.set n.val (f x.channels[n]) }

/-! ### Capture inputs -/

/-- ARM_CAPTURE of a length at an input: a WINDOWED input's window opens, or runs on for the greater of
what is left and the length (R91). -/
def Input.arm (length : Nat) (i : Input) : Input :=
  match i.mode with
  | .windowed => { i with window := some (max (i.window.getD 0) length) }
  | .continuous => i
  | .off => i

/-- Applies ARM_CAPTURE to every input of a mask (R28). -/
def Cap.onMask (x : Cap) (mask : BitVec 4) (length : Nat) : Cap :=
  { x with
    inputs := Vector.ofFn fun n : Fin 4 =>
      if mask.getLsbD n.val then x.inputs[n].arm length else x.inputs[n] }

/-- SOFT_RESET and ENTER_DORMANT at an input (R94). -/
def Input.softReset (i : Input) : Input :=
  { i with window := none, lastEdge := none }

/-- Replaces one input by what `f` makes of it. -/
def Cap.update (x : Cap) (n : Fin 4) (f : Input → Input) : Cap :=
  { x with inputs := x.inputs.set n.val (f x.inputs[n]) }

/-- An edge of one kind qualifies under an edges setting (R87). -/
def EdgeSelect.selects : EdgeSelect → EdgeKind → Bool
  | .rising, .rising => true
  | .rising, .falling => false
  | .falling, .rising => false
  | .falling, .falling => true
  | .both, _ => true

/-- The level after an edge (R87). -/
def edgeTarget : EdgeKind → Level
  | .rising => .high
  | .falling => .low

/-- The configuration, window and dead time of an input let it record (R88, conditions 1 and 5). A dead
time that has run out is still the last recorded edge until its end is taken (R93). -/
def Input.armed (i : Input) : Bool :=
  match i.mode with
  | .off => false
  | .continuous => i.lastEdge.isNone
  | .windowed => i.window.isSome && i.lastEdge.isNone

/-- A recorded edge starts the dead time; a dead time of 0 is as if there were none (R85, R89). -/
def Input.startDead (i : Input) : Input :=
  { i with lastEdge := if i.dead = 0 then none else some i.dead }

/-! ### Actions of a fired occurrence (R28) -/

/-- Applies an action to its targets (R2, R28). -/
def State.applyAction (s : State) : Action → State
  | .noAction => s
  | .pulse width mask => s.setOut (s.out.onMask mask (Channel.firePulse width))
  | .setHigh mask => s.setOut (s.out.onMask mask (Channel.setBase .high))
  | .setLow mask => s.setOut (s.out.onMask mask (Channel.setBase .low))
  | .toggle mask => s.setOut (s.out.onMask mask Channel.toggleBase)
  | .armCapture length mask => s.setCap (s.cap.onMask mask length)

end Sys2Proof.Machine
end

