-- ==== Sys2Proof/Machine/Edges.lean ====
section
/-! DEFINITION. The edges of the capture pins (R87 to R90) and their place among what dispatch does at the
same instant (R93, R99). -/

namespace Sys2Proof.Machine

/-! ### Taking an edge to its record (R87 to R90) -/

/-- An edge on an input, if it qualifies, is recorded where input, timebase and operating state let it
(R87, R88). -/
def State.records (s : State) (n : Fin 4) (edge : EdgeKind) : Bool :=
  (s.cap.inputs[n]).edges.selects edge && (s.cap.inputs[n]).armed && s.tbu.state != .unset &&
    s.stc.op != .dormant && s.stc.op != .waking && !(n == 0 && s.stc.op == .align)

/-- A recorded edge: an EDGE record for EVQ with local time and timebase state, and the dead time starts,
whatever EVQ does with the record (R88 to R90). -/
def State.recordEdge (s : State) (n : Fin 4) (edge : EdgeKind) : State :=
  match s.tbu.localTime with
  | none => s
  | some t => (s.handEvent (.edge n edge t s.tbu.state)).setCap (s.cap.update n Input.startDead)

/-- CAP takes a sampled edge: recorded where R88 lets it, without a trace where it does not. -/
def State.takeEdge (s : State) (n : Fin 4) (edge : EdgeKind) : State :=
  if s.records n edge then s.recordEdge n edge else s

/-! ### Among the moments of dispatch (R93, R99; log 26)

Dispatch has a moment at the beginning of an evaluation, behind each action it applies, and behind each
record it hands over: wherever its work may have changed what an edge meets, or where its record stands. -/

/-- One more of dispatch's moments of this instant has passed before the edge. -/
def WaitingEdge.pass (w : WaitingEdge) : WaitingEdge :=
  { w with edge := { w.edge with after := w.edge.after - 1 } }

/-- Takes edges in the order in which they were sampled. -/
def takeEdges : List WaitingEdge → State → State
  | [], s => s
  | w :: rest, s => takeEdges rest (s.takeEdge w.input w.edge.kind)

/-- One moment of dispatch: the waiting edges for which it was the last to pass are taken here, the others
go on waiting (R93, R99). -/
def State.passEdges (s : State) : State :=
  let passed := s.cap.waiting.map WaitingEdge.pass
  takeEdges (passed.filter fun w => w.edge.after == 0)
    (s.setCap { s.cap with waiting := passed.filter fun w => w.edge.after != 0 })

/-- DPU applies an action, and the edges that fall directly behind it follow (R28, R93). -/
def State.handAction (s : State) (a : Action) : State :=
  (s.applyAction a).passEdges

/-- DPU hands EVQ one of its records, and the edges that fall directly behind it follow (R99). -/
def State.handRecord (s : State) (body : EventBody) : State :=
  (s.handEvent body).passEdges

/-! ### An edge at a pin (R87) -/

/-- An edge is a difference between two successive samples: the input's level changes, and one edge is
taken per tick (R87). -/
def Input.shows (i : Input) (edge : EdgeKind) : Bool :=
  !i.sampled && i.level != edgeTarget edge

/-- Whether the edge that waits is this one. -/
def WaitingEdge.isOf (n : Fin 4) (edge : EdgeKind) (w : WaitingEdge) : Bool :=
  w.input == n && w.edge.kind == edge

/-- An edge at a capture pin is sampled, and taken at once or behind so many of dispatch's moments of this
instant as it says; an edge that waits is taken when its row comes again with nothing more to wait for
(R87, R88, R93, R99; logs 9 and 26). -/
def State.captureEdge (s : State) (n : Fin 4) (edge : PinEdge) : State :=
  if (s.cap.inputs[n]).shows edge.kind then
    let s1 := s.setCap (s.cap.update n fun i => { i with level := edgeTarget edge.kind, sampled := true })
    if edge.after = 0 then s1.takeEdge n edge.kind
    else
      s1.setCap { s1.cap with waiting := s1.cap.waiting ++ [{ input := n, edge := edge }] }
  else if edge.after = 0 ∧ s.cap.waiting.any (WaitingEdge.isOf n edge.kind) then
    (s.setCap
      { s.cap with waiting := s.cap.waiting.filter fun w => !w.isOf n edge.kind }).takeEdge n edge.kind
  else s

end Sys2Proof.Machine
end

