-- ==== Sys2Proof/Machine/Table.lean ====
section
/-! DEFINITION. The schedule table's own operations (R5 to R8): placing an entry, finding and removing
entries, and the one request in which dispatch records an occurrence and advances its entry. -/

namespace Sys2Proof.Machine

/-- Puts an entry directly after the last entry whose due time is equal to or earlier than its own, at
position 0 if there is none (R7). -/
def insertEntry (e : Entry) : List Entry → List Entry
  | [] => [e]
  | x :: rest =>
    if (x :: rest).any fun y => decide (y.due ≤ e.due) then x :: insertEntry e rest
    else e :: x :: rest

/-- Places an entry with a new insertion number (R6, R7). -/
def Sct.place (t : Sct) (e : Entry) : Sct :=
  { entries := insertEntry { e with insertion := t.nextInsertion } t.entries
    nextInsertion := t.nextInsertion + 1 }

/-- Removal closes the gap without changing the order of the entries that stay (R5). -/
def Sct.remove (t : Sct) (handle : Nat) : Sct :=
  { t with entries := t.entries.filter fun e => e.handle != handle }

/-- The entry with a handle. -/
def Sct.find (t : Sct) (handle : Nat) : Option Entry :=
  t.entries.find? fun e => e.handle == handle

/-- The position of the entry with a handle, counted from 0 at the head (R6). -/
def Sct.position (t : Sct) (handle : Nat) : Nat :=
  t.entries.findIdx fun e => e.handle == handle

/-- Whether any entry has REQUIRE_LOCK set (R20). -/
def Sct.requiresLock (t : Sct) : Bool :=
  t.entries.any fun e => e.requireLock

/-- The fired count after an occurrence, saturating (R8). -/
def Entry.countFired (e : Entry) (fired : Bool) : Nat :=
  if fired then min 65535 (e.fired + 1) else e.fired

/-- What an entry becomes when `k` of its occurrences are consumed, the last of them fired or not; none
when it leaves the table: a one-shot, the last of a counted one, or a new due time that is no valid
time (R8, R29, R33). -/
def Entry.advance (e : Entry) (k : Nat) (fired : Bool) : Option Entry :=
  match e.repeats with
  | none => none
  | some r =>
    let due := e.due + k * r.period
    let next := { e with due := due, fired := e.countFired fired }
    if r.count = 0 then if due < Config.timeEnd then some next else none
    else if e.remaining ≤ k then none
    else if due < Config.timeEnd then some { next with remaining := e.remaining - k }
    else none

/-- The record and the advance of an occurrence, one request of DPU to SCT (R29, R8). -/
def Sct.consume (t : Sct) (e : Entry) (k : Nat) (fired : Bool) : Sct :=
  match e.advance k fired with
  | none => t.remove e.handle
  | some next => (t.remove e.handle).place next

end Sys2Proof.Machine
end

