-- ==== Sys2Proof/Machine/Firing.lean ====
section
/-! DEFINITION. The dispatch unit (02): the gate, an on-time occurrence, the on-time batch, the late
rule, and an evaluation. -/

namespace Sys2Proof.Machine

/-- REQUIRE_LOCK at the gate: LOCKED or HOLDOVER at the fire time (R27, R30). -/
def State.gateOpen (s : State) (e : Entry) : Bool :=
  !e.requireLock || s.tbu.state == .locked || s.tbu.state == .holdover

/-- DPU hands EVQ a FIRED record if the entry has REPORT set (R27, R31). -/
def State.reportFired (s : State) (e : Entry) (time : Nat) (late : Bool) : State :=
  if e.report then s.handRecord (.fired e.handle time late) else s

/-- DPU hands EVQ a MISSED record and sets MISSED at ATN (R32). -/
def State.reportMissed (s : State) (e : Entry) (time count : Nat) : State :=
  (s.handRecord (.missed e.handle time (min 65535 count))).raiseCondition .missed

/-- DPU's request that consumes `k` occurrences of an entry (R29, R33, R40). -/
def State.consume (s : State) (e : Entry) (k : Nat) (fired : Bool) : State :=
  s.setSct (s.sct.consume e k fired)

/-- An on-time occurrence: gate, apply, record, report, advance, all at its own due time (R26, R27). -/
def State.fireOnTime (s : State) (e : Entry) : State :=
  if s.gateOpen e then ((s.handAction e.action).reportFired e e.due false).consume e 1 true
  else (s.reportMissed e e.due 1).consume e 1 false

/-- The on-time batch for a due time: while the head is due exactly then, it is fired (R26). `fuel`
bounds the number of firings; a fired entry never returns to the same due time. -/
def fireBatch (due : Nat) : Nat → State → State
  | 0, s => s
  | fuel + 1, s =>
    match s.sct.entries with
    | [] => s
    | e :: _ => if e.due = due then fireBatch due fuel (s.fireOnTime e) else s

/-- The number of an entry's past occurrences at evaluation time `t`, for an entry due earlier (R34). -/
def Entry.pastCount (e : Entry) (t : Nat) : Nat :=
  match e.repeats with
  | none => 1
  | some r =>
    let n := (t - e.due - 1) / r.period + 1
    if r.count = 0 then n else min n e.remaining

/-- The due time of an entry's n-th occurrence from now, n from 0 (R3). -/
def Entry.dueOf (e : Entry) (n : Nat) : Nat :=
  match e.repeats with
  | none => e.due
  | some r => e.due + n * r.period

/-- The last past occurrence passes the gate and is no further past due than LATE_FIRE and the late
tolerance allow (R33 step 2). -/
def State.firesLate (s : State) (e : Entry) (t : Nat) : Bool :=
  s.gateOpen e && e.lateFire &&
    decide (t - e.dueOf (e.pastCount t - 1) ≤ s.dpu.lateTolerance)

/-- The late rule settles one entry due earlier than `t` (R33). -/
def State.settleLate (s : State) (e : Entry) (t : Nat) : State :=
  let k := e.pastCount t
  if s.firesLate e t then
    let s1 := if k = 1 then s else s.reportMissed e (e.dueOf (k - 2)) (k - 1)
    ((s1.handAction e.action).reportFired e t true).consume e k true
  else (s.reportMissed e (e.dueOf (k - 1)) k).consume e k false

/-- The late pass: while the head is due earlier than `t`, it is settled (R35). -/
def latePass (t : Nat) : Nat → State → State
  | 0, s => s
  | fuel + 1, s =>
    match s.sct.entries with
    | [] => s
    | e :: _ => if e.due < t then latePass t fuel (s.settleLate e t) else s

/-- The on-time pass at `t` (R35). -/
def State.onTimePass (s : State) (t : Nat) : State :=
  fireBatch t s.sct.entries.length s

/-- The two passes of an evaluation at `t` settle the whole table (R35). -/
def State.settleTable (s : State) (t : Nat) : State :=
  (latePass t s.sct.entries.length s).onTimePass t

/-- An evaluation at the present local time (R35); while the timebase is UNSET there is nothing to settle
(R11, R36). An edge of this instant may be taken between its cause, a step of local time or an entry into
RUN, and the passes (R93, R99; log 26). -/
def State.evaluate (s : State) : State :=
  match s.tbu.localTime with
  | none => s
  | some t => s.passEdges.settleTable t

/-- The evaluation of an entry just added in RUN and not later than the present (R38, R43): the late
rule settles that entry alone if it is past due, and then the on-time batch for the present is fired.
DESIGN CHOICE (log 19), where an earlier due time has been reached too and its HEAD_REACHED not been taken
yet: the entries reached keep their own on-time firing, and the new entry, where it is due now or re-placed
at now, is left to the HEAD_REACHED that follows theirs. -/
def State.evaluateAdded (s : State) (handle : Nat) : State :=
  match s.tbu.localTime, s.sct.find handle with
  | some t, some e =>
    if e.due < t then (s.passEdges.settleLate e t).onTimePass t
    else if e.due = t then s.passEdges.onTimePass t
    else s
  | _, _ => s

/-- Entry into RUN: the state changes, the outputs drive their base levels by R69, and dispatch
evaluates (R36, R80). -/
def State.enterRun (s : State) : State :=
  (s.setStc { s.stc with op := .run }).evaluate

end Sys2Proof.Machine
end

