-- ==== Sys2Proof/Machine/Schedule.lean ====
section
/-! DEFINITION. The commands of the schedule table (R10 to R19) and of the event queue (R100). -/

namespace Sys2Proof.Machine

/-- The first due time is already past, outside what LATE_FIRE allows (R13). -/
def State.tooLate (s : State) (e : Entry) (now : Nat) : Bool :=
  decide (e.due < now) && (!e.lateFire || decide (s.dpu.lateTolerance < now - e.due))

/-- An entry that passed every check is placed, and its position is the result, frozen before any
evaluation (R14). -/
def State.insertNew (s : State) (e : Entry) (now : Nat) : State × Result :=
  let s1 := s.setSct (s.sct.place e)
  let s2 := if s.stc.op = .run ∧ e.due ≤ now then s1.evaluateAdded e.handle else s1
  (s2, okWith (byteOf (s1.sct.position e.handle)))

/-- ADD_ENTRY: the checks of R10 in their order, and then the insertion, with an evaluation in RUN for an
entry not in the future (R10 to R14, R38). -/
def ownAddEntry (args : List Byte) (s : State) : State × Result :=
  match s.tbu.localTime with
  | none => refusing .noTime s
  | some now =>
    if s.tbu.state = .unset then refusing .noTime s
    else
      match entryOf args with
      | none => refusing .badArgument s
      | some e =>
        if e.requireLock ∧ s.tbu.mode = .selfTimed then refusing .badArgument s
        else if (s.sct.find e.handle).isSome then refusing .duplicateHandle s
        else if Config.tableCapacity ≤ s.sct.entries.length then refusing .tableFull s
        else if s.tooLate e now then refusing .tooLate s
        else s.insertNew e now

/-- ADD_ENTRY at its commit (R10). -/
def commitAddEntry (o : Origin) (args : List Byte) (s : State) : State :=
  commitWith .addEntry o args (ownAddEntry args) s

/-- The meaning of ADD_ENTRY. -/
def execAddEntry (o : Origin) (args : List Byte) (s : State) : Host.Outcome State Fault Refusal :=
  .next (commitAddEntry o args s)

/-- CANCEL_ENTRY removes the entry with a handle (R15). -/
def ownCancelEntry (args : List Byte) (s : State) : State × Result :=
  let handle := argNat args 0 2
  if handle = 0 ∨ 255 < handle then refusing .badArgument s
  else if (s.sct.find handle).isNone then refusing .noSuchHandle s
  else acting (fun s => s.setSct (s.sct.remove handle)) s

/-- CANCEL_ENTRY at its commit (R15). -/
def commitCancelEntry (o : Origin) (args : List Byte) (s : State) : State :=
  commitWith .cancelEntry o args (ownCancelEntry args) s

/-- The meaning of CANCEL_ENTRY. -/
def execCancelEntry (o : Origin) (args : List Byte) (s : State) : Host.Outcome State Fault Refusal :=
  .next (commitCancelEntry o args s)

/-- CANCEL_GROUP removes every entry with a group tag and reports how many (R16). -/
def ownCancelGroup (args : List Byte) (s : State) : State × Result :=
  let tag := (argByte args 0).toNat
  if 15 < tag then refusing .badArgument s
  else
    (s.setSct { s.sct with entries := s.sct.entries.filter fun e => e.tag != tag },
      okWith (byteOf (s.sct.entries.countP fun e => e.tag == tag)))

/-- CANCEL_GROUP at its commit (R16). -/
def commitCancelGroup (o : Origin) (args : List Byte) (s : State) : State :=
  commitWith .cancelGroup o args (ownCancelGroup args) s

/-- The meaning of CANCEL_GROUP. -/
def execCancelGroup (o : Origin) (args : List Byte) (s : State) : Host.Outcome State Fault Refusal :=
  .next (commitCancelGroup o args s)

/-- FLUSH_SCHEDULE removes every entry, restarts the numbering and reports how many (R17). -/
def ownFlushSchedule (_args : List Byte) (s : State) : State × Result :=
  (s.setSct Sct.reset, okWith (byteOf s.sct.entries.length))

/-- FLUSH_SCHEDULE at its commit (R17). -/
def commitFlushSchedule (o : Origin) (args : List Byte) (s : State) : State :=
  commitWith .flushSchedule o args (ownFlushSchedule args) s

/-- The meaning of FLUSH_SCHEDULE. -/
def execFlushSchedule (o : Origin) (args : List Byte) (s : State) : Host.Outcome State Fault Refusal :=
  .next (commitFlushSchedule o args s)

/-- QUERY_ENTRY reports the entry with a handle and its position (R18). -/
def ownQueryEntry (args : List Byte) (s : State) : State × Result :=
  let handle := argNat args 0 2
  if handle = 0 ∨ 255 < handle then refusing .badArgument s
  else
    match s.sct.find handle with
    | none => refusing .noSuchHandle s
    | some e => (s, okWith (queryPayload e (s.sct.position handle)))

/-- QUERY_ENTRY at its commit (R18). -/
def commitQueryEntry (o : Origin) (args : List Byte) (s : State) : State :=
  commitWith .queryEntry o args (ownQueryEntry args) s

/-- The meaning of QUERY_ENTRY. -/
def execQueryEntry (o : Origin) (args : List Byte) (s : State) : Host.Outcome State Fault Refusal :=
  .next (commitQueryEntry o args s)

/-- LIST_SCHEDULE reports the number of entries and up to two of them from a position (R19). -/
def ownListSchedule (args : List Byte) (s : State) : State × Result :=
  let first := (argByte args 0).toNat
  let maximum := (argByte args 1).toNat
  if 127 < first ∨ maximum = 0 ∨ 2 < maximum then refusing .badArgument s
  else
    let records := (s.sct.entries.drop first).take maximum
    (s, okWith (byteOf s.sct.entries.length ++ byteOf records.length ++ records.flatMap listingRecord))

/-- LIST_SCHEDULE at its commit (R19). -/
def commitListSchedule (o : Origin) (args : List Byte) (s : State) : State :=
  commitWith .listSchedule o args (ownListSchedule args) s

/-- The meaning of LIST_SCHEDULE. -/
def execListSchedule (o : Origin) (args : List Byte) (s : State) : Host.Outcome State Fault Refusal :=
  .next (commitListSchedule o args s)

/-- READ_EVENTS takes the oldest records and the lost count (R100). -/
def ownReadEvents (args : List Byte) (s : State) : State × Result :=
  let maximum := (argByte args 0).toNat
  if maximum = 0 ∨ 3 < maximum then refusing .badArgument s
  else
    let records := s.evq.records.take maximum
    (s.setEvq { s.evq with records := s.evq.records.drop maximum, lost := 0 },
      okWith (byteOf records.length ++ beBytes 2 s.evq.lost ++ records.flatMap eventBytes))

/-- READ_EVENTS at its commit (R100). -/
def commitReadEvents (o : Origin) (args : List Byte) (s : State) : State :=
  commitWith .readEvents o args (ownReadEvents args) s

/-- The meaning of READ_EVENTS. -/
def execReadEvents (o : Origin) (args : List Byte) (s : State) : Host.Outcome State Fault Refusal :=
  .next (commitReadEvents o args s)

end Sys2Proof.Machine
end

