-- ==== Sys2Proof/Machine/Settings.lean ====
section
/-! DEFINITION. The commands that set one setting: attention, intake, link, dispatch, outputs, inputs
(R25, R71, R86, R135, R149, R182, R188, R189). -/

namespace Sys2Proof.Machine

/-- The named flags are cleared, but FAULT, which follows the fault flag (R189). -/
def Conditions.acknowledge (f named : Conditions) : Conditions :=
  { fault := f.fault
    dropped := f.dropped && !named.dropped
    eventLoss := f.eventLoss && !named.eventLoss
    timebase := f.timebase && !named.timebase
    missed := f.missed && !named.missed }

/-- The channel number of CONFIGURE_CHANNEL; none above 15 (R71). -/
def channelOf (args : List Byte) : Option (Fin 16) :=
  let n := (argByte args 0).toNat
  if h : n < 16 then some ⟨n, h⟩ else none

/-- The input number of CONFIGURE_INPUT; none above 3 (R86). -/
def inputOf (args : List Byte) : Option (Fin 4) :=
  let n := (argByte args 0).toNat
  if h : n < 4 then some ⟨n, h⟩ else none

/-- The four configuration fields of a channel, its base level the new initial level (R71). -/
def Channel.configure (enable : Bool) (park initial : Level) (policy : OverlapPolicy) (c : Channel) :
    Channel :=
  { c with enable := enable, park := park, initial := initial, policy := policy, base := initial }

/-- The three configuration fields of an input (R86). -/
def Input.configure (mode : InputMode) (edges : EdgeSelect) (dead : Nat) (i : Input) : Input :=
  { i with mode := mode, edges := edges, dead := dead, window := none, lastEdge := none }

/-- ACK_ATTENTION clears the named flags but FAULT, and refuses a byte naming no condition (R189). -/
def ownAckAttention (args : List Byte) (s : State) : State × Result :=
  let b := argByte args 0
  if conditionByteOk b then
    acting (fun s => s.setAtn { s.atn with flags := s.atn.flags.acknowledge (.ofByte b) }) s
  else refusing .badArgument s

/-- ACK_ATTENTION at its commit (R189). -/
def commitAckAttention (o : Origin) (args : List Byte) (s : State) : State :=
  commitWith .ackAttention o args (ownAckAttention args) s

/-- The meaning of ACK_ATTENTION. -/
def execAckAttention (o : Origin) (args : List Byte) (s : State) : Host.Outcome State Fault Refusal :=
  .next (commitAckAttention o args s)

/-- SET_ATTENTION_MASK replaces the mask (R188). -/
def ownSetAttentionMask (args : List Byte) (s : State) : State × Result :=
  let b := argByte args 0
  if conditionByteOk b then acting (fun s => s.setAtn { s.atn with mask := .ofByte b }) s
  else refusing .badArgument s

/-- SET_ATTENTION_MASK at its commit (R188). -/
def commitSetAttentionMask (o : Origin) (args : List Byte) (s : State) : State :=
  commitWith .setAttentionMask o args (ownSetAttentionMask args) s

/-- The meaning of SET_ATTENTION_MASK. -/
def execSetAttentionMask (o : Origin) (args : List Byte) (s : State) : Host.Outcome State Fault Refusal :=
  .next (commitSetAttentionMask o args s)

/-- SET_COMMIT_LAG sets the lag, refusing a change between two different non-zero values (R135). -/
def ownSetCommitLag (args : List Byte) (s : State) : State × Result :=
  let n := (argByte args 0).toNat
  if 7 < n ∨ (s.cin.lag ≠ 0 ∧ n ≠ 0 ∧ s.cin.lag ≠ n) then refusing .badArgument s
  else acting (fun s => s.setCin { s.cin with lag := n }) s

/-- SET_COMMIT_LAG at its commit (R135). -/
def commitSetCommitLag (o : Origin) (args : List Byte) (s : State) : State :=
  commitWith .setCommitLag o args (ownSetCommitLag args) s

/-- The meaning of SET_COMMIT_LAG. -/
def execSetCommitLag (o : Origin) (args : List Byte) (s : State) : Host.Outcome State Fault Refusal :=
  .next (commitSetCommitLag o args s)

/-- SET_FAULT_MODE sets the mode for later faults (R182). -/
def ownSetFaultMode (args : List Byte) (s : State) : State × Result :=
  match faultModeOf (argByte args 0) with
  | some m => acting (fun s => s.setImn { s.imn with mode := m }) s
  | none => refusing .badArgument s

/-- SET_FAULT_MODE at its commit (R182). -/
def commitSetFaultMode (o : Origin) (args : List Byte) (s : State) : State :=
  commitWith .setFaultMode o args (ownSetFaultMode args) s

/-- The meaning of SET_FAULT_MODE. -/
def execSetFaultMode (o : Origin) (args : List Byte) (s : State) : Host.Outcome State Fault Refusal :=
  .next (commitSetFaultMode o args s)

/-- SET_GROUPS replaces the group membership (R149). -/
def ownSetGroups (args : List Byte) : State → State × Result :=
  acting fun s => s.setLnk { s.lnk with groups := BitVec.ofNat 16 (argNat args 0 2) }

/-- SET_GROUPS at its commit (R149). -/
def commitSetGroups (o : Origin) (args : List Byte) (s : State) : State :=
  commitWith .setGroups o args (ownSetGroups args) s

/-- The meaning of SET_GROUPS. -/
def execSetGroups (o : Origin) (args : List Byte) (s : State) : Host.Outcome State Fault Refusal :=
  .next (commitSetGroups o args s)

/-- SET_LATE_TOLERANCE replaces the late tolerance (R25). -/
def ownSetLateTolerance (args : List Byte) : State → State × Result :=
  acting fun s => s.setDpu { lateTolerance := argNat args 0 4 }

/-- SET_LATE_TOLERANCE at its commit (R25). -/
def commitSetLateTolerance (o : Origin) (args : List Byte) (s : State) : State :=
  commitWith .setLateTolerance o args (ownSetLateTolerance args) s

/-- The meaning of SET_LATE_TOLERANCE. -/
def execSetLateTolerance (o : Origin) (args : List Byte) (s : State) : Host.Outcome State Fault Refusal :=
  .next (commitSetLateTolerance o args s)

/-- CONFIGURE_CHANNEL replaces one channel's configuration, and its base level becomes the new initial
level (R71). -/
def ownConfigureChannel (args : List Byte) (s : State) : State × Result :=
  match channelOf args, enableOf (argByte args 1), levelOf (argByte args 2), levelOf (argByte args 3),
    policyOf (argByte args 4) with
  | some n, some enable, some park, some initial, some policy =>
    acting
      (fun s => s.setOut (s.out.update n (Channel.configure enable park initial policy)))
      s
  | _, _, _, _, _ => refusing .badArgument s

/-- CONFIGURE_CHANNEL at its commit (R71). -/
def commitConfigureChannel (o : Origin) (args : List Byte) (s : State) : State :=
  commitWith .configureChannel o args (ownConfigureChannel args) s

/-- The meaning of CONFIGURE_CHANNEL. -/
def execConfigureChannel (o : Origin) (args : List Byte) (s : State) : Host.Outcome State Fault Refusal :=
  .next (commitConfigureChannel o args s)

/-- CONFIGURE_INPUT replaces one input's configuration, closes its window and forgets its last recorded
edge (R86). -/
def ownConfigureInput (args : List Byte) (s : State) : State × Result :=
  match inputOf args, inputModeOf (argByte args 1), edgesOf (argByte args 2) with
  | some n, some mode, some edges =>
    acting (fun s => s.setCap (s.cap.update n (Input.configure mode edges (argNat args 3 2)))) s
  | _, _, _ => refusing .badArgument s

/-- CONFIGURE_INPUT at its commit (R86). -/
def commitConfigureInput (o : Origin) (args : List Byte) (s : State) : State :=
  commitWith .configureInput o args (ownConfigureInput args) s

/-- The meaning of CONFIGURE_INPUT. -/
def execConfigureInput (o : Origin) (args : List Byte) (s : State) : Host.Outcome State Fault Refusal :=
  .next (commitConfigureInput o args s)

end Sys2Proof.Machine
end

