-- ==== Sys2Proof/Machine/States.lean ====
section
/-! DEFINITION. The commands that change the operating state (R106 to R110, R112, R114, R115). -/

namespace Sys2Proof.Machine

/-- The operating state that CLEAR_FAULT returns to. -/
def HeldState.toOp : HeldState → OpState
  | .config => .config
  | .run => .run
  | .parked => .parked
  | .align => .align

/-- The operating state that EXIT_ALIGNMENT returns to. -/
def AlignedFrom.toOp : AlignedFrom → OpState
  | .config => .config
  | .parked => .parked

/-- Flag, record and count cleared together, mode and quiesce kept (R180). -/
def Imn.clear (x : Imn) : Imn :=
  { x with flag := false, record := none, count := 0 }

/-- The fault state and the FAULT condition are cleared (R180). -/
def State.clearFaultState (s : State) : State :=
  (s.setImn s.imn.clear).setAtn { s.atn with flags := s.atn.flags.put false .fault }

/-- The event queue is emptied, the next sequence kept (R102). -/
def Evq.discard (x : Evq) : Evq :=
  { x with records := [], lost := 0, gap := false }

/-- The contents that SOFT_RESET and ENTER_DORMANT discard, with the state they enter (R121). -/
def State.discardContents (s : State) (op : OpState) : State :=
  { s with
    imn := { s.imn.clear with quiesce := none }
    cin := { s.cin with queue := [], expiry := none }
    rpu := { outbox := [] }
    stc := { op := op, beforeFault := none, beforeAlign := none, wakeDelay := none }
    sct := Sct.reset
    out := { channels := s.out.channels.map Channel.softReset }
    cap := { s.cap with inputs := s.cap.inputs.map Input.softReset }
    evq := s.evq.discard
    atn := { s.atn with flags := .clear }
    aln := Aln.reset }

/-- The timebase is lost at ENTER_DORMANT, its settings kept (R66). -/
def Tbu.lose (x : Tbu) : Tbu :=
  { Tbu.reset with
    mode := x.mode, offset := x.offset, syncInterval := x.syncInterval,
    holdoverLimit := x.holdoverLimit }

/-- A reply still WAITING is discarded (R152). -/
def Transmitter.discardWaiting : Transmitter → Transmitter
  | .waiting _ _ _ => .idle
  | .idle => .idle
  | .sending reply => .sending reply

/-- START enters RUN (R106). -/
def ownStart (_args : List Byte) : State → State × Result :=
  acting State.enterRun

/-- START at its commit (R106). -/
def commitStart (o : Origin) (args : List Byte) (s : State) : State :=
  commitWith .start o args (ownStart args) s

/-- The meaning of START. -/
def execStart (o : Origin) (args : List Byte) (s : State) : Host.Outcome State Fault Refusal :=
  .next (commitStart o args s)

/-- PARK leaves RUN for PARKED (R107). -/
def ownPark (_args : List Byte) : State → State × Result :=
  acting fun s => s.goTo .parked

/-- PARK at its commit (R107). -/
def commitPark (o : Origin) (args : List Byte) (s : State) : State :=
  commitWith .park o args (ownPark args) s

/-- The meaning of PARK. -/
def execPark (o : Origin) (args : List Byte) (s : State) : Host.Outcome State Fault Refusal :=
  .next (commitPark o args s)

/-- RESUME enters RUN from PARKED with the base levels kept (R108). -/
def ownResume (_args : List Byte) : State → State × Result :=
  acting State.enterRun

/-- RESUME at its commit (R108). -/
def commitResume (o : Origin) (args : List Byte) (s : State) : State :=
  commitWith .resume o args (ownResume args) s

/-- The meaning of RESUME. -/
def execResume (o : Origin) (args : List Byte) (s : State) : Host.Outcome State Fault Refusal :=
  .next (commitResume o args s)

/-- CLEAR_FAULT clears the fault state and FAULT (R180), and from FAULT_HOLD returns to the state before
fault, which into RUN is an entry into RUN (R112). -/
def ownClearFault (_args : List Byte) : State → State × Result :=
  acting fun s =>
    let s1 := s.clearFaultState
    match s.stc.op, s.stc.beforeFault with
    | .faultHold, some h =>
      let s2 := s1.setStc { s.stc with op := h.toOp, beforeFault := none }
      if h = .run then s2.enterRun else s2
    | _, _ => s1

/-- CLEAR_FAULT at its commit (R180). -/
def commitClearFault (o : Origin) (args : List Byte) (s : State) : State :=
  commitWith .clearFault o args (ownClearFault args) s

/-- The meaning of CLEAR_FAULT. -/
def execClearFault (o : Origin) (args : List Byte) (s : State) : Host.Outcome State Fault Refusal :=
  .next (commitClearFault o args s)

/-- SOFT_RESET returns to CONFIG, discards the contents and keeps configuration and timebase; a UNIT one
places its own READY record (R114, R121, R169). -/
def ownSoftReset (o : Origin) (_args : List Byte) : State → State × Result :=
  acting fun s =>
    let s1 := s.discardContents .config
    match o with
    | .unit seq => s1.setRpu { outbox := [{ seq := seq, result := some okEmpty }] }
    | .broadcast => s1
    | .group => s1

/-- SOFT_RESET at its commit (R114). -/
def commitSoftReset (o : Origin) (args : List Byte) (s : State) : State :=
  commitWith .softReset o args (ownSoftReset o args) s

/-- The meaning of SOFT_RESET. -/
def execSoftReset (o : Origin) (args : List Byte) (s : State) : Host.Outcome State Fault Refusal :=
  .next (commitSoftReset o args s)

/-- ENTER_DORMANT discards the contents, loses the timebase and goes to DORMANT; a reply still waiting is
discarded (R115, R121, R152). -/
def ownEnterDormant (_args : List Byte) : State → State × Result :=
  acting fun s =>
    let s1 := (s.discardContents .dormant).setTbu s.tbu.lose
    s1.setLnk { s1.lnk with transmitter := s1.lnk.transmitter.discardWaiting }

/-- ENTER_DORMANT at its commit (R115). -/
def commitEnterDormant (o : Origin) (args : List Byte) (s : State) : State :=
  commitWith .enterDormant o args (ownEnterDormant args) s

/-- The meaning of ENTER_DORMANT. -/
def execEnterDormant (o : Origin) (args : List Byte) (s : State) : Host.Outcome State Fault Refusal :=
  .next (commitEnterDormant o args s)

/-- ENTER_ALIGNMENT remembers the state and enters ALIGN with an empty log, unless the timebase is UNSET
(R109, R192). It is admitted in CONFIG and PARKED alone, so those are the states remembered. -/
def ownEnterAlignment (_args : List Byte) (s : State) : State × Result :=
  if s.tbu.state = .unset then refusing .noTime s
  else
    acting
      (fun s =>
        (s.setStc
            { s.stc with
              op := .align
              beforeAlign := some (if s.stc.op = .parked then .parked else .config) }).setAln Aln.reset)
      s

/-- ENTER_ALIGNMENT at its commit (R109). -/
def commitEnterAlignment (o : Origin) (args : List Byte) (s : State) : State :=
  commitWith .enterAlignment o args (ownEnterAlignment args) s

/-- The meaning of ENTER_ALIGNMENT. -/
def execEnterAlignment (o : Origin) (args : List Byte) (s : State) : Host.Outcome State Fault Refusal :=
  .next (commitEnterAlignment o args s)

/-- EXIT_ALIGNMENT returns to the state before alignment and discards a pending sample unlogged (R110,
R192). -/
def ownExitAlignment (_args : List Byte) : State → State × Result :=
  acting fun s =>
    match s.stc.beforeAlign with
    | some a =>
      (s.setStc { s.stc with op := a.toOp, beforeAlign := none }).setAln { s.aln with pending := none }
    | none => s

/-- EXIT_ALIGNMENT at its commit (R110). -/
def commitExitAlignment (o : Origin) (args : List Byte) (s : State) : State :=
  commitWith .exitAlignment o args (ownExitAlignment args) s

/-- The meaning of EXIT_ALIGNMENT. -/
def execExitAlignment (o : Origin) (args : List Byte) (s : State) : Host.Outcome State Fault Refusal :=
  .next (commitExitAlignment o args s)

end Sys2Proof.Machine
end

