-- ==== Sys2Proof/Machine/Alignment.lean ====
section
/-! DEFINITION. The alignment unit (12): logging, the sample of CAP0, and what a jump of local time does
to a pending sample. -/

namespace Sys2Proof.Machine

/-- Every outcome joins the tail of the log, pushing out the oldest of eight, and raises the total count
(R191). -/
def Aln.logOutcome (a : Aln) (seq : Byte) (o : SampleOutcome) : Aln :=
  { a with
    log := (if a.log.length < Config.logCapacity then a.log else a.log.drop 1) ++
      [{ seq := seq, outcome := o }]
    total := min 255 (a.total + 1) }

/-- The outcome that a level of CAP0 stands for (R190). -/
def outcomeOf : Level → SampleOutcome
  | .low => .low
  | .high => .high

/-- The sample is taken: the level of CAP0 at this tick is logged and nothing is pending any more
(R194). Reading the level settles the pin's sample of this tick (log 9). -/
def State.takeSample (s : State) (p : Sample) : State :=
  (s.setAln { s.aln.logOutcome p.seq (outcomeOf s.cap.inputs[0].level) with pending := none }).setCap
    (s.cap.update 0 fun i => { i with sampled := true })

/-- Local time has jumped to `t`: a pending sample is taken if the jump lands on it, logged TOO_LATE if
the jump lands later, and stays pending otherwise (R194). -/
def State.jumpSample (s : State) (t : Nat) : State :=
  match s.aln.pending with
  | none => s
  | some p =>
    if s.stc.op = .align then
      if t = p.time then s.takeSample p
      else if p.time < t then
        s.setAln { s.aln.logOutcome p.seq .tooLate with pending := none }
      else s
    else s

end Sys2Proof.Machine
end

