-- ==== Sys2Proof/Machine/Timebase.lean ====
section
/-! DEFINITION. The timebase (03): the advance of local time at an oscillator tick, the processing of a
SYNC, and the sync watch. -/

namespace Sys2Proof.Machine

/-- A local time, where the sum is a valid time; the free value of log 16, kept a valid time, where it
would pass 2^63 − 1 (R45). -/
def landTime (t : Nat) : Nat :=
  if t < Config.timeEnd then t else Config.timePastEnd t % Config.timeEnd

/-- The sync interval in oscillator ticks. -/
def Tbu.intervalTicks (x : Tbu) : Nat :=
  x.syncInterval * Config.ticksPerMs

/-! ### The sync watch (R55 to R57) -/

/-- A watch one oscillator tick later. -/
def Watch.tick (w : Watch) : Watch :=
  { w with left := w.left - 1 }

/-- A watch has reached its deadline. -/
def Watch.over (w : Watch) : Bool :=
  w.left == 0

/-- The watch in force has reached its deadline and its expiry has not been taken yet. -/
def Tbu.watchOver (x : Tbu) : Bool :=
  match x.watch with
  | none => false
  | some w => w.over

/-- A watch started for `n` intervals. -/
def Watch.start (interval n : Nat) : Watch :=
  { interval := interval, left := n * interval }

/-! ### Advance (R47, R53) -/

/-- The share of a slew in progress at one oscillator tick: e/I (R47). -/
def Slew.share (w : Slew) : Rat :=
  if w.left = 0 then 0 else (w.amount : Rat) / (w.interval : Rat)

/-- The slew's share at this tick, none in progress giving none. -/
def Tbu.slewShare (x : Tbu) : Rat :=
  match x.slew with
  | none => 0
  | some w => w.share

/-- What TBU adds to the fraction at one oscillator tick: 1, the rate correction's share and the slew's
(R47). -/
def Tbu.increment (x : Tbu) : Rat :=
  1 + (x.rate : Rat) / 1000000000 + x.slewShare

/-- The ticks by which local time advances at this oscillator tick: the whole part of the sum (R47). -/
def Tbu.advance (x : Tbu) : Nat :=
  (x.fraction + x.increment).floor.toNat

/-- TBU at one oscillator tick: local time advances by the whole part of the sum and the fraction keeps
the rest, the slew has one tick less to run, and the sync watch counts down (R47, R53, R55). -/
def Tbu.tick (x : Tbu) : Tbu :=
  match x.localTime with
  | none => { x with watch := x.watch.map Watch.tick }
  | some t =>
    let sum := x.fraction + x.increment
    { x with
      localTime := some (landTime (t + x.advance))
      fraction := sum - sum.floor
      slew := x.slew.map fun w => { w with left := w.left - 1 }
      watch := x.watch.map Watch.tick
      sinceArrival := x.sinceArrival.map fun n => n + x.advance }

/-! ### Corrections -/

/-- A value held within plus and minus a bound (R47). -/
def heldWithin (bound v : Int) : Int :=
  max (-bound) (min bound v)

/-- The change of the rate correction for an error and a span: e × 10^9 over the span, rounded toward
zero; the free value of log 15 where the span is not positive (R47). -/
def rateChange (e span : Int) : Int :=
  if 0 < span then (e * 1000000000).tdiv span else Config.changeWithoutSpan e span

/-- The rate correction after a SYNC of error `e` corrected by slew; `since` is the duration since its
start delimiter. Without an earlier SYNC there is no span and no change (R47; logs 13 and 14). -/
def Tbu.learnedRate (x : Tbu) (e : Int) (since : Nat) : Int :=
  match x.sinceArrival with
  | none => x.rate
  | some n => heldWithin Config.rateLimit (x.rate + rateChange e ((n : Int) - (since : Int)))

/-- TBU slews an error away: the rate correction is updated and a slew over the interval in force begins
(R47, R53). -/
def Tbu.slewBy (x : Tbu) (e : Int) (since : Nat) : Tbu :=
  { x with
    rate := x.learnedRate e since
    slew := some { amount := e, interval := x.intervalTicks, left := x.intervalTicks } }

/-- The sync watch starts again for two of the sync intervals in force (R55, R57, R60). -/
def Tbu.restartWatch (x : Tbu) : Tbu :=
  { x with watch := some (Watch.start x.intervalTicks 2) }

/-- TBU acquires: ACQUIRING with a count, the ACQUIRING watch started (R49, R50, R57). -/
def Tbu.acquire (x : Tbu) (count : Nat) : Tbu :=
  ({ x with state := .acquiring, acquisitionCount := count }).restartWatch

/-- The records that every processed SYNC leaves: the last sync sequence (R48), the arrival from which
the next span is measured (R47), and no slew of an earlier SYNC (R53). -/
def Tbu.noteSync (x : Tbu) (seq : Byte) (since : Nat) : Tbu :=
  { x with lastSequence := some seq, sinceArrival := some since, slew := none }

/-! ### SYNC (R48 to R54) -/

/-- What a SYNC's judgement asks for. -/
inductive SyncOutcome where
  | set
  | slewTo (state : TbState) (count : Nat)
  | step
  deriving DecidableEq, Repr

/-- The outcomes of R49 to R52 by state and by the size of the error; FREE does not meet a SYNC, which
SELF-TIMED mode ignores (R48). -/
def Tbu.judge (x : Tbu) (size : Nat) : SyncOutcome :=
  match x.state with
  | .unset => .set
  | .acquiring =>
    if size ≤ Config.lockWindow then
      if x.acquisitionCount + 1 < Config.lockCount then .slewTo .acquiring (x.acquisitionCount + 1)
      else .slewTo .locked Config.lockCount
    else .step
  | .unlocked => if size ≤ Config.lockWindow then .slewTo .acquiring 1 else .step
  | .locked => if size ≤ Config.slewLimit then .slewTo .locked x.acquisitionCount else .step
  | .holdover => if size ≤ Config.slewLimit then .slewTo .locked x.acquisitionCount else .step
  | .free => .step

/-- A step of local time to `now` in the direction of `e`, announced to ALN and DPU: a pending sample is
judged (R194), and a forward step in RUN is an evaluation (R37, R39, R54). Leaving LOCKED raises TIMEBASE
(R51, R59). -/
def State.stepTo (s : State) (now : Nat) (e : Int) (x : Tbu) : State :=
  let s1 := s.setTbu (({ x with localTime := some now }).acquire 1)
  let s2 := if s.tbu.state = .locked then s1.raiseCondition .timebase else s1
  let s3 := s2.jumpSample now
  if 0 < e ∧ s3.stc.op = .run then s3.evaluate else s3

/-- TBU processes a SYNC of master time `time`, `since` oscillator ticks after its start delimiter
(R48 to R52). A step or a set brings local time to T + offset plus that duration, since the arrival time
is local time less that duration. -/
def State.processSync (s : State) (time : Nat) (seq : Byte) (since : Nat) : State :=
  let x := s.tbu.noteSync seq since
  let target := time + s.tbu.offset
  match s.tbu.localTime with
  | none => s.setTbu (({ x with localTime := some (landTime (target + since)) }).acquire 1)
  | some t =>
    let e : Int := (target : Int) - ((t : Int) - (since : Int))
    match s.tbu.judge e.natAbs with
    | .set => s.setTbu (({ x with localTime := some (landTime (target + since)) }).acquire 1)
    | .slewTo state count =>
      s.setTbu
        ({ s.tbu.slewBy e since with
          lastSequence := some seq, sinceArrival := some since, state := state,
          acquisitionCount := count }).restartWatch
    | .step => s.stepTo (landTime (target + since)) e x

/-- A SYNC that TBU is handed is ignored in SELF-TIMED mode, for a wrong payload length, and for times
that are not valid (R48). -/
def State.takeSync (s : State) (f : Frame) (since : Nat) : State :=
  let time := beNat f.payload
  if s.tbu.mode = .disciplined ∧ f.payload.length = 8 ∧ time < Config.timeEnd ∧
      time + s.tbu.offset < Config.timeEnd then
    s.processSync time f.seq since
  else s

end Sys2Proof.Machine
end

