-- ==== Sys2Proof/Machine/TimeCommands.lean ====
section
/-! DEFINITION. The commands of the timebase that change it (R60 to R64). -/

namespace Sys2Proof.Machine

/-- The settings of SET_TIMEBASE alone; a slew and a watch already running keep what they began with
(R60). -/
def State.setSettings (s : State) (interval limit : Nat) : State :=
  s.setTbu { s.tbu with syncInterval := interval, holdoverLimit := limit }

/-- TBU after a change of mode (R61, R62): an UNSET timebase stays UNSET, any other goes to FREE or to
UNLOCKED; the slew is dropped, the watch goes idle and the acquisition count is 0. -/
def Tbu.inMode (x : Tbu) (mode : TbMode) : Tbu :=
  { x with
    mode := mode
    state :=
      if x.state = .unset then .unset
      else match mode with
        | .selfTimed => .free
        | .disciplined => .unlocked
    slew := none
    watch := none
    acquisitionCount := 0 }

/-- The change of mode, nothing where the mode named is in force; leaving LOCKED raises TIMEBASE (R59,
R61, R62). -/
def State.changeMode (s : State) (mode : TbMode) : State :=
  if s.tbu.mode = mode then s
  else
    let s1 := s.setTbu (s.tbu.inMode mode)
    if s.tbu.state = .locked then s1.raiseCondition .timebase else s1

/-- SET_TIMEBASE replaces the three settings, and changes the mode where the mode named is not the one in
force, unless entries with REQUIRE_LOCK forbid it (R60 to R62). DESIGN CHOICE (log 31): where both refusals
apply, BAD_ARGUMENT of R60 comes before IN_USE of R61. -/
def ownSetTimebase (args : List Byte) (s : State) : State × Result :=
  let interval := argNat args 1 2
  let limit := argNat args 3 2
  match tbModeOf (argByte args 0) with
  | none => refusing .badArgument s
  | some mode =>
    if interval = 0 ∨ 1000 < interval ∨ limit = 0 ∨ 255 < limit then refusing .badArgument s
    else if s.tbu.mode = .disciplined ∧ mode = .selfTimed ∧ s.sct.requiresLock then refusing .inUse s
    else acting (fun s => (s.changeMode mode).setSettings interval limit) s

/-- SET_TIMEBASE at its commit (R60). -/
def commitSetTimebase (o : Origin) (args : List Byte) (s : State) : State :=
  commitWith .setTimebase o args (ownSetTimebase args) s

/-- The meaning of SET_TIMEBASE. -/
def execSetTimebase (o : Origin) (args : List Byte) (s : State) : Host.Outcome State Fault Refusal :=
  .next (commitSetTimebase o args s)

/-- SET_OFFSET replaces the offset and shifts local time by the difference, refused if local time would
leave its range; a pending sample is judged by where the shift lands (R64, R194, R195). DESIGN CHOICE
(log 30): naming the offset in force moves nothing and is no jump, so that a sample already reached at
this instant is still taken. -/
def ownSetOffset (args : List Byte) (s : State) : State × Result :=
  let new := argNat args 0 2
  match s.tbu.localTime with
  | none => acting (fun s => s.setTbu { s.tbu with offset := new }) s
  | some t =>
    let moved : Int := (t : Int) + (new : Int) - (s.tbu.offset : Int)
    if moved < 0 ∨ (Config.timeEnd : Int) ≤ moved then refusing .badArgument s
    else
      acting
        (fun s =>
          let s1 := s.setTbu { s.tbu with offset := new, localTime := some moved.toNat }
          if new = s.tbu.offset then s1 else s1.jumpSample moved.toNat)
        s

/-- SET_OFFSET at its commit (R64). -/
def commitSetOffset (o : Origin) (args : List Byte) (s : State) : State :=
  commitWith .setOffset o args (ownSetOffset args) s

/-- The meaning of SET_OFFSET. -/
def execSetOffset (o : Origin) (args : List Byte) (s : State) : Host.Outcome State Fault Refusal :=
  .next (commitSetOffset o args s)

/-- SET_TIME sets local time in SELF-TIMED mode, and is refused with WRONG_STATE in DISCIPLINED (R63). -/
def ownSetTime (args : List Byte) (s : State) : State × Result :=
  match s.tbu.mode with
  | .disciplined => refusing .wrongState s
  | .selfTimed =>
    acting
      (fun s =>
        s.setTbu { s.tbu with localTime := some (argNat args 0 8), state := .free, slew := none })
      s

/-- SET_TIME at its commit (R63). -/
def commitSetTime (o : Origin) (args : List Byte) (s : State) : State :=
  commitWith .setTime o args (ownSetTime args) s

/-- The meaning of SET_TIME. -/
def execSetTime (o : Origin) (args : List Byte) (s : State) : Host.Outcome State Fault Refusal :=
  .next (commitSetTime o args s)

end Sys2Proof.Machine
end

