-- ==== Sys2Proof/WellFormed.lean ====
section
/-! DEFINITION. Which terms of Instr are commands of the block: what a row says was heard must be what
its symbols spell, and the command bytes of a commit must fit a frame (log 20). -/

namespace Sys2Proof

/-- Command bytes travel in a payload of at most 56 bytes (R140, R123), the select mask less. -/
def bytesFit (o : Origin) (bytes : List Byte) : Bool :=
  match o with
  | .broadcast => decide (bytes.length ≤ 52)
  | _ => decide (bytes.length ≤ 56)

/-- The first command byte names no command, or there is none (R130 step 1). -/
def codeUnknown : List Byte → Bool
  | [] => true
  | b :: _ => (Cmd.ofCode b).isNone

/-- A command of the block. -/
def Instr.wf : Instr → Bool
  | .hardReset _ => true
  | .commandFrame h => h.isKind 0x01#8
  | .poll h _ => h.isKind 0x02#8
  | .transmitStart => true
  | .transmitEnd => true
  | .replyAbandoned => true
  | .sync h _ => h.isKind 0x03#8
  | .probe h _ => h.isKind 0x04#8
  | .wake h => h.isKind 0x05#8
  | .fill h => h.isKind 0x06#8
  | .otherIntactFrame h => h.isOther
  | .faultReport h => h.isFault
  | .quiesceEnd => true
  | .stagingExpiry => true
  | .syncWatchLockedExpiry => true
  | .syncWatchHoldoverExpiry => true
  | .syncWatchAcquiringExpiry => true
  | .slewEnd => true
  | .wakeDelayEnd => true
  | .headReached => true
  | .pulseEnd _ => true
  | .windowEnd _ => true
  | .deadTimeEnd _ => true
  | .captureEdge _ _ => true
  | .sampleReached => true
  | .getStatus o args => bytesFit o (Cmd.code .getStatus :: args)
  | .getFaultRecord o args => bytesFit o (Cmd.code .getFaultRecord :: args)
  | .clearFault o args => bytesFit o (Cmd.code .clearFault :: args)
  | .softReset o args => bytesFit o (Cmd.code .softReset :: args)
  | .echo o args => bytesFit o (Cmd.code .echo :: args)
  | .ackAttention o args => bytesFit o (Cmd.code .ackAttention :: args)
  | .setAttentionMask o args => bytesFit o (Cmd.code .setAttentionMask :: args)
  | .start o args => bytesFit o (Cmd.code .start :: args)
  | .park o args => bytesFit o (Cmd.code .park :: args)
  | .resume o args => bytesFit o (Cmd.code .resume :: args)
  | .enterDormant o args => bytesFit o (Cmd.code .enterDormant :: args)
  | .enterAlignment o args => bytesFit o (Cmd.code .enterAlignment :: args)
  | .exitAlignment o args => bytesFit o (Cmd.code .exitAlignment :: args)
  | .getAlignment o args => bytesFit o (Cmd.code .getAlignment :: args)
  | .setCommitLag o args => bytesFit o (Cmd.code .setCommitLag :: args)
  | .setFaultMode o args => bytesFit o (Cmd.code .setFaultMode :: args)
  | .setGroups o args => bytesFit o (Cmd.code .setGroups :: args)
  | .readConfig o args => bytesFit o (Cmd.code .readConfig :: args)
  | .setTimebase o args => bytesFit o (Cmd.code .setTimebase :: args)
  | .setOffset o args => bytesFit o (Cmd.code .setOffset :: args)
  | .setTime o args => bytesFit o (Cmd.code .setTime :: args)
  | .setLateTolerance o args => bytesFit o (Cmd.code .setLateTolerance :: args)
  | .getTime o args => bytesFit o (Cmd.code .getTime :: args)
  | .configureChannel o args => bytesFit o (Cmd.code .configureChannel :: args)
  | .configureInput o args => bytesFit o (Cmd.code .configureInput :: args)
  | .addEntry o args => bytesFit o (Cmd.code .addEntry :: args)
  | .cancelEntry o args => bytesFit o (Cmd.code .cancelEntry :: args)
  | .cancelGroup o args => bytesFit o (Cmd.code .cancelGroup :: args)
  | .flushSchedule o args => bytesFit o (Cmd.code .flushSchedule :: args)
  | .queryEntry o args => bytesFit o (Cmd.code .queryEntry :: args)
  | .listSchedule o args => bytesFit o (Cmd.code .listSchedule :: args)
  | .readEvents o args => bytesFit o (Cmd.code .readEvents :: args)
  | .unknownCommand o bytes => bytesFit o bytes && codeUnknown bytes
  | .discardingEnd _ => true

/-- `Instr.wf` as a proposition. -/
abbrev Instr.WellFormed (i : Instr) : Prop := i.wf = true

end Sys2Proof
end

