-- ==== Sys2Proof/Machine/Intake.lean ====
section
/-! DEFINITION. Command intake (07): the commit of a staged command, counting, acceptance, the chain of
commits, expiry and voiding. -/

namespace Sys2Proof.Machine

/-- The meaning of UNKNOWN_COMMAND (R130 step 1); a term whose code is known is no such command (log
20). -/
def execUnknownCommand (o : Origin) (bytes : List Byte) (s : State) : Host.Outcome State Fault Refusal :=
  if codeUnknown bytes then .next (commitUnknown o s) else .refused .illFormed

/-- The commit that a row of the table stands for; the rows that commit nothing leave the part as it is. -/
def commitRow (i : Instr) (s : State) : State :=
  match i with
  | .hardReset _ => s
  | .commandFrame _ => s
  | .poll _ _ => s
  | .transmitStart => s
  | .transmitEnd => s
  | .replyAbandoned => s
  | .sync _ _ => s
  | .probe _ _ => s
  | .wake _ => s
  | .fill _ => s
  | .otherIntactFrame _ => s
  | .faultReport _ => s
  | .quiesceEnd => s
  | .stagingExpiry => s
  | .syncWatchLockedExpiry => s
  | .syncWatchHoldoverExpiry => s
  | .syncWatchAcquiringExpiry => s
  | .slewEnd => s
  | .wakeDelayEnd => s
  | .headReached => s
  | .pulseEnd _ => s
  | .windowEnd _ => s
  | .deadTimeEnd _ => s
  | .captureEdge _ _ => s
  | .sampleReached => s
  | .getStatus o args => commitGetStatus o args s
  | .getFaultRecord o args => commitGetFaultRecord o args s
  | .clearFault o args => commitClearFault o args s
  | .softReset o args => commitSoftReset o args s
  | .echo o args => commitEcho o args s
  | .ackAttention o args => commitAckAttention o args s
  | .setAttentionMask o args => commitSetAttentionMask o args s
  | .start o args => commitStart o args s
  | .park o args => commitPark o args s
  | .resume o args => commitResume o args s
  | .enterDormant o args => commitEnterDormant o args s
  | .enterAlignment o args => commitEnterAlignment o args s
  | .exitAlignment o args => commitExitAlignment o args s
  | .getAlignment o args => commitGetAlignment o args s
  | .setCommitLag o args => commitSetCommitLag o args s
  | .setFaultMode o args => commitSetFaultMode o args s
  | .setGroups o args => commitSetGroups o args s
  | .readConfig o args => commitReadConfig o args s
  | .setTimebase o args => commitSetTimebase o args s
  | .setOffset o args => commitSetOffset o args s
  | .setTime o args => commitSetTime o args s
  | .setLateTolerance o args => commitSetLateTolerance o args s
  | .getTime o args => commitGetTime o args s
  | .configureChannel o args => commitConfigureChannel o args s
  | .configureInput o args => commitConfigureInput o args s
  | .addEntry o args => commitAddEntry o args s
  | .cancelEntry o args => commitCancelEntry o args s
  | .cancelGroup o args => commitCancelGroup o args s
  | .flushSchedule o args => commitFlushSchedule o args s
  | .queryEntry o args => commitQueryEntry o args s
  | .listSchedule o args => commitListSchedule o args s
  | .readEvents o args => commitReadEvents o args s
  | .unknownCommand o _ => commitUnknown o s
  | .discardingEnd _ => s

/-- The commit of a staged command (R130). -/
def commitStaged (c : Staged) (s : State) : State :=
  commitRow (Instr.ofStaged c.origin c.bytes) s

/-! ### At the end of a counted frame (R127, R128) -/

/-- Each command staged before the frame ended waits for one frame less (R127). -/
def State.countFrame (s : State) : State :=
  s.setCin { s.cin with queue := s.cin.queue.map fun c => { c with remaining := c.remaining - 1 } }

/-- The chain of commits: while the head has remaining count 0 it leaves the queue and commits (R128).
`fuel` bounds the commits by the length of the queue, which no commit makes longer. DESIGN CHOICE
(logs 26 and 32): nothing else of this instant falls between two commits, but an edge at a moment of an
evaluation that a commit makes. -/
def commitChain : Nat → State → State
  | 0, s => s
  | fuel + 1, s =>
    match s.cin.queue with
    | [] => s
    | c :: rest =>
      if c.remaining = 0 then commitChain fuel (commitStaged c (s.setCin { s.cin with queue := rest }))
      else s

/-- The commits and then the staging expiry timer, started again or idle (R127, R128). -/
def State.commitAll (s : State) : State :=
  let s1 := commitChain s.cin.queue.length s
  s1.setCin s1.cin.restartExpiry

/-! ### Acceptance (R124 to R126) -/

/-- The bit of a select mask, the first four payload bytes of a broadcast, for the part's unit address
(R147). -/
def selected (payload : List Byte) (s : State) : Bool :=
  (beNat (payload.take 4)).testBit s.lnk.unitAddress.toNat

/-- A unit address as a destination: the part's own, and not 0 (R145). -/
def State.isOwnAddress (s : State) (dest : Byte) : Bool :=
  decide (1 ≤ dest.toNat ∧ dest.toNat ≤ 31 ∧ dest.toNat = s.lnk.unitAddress.toNat)

/-- A group destination: 32 + g with the part's membership bit for g set (R145, R149). -/
def State.isOwnGroup (s : State) (dest : Byte) : Bool :=
  decide (32 ≤ dest.toNat ∧ dest.toNat ≤ 47) && s.lnk.groups.getLsbD (dest.toNat - 32)

/-- The origin of a COMMAND that matches the part; none where it does not match (R124 test 2, R146). -/
def State.commandOrigin (s : State) (f : Frame) : Option Origin :=
  if f.dest = 0 then
    if 4 ≤ f.payload.length ∧ selected f.payload s then some .broadcast else none
  else if s.isOwnAddress f.dest then some (.unit f.seq)
  else if s.isOwnGroup f.dest then some .group
  else none

/-- The command bytes: the payload, less the select mask of a broadcast (R123). -/
def commandBytes (o : Origin) (payload : List Byte) : List Byte :=
  match o with
  | .broadcast => payload.drop 4
  | _ => payload

/-- A UNIT command whose sequence stands in the outbox is a duplicate (R125). -/
def State.isDuplicate (s : State) (o : Origin) : Bool :=
  match o with
  | .unit seq => s.rpu.holds seq
  | .broadcast => false
  | .group => false

/-- A full staging queue, or for a UNIT command a full outbox, drops a command (R126). -/
def State.noRoom (s : State) (o : Origin) : Bool :=
  decide (Config.stagingCapacity ≤ s.cin.queue.length) ||
    (match o with
      | .unit _ => decide (Config.outboxCapacity ≤ s.rpu.outbox.length)
      | .broadcast => false
      | .group => false)

/-- The command joins the tail of the staging queue, a UNIT one with a reservation (R126). -/
def State.stage (s : State) (o : Origin) (bytes : List Byte) : State :=
  let s1 := match o with
    | .unit seq => s.reserve seq
    | .broadcast => s
    | .group => s
  s1.setCin
    { s1.cin with
      queue := s1.cin.queue ++ [{ origin := o, bytes := bytes, remaining := s1.cin.lag }] }

/-- Tests 2 to 6 of R124 on a COMMAND frame: no match, duplicate, dropped with DROPPED set, or accepted. -/
def State.intake (s : State) (f : Frame) : State :=
  match s.commandOrigin f with
  | none => s
  | some o =>
    if s.isDuplicate o then s
    else if s.noRoom o then s.raiseCondition .dropped
    else s.stage o (commandBytes o f.payload)

/-! ### Expiry and voiding -/

/-- The staging expiry timer has run out: every staged command leaves the queue, UNIT ones with EXPIRED
(R133). -/
def State.expireStaging (s : State) : State :=
  if ranOut s.cin.expiry then s.emptyQueue .expired else s

/-- IMN asks CIN to void the staging queue, UNIT commands with VOIDED (R136). -/
def State.voidStaging (s : State) : State :=
  s.emptyQueue .voided

end Sys2Proof.Machine
end

