-- ==== Sys2Proof/Machine/Link.lean ====
section
/-! DEFINITION. The link interface (08), the reply unit's answer to a POLL (09) and the integrity
monitor's answer to a fault (10): hearing symbols, faults, polling, probes and wake requests. -/

namespace Sys2Proof.Machine

/-! ### Hearing (R140, R142, R143, R153) -/

/-- The transmitter drives the pair (R153). -/
def State.sending (s : State) : Bool :=
  match s.lnk.transmitter with
  | .sending _ => true
  | .waiting _ _ _ => false
  | .idle => false

/-- A start delimiter now would be received: no quiesce, not WAKING (R143). -/
def State.hearsStart (s : State) : Bool :=
  s.imn.quiesce.isNone && s.stc.op != .waking

/-- A frame whose start delimiter came `since` ticks ago began while the receiver could take it (R143,
R118; log 1). -/
def State.startHeard (s : State) (since : Nat) : Bool :=
  s.hearsStart && decide (since ≤ s.lnk.freeFor)

/-- A reply still WAITING is abandoned at a start delimiter from another party (R152). -/
def Transmitter.abandon : Transmitter → Transmitter
  | .waiting _ _ _ => .idle
  | .idle => .idle
  | .sending reply => .sending reply

/-- The receiver was LISTENING when the start delimiter came `since` ticks ago, in quiesce or WAKING or not;
else it received none, after a hard reset, its own transmission or a run it passed over (R140, R153;
log 1). -/
def State.startMet (s : State) (since : Nat) : Bool :=
  decide (since ≤ s.lnk.freeFor + s.lnk.quietFor)

/-- The run's own start delimiter would fall inside the frame in reception, or before it. It would have
broken that frame off at its own symbol, with a FAULT_REPORT of FRAMING given there (R142, R143, R173), so
such a run is not one that the part can have heard (log 1). -/
def State.breaksOff (s : State) (h : Heard) : Bool :=
  match s.lnk.receiver, s.lnk.reception with
  | .receiving, some f => h.since != f.age
  | _, _ => false

/-- A start delimiter came with the run: in LISTENING the one before it, where the receiver was there to
meet it, or one at its end; in the other modes the frame that is under way has begun with one (R140,
R152). -/
def State.meetsStart (s : State) (h : Heard) : Bool :=
  match s.lnk.receiver with
  | .listening => s.startMet h.since || h.symbols.contains .start
  | .receiving => true
  | .discarding => true
  | .off => false

/-- What the receiver makes of a run of symbols, from the mode it is in. In RECEIVING the run goes on
with the frame in reception (R143). A run whose start delimiter was not received is only what follows it
(R140). -/
def State.receive (s : State) (h : Heard) : Receiver × Option Reception × Verdict :=
  match s.lnk.receiver, s.lnk.reception with
  | .receiving, some f => rxSymbols false .receiving (some f) h.symbols
  | r, f =>
    if s.startMet h.since then rxSymbols (!s.startHeard h.since) r f (.start :: h.symbols)
    else rxSymbols (!s.hearsStart) r f h.symbols

/-- LNK after symbols: the receiver's new mode and reception, a reply still WAITING abandoned if a start
delimiter came with them, and the next frame to begin after this instant (R143, R152). -/
def State.afterReceiving (s : State) (started : Bool) (r : Receiver) (f : Option Reception) : State :=
  s.setLnk
    { s.lnk with
      receiver := r, reception := f
      transmitter := if started then s.lnk.transmitter.abandon else s.lnk.transmitter
      freeFor := 0, quietFor := 0 }

/-! ### Faults (R173 to R178, R111) -/

/-- The fault record of a fault found now (R171). -/
def State.faultRecord (s : State) (k : FaultKind) (header : List Byte) (voided : Nat) : FaultRecord :=
  { kind := k, time := s.tbu.localTime, op := s.stc.op, header := header, voided := voided }

/-- The flag, record and count at a report: a first fault writes the record, a later one raises the count
(R174, R176); the quiesce starts again (R177). -/
def Imn.report (x : Imn) (r : FaultRecord) : Imn :=
  { x with
    flag := true
    record := if x.flag then x.record else some r
    count := if x.flag then min 255 (x.count + 1) else 1
    quiesce := some Config.quiesceTicks }

/-- The state that FAULT_HOLD remembers (R111). -/
def OpState.held : OpState → Option HeldState
  | .config => some .config
  | .run => some .run
  | .parked => some .parked
  | .align => some .align
  | .faultHold => none
  | .dormant => none
  | .waking => none

/-- STC's answer to a fault in LATCHED mode: FAULT_HOLD with the state remembered, a pending sample
discarded unlogged; in FAULT_HOLD no change (R111, R192). -/
def State.hold (s : State) : State :=
  match s.stc.op.held with
  | none => s
  | some h =>
    let s1 := (s.goTo .faultHold).setAln { s.aln with pending := none }
    s1.setStc { s1.stc with beforeFault := some h }

/-- IMN's six steps at a fault report in an accepting state (R173). -/
def State.reportFault (s : State) (k : FaultKind) (header : List Byte) : State :=
  let voided := s.cin.queue.length
  let s1 := s.voidStaging
  let s2 := s1.setImn (s1.imn.report (s.faultRecord k header voided))
  let s3 := s2.raiseCondition .fault
  match s.imn.mode with
  | .latched => s3.hold
  | .persistent => s3

/-- A fault found by the receiver: reported in the accepting states, ignored in DORMANT (R142, R179). -/
def State.takeFault (s : State) (k : FaultKind) (header : List Byte) : State :=
  if s.stc.op.accepting then s.reportFault k header else s

/-! ### Polling (R159 to R162, R151, R152) -/

/-- The acknowledge removes a READY head that it names (R159). -/
def Rpu.acknowledge (r : Rpu) (valid : Bool) (seq : Byte) : Rpu :=
  match r.outbox with
  | [] => r
  | x :: rest => if valid ∧ x.result.isSome ∧ x.seq = seq then { outbox := rest } else r

/-- Reply kind, frame sequence, result code and result payload of the one reply that answers the head
(R160; codes in R198). -/
def Rpu.answer (r : Rpu) : Nat × Byte × Nat × List Byte :=
  match r.outbox with
  | [] => (0, 0, 0, [])
  | x :: _ =>
    match x.result with
    | none => (1, x.seq, 0, [])
    | some y => (2, x.seq, y.code.code, y.payload)

/-- The REPLY frame built from the outbox and the state of the part (R152, R161, R200). -/
def State.replyFrame (s : State) : Frame :=
  let (kind, seq, code, payload) := s.rpu.answer
  { dest := 63, kind := 0x81, seq := seq
    payload := byteOf kind ++ byteOf s.lnk.unitAddress.toNat ++ byteOf code ++ s.summary ++ payload }

/-- RPU is handed a POLL addressed to the part's own non-zero unit address, one byte long, in an
accepting state (R144, R146). -/
def State.pollsMe (s : State) (f : Frame) : Bool :=
  s.stc.op.accepting && s.isOwnAddress f.dest && decide (f.payload.length = 1)

/-- RPU's handling of a POLL: the acknowledge, then one reply, which the transmitter holds WAITING (R159,
R160, R152). -/
def State.handlePoll (s : State) (f : Frame) : State :=
  if s.pollsMe f then
    let s1 := s.setRpu (s.rpu.acknowledge ((f.payload.headD 0).getLsbD 0) f.seq)
    (s1.setLnk { s1.lnk with transmitter := .waiting s1.replyFrame.bytes 0 s1.draws }).draw
  else s

/-! ### SYNC, PROBE and WAKE (R48, R193, R116) -/

/-- TBU is handed a SYNC with destination 0 in an accepting state (R48, R144). -/
def State.handleSync (s : State) (f : Frame) (since : Nat) : State :=
  if s.stc.op.accepting ∧ f.dest = 0 then s.takeSync f since else s

/-- A PROBE matches by broadcast, unit address or group, with 8 payload bytes and the time's top bit
clear (R146). -/
def State.probesMe (s : State) (f : Frame) : Bool :=
  (f.dest == 0 || s.isOwnAddress f.dest || s.isOwnGroup f.dest) &&
    decide (f.payload.length = 8 ∧ beNat f.payload < Config.timeEnd)

/-- ALN judges a PROBE in ALIGN: TOO_LATE, or the pending sample, an older one logged SUPERSEDED (R193). -/
def State.takeProbe (s : State) (m : Nat) (seq : Byte) : State :=
  match s.tbu.localTime with
  | none => s
  | some t =>
    if m ≤ t then s.setAln (s.aln.logOutcome seq .tooLate)
    else
      let a := match s.aln.pending with
        | some p => s.aln.logOutcome p.seq .superseded
        | none => s.aln
      s.setAln { a with pending := some { time := m, seq := seq } }

/-- ALN is handed a PROBE; outside ALIGN it has no effect (R193). -/
def State.handleProbe (s : State) (f : Frame) : State :=
  if s.stc.op = .align ∧ s.probesMe f then s.takeProbe (beNat f.payload) f.seq else s

/-- A WAKE matches by broadcast select mask alone in the payload, or with an empty payload by unit
address or group (R116). -/
def State.wakesMe (s : State) (f : Frame) : Bool :=
  (f.dest == 0 && decide (f.payload.length = 4) && selected f.payload s) ||
    (decide (f.payload.length = 0) && (s.isOwnAddress f.dest || s.isOwnGroup f.dest))

/-- A WAKE that ends in DORMANT: a matching one takes the part to WAKING and starts the wake delay
(R116). -/
def State.handleWake (s : State) (f : Frame) : State :=
  if s.stc.op = .dormant ∧ s.wakesMe f then
    s.setStc { s.stc with op := .waking, wakeDelay := some Config.wakeTicks }
  else s

/-! ### The end of an intact frame (R144) -/

/-- Counting, and the commits that follow, for a frame that carries no command for intake (R127, R128). -/
def State.countAndCommit (s : State) : State :=
  s.countFrame.commitAll

/-- A frame that the part hears runs through the receiver; an intact one is handed on, a fault is taken
(R142, R144). While the part transmits, and in hard reset, nothing is heard (R139, R153), and a run that
would have broken off the frame in reception is no event (R173; log 1). -/
def State.hear (s : State) (h : Heard) (onIntact : State → Frame → State) : State :=
  if s.sending || s.inReset || s.breaksOff h then s
  else
    let after := s.afterReceiving (s.meetsStart h)
    match s.receive h with
    | (r, f, .nothing) => after r f
    | (r, f, .intact x) => onIntact (after r f) x
    | (r, f, .fault k header) => (after r f).takeFault k header

end Sys2Proof.Machine
end

