-- ==== Sys2Proof/Machine/Events.lean ====
section
/-! DEFINITION. The meanings of the rows that no frame brings: the hard reset, the ends of durations, the
moments of local time, and the edges of the capture pins. An event whose condition does not hold has not
happened, and its row leaves the part as it is (log 4). -/

namespace Sys2Proof.Machine

/-! ### The hard reset (R119) -/

/-- Every block at its hard reset values, with an LNK record; the pins' sampled levels are the pins' own,
and the queue is not the part's (R119, R121). -/
def State.resetWith (s : State) (lnk : Lnk) : State :=
  { State.reset with
    lnk := lnk
    cap := { inputs := s.cap.inputs.map fun i => Input.reset i.level i.sampled, waiting := [] }
    pending := s.pending
    draws := s.draws }

/-- A hard reset: the whole of it; its beginning, with the receiver OFF and the unit address not yet read;
or its end, at which the straps are read (R139, R148; log 10). -/
def State.hardReset (s : State) (phase : ResetPhase) : State :=
  match phase with
  | .whole straps => s.resetWith (Lnk.reset straps)
  | .asserted => s.resetWith { Lnk.reset s.lnk.unitAddress with receiver := .off }
  | .released straps => if s.inReset then s.resetWith (Lnk.reset straps) else s

/-- The meaning of HARD_RESET (R119). -/
def execHardReset (phase : ResetPhase) (s : State) : Host.Outcome State Fault Refusal :=
  .next (s.hardReset phase)

/-! ### Ends of durations -/

/-- The quiesce ends; a frame that is received begins after it (R177). -/
def State.endQuiesce (s : State) : State :=
  if ranOut s.imn.quiesce then
    (s.setImn { s.imn with quiesce := none }).setLnk { s.lnk with freeFor := 0 }
  else s

/-- The meaning of QUIESCE_END (R177). -/
def execQuiesceEnd (s : State) : Host.Outcome State Fault Refusal :=
  .next s.endQuiesce

/-- The meaning of STAGING_EXPIRY (R133). -/
def execStagingExpiry (s : State) : Host.Outcome State Fault Refusal :=
  .next s.expireStaging

/-- A running watch goes on for one more of the intervals it counts: it uses a new sync interval from the
next SYNC on (R60). -/
def Tbu.continueWatch (x : Tbu) : Tbu :=
  { x with watch := x.watch.map fun w => Watch.start w.interval 1 }

/-- The LOCKED watch expires: HOLDOVER with count 0, TIMEBASE set, and the watch goes on counting the
interval it was started with (R55, R56, R60; log 18). -/
def State.expireLocked (s : State) : State :=
  if s.tbu.state = .locked ∧ s.tbu.watchOver then
    (s.setTbu ({ s.tbu with state := .holdover, holdoverCount := 0 } : Tbu).continueWatch).raiseCondition
      .timebase
  else s

/-- The meaning of SYNC_WATCH_LOCKED_EXPIRY (R55). -/
def execSyncWatchLockedExpiry (s : State) : Host.Outcome State Fault Refusal :=
  .next s.expireLocked

/-- A holdover interval has passed: the count rises, and at the limit the timebase is UNLOCKED, TIMEBASE
is set and the watch goes idle; else the next expiry comes one of the intervals in force later (R56, R60). -/
def State.expireHoldover (s : State) : State :=
  if s.tbu.state = .holdover ∧ s.tbu.watchOver then
    let count := min 255 (s.tbu.holdoverCount + 1)
    if s.tbu.holdoverLimit ≤ count then
      (s.setTbu { s.tbu with state := .unlocked, holdoverCount := count, watch := none }).raiseCondition
        .timebase
    else
      s.setTbu
        { s.tbu with holdoverCount := count, watch := some (Watch.start s.tbu.intervalTicks 1) }
  else s

/-- The meaning of SYNC_WATCH_HOLDOVER_EXPIRY (R56). -/
def execSyncWatchHoldoverExpiry (s : State) : Host.Outcome State Fault Refusal :=
  .next s.expireHoldover

/-- The ACQUIRING watch expires: UNLOCKED with acquisition count 0, without TIMEBASE (R57). -/
def State.expireAcquiring (s : State) : State :=
  if s.tbu.state = .acquiring ∧ s.tbu.watchOver then
    s.setTbu { s.tbu with state := .unlocked, acquisitionCount := 0, watch := none }
  else s

/-- The meaning of SYNC_WATCH_ACQUIRING_EXPIRY (R57). -/
def execSyncWatchAcquiringExpiry (s : State) : Host.Outcome State Fault Refusal :=
  .next s.expireAcquiring

/-- Whether a slew has run through its interval (R53). -/
def Slew.over (w : Slew) : Bool :=
  w.left == 0

/-- A slew that completes its interval ends (R53). -/
def State.endSlew (s : State) : State :=
  match s.tbu.slew with
  | none => s
  | some w => if w.over then s.setTbu { s.tbu with slew := none } else s

/-- The meaning of SLEW_END (R53). -/
def execSlewEnd (s : State) : Host.Outcome State Fault Refusal :=
  .next s.endSlew

/-- The wake delay runs out: CONFIG, and the first frame heard begins after it (R118). -/
def State.endWakeDelay (s : State) : State :=
  if s.stc.op = .waking ∧ ranOut s.stc.wakeDelay then
    (s.setStc { s.stc with op := .config, wakeDelay := none }).setLnk { s.lnk with freeFor := 0 }
  else s

/-- The meaning of WAKE_DELAY_END (R118). -/
def execWakeDelayEnd (s : State) : Host.Outcome State Fault Refusal :=
  .next s.endWakeDelay

/-- A pulse ends when its remaining width is 0: none is in flight, and base level and overlap flag stay
(R74). -/
def State.endPulse (s : State) (n : Fin 16) : State :=
  if ranOut s.out.channels[n].pulse then
    s.setOut (s.out.update n fun c => { c with pulse := none })
  else s

/-- The meaning of PULSE_END (R74). -/
def execPulseEnd (channel : Fin 16) (s : State) : Host.Outcome State Fault Refusal :=
  .next (s.endPulse channel)

/-- A capture window closes when its remaining length is 0 (R92). -/
def State.endWindow (s : State) (n : Fin 4) : State :=
  if ranOut s.cap.inputs[n].window then
    s.setCap (s.cap.update n fun i => { i with window := none })
  else s

/-- The meaning of WINDOW_END (R92). -/
def execWindowEnd (input : Fin 4) (s : State) : Host.Outcome State Fault Refusal :=
  .next (s.endWindow input)

/-- A dead time that has run to 0 is as if there were no last recorded edge (R85, R89). -/
def State.endDeadTime (s : State) (n : Fin 4) : State :=
  if ranOut s.cap.inputs[n].lastEdge then
    s.setCap (s.cap.update n fun i => { i with lastEdge := none })
  else s

/-- The meaning of DEAD_TIME_END (R89). -/
def execDeadTimeEnd (input : Fin 4) (s : State) : Host.Outcome State Fault Refusal :=
  .next (s.endDeadTime input)

/-! ### Moments of local time -/

/-- Local time has reached a due time or a sample time. -/
def State.reached (s : State) (t : Nat) : Bool :=
  match s.tbu.localTime with
  | none => false
  | some now => decide (t ≤ now)

/-- In RUN the head is reached: the on-time batch for its due time is fired (R26). -/
def State.reachHead (s : State) : State :=
  match s.sct.entries with
  | [] => s
  | e :: _ =>
    if s.stc.op = .run ∧ s.reached e.due then fireBatch e.due s.sct.entries.length s else s

/-- The meaning of HEAD_REACHED (R26). -/
def execHeadReached (s : State) : Host.Outcome State Fault Refusal :=
  .next s.reachHead

/-- In ALIGN the pending sample is reached: the level of CAP0 is logged (R194). -/
def State.reachSample (s : State) : State :=
  match s.aln.pending with
  | none => s
  | some p => if s.stc.op = .align ∧ s.reached p.time then s.takeSample p else s

/-- The meaning of SAMPLE_REACHED (R194). -/
def execSampleReached (s : State) : Host.Outcome State Fault Refusal :=
  .next s.reachSample

/-! ### Edges of the capture pins (R87 to R90) -/

/-- The meaning of CAPTURE_EDGE (R88). -/
def execCaptureEdge (input : Fin 4) (edge : PinEdge) (s : State) : Host.Outcome State Fault Refusal :=
  .next (s.captureEdge input edge)

end Sys2Proof.Machine
end

