-- ==== Sys2Proof/Machine/Frames.lean ====
section
/-! DEFINITION. The meanings of the link rows: the frames, faults, and the transmitter. A frame that is
counted is counted in the accepting states only (R124 test 1, R127). -/

namespace Sys2Proof.Machine

/-- A COMMAND frame at its end: counted, then taken in, then the commits (R124, R127, R128). -/
def State.endCommand (s : State) (f : Frame) : State :=
  if s.stc.op.accepting then (s.countFrame.intake f).commitAll else s

/-- A POLL at its end, in one of the orders of R132 and R164. DESIGN CHOICE (logs 26 and 32): but for the
staging expiry of R164, nothing else of this instant falls between its handling, with the summary that it
builds (R162), and its counting: no edge, no sync watch expiry, no occurrence of dispatch, no other row. -/
def State.endPoll (order : PollOrder) (s : State) (f : Frame) : State :=
  if s.stc.op.accepting then
    match order with
    | .commits => s.countAndCommit.handlePoll f
    | .handling => (s.handlePoll f).countAndCommit
    | .handlingThenExpiry => (s.handlePoll f).expireStaging.countAndCommit
  else s

/-- A SYNC at its end, in one of the orders of R132. DESIGN CHOICE (logs 26 and 32): nothing else of this
instant falls between its handling and its counting, but an edge at a moment of an evaluation that either
makes. -/
def State.endSync (order : TakenFirst) (since : Nat) (s : State) (f : Frame) : State :=
  if s.stc.op.accepting then
    match order with
    | .commits => s.countAndCommit.handleSync f since
    | .handling => (s.handleSync f since).countAndCommit
  else s

/-- A PROBE at its end, in one of the orders of R132, R150 and R196. DESIGN CHOICE (logs 26 and 32): nothing
else of this instant falls between its handling and its counting, but an edge at a moment of an evaluation
that a commit makes. -/
def State.endProbe (order : TakenFirst) (s : State) (f : Frame) : State :=
  if s.stc.op.accepting then
    match order with
    | .commits => s.countAndCommit.handleProbe f
    | .handling => (s.handleProbe f).countAndCommit
  else s

/-- A WAKE at its end: in DORMANT it may wake the part; in the accepting states it is an intact frame and
no more, even where its counting commits an ENTER_DORMANT (R116, R117). -/
def State.endWake (s : State) (f : Frame) : State :=
  if s.stc.op.accepting then s.countAndCommit else s.handleWake f

/-- Any other frame at its end: counted only (R144). -/
def State.endOther (s : State) (_f : Frame) : State :=
  if s.stc.op.accepting then s.countAndCommit else s

/-! ### The rows -/

/-- The meaning of COMMAND_FRAME (R124). -/
def execCommandFrame (h : Heard) (s : State) : Host.Outcome State Fault Refusal :=
  if h.isKind 0x01#8 then .next (s.hear h State.endCommand) else .refused .illFormed

/-- The meaning of POLL (R160). -/
def execPoll (h : Heard) (order : PollOrder) (s : State) : Host.Outcome State Fault Refusal :=
  if h.isKind 0x02#8 then .next (s.hear h (State.endPoll order)) else .refused .illFormed

/-- The meaning of SYNC (R48). -/
def execSync (h : Heard) (order : TakenFirst) (s : State) : Host.Outcome State Fault Refusal :=
  if h.isKind 0x03#8 then .next (s.hear h (State.endSync order h.since)) else .refused .illFormed

/-- The meaning of PROBE (R193). -/
def execProbe (h : Heard) (order : TakenFirst) (s : State) : Host.Outcome State Fault Refusal :=
  if h.isKind 0x04#8 then .next (s.hear h (State.endProbe order)) else .refused .illFormed

/-- The meaning of WAKE (R116, R117). -/
def execWake (h : Heard) (s : State) : Host.Outcome State Fault Refusal :=
  if h.isKind 0x05#8 then .next (s.hear h State.endWake) else .refused .illFormed

/-- The meaning of FILL (R144). -/
def execFill (h : Heard) (s : State) : Host.Outcome State Fault Refusal :=
  if h.isKind 0x06#8 then .next (s.hear h State.endOther) else .refused .illFormed

/-- The meaning of OTHER_INTACT_FRAME (R144). -/
def execOtherIntactFrame (h : Heard) (s : State) : Host.Outcome State Fault Refusal :=
  if h.isOther then .next (s.hear h State.endOther) else .refused .illFormed

/-- The meaning of FAULT_REPORT (R173). -/
def execFaultReport (h : Heard) (s : State) : Host.Outcome State Fault Refusal :=
  if h.isFault then .next (s.hear h State.endOther) else .refused .illFormed

/-- The waiting transmitter begins its frame, 4 to 12 µs after the POLL's end; the receiver hears nothing
from here on (R152, R153). -/
def State.startTransmission (s : State) : State :=
  match s.lnk.transmitter with
  | .waiting reply age _ =>
    if Config.replyEarliest ≤ age ∧ age ≤ Config.replyLatest then
      s.setLnk { s.lnk with transmitter := .sending reply, freeFor := 0, quietFor := 0 }
    else s
  | .idle => s
  | .sending _ => s

/-- The meaning of TRANSMIT_START (R152). -/
def execTransmitStart (s : State) : Host.Outcome State Fault Refusal :=
  .next s.startTransmission

/-- At its own end delimiter the part releases the pair and listens again (R153). -/
def State.endTransmission (s : State) : State :=
  if s.sending then s.setLnk { s.lnk with transmitter := .idle, freeFor := 0, quietFor := 0 } else s

/-- The meaning of TRANSMIT_END (R153). -/
def execTransmitEnd (s : State) : Host.Outcome State Fault Refusal :=
  .next s.endTransmission

/-- A start delimiter from another party abandons a reply that is WAITING, and the receiver takes the new
frame as usual (R152). -/
def State.abandonReply (s : State) : State :=
  match s.lnk.transmitter with
  | .waiting _ _ _ =>
    let (r, f, _) := rxSymbol (!s.hearsStart) s.lnk.receiver s.lnk.reception .start
    s.afterReceiving true r f
  | .idle => s
  | .sending _ => s

/-- The meaning of REPLY_ABANDONED (R152). -/
def execReplyAbandoned (s : State) : Host.Outcome State Fault Refusal :=
  .next s.abandonReply

/-- DISCARDING ends at an end delimiter or an idle line; a frame that is received begins after it (R143). -/
def State.endDiscarding (s : State) (ending : RunEnd) : State :=
  match s.lnk.receiver with
  | .discarding =>
    let (r, f, _) := rxSymbol false s.lnk.receiver s.lnk.reception
      (match ending with
        | .stop => .stop
        | .idle => .idle)
    s.setLnk { s.lnk with receiver := r, reception := f, freeFor := 0, quietFor := 0 }
  | .off => s
  | .listening => s
  | .receiving => s

/-- The meaning of DISCARDING_END (R143). -/
def execDiscardingEnd (ending : RunEnd) (s : State) : Host.Outcome State Fault Refusal :=
  .next (s.endDiscarding ending)

end Sys2Proof.Machine
end

