-- ==== Sys2Proof/Machine/Clock.lean ====
section
/-! DEFINITION. The part's own clock, which runs while no command waits: what is due at the present
instant, and one oscillator tick (log 5). -/

namespace Sys2Proof.Machine

/-! ### One oscillator tick -/

/-- The transmitter waits one tick longer (R152). -/
def Transmitter.tick : Transmitter → Transmitter
  | .waiting reply age draw => .waiting reply (age + 1) draw
  | .idle => .idle
  | .sending reply => .sending reply

/-- A start delimiter now would meet the receiver in LISTENING (R143, R153). -/
def State.listens (s : State) : Bool :=
  s.lnk.receiver == .listening && !s.sending

/-- LNK at one oscillator tick; LISTENING outside and in quiesce and WAKING is counted apart (log 1). -/
def State.tickLnk (s : State) : Lnk :=
  { s.lnk with
    reception := s.lnk.reception.map fun f => { f with age := f.age + 1 }
    transmitter := s.lnk.transmitter.tick
    freeFor := if s.listens && s.hearsStart then s.lnk.freeFor + 1 else 0
    quietFor :=
      if s.listens then
        if s.hearsStart then s.lnk.quietFor else s.lnk.quietFor + s.lnk.freeFor + 1
      else 0 }

/-- A channel at one oscillator tick (R68). -/
def Channel.tick (c : Channel) : Channel :=
  { c with pulse := countDown c.pulse }

/-- An input at one oscillator tick: its durations count down, and its pin may be sampled again (R85,
R87). -/
def Input.tick (i : Input) : Input :=
  { i with window := countDown i.window, lastEdge := countDown i.lastEdge, sampled := false }

/-- The part at one oscillator tick: local time advances, and every duration counts down by one (00 4.1,
R47). -/
def State.tick (s : State) : State :=
  { s with
    lnk := s.tickLnk
    imn := { s.imn with quiesce := countDown s.imn.quiesce }
    cin := { s.cin with expiry := countDown s.cin.expiry }
    stc := { s.stc with wakeDelay := countDown s.stc.wakeDelay }
    tbu := s.tbu.tick
    out := { channels := s.out.channels.map Channel.tick }
    cap := { s.cap with inputs := s.cap.inputs.map Input.tick } }

/-! ### What is due at the present instant -/

/-- A row, where its condition holds. -/
def dueIf (b : Bool) (i : Instr) : List Instr :=
  if b then [i] else []

/-- The sync watch's rows (R55 to R57). -/
def State.dueWatch (s : State) : List Instr :=
  if s.tbu.watchOver then
    match s.tbu.state with
    | .locked => [.syncWatchLockedExpiry]
    | .holdover => [.syncWatchHoldoverExpiry]
    | .acquiring => [.syncWatchAcquiringExpiry]
    | .unset => []
    | .unlocked => []
    | .free => []
  else []

/-- HEAD_REACHED is due (R26). -/
def State.headDue (s : State) : Bool :=
  match s.sct.entries with
  | [] => false
  | e :: _ => s.stc.op == .run && s.reached e.due

/-- SAMPLE_REACHED is due (R194). -/
def State.sampleDue (s : State) : Bool :=
  match s.aln.pending with
  | none => false
  | some p => s.stc.op == .align && s.reached p.time

/-- The waiting reply starts now: at a free moment within 4 to 12 µs after the POLL's end (R152; log 7). -/
def State.transmitDue (s : State) : Bool :=
  match s.lnk.transmitter with
  | .waiting _ age draw =>
    decide (Config.replyEarliest ≤ age ∧
      (age = Config.replyLatest ∨
        Config.replyEarliest + Config.replyDelay draw % (Config.replyLatest - Config.replyEarliest + 1) =
          age))
  | .idle => false
  | .sending _ => false

/-- SLEW_END is due (R53). -/
def State.slewDue (s : State) : Bool :=
  match s.tbu.slew with
  | none => false
  | some w => w.over

/-- Every row that is due at the present instant by the part's own durations and local time. -/
def State.dueByTime (s : State) : List Instr :=
  dueIf (ranOut s.imn.quiesce) .quiesceEnd ++
  dueIf (ranOut s.cin.expiry) .stagingExpiry ++
  s.dueWatch ++
  dueIf s.slewDue .slewEnd ++
  dueIf (s.stc.op == .waking && ranOut s.stc.wakeDelay) .wakeDelayEnd ++
  dueIf s.headDue .headReached ++
  dueIf s.sampleDue .sampleReached ++
  dueIf s.transmitDue .transmitStart ++
  (List.finRange 16).flatMap (fun n => dueIf (ranOut s.out.channels[n].pulse) (.pulseEnd n)) ++
  (List.finRange 4).flatMap (fun n => dueIf (ranOut s.cap.inputs[n].window) (.windowEnd n)) ++
  (List.finRange 4).flatMap (fun n => dueIf (ranOut s.cap.inputs[n].lastEdge) (.deadTimeEnd n))

/-- The rows of the edges that still wait, which fall at this instant too (R99; log 26). -/
def State.dueEdges (s : State) : List Instr :=
  s.cap.waiting.map fun w => .captureEdge w.input { w.edge with after := 0 }

/-- Every row that is due at the present instant: the part's own first, and where there is none, the edges
that still wait (logs 5 and 26). -/
def State.dueRows (s : State) : List Instr :=
  if s.dueByTime.isEmpty then s.dueEdges else s.dueByTime

/-- The due row that is taken next: any of them, by a free value where there are several (log 6). -/
def chooseDue (draw : Nat) (first : Instr) : List Instr → Instr
  | [] => first
  | others => (first :: others).getD (Config.dueChoice draw % (others.length + 1)) first

end Sys2Proof.Machine
end

