-- ==== Sys2Proof/Machine/Dispatch.lean ====
section
/-! DEFINITION. exec: the meaning of each command of the table, one arm per constructor. -/

namespace Sys2Proof.Machine

def exec (i : Instr) (s : State) : Host.Outcome State Fault Refusal :=
  match i with
  | .hardReset phase => Sys2Proof.Machine.execHardReset phase s
  | .commandFrame h => Sys2Proof.Machine.execCommandFrame h s
  | .poll h order => Sys2Proof.Machine.execPoll h order s
  | .transmitStart => Sys2Proof.Machine.execTransmitStart s
  | .transmitEnd => Sys2Proof.Machine.execTransmitEnd s
  | .replyAbandoned => Sys2Proof.Machine.execReplyAbandoned s
  | .sync h order => Sys2Proof.Machine.execSync h order s
  | .probe h order => Sys2Proof.Machine.execProbe h order s
  | .wake h => Sys2Proof.Machine.execWake h s
  | .fill h => Sys2Proof.Machine.execFill h s
  | .otherIntactFrame h => Sys2Proof.Machine.execOtherIntactFrame h s
  | .faultReport h => Sys2Proof.Machine.execFaultReport h s
  | .quiesceEnd => Sys2Proof.Machine.execQuiesceEnd s
  | .stagingExpiry => Sys2Proof.Machine.execStagingExpiry s
  | .syncWatchLockedExpiry => Sys2Proof.Machine.execSyncWatchLockedExpiry s
  | .syncWatchHoldoverExpiry => Sys2Proof.Machine.execSyncWatchHoldoverExpiry s
  | .syncWatchAcquiringExpiry => Sys2Proof.Machine.execSyncWatchAcquiringExpiry s
  | .slewEnd => Sys2Proof.Machine.execSlewEnd s
  | .wakeDelayEnd => Sys2Proof.Machine.execWakeDelayEnd s
  | .headReached => Sys2Proof.Machine.execHeadReached s
  | .pulseEnd channel => Sys2Proof.Machine.execPulseEnd channel s
  | .windowEnd input => Sys2Proof.Machine.execWindowEnd input s
  | .deadTimeEnd input => Sys2Proof.Machine.execDeadTimeEnd input s
  | .captureEdge input edge => Sys2Proof.Machine.execCaptureEdge input edge s
  | .sampleReached => Sys2Proof.Machine.execSampleReached s
  | .getStatus origin args => Sys2Proof.Machine.execGetStatus origin args s
  | .getFaultRecord origin args => Sys2Proof.Machine.execGetFaultRecord origin args s
  | .clearFault origin args => Sys2Proof.Machine.execClearFault origin args s
  | .softReset origin args => Sys2Proof.Machine.execSoftReset origin args s
  | .echo origin args => Sys2Proof.Machine.execEcho origin args s
  | .ackAttention origin args => Sys2Proof.Machine.execAckAttention origin args s
  | .setAttentionMask origin args => Sys2Proof.Machine.execSetAttentionMask origin args s
  | .start origin args => Sys2Proof.Machine.execStart origin args s
  | .park origin args => Sys2Proof.Machine.execPark origin args s
  | .resume origin args => Sys2Proof.Machine.execResume origin args s
  | .enterDormant origin args => Sys2Proof.Machine.execEnterDormant origin args s
  | .enterAlignment origin args => Sys2Proof.Machine.execEnterAlignment origin args s
  | .exitAlignment origin args => Sys2Proof.Machine.execExitAlignment origin args s
  | .getAlignment origin args => Sys2Proof.Machine.execGetAlignment origin args s
  | .setCommitLag origin args => Sys2Proof.Machine.execSetCommitLag origin args s
  | .setFaultMode origin args => Sys2Proof.Machine.execSetFaultMode origin args s
  | .setGroups origin args => Sys2Proof.Machine.execSetGroups origin args s
  | .readConfig origin args => Sys2Proof.Machine.execReadConfig origin args s
  | .setTimebase origin args => Sys2Proof.Machine.execSetTimebase origin args s
  | .setOffset origin args => Sys2Proof.Machine.execSetOffset origin args s
  | .setTime origin args => Sys2Proof.Machine.execSetTime origin args s
  | .setLateTolerance origin args => Sys2Proof.Machine.execSetLateTolerance origin args s
  | .getTime origin args => Sys2Proof.Machine.execGetTime origin args s
  | .configureChannel origin args => Sys2Proof.Machine.execConfigureChannel origin args s
  | .configureInput origin args => Sys2Proof.Machine.execConfigureInput origin args s
  | .addEntry origin args => Sys2Proof.Machine.execAddEntry origin args s
  | .cancelEntry origin args => Sys2Proof.Machine.execCancelEntry origin args s
  | .cancelGroup origin args => Sys2Proof.Machine.execCancelGroup origin args s
  | .flushSchedule origin args => Sys2Proof.Machine.execFlushSchedule origin args s
  | .queryEntry origin args => Sys2Proof.Machine.execQueryEntry origin args s
  | .listSchedule origin args => Sys2Proof.Machine.execListSchedule origin args s
  | .readEvents origin args => Sys2Proof.Machine.execReadEvents origin args s
  | .unknownCommand origin bytes => Sys2Proof.Machine.execUnknownCommand origin bytes s
  | .discardingEnd ending => Sys2Proof.Machine.execDiscardingEnd ending s

end Sys2Proof.Machine
end

