-- ==== Sys2Proof/Machine/Step.lean ====
section
/-! DEFINITION. One step: the command at the front of the queue, or the part's own clock where none
waits. -/

namespace Sys2Proof.Machine

/-- A step on an empty queue (log 5): one of the rows due at this instant, and where none is due, one
oscillator tick. -/
def State.idleStep (s : State) : Host.Outcome State Fault Refusal :=
  match s.dueRows with
  | [] => .next s.tick
  | i :: others => exec (chooseDue s.draws i others) s.draw

/-- One step of the block. -/
def step (s : State) : Host.Outcome State Fault Refusal :=
  match s.pending with
  | i :: rest => exec i (s.setPending rest)
  | [] => s.idleStep

/-- The state with the command that a word spells put at the front of its queue; unchanged where the word
spells none. -/
def State.withFetchWord (s : State) (nbits w : Nat) : State :=
  match decodeTableWord nbits w with
  | some i => s.setPending (i :: s.pending)
  | none => s

end Sys2Proof.Machine
end

