-- ==== Sys2Proof/Safety.lean ====
section
/-! DEFINITION. What is always true of the part: one predicate per kind of state, each from the rule that
promises it, and their conjunction `State.Sound`. -/

namespace Sys2Proof.Machine

/-! ### Schedule table (R1, R3, R5) -/

/-- The ranges of an action's argument and target mask (R1, R12). -/
def Action.inRange : Action → Prop
  | .noAction => True
  | .pulse width mask => 1 ≤ width ∧ width ≤ 16777215 ∧ mask ≠ 0
  | .setHigh mask => mask ≠ 0
  | .setLow mask => mask ≠ 0
  | .toggle mask => mask ≠ 0
  | .armCapture length mask => 1 ≤ length ∧ length ≤ 4294967295 ∧ mask ≠ 0

/-- Remaining follows the repeat: 1 for a one-shot entry, 0 for an unlimited one, and else between 1 and
the count (R3). -/
def Entry.remainingOk (e : Entry) : Prop :=
  match e.repeats with
  | none => e.remaining = 1
  | some r =>
    1000 ≤ r.period ∧ r.period ≤ 4294967295 ∧ r.count ≤ 65535 ∧
      (if r.count = 0 then e.remaining = 0 else 1 ≤ e.remaining ∧ e.remaining ≤ r.count)

/-- The fields of an entry are within the values of R1. -/
def Entry.inRange (e : Entry) : Prop :=
  1 ≤ e.handle ∧ e.handle ≤ 255 ∧ e.due < Config.timeEnd ∧ e.action.inRange ∧ e.tag ≤ 15 ∧
    e.fired ≤ 65535 ∧ e.remainingOk

/-- An entry stands before another: by due time, and at one due time by insertion (R5). -/
def Entry.before (a b : Entry) : Prop :=
  a.due < b.due ∨ (a.due = b.due ∧ a.insertion < b.insertion)

/-- At most 128 entries, no handle twice, in order of due time and then of insertion, the next number
above every number held (R5, R6). -/
structure Sct.Sound (t : Sct) : Prop where
  capacity : t.entries.length ≤ Config.tableCapacity
  distinct : (t.entries.map Entry.handle).Nodup
  ordered : t.entries.Pairwise Entry.before
  fresh : ∀ e ∈ t.entries, e.insertion < t.nextInsertion
  ranges : ∀ e ∈ t.entries, e.inRange

/-! ### Event queue (R98) -/

/-- At most 64 records, whose sequence numbers run without a break up to the number before the next one,
modulo 65,536; the lost count saturates (R95, R98). -/
structure Evq.Sound (x : Evq) : Prop where
  capacity : x.records.length ≤ Config.eventCapacity
  consecutive : ∀ (i : Nat) (h : i < x.records.length),
    x.records[i].seq = x.next - BitVec.ofNat 16 (x.records.length - i)
  lost : x.lost ≤ 65535

/-! ### Staging queue and outbox (R122, R123, R129, R155, R158) -/

/-- The sequence of a staged command of UNIT origin. -/
def Staged.unitSeq (c : Staged) : Option Byte :=
  match c.origin with
  | .unit seq => some seq
  | .broadcast => none
  | .group => none

/-- The sequence of a RESERVED record. -/
def ReplyRecord.reservedSeq (x : ReplyRecord) : Option Byte :=
  if x.result = none then some x.seq else none

/-- The sequences of the UNIT commands staged, oldest first. -/
def Cin.unitSeqs (c : Cin) : List Byte :=
  c.queue.filterMap Staged.unitSeq

/-- The sequences of the RESERVED records, oldest first. -/
def Rpu.reservedSeqs (r : Rpu) : List Byte :=
  r.outbox.filterMap ReplyRecord.reservedSeq

/-- At most 8 commands with counts up to 7, at most 16 records of distinct sequences, and exactly one
RESERVED record for each UNIT command staged, in the same order (R122, R123, R129, R155, R158). -/
structure State.IntakeSound (s : State) : Prop where
  staging : s.cin.queue.length ≤ Config.stagingCapacity
  lag : s.cin.lag ≤ 7
  counts : ∀ c ∈ s.cin.queue, c.remaining ≤ 7
  outbox : s.rpu.outbox.length ≤ Config.outboxCapacity
  distinct : (s.rpu.outbox.map ReplyRecord.seq).Nodup
  reserved : s.rpu.reservedSeqs = s.cin.unitSeqs

/-- Where no command commits, none is staged: DORMANT and the resets discard what was staged, and WAKING
stages nothing (R106, R117, R119). -/
def State.Live (s : State) : Prop :=
  s.commits = true ∨ s.cin.queue = []

/-- Both: what every row keeps of the staging queue and the outbox. -/
def State.IntakeLive (s : State) : Prop :=
  s.IntakeSound ∧ s.Live

/-! ### Operating state (R103, R113) -/

/-- The combinations of operating state and remembered states, and the wake delay, which runs in WAKING
alone (R103, R113). -/
def Stc.Nested (x : Stc) : Prop :=
  (match x.op with
    | .config => x.beforeFault = none ∧ x.beforeAlign = none
    | .run => x.beforeFault = none ∧ x.beforeAlign = none
    | .parked => x.beforeFault = none ∧ x.beforeAlign = none
    | .align => x.beforeFault = none ∧ x.beforeAlign.isSome
    | .faultHold => x.beforeFault.isSome ∧ (x.beforeAlign.isSome ↔ x.beforeFault = some .align)
    | .dormant => x.beforeFault = none ∧ x.beforeAlign = none
    | .waking => x.beforeFault = none ∧ x.beforeAlign = none) ∧
  (x.wakeDelay.isSome ↔ x.op = .waking)

/-! ### Faults (R171, R175, R178, R185) -/

/-- The fault state holds together: record and count go with the flag, FAULT follows it, and FAULT_HOLD
is held by a set flag in LATCHED mode (R171, R175, R178, R185). -/
structure State.FaultSound (s : State) : Prop where
  cleared : s.imn.flag = false → s.imn.record = none ∧ s.imn.count = 0
  standing : s.imn.flag = true → s.imn.record.isSome ∧ 1 ≤ s.imn.count ∧ s.imn.count ≤ 255
  condition : s.atn.flags.fault = s.imn.flag
  held : s.stc.op = .faultHold → s.imn.flag = true ∧ s.imn.mode = .latched
  detected : ∀ r, s.imn.record = some r → r.op.held.isSome

/-! ### Outputs and windows outside RUN (R69, R70, R92) -/

/-- Outside RUN no pulse is in flight and no window is open; a disabled channel holds no pulse, and an
input that is not WINDOWED no window (R69, R70, R91, R92). -/
structure State.IdlePins (s : State) : Prop where
  pulses : s.stc.op ≠ .run → ∀ n : Fin 16, s.out.channels[n].pulse = none
  disabled : ∀ n : Fin 16, s.out.channels[n].enable = false → s.out.channels[n].pulse = none
  windows : s.stc.op ≠ .run → ∀ n : Fin 4, s.cap.inputs[n].window = none
  modes : ∀ n : Fin 4, s.cap.inputs[n].mode ≠ .windowed → s.cap.inputs[n].window = none

/-! ### Timebase (R45, R46, R11, R61) -/

/-- The sync watch supervises ACQUIRING, LOCKED and HOLDOVER (R46). -/
def TbState.watched : TbState → Bool
  | .acquiring => true
  | .locked => true
  | .holdover => true
  | .unset => false
  | .unlocked => false
  | .free => false

/-- The values of R46: local time exactly while not UNSET, FREE in SELF-TIMED mode alone, the watch while
supervised, and every item in its range. -/
structure Tbu.Sound (x : Tbu) : Prop where
  unset : x.localTime = none ↔ x.state = .unset
  valid : ∀ t, x.localTime = some t → t < Config.timeEnd
  modes : x.state = .unset ∨ (x.mode = .selfTimed ↔ x.state = .free)
  watch : x.watch.isSome = x.state.watched
  fraction : 0 ≤ x.fraction ∧ x.fraction < 1
  rate : -Config.rateLimit ≤ x.rate ∧ x.rate ≤ Config.rateLimit
  offset : x.offset ≤ 65535
  interval : 1 ≤ x.syncInterval ∧ x.syncInterval ≤ 1000
  limit : 1 ≤ x.holdoverLimit ∧ x.holdoverLimit ≤ 255
  acquisition : x.acquisitionCount ≤ Config.lockCount
  holdover : x.holdoverCount ≤ 255

/-- The table holds entries only while local time has a value, and none with REQUIRE_LOCK in SELF-TIMED
mode (R11, R61). -/
structure State.TimedTable (s : State) : Prop where
  unset : s.tbu.state = .unset → s.sct.entries = []
  selfTimed : s.tbu.mode = .selfTimed → ∀ e ∈ s.sct.entries, e.requireLock = false

/-! ### Alignment (R190, R191) -/

/-- At most 8 outcomes, of at most 255 counted, and a sample pending in ALIGN alone (R190, R191). -/
structure State.AlignSound (s : State) : Prop where
  log : s.aln.log.length ≤ Config.logCapacity
  total : s.aln.log.length ≤ s.aln.total ∧ s.aln.total ≤ 255
  pending : s.aln.pending.isSome → s.stc.op = .align

/-! ### All of it -/

/-- Everything above. -/
structure State.Sound (s : State) : Prop where
  schedule : s.sct.Sound
  events : s.evq.Sound
  intake : s.IntakeLive
  nested : s.stc.Nested
  faults : s.FaultSound
  pins : s.IdlePins
  timebase : s.tbu.Sound
  timed : s.TimedTable
  alignment : s.AlignSound

/-! ### The words of the statements: frames -/

/-- The part, between frames, hears a run of symbols from its start delimiter on: receiver LISTENING, no
quiesce, not WAKING, not SENDING, and the start delimiter not earlier than it began to listen (R143,
R153, R177; log 1). -/
structure State.Hears (s : State) (h : Heard) : Prop where
  receiver : s.lnk.receiver = .listening
  quiesce : s.imn.quiesce = none
  awake : s.stc.op ≠ .waking
  silent : s.sending = false
  began : h.since ≤ s.lnk.freeFor

/-- The part after it has heard a frame to its end: LISTENING again, a waiting reply abandoned. -/
def State.heard (s : State) : State :=
  s.setLnk
    { s.lnk with
      receiver := .listening, reception := none, transmitter := s.lnk.transmitter.abandon, freeFor := 0
      quietFor := 0 }

/-- No command commits at the end of a counted frame: none is staged, or the head of the staging queue waits
for two frames or more (R127, R128). -/
def State.Waits (s : State) : Prop :=
  ∀ c, s.cin.queue.head? = some c → 2 ≤ c.remaining

/-- The part after it has heard a counted frame that carries nothing to it and at whose end no command
commits: each staged command waits for one frame less, and the staging expiry timer starts again or is
idle (R127). -/
def State.counted (s : State) : State :=
  s.heard.setCin
    { s.cin with
      queue := s.cin.queue.map fun c => { c with remaining := c.remaining - 1 }
      expiry := if s.cin.queue = [] then none else some 200000 }

/-- The commits at the end of a counted frame, one after another: while the command at the head of the
staging queue has nothing more to wait for, it leaves the queue and its row runs in the state the one before
left (R105, R128, R129). -/
inductive State.CommitsTo : State → State → Prop
  | waits (s : State) (h : ∀ c, s.cin.queue.head? = some c → c.remaining ≠ 0) : CommitsTo s s
  | commits (s u t : State) (c : Staged) (rest : List Staged) (queue : s.cin.queue = c :: rest)
      (ready : c.remaining = 0)
      (row : exec (Instr.ofStaged c.origin c.bytes) (s.setCin { s.cin with queue := rest }) = .next u)
      (others : CommitsTo u t) : CommitsTo s t

/-- The end of a counted frame: each staged command waits for one frame less, those that wait for none
commit, and the staging expiry timer starts again or is idle (R127, R128). -/
def State.CountedTo (s t : State) : Prop :=
  ∃ u,
    (s.setCin
      { s.cin with
        queue := s.cin.queue.map fun c => { c with remaining := c.remaining - 1 } }).CommitsTo u ∧
    t = u.setCin { u.cin with expiry := if u.cin.queue = [] then none else some 200000 }

/-- Whether a run of symbols ends with what ends DISCARDING: an end delimiter or an idle line (R143). -/
def endsRun (h : Heard) : Prop :=
  h.symbols.getLast? = some .stop ∨ h.symbols.getLast? = some .idle

/-- The part after a run of symbols with a start delimiter: the receiver's mode and reception, no reply
waiting any more (R143, R152). -/
def State.passed (s : State) (r : Receiver) (f : Option Reception) : State :=
  s.setLnk
    { s.lnk with
      receiver := r, reception := f, transmitter := s.lnk.transmitter.abandon, freeFor := 0
      quietFor := 0 }

/-- The rows that bring what was heard on the pair. -/
def heardOf : Instr → Option Heard
  | .commandFrame h => some h
  | .poll h _ => some h
  | .sync h _ => some h
  | .probe h _ => some h
  | .wake h => some h
  | .fill h => some h
  | .otherIntactFrame h => some h
  | .faultReport h => some h
  | _ => none

/-! ### The words of the statements: commits -/

/-- The part after a commit whose result is `r` and that had no other effect: the command has left the
staging queue, and its reservation is filled (R130, R131). -/
def State.answered (s : State) (o : Origin) (r : Result) : State :=
  (s.leaveQueue o).deliver o r

/-- A commit judged for admissibility: what it does in the states that admit it, and its refusal in the
others (R104). -/
def State.judged (s : State) (o : Origin) (admitting : List OpState) (acted : State) : State :=
  if s.stc.op ∈ admitting then acted
  else s.answered o (refusedWith (if s.stc.op = .faultHold then .faultLatched else .wrongState))

/-- The five states that accept commands. -/
def acceptingStates : List OpState :=
  [.config, .run, .parked, .align, .faultHold]

/-! ### The words of the statements: dispatch -/

/-- The gate of R27 and R30. -/
def State.passesGate (s : State) (e : Entry) : Prop :=
  e.requireLock = false ∨ s.tbu.state = .locked ∨ s.tbu.state = .holdover

/-- The table after `k` occurrences of an entry, the last of them fired or not: the entry has left it, or
stands at its new due time, with its counts (R3, R8, R29, R33). -/
def Sct.without (t : Sct) (e : Entry) (k : Nat) (fired : Prop) [Decidable fired] : Sct :=
  let others : Sct := { t with entries := t.entries.filter fun x => decide (x.handle ≠ e.handle) }
  match e.repeats with
  | none => others
  | some r =>
    if e.remaining ≤ k ∧ r.count ≠ 0 ∨ 2 ^ 63 ≤ e.due + k * r.period then others
    else
      others.place
        { e with
          due := e.due + k * r.period
          fired := if fired then min 65535 (e.fired + 1) else e.fired
          remaining := if r.count = 0 then e.remaining else e.remaining - k }

/-- The part after one on-time occurrence: fired at its own due time, or missed at the gate (R26, R27, R29
to R32). -/
def State.AfterOnTime (s : State) (e : Entry) (t : State) : Prop :=
  (s.passesGate e →
    t = State.setSct
      (if e.report then (s.handAction e.action).handRecord (.fired e.handle e.due false)
       else s.handAction e.action)
      (s.sct.without e 1 True)) ∧
  (¬ s.passesGate e →
    t = ((s.handRecord (.missed e.handle e.due 1)).raiseCondition .missed).setSct
      (s.sct.without e 1 False))

/-- The number `k` of an entry's past occurrences at `now`, and the due time of the last of them (R34). -/
def Entry.Past (e : Entry) (now k last : Nat) : Prop :=
  match e.repeats with
  | none => k = 1 ∧ last = e.due
  | some r =>
    let past := (now - e.due - 1) / r.period + 1
    k = (if r.count = 0 then past else min past e.remaining) ∧ last = e.due + (k - 1) * r.period

/-- The part after the late rule has settled one entry past due at `now`: the last past occurrence is
fired late if gate, LATE_FIRE and tolerance allow it, those before it are missed, and all are missed if they
do not, in one MISSED record (R31 to R34). -/
def State.AfterLate (s : State) (e : Entry) (now : Nat) (t : State) : Prop :=
  ∀ k last, e.Past now k last →
    let fires := s.passesGate e ∧ e.lateFire = true ∧ now - last ≤ s.dpu.lateTolerance
    let missed (u : State) (time count : Nat) : State :=
      (u.handRecord (.missed e.handle time (min 65535 count))).raiseCondition .missed
    let period := match e.repeats with
      | none => 0
      | some r => r.period
    (fires →
      let before := if k = 1 then s else missed s (last - period) (k - 1)
      t = State.setSct
        (if e.report then (before.handAction e.action).handRecord (.fired e.handle now true)
         else before.handAction e.action)
        (s.sct.without e k True)) ∧
    (¬ fires → t = (missed s last k).setSct (s.sct.without e k False))

/-- The arguments of ADD_ENTRY for an entry, as R199 lays them out. -/
def Entry.argumentBytes (e : Entry) : List Byte :=
  beBytes 2 e.handle ++ beBytes 8 e.due ++ byteOf e.action.code ++ [0] ++ beBytes 4 e.action.argument ++
    beBytes 2 e.action.mask ++ byteOf e.tag ++ beBytes 4 e.repeatFields.1 ++
    beBytes 2 e.repeatFields.2 ++ byteOf e.attributes

/-- The `n`-byte field of ADD_ENTRY at an offset of R199's table, which counts the code byte. -/
def addEntryField (args : List Byte) (offset n : Nat) : Nat :=
  beNat ((args.drop (offset - 1)).take n)

/-- No bound of R12 is crossed, whatever the timebase mode: handle, action with its argument and mask,
group tag, repeat, attributes. -/
def addEntryInRange (args : List Byte) : Prop :=
  let handle := addEntryField args 1 2
  let action := addEntryField args 11 1
  let argument := addEntryField args 13 4
  let mask := addEntryField args 17 2
  let period := addEntryField args 20 4
  let count := addEntryField args 24 2
  (1 ≤ handle ∧ handle ≤ 255) ∧ action ≤ 5 ∧
    (action = 1 → 1 ≤ argument ∧ argument ≤ 16777215) ∧ (action = 5 → 1 ≤ argument) ∧
    (action ≠ 1 → action ≠ 5 → argument = 0) ∧
    (1 ≤ action → mask ≠ 0) ∧ (action = 5 → mask < 16) ∧ (action = 0 → mask = 0) ∧
    addEntryField args 19 1 ≤ 15 ∧ (period = 0 ∨ 1000 ≤ period) ∧ (period = 0 → count = 0) ∧
    addEntryField args 26 1 < 8

end Sys2Proof.Machine
end

