-- ==== Sys2Proof/Certificates/Slice0/Obligations.lean ====
section
/-! DEFINITION. The statements for the provers. Times are in oscillator ticks of 10 ns; payload bytes are
spelled out in the order of R200's layouts. -/

section

open Sys2Proof Sys2Proof.Machine

/-! ### Steps -/

/-- A step takes the command at the front of the queue and runs it with the queue's rest. -/
def Obligations.StepRunsTheFront : Prop :=
  ∀ (s : State) (c : Instr) (rest : List Instr),
    s.pending = c :: rest → step s = exec c (s.setPending rest)

/-- With nothing waiting, a step is a row that is due at this instant, or one tick of the oscillator (the
model's own: logs 5, 6 and 7). Due are the ends of the durations that have run out, the entry and the
sample that local time has reached, and a waiting reply at its moment; where none of these is, the edges
that wait for their place (R99; log 26). At a tick every duration counts down by one, local time advances
by the whole part of the fraction plus 1, the rate correction's share and the slew's, the fraction keeping
the rest (R47, R53), and nothing else changes. -/
def Obligations.EmptyQueueRunsTheClock : Prop :=
  ∀ s : State, s.pending = [] →
    let due : Instr → Prop := fun i =>
      match i with
      | .quiesceEnd => s.imn.quiesce = some 0
      | .stagingExpiry => s.cin.expiry = some 0
      | .syncWatchLockedExpiry => s.tbu.state = .locked ∧ ∃ w, s.tbu.watch = some w ∧ w.left = 0
      | .syncWatchHoldoverExpiry => s.tbu.state = .holdover ∧ ∃ w, s.tbu.watch = some w ∧ w.left = 0
      | .syncWatchAcquiringExpiry => s.tbu.state = .acquiring ∧ ∃ w, s.tbu.watch = some w ∧ w.left = 0
      | .slewEnd => ∃ w, s.tbu.slew = some w ∧ w.left = 0
      | .wakeDelayEnd => s.stc.op = .waking ∧ s.stc.wakeDelay = some 0
      | .headReached => s.stc.op = .run ∧ ∃ e now, s.sct.entries.head? = some e ∧
          s.tbu.localTime = some now ∧ e.due ≤ now
      | .sampleReached => s.stc.op = .align ∧ ∃ p now, s.aln.pending = some p ∧
          s.tbu.localTime = some now ∧ p.time ≤ now
      | .transmitStart => ∃ reply age draw, s.lnk.transmitter = .waiting reply age draw ∧ 400 ≤ age ∧
          (age = 1200 ∨ 400 + Config.replyDelay draw % 801 = age)
      | .pulseEnd n => (s.out.channels[n]).pulse = some 0
      | .windowEnd n => (s.cap.inputs[n]).window = some 0
      | .deadTimeEnd n => (s.cap.inputs[n]).lastEdge = some 0
      | _ => False
    (s.dueRows ≠ [] → ∃ i ∈ s.dueRows, step s = exec i s.draw) ∧
    (∀ i, i ∈ s.dueRows ↔ due i ∨ ((∀ j, ¬ due j) ∧
      ∃ w ∈ s.cap.waiting, i = .captureEdge w.input { kind := w.edge.kind, after := 0 })) ∧
    (s.dueRows = [] → ∃ t landed, step s = .next t ∧
      let sum : Rat := s.tbu.fraction + (1 + (s.tbu.rate : Rat) / 1000000000 +
        (match s.tbu.slew with
          | none => 0
          | some w => if w.left = 0 then 0 else (w.amount : Rat) / (w.interval : Rat)))
      let listens := s.lnk.receiver = .listening ∧ s.sending = false
      let hears := s.imn.quiesce = none ∧ s.stc.op ≠ .waking
      let watch := s.tbu.watch.map fun w => { w with left := w.left - 1 }
      (∀ now, s.tbu.localTime = some now → now + sum.floor.toNat < 2 ^ 63 →
        landed = now + sum.floor.toNat) ∧
      t = { s with
        lnk :=
          { s.lnk with
            reception := s.lnk.reception.map fun f => { f with age := f.age + 1 }
            transmitter := match s.lnk.transmitter with
              | .waiting reply age draw => .waiting reply (age + 1) draw
              | .idle => .idle
              | .sending reply => .sending reply
            freeFor := if listens ∧ hears then s.lnk.freeFor + 1 else 0
            quietFor :=
              if ¬ listens then 0
              else if hears then s.lnk.quietFor
              else s.lnk.quietFor + s.lnk.freeFor + 1 }
        imn := { s.imn with quiesce := s.imn.quiesce.map fun n => n - 1 }
        cin := { s.cin with expiry := s.cin.expiry.map fun n => n - 1 }
        stc := { s.stc with wakeDelay := s.stc.wakeDelay.map fun n => n - 1 }
        tbu := match s.tbu.localTime with
          | none => { s.tbu with watch := watch }
          | some _ =>
            { s.tbu with
              localTime := some landed
              fraction := sum - sum.floor
              slew := s.tbu.slew.map fun w => { w with left := w.left - 1 }
              watch := watch
              sinceArrival := s.tbu.sinceArrival.map fun n => n + sum.floor.toNat }
        out :=
          { channels := s.out.channels.map fun c => { c with pulse := c.pulse.map fun n => n - 1 } }
        cap :=
          { s.cap with
            inputs := s.cap.inputs.map fun i =>
              { i with
                window := i.window.map fun n => n - 1
                lastEdge := i.lastEdge.map fun n => n - 1
                sampled := false } } })

/-- No well-formed row stops: each has a next state in every state. No row changes the queue of waiting
commands, and only a POLL draws a free value (logs 6 and 7). -/
def Obligations.RowsCompleteAndKeepTheQueue : Prop :=
  (∀ (c : Instr) (s t : State), exec c s = .next t →
      t.pending = s.pending ∧
        ((∀ h order, c ≠ .poll h order) → t.draws = s.draws)) ∧
  (∀ (c : Instr) (s : State), c.wf = true → ∃ t, exec c s = .next t)

/-- The 32 command codes of R199, the codes of R198, the result codes of R165, and the worked example of
13.2: the check word of a FILL frame to destination 0, byte by byte. -/
def Obligations.CodesAndCheckWordExample : Prop :=
  [Cmd.getStatus, .getFaultRecord, .clearFault, .softReset, .echo, .ackAttention, .setAttentionMask].map
      Cmd.code = [0x01, 0x02, 0x03, 0x04, 0x05, 0x06, 0x07] ∧
  [Cmd.start, .park, .resume, .enterDormant, .enterAlignment, .exitAlignment, .getAlignment].map
      Cmd.code = [0x10, 0x11, 0x12, 0x13, 0x14, 0x15, 0x16] ∧
  [Cmd.setCommitLag, .setFaultMode, .setGroups, .readConfig].map Cmd.code =
    [0x20, 0x21, 0x22, 0x23] ∧
  [Cmd.setTimebase, .setOffset, .setTime, .setLateTolerance, .getTime].map Cmd.code =
    [0x30, 0x31, 0x32, 0x33, 0x34] ∧
  [Cmd.configureChannel, .configureInput].map Cmd.code = [0x40, 0x41] ∧
  [Cmd.addEntry, .cancelEntry, .cancelGroup, .flushSchedule, .queryEntry, .listSchedule,
    .readEvents].map Cmd.code = [0x50, 0x51, 0x52, 0x53, 0x54, 0x55, 0x60] ∧
  (∀ b, Cmd.ofCode b = Cmd.catalogue.find? fun c => Cmd.code c == b) ∧
  [false, true].map (fun e => ({ Channel.reset with enable := e } : Channel).configByte) =
    [[0], [1]] ∧
  [([] : List ReplyRecord), [{ seq := 7, result := none }],
      [{ seq := 7, result := some { code := .ok, payload := [] } }]].map
    (fun outbox => ({ outbox := outbox } : Rpu).answer.1) = [0, 1, 2] ∧
  [EventBody.edge 0 .rising 0 .unset, .fired 1 0 false, .missed 1 0 1].map
    (fun body => (eventBytes { seq := 0, gap := false, body := body }).getD 2 0) = [0, 1, 2] ∧
  (faultRecordBytes none).headD 0 = 0 ∧
  [OpState.config, .run, .parked, .align, .faultHold].map OpState.code = [0, 1, 2, 3, 4] ∧
  [TbMode.disciplined, .selfTimed].map TbMode.code = [0, 1] ∧
  [TbState.unset, .acquiring, .locked, .holdover, .unlocked, .free].map TbState.code =
    [0, 1, 2, 3, 4, 5] ∧
  [Action.noAction, .pulse 1 1, .setHigh 1, .setLow 1, .toggle 1, .armCapture 1 1].map Action.code =
    [0, 1, 2, 3, 4, 5] ∧
  [Level.low, .high].map levelCode = [0, 1] ∧
  [OverlapPolicy.restart, .ignore].map OverlapPolicy.code = [0, 1] ∧
  [InputMode.off, .continuous, .windowed].map InputMode.code = [0, 1, 2] ∧
  [EdgeSelect.rising, .falling, .both].map EdgeSelect.code = [0, 1, 2] ∧
  [FaultMode.latched, .persistent].map FaultMode.code = [0, 1] ∧
  [FaultKind.framing, .length, .oversize, .checkWord].map faultKindCode = [1, 2, 3, 4] ∧
  [SampleOutcome.low, .high, .tooLate, .superseded].map SampleOutcome.code = [0, 1, 2, 3] ∧
  [ResultCode.ok, .voided, .expired, .wrongState, .faultLatched, .unknownCommand, .badLength,
    .badArgument, .duplicateHandle, .noSuchHandle, .tableFull, .tooLate, .noTime, .inUse].map
      ResultCode.code = [0, 1, 2, 3, 4, 5, 6, 7, 8, 9, 10, 11, 12, 13] ∧
  crcFeed 0xFFFF 0x00 = 0xE1F0#16 ∧ crcFeed 0xE1F0 0x06 = 0x7DC9#16 ∧
    crcFeed 0x7DC9 0x00 = 0x663A#16 ∧ crcFeed 0x663A 0x00 = 0x3660#16 ∧
    ({ dest := 0, kind := 0x06, seq := 0, payload := [] } : Frame).bytes =
      [0x00, 0x06, 0x00, 0x00, 0x36, 0x60]

/-! ### Resets -/

/-- A hard reset, in one piece or at its end, leaves every block at its hard reset values and reads the
straps. The levels last sampled at the capture pins are the pins' own and are kept (log 12), and
numbering starts at 1 (log 24). -/
def Obligations.HardResetLeavesResetValues : Prop :=
  ∀ (s : State) (straps : BitVec 5) (phase : ResetPhase),
    (phase = .whole straps ∨ (phase = .released straps ∧ s.lnk.receiver = .off)) →
    ∃ t, exec (.hardReset phase) s = .next t ∧
      t.lnk = { unitAddress := straps, groups := 0, receiver := .listening, reception := none,
                transmitter := .idle, freeFor := 0, quietFor := 0 } ∧
      t.imn = { flag := false, record := none, count := 0, mode := .latched, quiesce := none } ∧
      t.cin = { queue := [], lag := 0, expiry := none } ∧
      t.rpu = { outbox := [] } ∧
      t.stc = { op := .config, beforeFault := none, beforeAlign := none, wakeDelay := none } ∧
      t.tbu = { localTime := none, fraction := 0, mode := .disciplined, state := .unset, offset := 0,
                syncInterval := 10, holdoverLimit := 10, acquisitionCount := 0, holdoverCount := 0,
                lastSequence := none, rate := 0, slew := none, watch := none, sinceArrival := none } ∧
      t.sct = { entries := [], nextInsertion := 1 } ∧
      t.dpu = { lateTolerance := 0 } ∧
      (∀ n : Fin 16, t.out.channels[n] =
        { enable := false, park := .low, initial := .low, policy := .restart, base := .low,
          pulse := none, overlap := false }) ∧
      (∀ n : Fin 4, t.cap.inputs[n] =
        { mode := .off, edges := .rising, dead := 0, window := none, lastEdge := none,
          level := (s.cap.inputs[n]).level, sampled := (s.cap.inputs[n]).sampled }) ∧
      t.cap.waiting = [] ∧
      t.evq = { records := [], next := 0, lost := 0, gap := false } ∧
      t.atn = { flags := { fault := false, dropped := false, eventLoss := false, timebase := false,
                           missed := false },
                mask := { fault := true, dropped := true, eventLoss := true, timebase := true,
                          missed := true } } ∧
      t.aln = { pending := none, log := [], total := 0 } ∧
      t.pending = s.pending ∧ t.draws = s.draws

/-- While a hard reset lasts, from NRST going low on, every output is at high impedance and ATTN is
released, the part hears nothing, and a transmitter that is IDLE stays so; NRST going low leaves it IDLE.
A release before a reset has begun is no event (log 10). There, in DORMANT and in WAKING no command
commits (R104, R119, R82, R187; log 3). -/
def Obligations.WhileHardResetLasts : Prop :=
  (∀ s : State, ∃ t, exec (.hardReset .asserted) s = .next t ∧ t.lnk.receiver = .off ∧
    t.lnk.transmitter = .idle ∧ t.stc.op = .config) ∧
  (∀ t : State, t.lnk.receiver = .off → (∀ n : Fin 16, t.outPin n = .highZ) ∧ t.attnLow = false) ∧
  (∀ (t u : State) (c : Instr), t.lnk.receiver = .off → t.lnk.transmitter = .idle →
    exec c t = .next u → u.lnk.transmitter = .idle) ∧
  (∀ (t : State) (c : Instr), t.lnk.receiver = .off → c.wf = true →
    (heardOf c).isSome → exec c t = .next t) ∧
  (∀ (s : State) (straps : BitVec 5), s.lnk.receiver ≠ .off →
    exec (.hardReset (.released straps)) s = .next s) ∧
  (∀ (s : State) (c : Instr), c.staged.isSome → c.wf = true →
      s.stc.op = .dormant ∨ s.stc.op = .waking ∨ s.lnk.receiver = .off → exec c s = .next s)

/-- SOFT_RESET returns to CONFIG from every accepting state, keeps configuration and timebase, discards
the contents, and leaves in the outbox its own READY OK if it is unit-addressed (R114, R121, R169). -/
def Obligations.SoftResetDividesTheState : Prop :=
  ∀ (s : State) (o : Origin), s.commits = true →
    exec (.softReset o []) s = .next
      { s with
        imn := { flag := false, record := none, count := 0, mode := s.imn.mode, quiesce := none }
        cin := { queue := [], lag := s.cin.lag, expiry := none }
        rpu := { outbox := match o with
                   | .unit seq => [{ seq := seq, result := some okEmpty }]
                   | .broadcast => []
                   | .group => [] }
        stc := { op := .config, beforeFault := none, beforeAlign := none, wakeDelay := none }
        sct := { entries := [], nextInsertion := 1 }
        out := { channels := s.out.channels.map fun c =>
                   { c with base := c.initial, pulse := none, overlap := false } }
        cap := { s.cap with inputs := s.cap.inputs.map fun i => { i with window := none, lastEdge := none } }
        evq := { records := [], next := s.evq.next, lost := 0, gap := false }
        atn := { flags := .clear, mask := s.atn.mask }
        aln := { pending := none, log := [], total := 0 } }

/-- ENTER_DORMANT, from CONFIG and PARKED: DORMANT, the contents discarded, the timebase lost, a reply
still waiting discarded, no result (R115, R121, R66, R152). -/
def Obligations.EnterDormantDividesTheState : Prop :=
  ∀ (s : State) (o : Origin), s.commits = true →
    exec (.enterDormant o []) s = .next (s.judged o [.config, .parked]
      { s with
        lnk := { s.lnk with transmitter := match s.lnk.transmitter with
                   | .waiting _ _ _ => .idle
                   | .idle => .idle
                   | .sending reply => .sending reply }
        imn := { flag := false, record := none, count := 0, mode := s.imn.mode, quiesce := none }
        cin := { queue := [], lag := s.cin.lag, expiry := none }
        rpu := { outbox := [] }
        stc := { op := .dormant, beforeFault := none, beforeAlign := none, wakeDelay := none }
        tbu := { localTime := none, fraction := 0, mode := s.tbu.mode, state := .unset,
                 offset := s.tbu.offset, syncInterval := s.tbu.syncInterval,
                 holdoverLimit := s.tbu.holdoverLimit, acquisitionCount := 0, holdoverCount := 0,
                 lastSequence := none, rate := 0, slew := none, watch := none, sinceArrival := none }
        sct := { entries := [], nextInsertion := 1 }
        out := { channels := s.out.channels.map fun c =>
                   { c with base := c.initial, pulse := none, overlap := false } }
        cap := { s.cap with inputs := s.cap.inputs.map fun i => { i with window := none, lastEdge := none } }
        evq := { records := [], next := s.evq.next, lost := 0, gap := false }
        atn := { flags := .clear, mask := s.atn.mask }
        aln := { pending := none, log := [], total := 0 } })

/-- A WAKE heard in DORMANT: one that matches takes the part to WAKING for 2 ms, any other changes nothing
but the receiver. At the end of the delay the part is in CONFIG (R116, R118); a WAKE_DELAY_END before it,
or outside WAKING, is no event (the model's choice, log 4). -/
def Obligations.WakeAndWakeDelay : Prop :=
  (∀ (s : State) (h : Heard) (f : Frame), s.Hears h → h.frame? = some f → f.kind = 0x05#8 →
    s.stc.op = .dormant →
    exec (.wake h) s = .next
      (if (f.dest = 0 ∧ f.payload.length = 4 ∧
            (beNat f.payload).testBit s.lnk.unitAddress.toNat = true) ∨
          (f.payload = [] ∧ 1 ≤ f.dest.toNat ∧ f.dest.toNat ≤ 31 ∧
            f.dest.toNat = s.lnk.unitAddress.toNat) ∨
          (f.payload = [] ∧ 32 ≤ f.dest.toNat ∧ f.dest.toNat ≤ 47 ∧
            s.lnk.groups.getLsbD (f.dest.toNat - 32) = true) then
        s.heard.setStc { s.stc with op := .waking, wakeDelay := some 200000 }
      else s.heard)) ∧
  (∀ s : State,
    exec .wakeDelayEnd s = .next
      (if s.stc.op = .waking ∧ s.stc.wakeDelay = some 0 then
        { s with
          stc := { s.stc with op := .config, wakeDelay := none }
          lnk := { s.lnk with freeFor := 0 } }
      else s))

/-! ### Commits in general -/

/-- The judgement of staged command bytes before the owner: an unknown or missing code, a wrong length, a
state that does not admit the command, a reserved byte or a time's top bit set, in this order
(R130, R199, R104, R198). -/
def Obligations.JudgementOrder : Prop :=
  ∀ (s : State) (o : Origin), s.commits = true →
    (∀ bytes : List Byte,
      (bytes = [] ∨ ∃ b rest, bytes = b :: rest ∧ ∀ c : Cmd, Cmd.code c ≠ b) →
      exec (Instr.ofStaged o bytes) s = .next (s.answered o (refusedWith .unknownCommand))) ∧
    (∀ (c : Cmd) (args : List Byte), Instr.ofStaged o (Cmd.code c :: args) = Instr.ofCmd o args c ∧
      ((c = .echo ∧ (args.length < 1 ∨ 40 < args.length)) ∨
          (c ≠ .echo ∧ args.length + 1 ≠ Cmd.byteCount c) →
        exec (Instr.ofCmd o args c) s = .next (s.answered o (refusedWith .badLength))) ∧
      ((c = .echo ∧ 1 ≤ args.length ∧ args.length ≤ 40) ∨
          (c ≠ .echo ∧ args.length + 1 = Cmd.byteCount c) →
        s.stc.op ∉ Cmd.admittedIn c →
        exec (Instr.ofCmd o args c) s = .next
          (s.answered o (refusedWith
            (if s.stc.op = .faultHold then .faultLatched else .wrongState))))) ∧
    (∀ args : List Byte, args.length = 26 → s.stc.op ∈ [OpState.config, .run, .parked] →
      (args.getD 2 0).msb = true ∨ args.getD 11 0 ≠ 0 →
      exec (.addEntry o args) s = .next (s.answered o (refusedWith .badArgument))) ∧
    (∀ args : List Byte, args.length = 8 → s.stc.op ∈ [OpState.config, .parked] →
      (args.getD 0 0).msb = true →
      exec (.setTime o args) s = .next (s.answered o (refusedWith .badArgument)))

/-- The result of a commit: a UNIT command's RESERVED record becomes READY with it where it stands, and
the command has left the staging queue; a broadcast or group command's result goes nowhere. Shown by
UNKNOWN_COMMAND, which does nothing else (R131, R157). -/
def Obligations.ResultsAreDelivered : Prop :=
  ∀ (s : State) (bytes : List Byte), s.commits = true → codeUnknown bytes = true →
    exec (.unknownCommand .broadcast bytes) s = .next s ∧
    exec (.unknownCommand .group bytes) s = .next s ∧
    ∀ seq : Byte,
      exec (.unknownCommand (.unit seq) bytes) s = .next
        { s with
          cin :=
            let queue := s.cin.queue.filter fun x => x.origin != .unit seq
            { s.cin with queue := queue, expiry := if queue = [] then none else s.cin.expiry }
          rpu :=
            { outbox := s.rpu.outbox.map fun x =>
                if x.seq = seq ∧ x.result = none then
                  { seq := x.seq, result := some { code := .unknownCommand, payload := [] } }
                else x } }

/-! ### Operating state -/

/-- START from CONFIG and RESUME from PARKED enter RUN, and dispatch evaluates at the local time of the
commit (R106, R108, R36). -/
def Obligations.StartAndResumeEnterRun : Prop :=
  ∀ (s : State) (o : Origin), s.commits = true →
    exec (.start o []) s = .next (s.judged o [.config]
      ((((s.leaveQueue o).setStc { s.stc with op := .run }).evaluate).deliver o okEmpty)) ∧
    exec (.resume o []) s = .next (s.judged o [.parked]
      ((((s.leaveQueue o).setStc { s.stc with op := .run }).evaluate).deliver o okEmpty))

/-- PARK takes RUN to PARKED, cuts every pulse, closes every window, and keeps everything else (R107, R79,
R92). -/
def Obligations.ParkLeavesRun : Prop :=
  ∀ (s : State) (o : Origin), s.commits = true →
    exec (.park o []) s = .next (s.judged o [.run]
      (({ s.leaveQueue o with
          stc := { s.stc with op := .parked }
          out := { channels := s.out.channels.map fun c => { c with pulse := none } }
          cap := { s.cap with inputs := s.cap.inputs.map fun i => { i with window := none } } } :
          State).deliver o okEmpty))

/-- ENTER_ALIGNMENT remembers CONFIG or PARKED and empties the log, and is refused with NO_TIME while
UNSET; EXIT_ALIGNMENT returns there and discards the pending sample (R109, R110, R192). -/
def Obligations.AlignmentIsEnteredAndLeft : Prop :=
  ∀ (s : State) (o : Origin), s.commits = true →
    exec (.enterAlignment o []) s = .next (s.judged o [.config, .parked]
      (if s.tbu.state = .unset then s.answered o (refusedWith .noTime)
       else
        (({ s.leaveQueue o with
            stc := { s.stc with
              op := .align
              beforeAlign := some (if s.stc.op = .parked then .parked else .config) }
            aln := { pending := none, log := [], total := 0 } } : State).deliver o okEmpty))) ∧
    ∀ a : AlignedFrom, s.stc.beforeAlign = some a →
      exec (.exitAlignment o []) s = .next (s.judged o [.align]
        (({ s.leaveQueue o with
            stc := { s.stc with
              op := match a with
                | .config => .config
                | .parked => .parked
              beforeAlign := none }
            aln := { s.aln with pending := none } } : State).deliver o okEmpty))

/-- CLEAR_FAULT clears flag, record, count and FAULT; from FAULT_HOLD it returns to the state before
fault, and into RUN dispatch evaluates (R112, R180). -/
def Obligations.ClearFaultReleases : Prop :=
  ∀ (s : State) (o : Origin), s.commits = true →
    let cleared : State :=
      { s.leaveQueue o with
        imn := { s.imn with flag := false, record := none, count := 0 }
        atn := { s.atn with flags := { s.atn.flags with fault := false } } }
    (s.stc.op ≠ .faultHold → exec (.clearFault o []) s = .next (cleared.deliver o okEmpty)) ∧
    (∀ h : HeldState, s.stc.op = .faultHold → s.stc.beforeFault = some h →
      let back : State :=
        cleared.setStc { s.stc with
          op := match h with
            | .config => .config
            | .run => .run
            | .parked => .parked
            | .align => .align
          beforeFault := none }
      exec (.clearFault o []) s = .next
        ((if h = .run then back.evaluate else back).deliver o okEmpty))

/-! ### Reports -/

/-- GET_STATUS: its counts, codes and overlap flags as they stand at the commit, after which the sixteen
overlap flags are cleared (R166, R81, R138). -/
def Obligations.GetStatusReports : Prop :=
  ∀ (s : State) (o : Origin), s.commits = true →
    ∃ mask : Nat, (∀ n : Fin 16, mask.testBit n.val = (s.out.channels[n]).overlap) ∧ mask < 65536 ∧
      exec (.getStatus o []) s = .next
        (((s.leaveQueue o).setOut
            { channels := s.out.channels.map fun c => { c with overlap := false } }).deliver o
          { code := .ok
            payload :=
              byteOf s.sct.entries.length ++ byteOf s.evq.records.length ++
              byteOf s.rpu.outbox.length ++ byteOf (s.leaveQueue o).cin.queue.length ++
              byteOf s.cin.lag ++ byteOf s.imn.mode.code ++ byteOf s.imn.count ++ beBytes 2 mask })

/-- GET_FAULT_RECORD: flag, count and the sixteen bytes of the record, zeros while it is empty (R181).
GET_ALIGNMENT: the number of outcomes, eight slots oldest first with zeros behind, the total count, the
pending sample and the offset (R197, R200). -/
def Obligations.FaultRecordAndAlignmentReports : Prop :=
  (∀ (s : State) (o : Origin), s.commits = true →
      (s.imn.flag = false → s.imn.record = none → s.imn.count = 0 →
        exec (.getFaultRecord o []) s = .next (s.answered o
          { code := .ok, payload := List.replicate 18 0 })) ∧
      (∀ r : FaultRecord, s.imn.flag = true → s.imn.record = some r → r.header.length ≤ 4 →
        exec (.getFaultRecord o []) s = .next (s.answered o
          { code := .ok
            payload :=
              byteOf 1 ++ byteOf s.imn.count ++ byteOf (faultKindCode r.kind) ++
              (match r.time with
                | some t => beBytes 8 t
                | none => List.replicate 8 0xFF#8) ++
              byteOf r.op.code ++ byteOf r.header.length ++
              (r.header ++ List.replicate (4 - r.header.length) 0) ++ byteOf r.voided }))) ∧
  (∀ (s : State) (o : Origin), s.commits = true → s.aln.log.length ≤ 8 →
      exec (.getAlignment o []) s = .next (s.judged o [.config, .run, .parked, .align]
        (s.answered o
          { code := .ok
            payload :=
              byteOf s.aln.log.length ++
              (s.aln.log.flatMap (fun x => [x.seq, BitVec.ofNat 8 x.outcome.code]) ++
                List.replicate (16 - 2 * s.aln.log.length) 0) ++
              byteOf s.aln.total ++
              (match s.aln.pending with
                | some p => [1, p.seq]
                | none => [0, 0]) ++
              beBytes 2 s.tbu.offset })))

/-- GET_TIME: local time, mode, state, whether a SYNC has been processed, its sequence, offset and
holdover count, as they stand at the commit (R65). -/
def Obligations.GetTimeReports : Prop :=
  ∀ (s : State) (o : Origin), s.commits = true →
    exec (.getTime o []) s = .next (s.judged o [.config, .run, .parked, .align]
      (s.answered o
        { code := .ok
          payload :=
            beBytes 8 (match s.tbu.localTime with
              | some t => t
              | none => 0) ++
            byteOf s.tbu.mode.code ++ byteOf s.tbu.state.code ++
            (match s.tbu.lastSequence with
              | some seq => [1, seq]
              | none => [0, 0]) ++
            beBytes 2 s.tbu.offset ++ byteOf s.tbu.holdoverCount }))

/-- READ_CONFIG: the section named, or BAD_ARGUMENT above 3 (R167, R200). -/
def Obligations.ReadConfigReports : Prop :=
  ∀ (s : State) (o : Origin) (b : Byte), s.commits = true →
    exec (.readConfig o [b]) s = .next (s.judged o [.config, .run, .parked, .align]
      (s.answered o
        (if 3 < b.toNat then refusedWith .badArgument
         else
          { code := .ok
            payload :=
              byteOf b.toNat ++
              (if b = 0 then
                beBytes 2 s.lnk.groups.toNat ++ byteOf s.cin.lag ++ byteOf s.imn.mode.code ++
                byteOf ((if s.atn.mask.fault then 1 else 0) + (if s.atn.mask.dropped then 2 else 0) +
                  (if s.atn.mask.eventLoss then 4 else 0) + (if s.atn.mask.timebase then 8 else 0) +
                  (if s.atn.mask.missed then 16 else 0))
              else if b = 1 then
                byteOf s.tbu.mode.code ++ beBytes 2 s.tbu.syncInterval ++
                byteOf s.tbu.holdoverLimit ++ beBytes 2 s.tbu.offset ++ beBytes 4 s.dpu.lateTolerance
              else if b = 2 then
                s.out.channels.toList.flatMap fun c =>
                  byteOf ((if c.enable then 1 else 0) + 2 * levelCode c.park +
                    4 * levelCode c.initial + 8 * c.policy.code)
              else
                s.cap.inputs.toList.flatMap fun i =>
                  byteOf i.mode.code ++ byteOf i.edges.code ++ beBytes 2 i.dead) })))

/-- ECHO returns 1 to 40 bytes of data as they came, in every accepting state, and refuses any other
length; it changes nothing (R168). -/
def Obligations.EchoReturnsItsData : Prop :=
  ∀ (s : State) (o : Origin) (data : List Byte),
    s.stc.op ∈ acceptingStates → s.lnk.receiver ≠ .off →
    exec (.echo o data) s = .next (s.answered o
      (if 1 ≤ data.length ∧ data.length ≤ 40 then { code := .ok, payload := data }
       else refusedWith .badLength))

/-! ### Settings -/

/-- SET_COMMIT_LAG: the lag in force `c`, the new one `n` (R135). -/
def Obligations.SetCommitLagTable : Prop :=
  ∀ (s : State) (o : Origin) (n : Byte), s.commits = true →
    exec (.setCommitLag o [n]) s = .next (s.judged o [.config, .run, .parked, .align]
      (if 7 < n.toNat ∨ (s.cin.lag ≠ 0 ∧ n ≠ 0 ∧ n.toNat ≠ s.cin.lag) then
        s.answered o (refusedWith .badArgument)
      else
        ((s.leaveQueue o).setCin { (s.leaveQueue o).cin with lag := n.toNat }).deliver o okEmpty))

/-- SET_GROUPS, SET_LATE_TOLERANCE and SET_FAULT_MODE replace one setting each (R149, R25, R182). -/
def Obligations.SingleSettings : Prop :=
  ∀ (s : State) (o : Origin) (a b c d : Byte), s.commits = true →
    exec (.setGroups o [a, b]) s = .next (s.judged o [.config, .run, .parked, .align]
      (((s.leaveQueue o).setLnk
        { s.lnk with groups := BitVec.ofNat 16 (256 * a.toNat + b.toNat) }).deliver o okEmpty)) ∧
    exec (.setLateTolerance o [a, b, c, d]) s = .next (s.judged o [.config, .run, .parked]
      (((s.leaveQueue o).setDpu
        { lateTolerance :=
            16777216 * a.toNat + 65536 * b.toNat + 256 * c.toNat + d.toNat }).deliver o okEmpty)) ∧
    exec (.setFaultMode o [a]) s = .next (s.judged o [.config, .run, .parked, .align]
      (if a = 0 then
        ((s.leaveQueue o).setImn { s.imn with mode := .latched }).deliver o okEmpty
      else if a = 1 then
        ((s.leaveQueue o).setImn { s.imn with mode := .persistent }).deliver o okEmpty
      else s.answered o (refusedWith .badArgument)))

/-- SET_ATTENTION_MASK replaces the mask; ACK_ATTENTION clears the named flags but FAULT; both refuse a
byte with a bit that names no condition (R188, R189). -/
def Obligations.AttentionCommands : Prop :=
  ∀ (s : State) (o : Origin) (b : Byte), s.commits = true →
    exec (.setAttentionMask o [b]) s = .next (s.judged o [.config, .run, .parked, .align]
      (if 32 ≤ b.toNat then s.answered o (refusedWith .badArgument)
       else
        ((s.leaveQueue o).setAtn
          { s.atn with
            mask := { fault := b.getLsbD 0, dropped := b.getLsbD 1, eventLoss := b.getLsbD 2,
                      timebase := b.getLsbD 3, missed := b.getLsbD 4 } }).deliver o okEmpty)) ∧
    exec (.ackAttention o [b]) s = .next
      (if 32 ≤ b.toNat then s.answered o (refusedWith .badArgument)
       else
        ((s.leaveQueue o).setAtn
          { s.atn with
            flags :=
              { fault := s.atn.flags.fault
                dropped := s.atn.flags.dropped && !b.getLsbD 1
                eventLoss := s.atn.flags.eventLoss && !b.getLsbD 2
                timebase := s.atn.flags.timebase && !b.getLsbD 3
                missed := s.atn.flags.missed && !b.getLsbD 4 } }).deliver o okEmpty)

/-- CONFIGURE_CHANNEL replaces the four fields of one channel and sets its base level to the new initial
level; CONFIGURE_INPUT replaces the three fields of one input, closes its window and forgets its last
recorded edge; values that name nothing are refused (R71, R86). -/
def Obligations.ConfigurationCommands : Prop :=
  (∀ (s : State) (o : Origin) (n e p i v : Byte), s.commits = true →
      exec (.configureChannel o [n, e, p, i, v]) s = .next (s.judged o [.config, .parked]
        (if 15 < n.toNat ∨ 1 < e.toNat ∨ 1 < p.toNat ∨ 1 < i.toNat ∨ 1 < v.toNat then
          s.answered o (refusedWith .badArgument)
        else
          ((s.leaveQueue o).setOut
            { channels := Vector.ofFn fun m : Fin 16 =>
                let c := s.out.channels[m]
                if m.val = n.toNat then
                  { c with
                    enable := e == 1
                    park := if p = 1 then .high else .low
                    initial := if i = 1 then .high else .low
                    policy := if v = 1 then .ignore else .restart
                    base := if i = 1 then .high else .low }
                else c }).deliver o okEmpty))) ∧
  (∀ (s : State) (o : Origin) (n m e d1 d0 : Byte), s.commits = true →
      exec (.configureInput o [n, m, e, d1, d0]) s = .next (s.judged o [.config, .parked]
        (if 3 < n.toNat ∨ 2 < m.toNat ∨ 2 < e.toNat then s.answered o (refusedWith .badArgument)
        else
          ((s.leaveQueue o).setCap
            { s.cap with
              inputs := Vector.ofFn fun k : Fin 4 =>
                let x := s.cap.inputs[k]
                if k.val = n.toNat then
                  { x with
                    mode := if m = 0 then .off else if m = 1 then .continuous else .windowed
                    edges := if e = 0 then .rising else if e = 1 then .falling else .both
                    dead := 256 * d1.toNat + d0.toNat
                    window := none
                    lastEdge := none }
                else x }).deliver o okEmpty)))

/-- SET_TIMEBASE: bad values, the refusal IN_USE, the settings alone where the mode stays, and the change
of mode (R60, R61, R62, R59); that BAD_ARGUMENT comes before IN_USE where both apply is the model's choice
(log 31). SET_TIME is refused with WRONG_STATE in DISCIPLINED mode, and sets local time in SELF-TIMED, which
is then FREE (R63). -/
def Obligations.TimebaseCommands : Prop :=
  (∀ (s : State) (o : Origin) (m i1 i0 l1 l0 : Byte), s.commits = true →
      let interval := 256 * i1.toNat + i0.toNat
      let limit := 256 * l1.toNat + l0.toNat
      let mode : TbMode := if m = 1 then .selfTimed else .disciplined
      exec (.setTimebase o [m, i1, i0, l1, l0]) s = .next (s.judged o [.config, .parked]
        (if 1 < m.toNat ∨ interval = 0 ∨ 1000 < interval ∨ limit = 0 ∨ 255 < limit then
          s.answered o (refusedWith .badArgument)
        else if s.tbu.mode = mode then
          ((s.leaveQueue o).setTbu
            { s.tbu with syncInterval := interval, holdoverLimit := limit }).deliver o okEmpty
        else if m = 1 ∧ ∃ e ∈ s.sct.entries, e.requireLock = true then
          s.answered o (refusedWith .inUse)
        else
          ({ s.leaveQueue o with
            tbu :=
              { s.tbu with
                mode := mode
                state := if s.tbu.state = .unset then .unset
                         else if m = 1 then .free else .unlocked
                slew := none
                watch := none
                acquisitionCount := 0
                syncInterval := interval
                holdoverLimit := limit }
            atn :=
              { s.atn with
                flags :=
                  { s.atn.flags with
                    timebase := s.atn.flags.timebase || s.tbu.state == .locked } } } :
            State).deliver o okEmpty))) ∧
  (∀ (s : State) (o : Origin) (t : Nat), s.commits = true → t < 2 ^ 63 →
      exec (.setTime o (beBytes 8 t)) s = .next (s.judged o [.config, .parked]
        (if s.tbu.mode = .disciplined then s.answered o (refusedWith .wrongState)
         else
          ((s.leaveQueue o).setTbu
            { s.tbu with localTime := some t, state := .free, slew := none }).deliver o okEmpty)))

/-- SET_OFFSET replaces the offset and shifts local time by the difference, unless that leaves its range
(R64). With a sample pending at M in ALIGN, a shift that lands on M takes it at the level of CAP0, one
that lands later logs TOO_LATE, and one that lands earlier leaves it pending (R194, R195). -/
def Obligations.SetOffsetShifts : Prop :=
  (∀ (s : State) (o : Origin) (a b : Byte), s.commits = true → s.aln.pending = none →
      let new := 256 * a.toNat + b.toNat
      exec (.setOffset o [a, b]) s = .next (s.judged o [.config, .parked, .align]
        (match s.tbu.localTime with
          | none => ((s.leaveQueue o).setTbu { s.tbu with offset := new }).deliver o okEmpty
          | some t =>
            if t + new < s.tbu.offset ∨ 2 ^ 63 ≤ t + new - s.tbu.offset then
              s.answered o (refusedWith .badArgument)
            else
              ((s.leaveQueue o).setTbu
                { s.tbu with
                  offset := new, localTime := some (t + new - s.tbu.offset) }).deliver o okEmpty))) ∧
  (∀ (s : State) (o : Origin) (a b : Byte) (t : Nat) (p : Sample) (u : State),
      s.commits = true → s.stc.op = .align → s.tbu.localTime = some t → s.aln.pending = some p →
      t < p.time → s.aln.log.length ≤ 8 →
      let new := 256 * a.toNat + b.toNat
      let now := t + new - s.tbu.offset
      s.tbu.offset ≤ t + new → now < 2 ^ 63 → exec (.setOffset o [a, b]) s = .next u →
      let logged (o : SampleOutcome) : Aln :=
        { pending := none
          log := List.drop (s.aln.log.length + 1 - 8) (s.aln.log ++ [{ seq := p.seq, outcome := o }])
          total := min 255 (s.aln.total + 1) }
      u.tbu.localTime = some now ∧ u.tbu.offset = new ∧
        (now < p.time → u.aln = s.aln) ∧
        (now = p.time →
          u.aln = logged (if (s.cap.inputs[0]).level = .high then .high else .low)) ∧
        (p.time < now →
          u.aln = logged .tooLate))

/-! ### The schedule table and the event queue -/

/-- ADD_ENTRY's own checks in their order, each giving its result and changing nothing else, for arguments
whose reserved byte and top bit of the due time are clear (R10, R12, R13). -/
def Obligations.AddEntryChecks : Prop :=
  ∀ (s : State) (o : Origin) (args : List Byte), s.commits = true →
    s.stc.op ∈ [OpState.config, .run, .parked] → args.length = 26 → args.getD 11 0 = 0 →
    addEntryField args 3 8 < 2 ^ 63 →
    (s.tbu.state = .unset →
      exec (.addEntry o args) s = .next (s.answered o (refusedWith .noTime))) ∧
    ∀ now, s.tbu.state ≠ .unset → s.tbu.localTime = some now →
      let handle := addEntryField args 1 2
      let due := addEntryField args 3 8
      let attributes := addEntryField args 26 1
      let inRange := addEntryInRange args ∧ (attributes.testBit 0 = true → s.tbu.mode ≠ .selfTimed)
      let taken := ∃ e ∈ s.sct.entries, e.handle = handle
      let full := 128 ≤ s.sct.entries.length
      let late := due < now ∧ (attributes.testBit 1 = false ∨ s.dpu.lateTolerance < now - due)
      (¬ inRange → exec (.addEntry o args) s = .next (s.answered o (refusedWith .badArgument))) ∧
      (inRange → taken →
        exec (.addEntry o args) s = .next (s.answered o (refusedWith .duplicateHandle))) ∧
      (inRange → ¬ taken → full →
        exec (.addEntry o args) s = .next (s.answered o (refusedWith .tableFull))) ∧
      (inRange → ¬ taken → ¬ full → late →
        exec (.addEntry o args) s = .next (s.answered o (refusedWith .tooLate)))

/-- ADD_ENTRY that passes every check: the entry goes directly behind the last one due no later, with the
next insertion number, and the result carries its position (R7, R14, R3). In RUN, where every other entry
is due later, an entry due now is fired, or missed at the gate, in the on-time batch, and an entry past
due is settled by the late rule and then, if it is re-placed at now, fired on time (R38). Where others
have been reached too, the evaluation is the model's choice (log 19). Between the insertion and the
evaluation stand the edges that fall there (R99; log 26). -/
def Obligations.AddEntryInserts : Prop :=
  ∀ (s : State) (o : Origin) (e : Entry) (now : Nat) (before after : List Entry),
    s.commits = true → s.stc.op ∈ [OpState.config, .run, .parked] →
    s.tbu.state ≠ .unset → s.tbu.localTime = some now →
    e.inRange → e.fired = 0 →
    e.remaining = (match e.repeats with
      | none => 1
      | some r => r.count) →
    (e.requireLock = true → s.tbu.mode = .disciplined) →
    s.sct.entries = before ++ after → s.sct.entries.length < 128 →
    (∀ x ∈ s.sct.entries, x.handle ≠ e.handle) →
    (before = [] ∨ ∃ x, before.getLast? = some x ∧ x.due ≤ e.due) → (∀ x ∈ after, e.due < x.due) →
    (now ≤ e.due ∨ (e.lateFire = true ∧ now - e.due ≤ s.dpu.lateTolerance)) →
    let stored : Entry := { e with insertion := s.sct.nextInsertion }
    let placed := (s.leaveQueue o).setSct
      { entries := before ++ stored :: after
        nextInsertion := s.sct.nextInsertion + 1 }
    let answer (u : State) : State :=
      u.deliver o { code := .ok, payload := byteOf before.length }
    (s.stc.op ≠ .run ∨ now < e.due →
      exec (.addEntry o e.argumentBytes) s = .next (answer placed)) ∧
    (s.stc.op = .run → e.due ≤ now →
      exec (.addEntry o e.argumentBytes) s = .next (answer (placed.evaluateAdded e.handle))) ∧
    (s.stc.op = .run → e.due = now → (∀ x ∈ s.sct.entries, now < x.due) →
      ∀ t, placed.passEdges.AfterOnTime stored t →
        exec (.addEntry o e.argumentBytes) s = .next (answer t)) ∧
    (s.stc.op = .run → e.due < now → (∀ x ∈ s.sct.entries, now < x.due) →
      ∀ t, placed.passEdges.AfterLate stored now t →
        ((∀ x ∈ t.sct.entries, now < x.due) →
          exec (.addEntry o e.argumentBytes) s = .next (answer t)) ∧
        (∀ x ∈ t.sct.entries, x.due = now → ∀ u, t.AfterOnTime x u →
          exec (.addEntry o e.argumentBytes) s = .next (answer u)))

/-- CANCEL_ENTRY, CANCEL_GROUP and FLUSH_SCHEDULE: what each removes, and its result (R15, R16, R17). -/
def Obligations.RemovalsFromTheTable : Prop :=
  ∀ (s : State) (o : Origin) (a b : Byte), s.commits = true →
    exec (.cancelEntry o [a, b]) s = .next (s.judged o [.config, .run, .parked]
      (let handle := 256 * a.toNat + b.toNat
       if handle = 0 ∨ 255 < handle then s.answered o (refusedWith .badArgument)
       else if ∃ e ∈ s.sct.entries, e.handle = handle then
        ((s.leaveQueue o).setSct
          { s.sct with
            entries := s.sct.entries.filter fun e => decide (e.handle ≠ handle) }).deliver o okEmpty
       else s.answered o (refusedWith .noSuchHandle))) ∧
    exec (.cancelGroup o [b]) s = .next (s.judged o [.config, .run, .parked]
      (if 15 < b.toNat then s.answered o (refusedWith .badArgument)
       else
        ((s.leaveQueue o).setSct
          { s.sct with
            entries := s.sct.entries.filter fun e => decide (e.tag ≠ b.toNat) }).deliver o
          { code := .ok
            payload := byteOf (s.sct.entries.filter fun e => decide (e.tag = b.toNat)).length })) ∧
    exec (.flushSchedule o []) s = .next (s.judged o [.config, .run, .parked]
      (((s.leaveQueue o).setSct { entries := [], nextInsertion := 1 }).deliver o
        { code := .ok, payload := byteOf s.sct.entries.length }))

/-- QUERY_ENTRY and LIST_SCHEDULE: the entry named with its position, and the records from a start
position on; neither changes the table (R18, R19, R200). -/
def Obligations.ReportsOfTheTable : Prop :=
  ∀ (s : State) (o : Origin) (a b : Byte), s.commits = true →
    (let handle := 256 * a.toNat + b.toNat
     (handle = 0 ∨ 255 < handle ∨ (∀ e ∈ s.sct.entries, e.handle ≠ handle) →
      exec (.queryEntry o [a, b]) s = .next (s.judged o [.config, .run, .parked, .align]
        (s.answered o (refusedWith
          (if handle = 0 ∨ 255 < handle then .badArgument else .noSuchHandle))))) ∧
     ∀ (before after : List Entry) (e : Entry), s.sct.entries = before ++ e :: after →
      e.handle = handle → 1 ≤ handle → handle ≤ 255 → (∀ x ∈ before, x.handle ≠ handle) →
      exec (.queryEntry o [a, b]) s = .next (s.judged o [.config, .run, .parked, .align]
        (s.answered o
          { code := .ok
            payload :=
              byteOf e.handle ++ beBytes 8 e.due ++ byteOf e.action.code ++
              beBytes 4 e.action.argument ++ beBytes 2 e.action.mask ++ byteOf e.tag ++
              (match e.repeats with
                | none => beBytes 4 0 ++ beBytes 2 0
                | some r => beBytes 4 r.period ++ beBytes 2 r.count) ++
              byteOf ((if e.requireLock then 1 else 0) + (if e.lateFire then 2 else 0) +
                (if e.report then 4 else 0)) ++
              beBytes 2 e.remaining ++ beBytes 2 e.fired ++ byteOf before.length }))) ∧
    exec (.listSchedule o [a, b]) s = .next (s.judged o [.config, .run, .parked, .align]
      (s.answered o
        (if 127 < a.toNat ∨ b.toNat < 1 ∨ 2 < b.toNat then refusedWith .badArgument
         else
          { code := .ok
            payload :=
              byteOf s.sct.entries.length ++
              byteOf (min b.toNat (s.sct.entries.length - a.toNat)) ++
              ((s.sct.entries.drop a.toNat).take b.toNat).flatMap fun e =>
                byteOf e.handle ++ beBytes 8 e.due ++ byteOf e.action.code ++
                beBytes 2 e.action.mask ++ byteOf e.tag ++
                byteOf ((if e.requireLock then 1 else 0) + (if e.lateFire then 2 else 0) +
                  (if e.report then 4 else 0) + (if e.repeats = none then 0 else 128)) ++
                beBytes 2 e.remaining ++ beBytes 2 e.fired })))

/-- READ_EVENTS takes up to its maximum of the oldest records and the lost count, which it clears; the gap
mark stays (R100, R200). -/
def Obligations.ReadEventsTakes : Prop :=
  ∀ (s : State) (o : Origin) (b : Byte), s.commits = true →
    exec (.readEvents o [b]) s = .next
      (if b.toNat < 1 ∨ 3 < b.toNat then s.answered o (refusedWith .badArgument)
       else
        ((s.leaveQueue o).setEvq
          { s.evq with records := s.evq.records.drop b.toNat, lost := 0 }).deliver o
          { code := .ok
            payload :=
              byteOf (min b.toNat s.evq.records.length) ++ beBytes 2 s.evq.lost ++
              (s.evq.records.take b.toNat).flatMap fun x =>
                beBytes 2 x.seq.toNat ++
                (match x.body with
                  | .edge input kind time state =>
                    byteOf ((if x.gap then 4 else 0) + 16 * state.code) ++
                    byteOf (input.val + (if kind = .falling then 128 else 0)) ++ beBytes 8 time ++
                    beBytes 2 0
                  | .fired handle time late =>
                    byteOf (1 + (if x.gap then 4 else 0) + (if late then 8 else 0)) ++
                    byteOf handle ++ beBytes 8 time ++ beBytes 2 0
                  | .missed handle time count =>
                    byteOf (2 + (if x.gap then 4 else 0)) ++ byteOf handle ++ beBytes 8 time ++
                    beBytes 2 count) })

/-- An edge that every condition of R88 lets through is recorded with local time and timebase state,
starts the dead time, and is handed to the event queue, which stores a record with the next sequence and
the pending gap mark while fewer than 64 are held, and else discards and counts it and raises EVENT_LOSS
(R88, R89, R90, R97). An edge that is not recorded leaves no trace but the level sampled; one that is
none, or a second one in one tick, is no event at all (R87; logs 4 and 9). An edge may say that it falls
behind so many of dispatch's moments of this instant, which stand at the beginning of an evaluation, behind
each action and behind each record: it is sampled and waits, is taken at the last of them, behind the edges
that were sampled before it and fall there too, and at any time before that when its row comes again (R93,
R99; the model's form, log 26). -/
def Obligations.CaptureEdges : Prop :=
  (∀ (s : State) (body : EventBody),
      s.handEvent body =
        if s.evq.records.length < 64 then
          { s with
            evq :=
              { records := s.evq.records ++ [{ seq := s.evq.next, gap := s.evq.gap, body := body }]
                next := s.evq.next + 1
                lost := s.evq.lost
                gap := false } }
        else
          { s with
            evq := { s.evq with lost := min 65535 (s.evq.lost + 1), gap := true }
            atn := { s.atn with flags := { s.atn.flags with eventLoss := true } } }) ∧
  (∀ (s : State) (n : Fin 4) (edge : EdgeKind) (now : Nat),
      let i := s.cap.inputs[n]
      i.sampled = false → i.level ≠ (if edge = .rising then .high else .low) →
      (i.edges = .both ∨ i.edges = (if edge = .rising then .rising else .falling)) →
      (i.mode = .continuous ∨ (i.mode = .windowed ∧ i.window.isSome)) →
      s.tbu.state ≠ .unset → s.tbu.localTime = some now →
      s.stc.op ≠ .dormant → s.stc.op ≠ .waking → ¬ (n = 0 ∧ s.stc.op = .align) → i.lastEdge = none →
      exec (.captureEdge n { kind := edge, after := 0 }) s = .next
        ((s.handEvent (.edge n edge now s.tbu.state)).setCap (s.cap.update n fun x =>
          { x with
            level := if edge = .rising then .high else .low
            sampled := true
            lastEdge := if x.dead = 0 then none else some x.dead }))) ∧
  (∀ (s : State) (n : Fin 4) (edge : EdgeKind) (k : Nat),
      let i := s.cap.inputs[n]
      let target : Level := if edge = .rising then .high else .low
      let sampled := s.cap.update n fun x => { x with level := target, sampled := true }
      (i.sampled = true ∨ i.level = target →
        1 ≤ k ∨ (∀ w ∈ s.cap.waiting, ¬ (w.input = n ∧ w.edge.kind = edge)) →
        exec (.captureEdge n { kind := edge, after := k }) s = .next s) ∧
      (i.sampled = false → i.level ≠ target →
        ((i.edges = .rising ∧ edge = .falling) ∨ (i.edges = .falling ∧ edge = .rising) ∨
          i.mode = .off ∨ (i.mode = .windowed ∧ i.window = none) ∨ s.tbu.state = .unset ∨
          s.stc.op = .dormant ∨ s.stc.op = .waking ∨ (n = 0 ∧ s.stc.op = .align) ∨
          i.lastEdge ≠ none) →
        exec (.captureEdge n { kind := edge, after := 0 }) s = .next (s.setCap sampled)) ∧
      (i.sampled = false → i.level ≠ target → 1 ≤ k →
        exec (.captureEdge n { kind := edge, after := k }) s = .next
          (s.setCap
            { sampled with
              waiting := s.cap.waiting ++ [{ input := n, edge := { kind := edge, after := k } }] }))) ∧
  (∀ (s : State) (before behind : List WaitingEdge) (w : WaitingEdge),
      let opposite : Level := if w.edge.kind = .rising then .low else .high
      s.cap.waiting = before ++ w :: behind →
      (∀ x ∈ before ++ behind, ¬ (x.input = w.input ∧ x.edge.kind = w.edge.kind)) →
      (s.cap.inputs[w.input]).sampled = true → (s.cap.inputs[w.input]).level ≠ opposite →
      exec (.captureEdge w.input { kind := w.edge.kind, after := 0 }) s =
        exec (.captureEdge w.input { kind := w.edge.kind, after := 0 })
          (s.setCap
            { s.cap.update w.input fun x => { x with level := opposite, sampled := false } with
              waiting := before ++ behind })) ∧
  (∀ (s : State) (body : EventBody) (a : Action),
      s.handRecord body = (s.handEvent body).passEdges ∧
      s.handAction a = (s.applyAction a).passEdges) ∧
  (∀ s : State, (∀ w ∈ s.cap.waiting, 2 ≤ w.edge.after) →
      s.passEdges = s.setCap
        { s.cap with
          waiting := s.cap.waiting.map fun w =>
            { w with edge := { w.edge with after := w.edge.after - 1 } } }) ∧
  (∀ (s : State) (before behind : List WaitingEdge) (w : WaitingEdge),
      s.cap.waiting = before ++ w :: behind → w.edge.after ≤ 1 → (∀ x ∈ before, 2 ≤ x.edge.after) →
      (∀ x ∈ before ++ behind, ¬ (x.input = w.input ∧ x.edge.kind = w.edge.kind)) →
      (s.cap.inputs[w.input]).sampled = true →
      ∃ u, exec (.captureEdge w.input { kind := w.edge.kind, after := 0 }) s = .next u ∧
        s.passEdges = u.passEdges)

/-! ### Dispatch -/

/-- The head is reached in RUN: it fires, or is missed at the gate, at its own due time, and is removed or
re-placed behind the entries due no later; the others due at the same time follow it in table order, each
in the state the one before left (R26, R27, R29, R30, R31, R32). Among dispatch's actions and records stand
the edges that fall there (R93, R99; log 26). -/
def Obligations.HeadFiresOnTime : Prop :=
  ∀ (s : State) (e : Entry) (rest : List Entry) (now : Nat),
    s.sct.Sound → s.stc.op = .run → s.tbu.localTime = some now → s.sct.entries = e :: rest →
    e.due ≤ now →
    ∃ t, s.AfterOnTime e t ∧
      ((∀ x ∈ rest, x.due ≠ e.due) → exec .headReached s = .next t) ∧
      ((∃ x ∈ rest, x.due = e.due) → exec .headReached s = exec .headReached t)

/-- The on-time batch for a due time D leaves no entry due at D or earlier, and HEAD_REACHED outside RUN,
on an empty table or before its time is no event (R26, R24; log 4). -/
def Obligations.BatchLeavesNothingDue : Prop :=
  (∀ (s t : State) (e : Entry) (rest : List Entry), s.sct.Sound → s.sct.entries = e :: rest →
    s.stc.op = .run → s.reached e.due = true → exec .headReached s = .next t →
    ∀ x ∈ t.sct.entries, e.due < x.due) ∧
  (∀ s : State,
    s.stc.op ≠ .run ∨ s.sct.entries = [] ∨ s.tbu.localTime = none ∨
      (∃ e rest now, s.sct.entries = e :: rest ∧ s.tbu.localTime = some now ∧ now < e.due) →
    exec .headReached s = .next s)

/-- An evaluation settles the whole table, the head first: an entry past due by the late rule, with all
its past occurrences but the last missed and the last fired late if gate, LATE_FIRE and tolerance allow
it; then, when none is past due any more, the entries due exactly at the time of the evaluation on time,
in table order, those re-placed there by the late rule among them; and nothing where every entry is due
later (R33, R34, R35). START makes one (R36). Between its cause and its passes, and among its actions and
records, stand the edges that fall there (R93, R99; log 26). -/
def Obligations.LateRuleSettles : Prop :=
  (∀ (s : State) (now : Nat), s.sct.Sound → s.tbu.localTime = some now →
    s.evaluate = s.passEdges.settleTable now ∧
    (∀ e rest, s.sct.entries = e :: rest → e.due < now →
      ∃ t, s.AfterLate e now t ∧ s.settleTable now = t.settleTable now) ∧
    (∀ e rest, s.sct.entries = e :: rest → e.due = now →
      ∃ t, s.AfterOnTime e t ∧ s.settleTable now = t.settleTable now) ∧
    ((∀ e ∈ s.sct.entries, now < e.due) → s.settleTable now = s)) ∧
  (∀ (s : State) (o : Origin) (e : Entry) (rest : List Entry) (now : Nat),
    s.commits = true → s.stc.op = .config → s.sct.Sound → s.tbu.localTime = some now →
    s.sct.entries = e :: rest → e.due < now →
    ∃ t, ((s.leaveQueue o).setStc { s.stc with op := .run }).passEdges.AfterLate e now t ∧
      ((∀ x ∈ t.sct.entries, now < x.due) →
        exec (.start o []) s = .next (t.deliver o okEmpty)) ∧
      (∀ x others, t.sct.entries = x :: others → x.due = now → (∀ y ∈ others, now < y.due) →
        ∃ u, t.AfterOnTime x u ∧ exec (.start o []) s = .next (u.deliver o okEmpty)))

/-- What an action does at each channel and input: a channel that is named and enabled, an input that is
named and WINDOWED; every other target stays as it is (R28, R72, R73, R75, R76, R91). -/
def Obligations.ActionsAtTargets : Prop :=
  ∀ (s : State) (w : Nat) (m : BitVec 16) (c : BitVec 4) (n : Fin 16) (k : Fin 4),
    let ch := s.out.channels[n]
    let named := m.getLsbD n.val = true ∧ ch.enable = true
    ((s.applyAction (.setHigh m)).out.channels[n] =
      if named then { ch with base := .high, pulse := none } else ch) ∧
    ((s.applyAction (.setLow m)).out.channels[n] =
      if named then { ch with base := .low, pulse := none } else ch) ∧
    ((s.applyAction (.toggle m)).out.channels[n] =
      if named then
        { ch with base := (if ch.base = .low then .high else .low), pulse := none }
      else ch) ∧
    ((s.applyAction (.pulse w m)).out.channels[n] =
      if named then
        match ch.pulse with
        | none => { ch with pulse := some w }
        | some left =>
          { ch with
            pulse := some (if ch.policy = .restart then w else left), overlap := true }
      else ch) ∧
    ((s.applyAction (.armCapture w c)).cap.inputs[k] =
      let i := s.cap.inputs[k]
      if c.getLsbD k.val = true ∧ i.mode = .windowed then
        { i with window := some (match i.window with
            | none => w
            | some left => max left w) }
      else i) ∧
    s.applyAction .noAction = s ∧
    (∀ a : Action, s.applyAction a =
      (s.setOut (s.applyAction a).out).setCap (s.applyAction a).cap) ∧
    (s.applyAction (.armCapture w c)).out = s.out ∧
    (s.applyAction (.setHigh m)).cap = s.cap ∧ (s.applyAction (.setLow m)).cap = s.cap ∧
    (s.applyAction (.toggle m)).cap = s.cap ∧ (s.applyAction (.pulse w m)).cap = s.cap

/-! ### Pins -/

/-- The level each channel drives on its pin, outside a hard reset (R69); and ATTN, low exactly while a
set flag is enabled by the mask, outside hard reset, DORMANT and WAKING (R187). -/
def Obligations.PinsFollowTheState : Prop :=
  (∀ (s : State) (n : Fin 16), s.lnk.receiver ≠ .off →
      let c := s.out.channels[n]
      (c.enable = false → s.outPin n = .highZ) ∧
      (c.enable = true → s.stc.op = .run → c.pulse = none → s.outPin n = .driven c.base) ∧
      (c.enable = true → s.stc.op = .run → c.pulse ≠ none →
        s.outPin n = .driven (if c.base = .low then .high else .low)) ∧
      (c.enable = true → s.stc.op ≠ .run → s.outPin n = .driven c.park)) ∧
  (∀ s : State,
      s.attnLow = true ↔
        s.lnk.receiver ≠ .off ∧ s.stc.op ≠ .dormant ∧ s.stc.op ≠ .waking ∧
          ∃ c : Condition, s.atn.flags.get c = true ∧ s.atn.mask.get c = true)

/-! ### Ends of durations -/

/-- The quiesce ends when its timer has run out, and the staging expiry empties the staging queue, each
staged UNIT command's RESERVED record becoming READY with EXPIRED; neither changes anything before its
time (R177, R133; log 4). -/
def Obligations.QuiesceEndAndStagingExpiry : Prop :=
  ∀ s : State,
    exec .quiesceEnd s = .next
      (if s.imn.quiesce = some 0 then
        { s with imn := { s.imn with quiesce := none }, lnk := { s.lnk with freeFor := 0 } }
      else s) ∧
    exec .stagingExpiry s = .next
      (if s.cin.expiry = some 0 then
        { s with
          cin := { s.cin with queue := [], expiry := none }
          rpu :=
            { outbox := s.rpu.outbox.map fun x =>
                if x.result = none ∧ ∃ c ∈ s.cin.queue, c.origin = .unit x.seq then
                  { seq := x.seq, result := some { code := .expired, payload := [] } }
                else x } }
      else s)

/-- The sync watch: LOCKED to HOLDOVER with TIMEBASE set, the holdover count and UNLOCKED with TIMEBASE at
the limit, ACQUIRING to UNLOCKED without it; none before its time (log 4). After the entry into HOLDOVER
the watch goes on counting the interval with which it was started, and from the next expiry on the one in
force (R55, R56, R57, R60; log 18). -/
def Obligations.SyncWatchExpires : Prop :=
  ∀ s : State,
    let interval := s.tbu.syncInterval * 100000
    let count := min 255 (s.tbu.holdoverCount + 1)
    let raised := { s.atn with flags := { s.atn.flags with timebase := true } }
    (s.tbu.watch = none ∨ (∃ w, s.tbu.watch = some w ∧ 0 < w.left) →
      exec .syncWatchLockedExpiry s = .next s ∧ exec .syncWatchHoldoverExpiry s = .next s ∧
      exec .syncWatchAcquiringExpiry s = .next s) ∧
    (∀ w, s.tbu.watch = some w → w.left = 0 →
      exec .syncWatchLockedExpiry s = .next
        (if s.tbu.state = .locked then
          { s with
            tbu :=
              { s.tbu with
                state := .holdover, holdoverCount := 0
                watch := some { interval := w.interval, left := w.interval } }
            atn := raised }
        else s) ∧
      exec .syncWatchHoldoverExpiry s = .next
        (if s.tbu.state = .holdover then
          if s.tbu.holdoverLimit ≤ count then
            { s with
              tbu := { s.tbu with state := .unlocked, holdoverCount := count, watch := none }
              atn := raised }
          else
            s.setTbu
              { s.tbu with
                holdoverCount := count, watch := some { interval := interval, left := interval } }
        else s) ∧
      exec .syncWatchAcquiringExpiry s = .next
        (if s.tbu.state = .acquiring then
          s.setTbu { s.tbu with state := .unlocked, acquisitionCount := 0, watch := none }
        else s))

/-- The ends of a slew, a pulse, a capture window and a dead time, each at the channel or input named and
none before its time (R53, R74, R92, R89; log 4). A pending sample reached in ALIGN: the level of CAP0 is
logged with its sequence, the log keeps the eight newest, and nothing is pending any more (R194, R191). -/
def Obligations.DurationsEndAndSamplesAreTaken : Prop :=
  (∀ (s : State) (n : Fin 16) (k : Fin 4),
      exec .slewEnd s = .next
        (match s.tbu.slew with
          | none => s
          | some w => if w.left = 0 then s.setTbu { s.tbu with slew := none } else s) ∧
      exec (.pulseEnd n) s = .next
        (if (s.out.channels[n]).pulse = some 0 then
          s.setOut (s.out.update n fun c => { c with pulse := none })
        else s) ∧
      exec (.windowEnd k) s = .next
        (if (s.cap.inputs[k]).window = some 0 then
          s.setCap (s.cap.update k fun i => { i with window := none })
        else s) ∧
      exec (.deadTimeEnd k) s = .next
        (if (s.cap.inputs[k]).lastEdge = some 0 then
          s.setCap (s.cap.update k fun i => { i with lastEdge := none })
        else s)) ∧
  (∀ (s : State) (p : Sample), s.aln.pending = some p → s.aln.log.length ≤ 8 →
      (s.stc.op = .align → s.reached p.time = true →
        exec .sampleReached s = .next
          { s with
            aln :=
              { pending := none
                log :=
                  List.drop (s.aln.log.length + 1 - 8) (s.aln.log ++
                    [{ seq := p.seq,
                       outcome := if (s.cap.inputs[0]).level = .high then .high else .low }])
                total := min 255 (s.aln.total + 1) }
            cap := s.cap.update 0 fun i => { i with sampled := true } }) ∧
      (s.stc.op ≠ .align ∨ s.reached p.time = false → exec .sampleReached s = .next s))

/-! ### The link -/

/-- Every frame of at most 56 payload bytes is read back as it was sent: header, payload and check word
are taken, fed and compared, and the end delimiter closes an intact frame (R140, R141, R142). -/
def Obligations.FramesAreReadBack : Prop :=
  ∀ f : Frame, f.payload.length ≤ 56 → ∀ since : Nat,
    Heard.frame? { symbols := f.line, since := since } = some f

/-- A COMMAND heard in an accepting state, while no command commits: one that does not match is counted
only; a duplicate is counted only; with no room it is dropped with DROPPED set; otherwise it joins the
tail of the staging queue, a UNIT one with a reservation, with the lag as its count (R124, R125, R126,
R127). -/
def Obligations.CommandFrameIsTakenIn : Prop :=
  ∀ (s : State) (h : Heard) (f : Frame), s.Hears h → h.frame? = some f → f.kind = 0x01#8 →
    s.stc.op ∈ acceptingStates → s.Waits →
    let dest := f.dest.toNat
    let staged (o : Origin) (bytes : List Byte) (u : State) : State :=
      u.setCin
        { u.cin with
          queue := u.cin.queue ++ [{ origin := o, bytes := bytes, remaining := s.cin.lag }]
          expiry := some 200000 }
    let mine := 1 ≤ dest ∧ dest = s.lnk.unitAddress.toNat
    let selected := dest = 0 ∧ 4 ≤ f.payload.length ∧
      (beNat (f.payload.take 4)).testBit s.lnk.unitAddress.toNat = true
    let member := 32 ≤ dest ∧ dest ≤ 47 ∧ s.lnk.groups.getLsbD (dest - 32) = true
    let duplicate := ∃ x ∈ s.rpu.outbox, x.seq = f.seq
    let waits := s.cin.queue ≠ [] ∨ 1 ≤ s.cin.lag
    (¬ mine → ¬ selected → ¬ member → exec (.commandFrame h) s = .next s.counted) ∧
    (mine → duplicate → exec (.commandFrame h) s = .next s.counted) ∧
    (mine → ¬ duplicate → 8 ≤ s.cin.queue.length ∨ 16 ≤ s.rpu.outbox.length →
      exec (.commandFrame h) s = .next (s.counted.raiseCondition .dropped)) ∧
    (mine → ¬ duplicate → s.cin.queue.length < 8 → s.rpu.outbox.length < 16 → waits →
      exec (.commandFrame h) s = .next (staged (.unit f.seq) f.payload
        (s.counted.setRpu
          { outbox := s.rpu.outbox ++ [{ seq := f.seq, result := none }] }))) ∧
    (selected → 8 ≤ s.cin.queue.length →
      exec (.commandFrame h) s = .next (s.counted.raiseCondition .dropped)) ∧
    (selected → s.cin.queue.length < 8 → waits →
      exec (.commandFrame h) s = .next (staged .broadcast (f.payload.drop 4) s.counted)) ∧
    (member → 8 ≤ s.cin.queue.length →
      exec (.commandFrame h) s = .next (s.counted.raiseCondition .dropped)) ∧
    (member → s.cin.queue.length < 8 → waits →
      exec (.commandFrame h) s = .next (staged .group f.payload s.counted))

/-- At lag 0 a COMMAND, unit-addressed, broadcast or to a group, accepted into an empty staging queue
commits at the end of its own frame: the state is that of the commit of its bytes, with the reservation
made for a UNIT one, and the expiry timer as the queue left by the commit wants it (R126, R128). Two
staged commands whose counts reach 0 commit one after the other, each whole and in the state the one
before left, and a third, whose count does not, waits (R128, R129, R105); shown by FILL, with two ECHO
commands. Where commands commit at the end of a POLL, SYNC or PROBE, both orders are seen: with the
commits first, the frame is handled as if heard in the state they left; with the handling first, they are
made in the state it left; and an expiry between a POLL's handling and its counting fills what is staged
with EXPIRED (R132, R150, R164, R196; the order is the row's operand, log 2). -/
def Obligations.CommitsAtTheEndOfAFrame : Prop :=
  (∀ (s : State) (h : Heard) (f : Frame), s.Hears h → h.frame? = some f → f.kind = 0x01#8 →
      s.stc.op ∈ acceptingStates → s.cin.queue = [] → s.cin.lag = 0 → 1 ≤ f.dest.toNat →
      f.dest.toNat = s.lnk.unitAddress.toNat → (∀ x ∈ s.rpu.outbox, x.seq ≠ f.seq) →
      s.rpu.outbox.length < 16 →
      ∃ t u : State,
        exec (Instr.ofStaged (.unit f.seq) f.payload)
          ((s.heard.setRpu { outbox := s.rpu.outbox ++ [{ seq := f.seq, result := none }] }).setCin
            { s.cin with queue := [] }) = .next u ∧
        exec (.commandFrame h) s = .next t ∧
        t = u.setCin { u.cin with expiry := if u.cin.queue = [] then none else some 200000 }) ∧
  (∀ (s : State) (h : Heard) (f : Frame), s.Hears h → h.frame? = some f → f.kind = 0x01#8 →
      s.stc.op ∈ acceptingStates → s.cin.queue = [] → s.cin.lag = 0 →
      let commitsAs (o : Origin) (bytes : List Byte) : Prop :=
        ∃ t u : State, exec (Instr.ofStaged o bytes) s.heard = .next u ∧
          exec (.commandFrame h) s = .next t ∧
          t = u.setCin { u.cin with expiry := if u.cin.queue = [] then none else some 200000 }
      (f.dest = 0 → 4 ≤ f.payload.length →
        (beNat (f.payload.take 4)).testBit s.lnk.unitAddress.toNat = true →
        commitsAs .broadcast (f.payload.drop 4)) ∧
      (32 ≤ f.dest.toNat → f.dest.toNat ≤ 47 →
        s.lnk.groups.getLsbD (f.dest.toNat - 32) = true → commitsAs .group f.payload)) ∧
  (∀ (s : State) (h : Heard), s.Hears h → s.stc.op ∈ acceptingStates →
      let alone : Cin := { s.cin with queue := [], expiry := none }
      (∀ (row : Instr) (t : State),
        row ∈ [Instr.poll h .commits, .sync h .commits, .probe h .commits] → row.wf = true →
        s.heard.CountedTo t →
        ∃ v, exec row ((t.setLnk { t.lnk with freeFor := h.since }).setCin
            { t.cin with queue := [], expiry := none }) = .next v ∧
          exec row s = .next (v.setCin t.cin)) ∧
      (∀ row : Instr,
        row ∈ [Instr.poll h .handling, .sync h .handling, .probe h .handling] → row.wf = true →
        ∃ u, exec row (s.setCin alone) = .next u ∧
          ∀ t, (u.setCin s.cin).CountedTo t → exec row s = .next t) ∧
      ((Instr.poll h .handlingThenExpiry).wf = true →
        (s.cin.expiry ≠ some 0 →
          exec (.poll h .handlingThenExpiry) s = exec (.poll h .handling) s) ∧
        (s.cin.expiry = some 0 →
          ∃ u, exec (.poll h .handling) (s.setCin alone) = .next u ∧
            exec (.poll h .handlingThenExpiry) s = .next (u.setRpu
              { outbox := u.rpu.outbox.map fun x =>
                  if x.result = none ∧ ∃ c ∈ s.cin.queue, c.origin = .unit x.seq then
                    { seq := x.seq, result := some { code := .expired, payload := [] } }
                  else x })))) ∧
  (∀ (s : State) (h : Heard) (a b : List Byte) (x y : Byte) (third : Staged), s.Hears h →
      (Instr.fill h).wf = true → s.stc.op ∈ acceptingStates → x ≠ y →
      1 ≤ a.length → a.length ≤ 40 → 1 ≤ b.length → b.length ≤ 40 → 2 ≤ third.remaining →
      third.origin = .broadcast →
      s.cin.queue =
        [{ origin := .unit x, bytes := 0x05 :: a, remaining := 1 },
         { origin := .unit y, bytes := 0x05 :: b, remaining := 0 }, third] →
      s.rpu.outbox = [{ seq := x, result := none }, { seq := y, result := none }] →
      exec (.fill h) s = .next
        { s.heard with
          cin :=
            { s.cin with
              queue := [{ third with remaining := third.remaining - 1 }], expiry := some 200000 }
          rpu :=
            { outbox :=
                [{ seq := x, result := some { code := .ok, payload := a } },
                 { seq := y, result := some { code := .ok, payload := b } }] } })

/-- FILL, OTHER_INTACT_FRAME and, in an accepting state, WAKE are counted and no more: each staged command
waits for one frame less, those that wait for none commit, and the expiry timer starts again. `CountedTo`
says so, one commit after another, and it has an outcome in every state; where no command commits the
outcome is `counted`. In DORMANT the first two leave the receiver LISTENING and nothing else (R127, R128,
R144, R116, R117). -/
def Obligations.CountedFrames : Prop :=
  (∀ s : State, ∃ t, s.CountedTo t) ∧
  (∀ (s : State) (h : Heard) (c : Instr), s.Hears h → heardOf c = some h → c.wf = true →
    (c = .fill h ∨ c = .otherIntactFrame h ∨ (c = .wake h ∧ s.stc.op ≠ .dormant)) →
    (s.stc.op = .dormant → exec c s = .next s.heard) ∧
    (s.stc.op ∈ acceptingStates →
      (s.Waits → exec c s = .next s.counted) ∧
      (∀ t, s.heard.CountedTo t → exec c s = .next t)))

/-- What the part does not hear is neither counted, handled nor found faulted. Nothing is heard while it
transmits. A run of symbols that begins in quiesce or in WAKING is passed over whole: the receiver is
DISCARDING until an end delimiter or an idle line. In DISCARDING every run is ignored up to these. A run
whose start delimiter met no LISTENING receiver, after a hard reset, the part's own transmission or a run
passed over, leaves it LISTENING, with a waiting reply still waiting, but for a start delimiter among what
follows. A run whose own start delimiter would have broken off the frame in reception is no event, since
the fault was reported at that symbol (R140, R142, R143, R118, R152, R153, R173, R177; log 1). -/
def Obligations.QuietFramesArePassedOver : Prop :=
  ∀ (s : State) (h : Heard) (c : Instr), heardOf c = some h → c.wf = true →
    (s.sending = true → exec c s = .next s) ∧
    (∀ f, s.lnk.receiver = .receiving → s.lnk.reception = some f → f.age ≠ h.since →
      exec c s = .next s) ∧
    (s.sending = false → s.lnk.receiver = .listening → h.since ≤ s.lnk.freeFor + s.lnk.quietFor →
      (s.imn.quiesce.isSome ∨ s.stc.op = .waking ∨ s.lnk.freeFor < h.since) →
      (endsRun h → exec c s = .next (s.passed .listening none)) ∧
      (¬ endsRun h → exec c s = .next (s.passed .discarding none))) ∧
    (s.sending = false → s.lnk.receiver = .discarding →
      (endsRun h → exec c s = .next (s.passed .listening none)) ∧
      (¬ endsRun h → exec c s = .next (s.passed .discarding none))) ∧
    (s.sending = false → s.lnk.receiver = .listening → s.lnk.freeFor + s.lnk.quietFor < h.since →
      (h.symbols.getLast? ≠ some .start →
        exec c s = .next (s.setLnk
          { s.lnk with receiver := .listening, reception := none, freeFor := 0, quietFor := 0 })) ∧
      (h.symbols.getLast? = some .start →
        (s.imn.quiesce = none → s.stc.op ≠ .waking →
          exec c s = .next (s.passed .receiving
            (some { bytes := [], check := 0xFFFF#16, age := 0 }))) ∧
        (s.imn.quiesce.isSome ∨ s.stc.op = .waking →
          exec c s = .next (s.passed .discarding none))))

/-- A POLL to the part's own address, one byte long, heard in an accepting state while no command commits:
the acknowledge removes a READY head that it names, and one reply, built from the head as it then stands,
waits for the pair; a POLL that is not the part's is counted only (R144, R152, R159, R160, R161, R162,
R200). -/
def Obligations.PollDrawsOneReply : Prop :=
  ∀ (s : State) (h : Heard) (f : Frame) (order : PollOrder), s.Hears h → h.frame? = some f →
    f.kind = 0x02#8 → s.stc.op ∈ acceptingStates → s.Waits → s.cin.expiry ≠ some 0 →
    (∀ b : Byte, f.payload = [b] → 1 ≤ f.dest.toNat → f.dest.toNat ≤ 31 →
      f.dest.toNat = s.lnk.unitAddress.toNat →
      let outbox := match s.rpu.outbox with
        | [] => []
        | x :: rest =>
          if b.getLsbD 0 = true ∧ x.result ≠ none ∧ x.seq = f.seq then rest else x :: rest
      let summary : List Byte :=
        [BitVec.ofNat 8 (s.stc.op.code + 8 * s.tbu.mode.code + 16 * s.tbu.state.code +
            (if s.imn.flag then 128 else 0)),
         BitVec.ofNat 8 ((if s.atn.flags.fault then 1 else 0) + (if s.atn.flags.dropped then 2 else 0) +
            (if s.atn.flags.eventLoss then 4 else 0) + (if s.atn.flags.timebase then 8 else 0) +
            (if s.atn.flags.missed then 16 else 0)),
         BitVec.ofNat 8 outbox.length,
         BitVec.ofNat 8 ((if s.evq.records = [] then 0 else 1) +
            (if 128 ≤ s.sct.entries.length then 2 else 0))]
      let unit : Byte := BitVec.ofNat 8 s.lnk.unitAddress.toNat
      let reply : Frame := match outbox with
        | [] => { dest := 63, kind := 0x81, seq := 0, payload := [0, unit, 0] ++ summary }
        | x :: _ =>
          match x.result with
          | none => { dest := 63, kind := 0x81, seq := x.seq, payload := [1, unit, 0] ++ summary }
          | some y =>
            { dest := 63, kind := 0x81, seq := x.seq,
              payload := [2, unit, BitVec.ofNat 8 y.code.code] ++ summary ++ y.payload }
      exec (.poll h order) s = .next
        { s.counted with
          lnk := { s.heard.lnk with transmitter := .waiting reply.bytes 0 s.draws }
          rpu := { outbox := outbox }
          draws := s.draws + 1 }) ∧
    ((f.payload.length ≠ 1 ∨ f.dest.toNat = 0 ∨ 32 ≤ f.dest.toNat ∨
        f.dest.toNat ≠ s.lnk.unitAddress.toNat) →
      exec (.poll h order) s = .next s.counted)

/-- The transmitter: it begins a waiting reply 4 to 12 µs after the POLL's end, sends it whole, and
returns to IDLE; a start delimiter from another party abandons a reply still waiting, and the receiver
takes the new frame, which it then hears as any other when it is given with the same start; a DISCARDING
receiver listens again at an end delimiter or an idle line (R152, R153, R143; log 4). -/
def Obligations.TransmitterAndDiscarding : Prop :=
  ∀ (s : State) (reply : List Byte) (age draw : Nat) (ending : RunEnd),
    (s.lnk.transmitter = .waiting reply age draw →
      exec .transmitStart s = .next
        (if 400 ≤ age ∧ age ≤ 1200 then
          s.setLnk { s.lnk with transmitter := .sending reply, freeFor := 0, quietFor := 0 }
        else s) ∧
      exec .transmitEnd s = .next s ∧
      (s.lnk.receiver = .listening → s.imn.quiesce = none → s.stc.op ≠ .waking →
        exec .replyAbandoned s = .next (s.setLnk
          { s.lnk with
            receiver := .receiving
            reception := some { bytes := [], check := 0xFFFF#16, age := 0 }
            transmitter := .idle
            freeFor := 0
            quietFor := 0 }))) ∧
    (s.lnk.transmitter = .sending reply →
      exec .transmitEnd s = .next
        (s.setLnk { s.lnk with transmitter := .idle, freeFor := 0, quietFor := 0 }) ∧
      exec .transmitStart s = .next s ∧ exec .replyAbandoned s = .next s) ∧
    (s.lnk.transmitter = .idle →
      exec .transmitStart s = .next s ∧ exec .transmitEnd s = .next s ∧
      exec .replyAbandoned s = .next s) ∧
    (s.lnk.receiver = .discarding →
      exec (.discardingEnd ending) s = .next (s.setLnk
        { s.lnk with receiver := .listening, reception := none, freeFor := 0, quietFor := 0 })) ∧
    (s.lnk.receiver ≠ .discarding → exec (.discardingEnd ending) s = .next s) ∧
    (∀ (h : Heard) (c : Instr), heardOf c = some h → c.wf = true → s.sending = false →
      s.imn.quiesce = none → s.stc.op ≠ .waking → s.lnk.receiver = .receiving →
      s.lnk.reception = some { bytes := [], check := 0xFFFF#16, age := h.since } →
      exec c s = exec c (s.setLnk
        { s.lnk with receiver := .listening, reception := none, freeFor := h.since }))

/-- A SYNC that TBU processes, heard while no command commits: while UNSET it sets local time to T +
offset plus the duration since its start delimiter, and the timebase is ACQUIRING with count 1 (R48, R49,
R57). A SYNC that TBU ignores is counted only. -/
def Obligations.SyncSetsOrIsIgnored : Prop :=
  ∀ (s : State) (h : Heard) (f : Frame) (order : TakenFirst), s.Hears h → h.frame? = some f →
    f.kind = 0x03#8 → s.stc.op ∈ acceptingStates → s.Waits →
    (s.tbu.mode = .disciplined → s.tbu.localTime = none → f.dest = 0 → f.payload.length = 8 →
      beNat f.payload < 2 ^ 63 → beNat f.payload + s.tbu.offset + h.since < 2 ^ 63 →
      exec (.sync h order) s = .next (s.counted.setTbu
        { s.tbu with
          localTime := some (beNat f.payload + s.tbu.offset + h.since)
          state := .acquiring
          acquisitionCount := 1
          lastSequence := some f.seq
          sinceArrival := some h.since
          slew := none
          watch := some { interval := s.tbu.syncInterval * 100000,
                          left := 2 * (s.tbu.syncInterval * 100000) } })) ∧
    (s.tbu.mode = .selfTimed ∨ f.dest ≠ 0 ∨ f.payload.length ≠ 8 ∨ 2 ^ 63 ≤ beNat f.payload ∨
        2 ^ 63 ≤ beNat f.payload + s.tbu.offset →
      exec (.sync h order) s = .next s.counted)

/-- A SYNC whose error is within the window of the state is slewed away over one sync interval: the count
towards lock or the return to LOCKED, the watch started again, and the rate correction moved by e × 10^9
over the span, toward zero, within ±200,000 (R47, R50, R51, R52, R53; logs 13, 14, 15 and 25). -/
def Obligations.SyncSlews : Prop :=
  ∀ (s : State) (h : Heard) (f : Frame) (order : TakenFirst) (now : Nat) (e : Int), s.Hears h →
    h.frame? = some f → f.kind = 0x03#8 → s.stc.op ∈ acceptingStates → s.Waits →
    s.tbu.mode = .disciplined → s.tbu.localTime = some now → f.dest = 0 → f.payload.length = 8 →
    beNat f.payload < 2 ^ 63 → beNat f.payload + s.tbu.offset < 2 ^ 63 →
    e = (beNat f.payload + s.tbu.offset : Int) - ((now : Int) - h.since) →
    let agrees := -16 ≤ e ∧ e ≤ 16
    let slewable := -256 ≤ e ∧ e ≤ 256
    ((s.tbu.state = .acquiring ∧ agrees) ∨ (s.tbu.state = .unlocked ∧ agrees) ∨
      (s.tbu.state = .locked ∧ slewable) ∨ (s.tbu.state = .holdover ∧ slewable)) →
    ∃ rate : Int,
      (match s.tbu.sinceArrival with
        | none => rate = s.tbu.rate
        | some n => h.since < n →
            rate = max (-200000) (min 200000
              (s.tbu.rate + (e * 1000000000).tdiv ((n : Int) - h.since)))) ∧
      exec (.sync h order) s = .next (s.counted.setTbu
        { s.tbu with
          rate := rate
          slew := some { amount := e, interval := s.tbu.syncInterval * 100000,
                         left := s.tbu.syncInterval * 100000 }
          state :=
            if s.tbu.state = .unlocked ∨
                (s.tbu.state = .acquiring ∧ s.tbu.acquisitionCount + 1 < 4) then .acquiring
            else .locked
          acquisitionCount :=
            if s.tbu.state = .unlocked then 1
            else if s.tbu.state = .acquiring then
              (if s.tbu.acquisitionCount + 1 < 4 then s.tbu.acquisitionCount + 1 else 4)
            else s.tbu.acquisitionCount
          lastSequence := some f.seq
          sinceArrival := some h.since
          watch := some { interval := s.tbu.syncInterval * 100000,
                          left := 2 * (s.tbu.syncInterval * 100000) } })

/-- A SYNC whose error is beyond the window of the state steps local time by it, to ACQUIRING with count
1, and raises TIMEBASE if the timebase was LOCKED; a forward step in RUN is an evaluation, and a sample
pending in ALIGN is judged by where the step lands (R50, R51, R52, R54, R59, R37, R39, R194). -/
def Obligations.SyncSteps : Prop :=
  ∀ (s : State) (h : Heard) (f : Frame) (order : TakenFirst) (now : Nat) (e : Int), s.Hears h →
    h.frame? = some f → f.kind = 0x03#8 → s.stc.op ∈ acceptingStates → s.Waits →
    s.tbu.mode = .disciplined → s.tbu.localTime = some now → f.dest = 0 → f.payload.length = 8 →
    beNat f.payload < 2 ^ 63 → beNat f.payload + s.tbu.offset + h.since < 2 ^ 63 →
    e = (beNat f.payload + s.tbu.offset : Int) - ((now : Int) - h.since) →
    ((s.tbu.state = .acquiring ∨ s.tbu.state = .unlocked) ∧ (e < -16 ∨ 16 < e)) ∨
      ((s.tbu.state = .locked ∨ s.tbu.state = .holdover) ∧ (e < -256 ∨ 256 < e)) →
    let landed := (now + e).toNat
    let stepped (u : State) : State :=
      { u with
        tbu :=
          { s.tbu with
            localTime := some landed
            state := .acquiring
            acquisitionCount := 1
            lastSequence := some f.seq
            sinceArrival := some h.since
            slew := none
            watch := some { interval := s.tbu.syncInterval * 100000,
                            left := 2 * (s.tbu.syncInterval * 100000) } }
        atn :=
          { s.atn with
            flags := { s.atn.flags with
              timebase := s.atn.flags.timebase || s.tbu.state == .locked } } }
    (s.aln.pending = none → s.stc.op ≠ .run ∨ e < 0 →
      exec (.sync h order) s = .next (stepped s.counted)) ∧
    (s.aln.pending = none → s.stc.op = .run → 0 < e →
      exec (.sync h .commits) s = .next (stepped s.counted).evaluate ∧
      exec (.sync h .handling) s = .next ((stepped s.heard).evaluate.setCin s.counted.cin)) ∧
    (∀ p, s.aln.pending = some p → s.stc.op = .align → s.aln.log.length ≤ 8 →
      let logged (o : SampleOutcome) : Aln :=
        { pending := none
          log := List.drop (s.aln.log.length + 1 - 8) (s.aln.log ++ [{ seq := p.seq, outcome := o }])
          total := min 255 (s.aln.total + 1) }
      (landed < p.time → exec (.sync h order) s = .next (stepped s.counted)) ∧
      (p.time < landed →
        exec (.sync h order) s = .next ((stepped s.counted).setAln (logged .tooLate))) ∧
      (p.time = landed →
        exec (.sync h order) s = .next
          { stepped s.counted with
            aln := logged (if (s.cap.inputs[0]).level = .high then .high else .low)
            cap := s.cap.update 0 fun i => { i with sampled := true } }))

/-- A PROBE that matches, heard in ALIGN while no command commits: TOO_LATE if its time is not in the
future, else it becomes the pending sample, the one before it logged SUPERSEDED; in other states, or not
matching, it is counted only (R146, R193). -/
def Obligations.ProbeSetsTheSample : Prop :=
  ∀ (s : State) (h : Heard) (f : Frame) (order : TakenFirst) (now : Nat), s.Hears h →
    h.frame? = some f → f.kind = 0x04#8 → s.stc.op ∈ acceptingStates → s.Waits →
    s.tbu.localTime = some now → s.aln.log.length ≤ 8 →
    let logged (seq : Byte) (o : SampleOutcome) (pending : Option Sample) : Aln :=
      { pending := pending
        log := List.drop (s.aln.log.length + 1 - 8) (s.aln.log ++ [{ seq := seq, outcome := o }])
        total := min 255 (s.aln.total + 1) }
    let matching := f.payload.length = 8 ∧ beNat f.payload < 2 ^ 63 ∧
      (f.dest = 0 ∨
        (1 ≤ f.dest.toNat ∧ f.dest.toNat ≤ 31 ∧ f.dest.toNat = s.lnk.unitAddress.toNat) ∨
        (32 ≤ f.dest.toNat ∧ f.dest.toNat ≤ 47 ∧
          s.lnk.groups.getLsbD (f.dest.toNat - 32) = true))
    (s.stc.op ≠ .align ∨ ¬ matching → exec (.probe h order) s = .next s.counted) ∧
    (s.stc.op = .align → matching →
      exec (.probe h order) s = .next (s.counted.setAln
        (if beNat f.payload ≤ now then
          logged f.seq .tooLate s.aln.pending
        else
          match s.aln.pending with
          | none => { s.aln with pending := some { time := beNat f.payload, seq := f.seq } }
          | some p =>
            logged p.seq .superseded (some { time := beNat f.payload, seq := f.seq }))))

/-- A fault found in a frame that the part hears, or in one that is in reception already, is reported at
the symbol at which it is found, a second start delimiter inside the frame among these (FRAMING): in an
accepting state the staging queue is voided, the first fault writes the record and a later one raises
the count, FAULT is set, the quiesce starts; in PERSISTENT mode nothing else, in LATCHED mode the part
goes to FAULT_HOLD with its state remembered, RUN left and a pending sample discarded. In DORMANT the
fault is ignored (R111, R136, R142, R173, R174, R176, R178, R179, R192). -/
def Obligations.FaultReportActs : Prop :=
  ∀ (s : State) (h : Heard) (c : Instr) (k : FaultKind) (header : List Byte),
    (c = .faultReport h ∧ s.Hears h ∧ classify h.symbols = .fault k header) ∨
      (heardOf c = some h ∧ c.wf = true ∧ s.sending = false ∧ s.lnk.receiver = .receiving ∧
        ∃ f, s.lnk.reception = some f ∧ f.age = h.since ∧
          classifyFrom .receiving (some f) h.symbols = .fault k header) →
    ∃ after : State,
      after = s.passed .discarding none ∧
      (s.stc.op = .dormant → exec c s = .next after) ∧
      (s.stc.op ∈ acceptingStates →
        let reported : State :=
          { after with
            cin := { s.cin with queue := [], expiry := none }
            rpu :=
              { outbox := s.rpu.outbox.map fun x =>
                  if x.result = none ∧ ∃ c ∈ s.cin.queue, c.origin = .unit x.seq then
                    { seq := x.seq, result := some { code := .voided, payload := [] } }
                  else x }
            imn :=
              { s.imn with
                flag := true
                record :=
                  if s.imn.flag then s.imn.record
                  else some
                    { kind := k, time := s.tbu.localTime, op := s.stc.op, header := header,
                      voided := s.cin.queue.length }
                count := if s.imn.flag then min 255 (s.imn.count + 1) else 1
                quiesce := some 6400 }
            atn := { s.atn with flags := { s.atn.flags with fault := true } } }
        (s.imn.mode = .persistent ∨ s.stc.op = .faultHold →
          exec c s = .next reported) ∧
        (∀ held : HeldState, s.imn.mode = .latched → s.stc.op.held = some held →
          exec c s = .next
            { reported with
              stc := { s.stc with op := .faultHold, beforeFault := some held }
              aln := { s.aln with pending := none }
              out :=
                if s.stc.op = .run then
                  { channels := s.out.channels.map fun c => { c with pulse := none } }
                else s.out
              cap :=
                if s.stc.op = .run then
                  { s.cap with inputs := s.cap.inputs.map fun i => { i with window := none } }
                else s.cap }))

/-- Where a run of symbols is faulted, and with how many header bytes: an offending symbol, a length above
56, a 63rd byte, an end delimiter too early or too late, a check word that does not match (R142, R172). -/
def Obligations.FaultsAreClassified : Prop :=
  ∀ bytes : List Byte,
    let taken : List LineSymbol := bytes.map LineSymbol.byte
    let lengthOk := ∀ b, bytes[3]? = some b → b.toNat ≤ 56
    (bytes.length ≤ 62 → lengthOk →
      classify (taken ++ [.invalid]) = .fault .framing (bytes.take 4) ∧
      classify (taken ++ [.start]) = .fault .framing (bytes.take 4) ∧
      classify (taken ++ [.idle]) = .fault .framing (bytes.take 4)) ∧
    (bytes.length = 4 → ¬ lengthOk → classify taken = .fault .length bytes) ∧
    (bytes.length = 63 → lengthOk → classify taken = .fault .oversize (bytes.take 4)) ∧
    (bytes.length < 6 → lengthOk → classify (taken ++ [.stop]) = .fault .length (bytes.take 4)) ∧
    (∀ b, bytes[3]? = some b → b.toNat ≤ 56 → 6 ≤ bytes.length → bytes.length ≤ 62 →
      (bytes.length ≠ b.toNat + 6 →
        classify (taken ++ [.stop]) = .fault .length (bytes.take 4)) ∧
      (bytes.length = b.toNat + 6 →
        beNat (bytes.drop (b.toNat + 4)) ≠ (crc (bytes.take (b.toNat + 4))).toNat →
        classify (taken ++ [.stop]) = .fault .checkWord (bytes.take 4)))

/-! ### What every step keeps -/

/-- The state after a hard reset meets every invariant, with nothing waiting and the transmitter IDLE. -/
def Obligations.ResetIsSound : Prop :=
  State.reset.Sound ∧ State.reset.pending = [] ∧ State.reset.lnk.transmitter = .idle

/-- The schedule table: at most 128 entries, no handle twice, in order of due time and then of insertion
(R5, R6). -/
def Obligations.ScheduleStaysOrdered : Prop :=
  ∀ s t : State, step s = .next t → s.sct.Sound → t.sct.Sound

/-- The event queue: at most 64 records with consecutive sequence numbers (R98). -/
def Obligations.EventsStayConsecutive : Prop :=
  ∀ s t : State, step s = .next t → s.evq.Sound → t.evq.Sound

/-- The staging queue and the outbox: at most 8 commands and 16 records, no sequence twice, and one
RESERVED record for each UNIT command staged, in the same order (R129, R155, R158). -/
def Obligations.ReservationsMatchTheStaged : Prop :=
  ∀ s t : State, step s = .next t → s.IntakeLive → t.IntakeLive

/-- The operating state and the two remembered states: only the combinations of R113 (with R103's wake
delay). -/
def Obligations.RememberedStatesNest : Prop :=
  ∀ s t : State, step s = .next t → s.stc.Nested → t.stc.Nested

/-- The transmitter leaves IDLE only by a POLL row that is heard: an intact frame of one payload byte to
the part's own non-zero unit address, in an accepting state, while the part neither transmits nor is in
hard reset (R151). -/
def Obligations.OnlyAPollIsAnswered : Prop :=
  ∀ (c : Instr) (s t : State), exec c s = .next t → s.lnk.transmitter = .idle →
    t.lnk.transmitter ≠ .idle →
    ∃ h order f, c = .poll h order ∧ h.isKind 0x02#8 = true ∧ (s.receive h).2.2 = .intact f ∧
      f.payload.length = 1 ∧ 1 ≤ f.dest.toNat ∧ f.dest.toNat = s.lnk.unitAddress.toNat ∧
      s.stc.op ∈ acceptingStates ∧ s.sending = false ∧ s.lnk.receiver ≠ .off

/-- EVERY STEP KEEPS ALL OF IT: schedule, events, staging and outbox, remembered states, fault state, pins
outside RUN, timebase, the table against the timebase, alignment (R5, R98, R129, R155, R158, R113, R175,
R70, R92, R46, R11, R61, R191). -/
def Obligations.EveryStepIsSound : Prop :=
  ∀ s t : State, step s = .next t → s.Sound → t.Sound

end
end

