-- ==== Sys2Proof/Laws/State.lean ====
section
/-! SUPPORT. One lemma per field and per setter, so that no later proof unfolds a record update. -/

namespace Sys2Proof.Machine.State

/-! ### setLnk -/

@[simp] theorem setLnk_lnk (s : State) (x : Lnk) : (s.setLnk x).lnk = x := rfl

@[simp] theorem setLnk_imn (s : State) (x : Lnk) : (s.setLnk x).imn = s.imn := rfl

@[simp] theorem setLnk_cin (s : State) (x : Lnk) : (s.setLnk x).cin = s.cin := rfl

@[simp] theorem setLnk_rpu (s : State) (x : Lnk) : (s.setLnk x).rpu = s.rpu := rfl

@[simp] theorem setLnk_stc (s : State) (x : Lnk) : (s.setLnk x).stc = s.stc := rfl

@[simp] theorem setLnk_tbu (s : State) (x : Lnk) : (s.setLnk x).tbu = s.tbu := rfl

@[simp] theorem setLnk_sct (s : State) (x : Lnk) : (s.setLnk x).sct = s.sct := rfl

@[simp] theorem setLnk_dpu (s : State) (x : Lnk) : (s.setLnk x).dpu = s.dpu := rfl

@[simp] theorem setLnk_out (s : State) (x : Lnk) : (s.setLnk x).out = s.out := rfl

@[simp] theorem setLnk_cap (s : State) (x : Lnk) : (s.setLnk x).cap = s.cap := rfl

@[simp] theorem setLnk_evq (s : State) (x : Lnk) : (s.setLnk x).evq = s.evq := rfl

@[simp] theorem setLnk_atn (s : State) (x : Lnk) : (s.setLnk x).atn = s.atn := rfl

@[simp] theorem setLnk_aln (s : State) (x : Lnk) : (s.setLnk x).aln = s.aln := rfl

@[simp] theorem setLnk_pending (s : State) (x : Lnk) : (s.setLnk x).pending = s.pending := rfl

@[simp] theorem setLnk_draws (s : State) (x : Lnk) : (s.setLnk x).draws = s.draws := rfl

@[simp] theorem setLnk_twice (s : State) (x y : Lnk) :
    (s.setLnk x).setLnk y = s.setLnk y := rfl

@[simp] theorem setLnk_self (s : State) : s.setLnk s.lnk = s := rfl

/-! ### setImn -/

@[simp] theorem setImn_lnk (s : State) (x : Imn) : (s.setImn x).lnk = s.lnk := rfl

@[simp] theorem setImn_imn (s : State) (x : Imn) : (s.setImn x).imn = x := rfl

@[simp] theorem setImn_cin (s : State) (x : Imn) : (s.setImn x).cin = s.cin := rfl

@[simp] theorem setImn_rpu (s : State) (x : Imn) : (s.setImn x).rpu = s.rpu := rfl

@[simp] theorem setImn_stc (s : State) (x : Imn) : (s.setImn x).stc = s.stc := rfl

@[simp] theorem setImn_tbu (s : State) (x : Imn) : (s.setImn x).tbu = s.tbu := rfl

@[simp] theorem setImn_sct (s : State) (x : Imn) : (s.setImn x).sct = s.sct := rfl

@[simp] theorem setImn_dpu (s : State) (x : Imn) : (s.setImn x).dpu = s.dpu := rfl

@[simp] theorem setImn_out (s : State) (x : Imn) : (s.setImn x).out = s.out := rfl

@[simp] theorem setImn_cap (s : State) (x : Imn) : (s.setImn x).cap = s.cap := rfl

@[simp] theorem setImn_evq (s : State) (x : Imn) : (s.setImn x).evq = s.evq := rfl

@[simp] theorem setImn_atn (s : State) (x : Imn) : (s.setImn x).atn = s.atn := rfl

@[simp] theorem setImn_aln (s : State) (x : Imn) : (s.setImn x).aln = s.aln := rfl

@[simp] theorem setImn_pending (s : State) (x : Imn) : (s.setImn x).pending = s.pending := rfl

@[simp] theorem setImn_draws (s : State) (x : Imn) : (s.setImn x).draws = s.draws := rfl

@[simp] theorem setImn_twice (s : State) (x y : Imn) :
    (s.setImn x).setImn y = s.setImn y := rfl

@[simp] theorem setImn_self (s : State) : s.setImn s.imn = s := rfl

/-! ### setCin -/

@[simp] theorem setCin_lnk (s : State) (x : Cin) : (s.setCin x).lnk = s.lnk := rfl

@[simp] theorem setCin_imn (s : State) (x : Cin) : (s.setCin x).imn = s.imn := rfl

@[simp] theorem setCin_cin (s : State) (x : Cin) : (s.setCin x).cin = x := rfl

@[simp] theorem setCin_rpu (s : State) (x : Cin) : (s.setCin x).rpu = s.rpu := rfl

@[simp] theorem setCin_stc (s : State) (x : Cin) : (s.setCin x).stc = s.stc := rfl

@[simp] theorem setCin_tbu (s : State) (x : Cin) : (s.setCin x).tbu = s.tbu := rfl

@[simp] theorem setCin_sct (s : State) (x : Cin) : (s.setCin x).sct = s.sct := rfl

@[simp] theorem setCin_dpu (s : State) (x : Cin) : (s.setCin x).dpu = s.dpu := rfl

@[simp] theorem setCin_out (s : State) (x : Cin) : (s.setCin x).out = s.out := rfl

@[simp] theorem setCin_cap (s : State) (x : Cin) : (s.setCin x).cap = s.cap := rfl

@[simp] theorem setCin_evq (s : State) (x : Cin) : (s.setCin x).evq = s.evq := rfl

@[simp] theorem setCin_atn (s : State) (x : Cin) : (s.setCin x).atn = s.atn := rfl

@[simp] theorem setCin_aln (s : State) (x : Cin) : (s.setCin x).aln = s.aln := rfl

@[simp] theorem setCin_pending (s : State) (x : Cin) : (s.setCin x).pending = s.pending := rfl

@[simp] theorem setCin_draws (s : State) (x : Cin) : (s.setCin x).draws = s.draws := rfl

@[simp] theorem setCin_twice (s : State) (x y : Cin) :
    (s.setCin x).setCin y = s.setCin y := rfl

@[simp] theorem setCin_self (s : State) : s.setCin s.cin = s := rfl

/-! ### setRpu -/

@[simp] theorem setRpu_lnk (s : State) (x : Rpu) : (s.setRpu x).lnk = s.lnk := rfl

@[simp] theorem setRpu_imn (s : State) (x : Rpu) : (s.setRpu x).imn = s.imn := rfl

@[simp] theorem setRpu_cin (s : State) (x : Rpu) : (s.setRpu x).cin = s.cin := rfl

@[simp] theorem setRpu_rpu (s : State) (x : Rpu) : (s.setRpu x).rpu = x := rfl

@[simp] theorem setRpu_stc (s : State) (x : Rpu) : (s.setRpu x).stc = s.stc := rfl

@[simp] theorem setRpu_tbu (s : State) (x : Rpu) : (s.setRpu x).tbu = s.tbu := rfl

@[simp] theorem setRpu_sct (s : State) (x : Rpu) : (s.setRpu x).sct = s.sct := rfl

@[simp] theorem setRpu_dpu (s : State) (x : Rpu) : (s.setRpu x).dpu = s.dpu := rfl

@[simp] theorem setRpu_out (s : State) (x : Rpu) : (s.setRpu x).out = s.out := rfl

@[simp] theorem setRpu_cap (s : State) (x : Rpu) : (s.setRpu x).cap = s.cap := rfl

@[simp] theorem setRpu_evq (s : State) (x : Rpu) : (s.setRpu x).evq = s.evq := rfl

@[simp] theorem setRpu_atn (s : State) (x : Rpu) : (s.setRpu x).atn = s.atn := rfl

@[simp] theorem setRpu_aln (s : State) (x : Rpu) : (s.setRpu x).aln = s.aln := rfl

@[simp] theorem setRpu_pending (s : State) (x : Rpu) : (s.setRpu x).pending = s.pending := rfl

@[simp] theorem setRpu_draws (s : State) (x : Rpu) : (s.setRpu x).draws = s.draws := rfl

@[simp] theorem setRpu_twice (s : State) (x y : Rpu) :
    (s.setRpu x).setRpu y = s.setRpu y := rfl

@[simp] theorem setRpu_self (s : State) : s.setRpu s.rpu = s := rfl

/-! ### setStc -/

@[simp] theorem setStc_lnk (s : State) (x : Stc) : (s.setStc x).lnk = s.lnk := rfl

@[simp] theorem setStc_imn (s : State) (x : Stc) : (s.setStc x).imn = s.imn := rfl

@[simp] theorem setStc_cin (s : State) (x : Stc) : (s.setStc x).cin = s.cin := rfl

@[simp] theorem setStc_rpu (s : State) (x : Stc) : (s.setStc x).rpu = s.rpu := rfl

@[simp] theorem setStc_stc (s : State) (x : Stc) : (s.setStc x).stc = x := rfl

@[simp] theorem setStc_tbu (s : State) (x : Stc) : (s.setStc x).tbu = s.tbu := rfl

@[simp] theorem setStc_sct (s : State) (x : Stc) : (s.setStc x).sct = s.sct := rfl

@[simp] theorem setStc_dpu (s : State) (x : Stc) : (s.setStc x).dpu = s.dpu := rfl

@[simp] theorem setStc_out (s : State) (x : Stc) : (s.setStc x).out = s.out := rfl

@[simp] theorem setStc_cap (s : State) (x : Stc) : (s.setStc x).cap = s.cap := rfl

@[simp] theorem setStc_evq (s : State) (x : Stc) : (s.setStc x).evq = s.evq := rfl

@[simp] theorem setStc_atn (s : State) (x : Stc) : (s.setStc x).atn = s.atn := rfl

@[simp] theorem setStc_aln (s : State) (x : Stc) : (s.setStc x).aln = s.aln := rfl

@[simp] theorem setStc_pending (s : State) (x : Stc) : (s.setStc x).pending = s.pending := rfl

@[simp] theorem setStc_draws (s : State) (x : Stc) : (s.setStc x).draws = s.draws := rfl

@[simp] theorem setStc_twice (s : State) (x y : Stc) :
    (s.setStc x).setStc y = s.setStc y := rfl

@[simp] theorem setStc_self (s : State) : s.setStc s.stc = s := rfl

/-! ### setTbu -/

@[simp] theorem setTbu_lnk (s : State) (x : Tbu) : (s.setTbu x).lnk = s.lnk := rfl

@[simp] theorem setTbu_imn (s : State) (x : Tbu) : (s.setTbu x).imn = s.imn := rfl

@[simp] theorem setTbu_cin (s : State) (x : Tbu) : (s.setTbu x).cin = s.cin := rfl

@[simp] theorem setTbu_rpu (s : State) (x : Tbu) : (s.setTbu x).rpu = s.rpu := rfl

@[simp] theorem setTbu_stc (s : State) (x : Tbu) : (s.setTbu x).stc = s.stc := rfl

@[simp] theorem setTbu_tbu (s : State) (x : Tbu) : (s.setTbu x).tbu = x := rfl

@[simp] theorem setTbu_sct (s : State) (x : Tbu) : (s.setTbu x).sct = s.sct := rfl

@[simp] theorem setTbu_dpu (s : State) (x : Tbu) : (s.setTbu x).dpu = s.dpu := rfl

@[simp] theorem setTbu_out (s : State) (x : Tbu) : (s.setTbu x).out = s.out := rfl

@[simp] theorem setTbu_cap (s : State) (x : Tbu) : (s.setTbu x).cap = s.cap := rfl

@[simp] theorem setTbu_evq (s : State) (x : Tbu) : (s.setTbu x).evq = s.evq := rfl

@[simp] theorem setTbu_atn (s : State) (x : Tbu) : (s.setTbu x).atn = s.atn := rfl

@[simp] theorem setTbu_aln (s : State) (x : Tbu) : (s.setTbu x).aln = s.aln := rfl

@[simp] theorem setTbu_pending (s : State) (x : Tbu) : (s.setTbu x).pending = s.pending := rfl

@[simp] theorem setTbu_draws (s : State) (x : Tbu) : (s.setTbu x).draws = s.draws := rfl

@[simp] theorem setTbu_twice (s : State) (x y : Tbu) :
    (s.setTbu x).setTbu y = s.setTbu y := rfl

@[simp] theorem setTbu_self (s : State) : s.setTbu s.tbu = s := rfl

/-! ### setSct -/

@[simp] theorem setSct_lnk (s : State) (x : Sct) : (s.setSct x).lnk = s.lnk := rfl

@[simp] theorem setSct_imn (s : State) (x : Sct) : (s.setSct x).imn = s.imn := rfl

@[simp] theorem setSct_cin (s : State) (x : Sct) : (s.setSct x).cin = s.cin := rfl

@[simp] theorem setSct_rpu (s : State) (x : Sct) : (s.setSct x).rpu = s.rpu := rfl

@[simp] theorem setSct_stc (s : State) (x : Sct) : (s.setSct x).stc = s.stc := rfl

@[simp] theorem setSct_tbu (s : State) (x : Sct) : (s.setSct x).tbu = s.tbu := rfl

@[simp] theorem setSct_sct (s : State) (x : Sct) : (s.setSct x).sct = x := rfl

@[simp] theorem setSct_dpu (s : State) (x : Sct) : (s.setSct x).dpu = s.dpu := rfl

@[simp] theorem setSct_out (s : State) (x : Sct) : (s.setSct x).out = s.out := rfl

@[simp] theorem setSct_cap (s : State) (x : Sct) : (s.setSct x).cap = s.cap := rfl

@[simp] theorem setSct_evq (s : State) (x : Sct) : (s.setSct x).evq = s.evq := rfl

@[simp] theorem setSct_atn (s : State) (x : Sct) : (s.setSct x).atn = s.atn := rfl

@[simp] theorem setSct_aln (s : State) (x : Sct) : (s.setSct x).aln = s.aln := rfl

@[simp] theorem setSct_pending (s : State) (x : Sct) : (s.setSct x).pending = s.pending := rfl

@[simp] theorem setSct_draws (s : State) (x : Sct) : (s.setSct x).draws = s.draws := rfl

@[simp] theorem setSct_twice (s : State) (x y : Sct) :
    (s.setSct x).setSct y = s.setSct y := rfl

@[simp] theorem setSct_self (s : State) : s.setSct s.sct = s := rfl

/-! ### setDpu -/

@[simp] theorem setDpu_lnk (s : State) (x : Dpu) : (s.setDpu x).lnk = s.lnk := rfl

@[simp] theorem setDpu_imn (s : State) (x : Dpu) : (s.setDpu x).imn = s.imn := rfl

@[simp] theorem setDpu_cin (s : State) (x : Dpu) : (s.setDpu x).cin = s.cin := rfl

@[simp] theorem setDpu_rpu (s : State) (x : Dpu) : (s.setDpu x).rpu = s.rpu := rfl

@[simp] theorem setDpu_stc (s : State) (x : Dpu) : (s.setDpu x).stc = s.stc := rfl

@[simp] theorem setDpu_tbu (s : State) (x : Dpu) : (s.setDpu x).tbu = s.tbu := rfl

@[simp] theorem setDpu_sct (s : State) (x : Dpu) : (s.setDpu x).sct = s.sct := rfl

@[simp] theorem setDpu_dpu (s : State) (x : Dpu) : (s.setDpu x).dpu = x := rfl

@[simp] theorem setDpu_out (s : State) (x : Dpu) : (s.setDpu x).out = s.out := rfl

@[simp] theorem setDpu_cap (s : State) (x : Dpu) : (s.setDpu x).cap = s.cap := rfl

@[simp] theorem setDpu_evq (s : State) (x : Dpu) : (s.setDpu x).evq = s.evq := rfl

@[simp] theorem setDpu_atn (s : State) (x : Dpu) : (s.setDpu x).atn = s.atn := rfl

@[simp] theorem setDpu_aln (s : State) (x : Dpu) : (s.setDpu x).aln = s.aln := rfl

@[simp] theorem setDpu_pending (s : State) (x : Dpu) : (s.setDpu x).pending = s.pending := rfl

@[simp] theorem setDpu_draws (s : State) (x : Dpu) : (s.setDpu x).draws = s.draws := rfl

@[simp] theorem setDpu_twice (s : State) (x y : Dpu) :
    (s.setDpu x).setDpu y = s.setDpu y := rfl

@[simp] theorem setDpu_self (s : State) : s.setDpu s.dpu = s := rfl

/-! ### setOut -/

@[simp] theorem setOut_lnk (s : State) (x : Out) : (s.setOut x).lnk = s.lnk := rfl

@[simp] theorem setOut_imn (s : State) (x : Out) : (s.setOut x).imn = s.imn := rfl

@[simp] theorem setOut_cin (s : State) (x : Out) : (s.setOut x).cin = s.cin := rfl

@[simp] theorem setOut_rpu (s : State) (x : Out) : (s.setOut x).rpu = s.rpu := rfl

@[simp] theorem setOut_stc (s : State) (x : Out) : (s.setOut x).stc = s.stc := rfl

@[simp] theorem setOut_tbu (s : State) (x : Out) : (s.setOut x).tbu = s.tbu := rfl

@[simp] theorem setOut_sct (s : State) (x : Out) : (s.setOut x).sct = s.sct := rfl

@[simp] theorem setOut_dpu (s : State) (x : Out) : (s.setOut x).dpu = s.dpu := rfl

@[simp] theorem setOut_out (s : State) (x : Out) : (s.setOut x).out = x := rfl

@[simp] theorem setOut_cap (s : State) (x : Out) : (s.setOut x).cap = s.cap := rfl

@[simp] theorem setOut_evq (s : State) (x : Out) : (s.setOut x).evq = s.evq := rfl

@[simp] theorem setOut_atn (s : State) (x : Out) : (s.setOut x).atn = s.atn := rfl

@[simp] theorem setOut_aln (s : State) (x : Out) : (s.setOut x).aln = s.aln := rfl

@[simp] theorem setOut_pending (s : State) (x : Out) : (s.setOut x).pending = s.pending := rfl

@[simp] theorem setOut_draws (s : State) (x : Out) : (s.setOut x).draws = s.draws := rfl

@[simp] theorem setOut_twice (s : State) (x y : Out) :
    (s.setOut x).setOut y = s.setOut y := rfl

@[simp] theorem setOut_self (s : State) : s.setOut s.out = s := rfl

/-! ### setCap -/

@[simp] theorem setCap_lnk (s : State) (x : Cap) : (s.setCap x).lnk = s.lnk := rfl

@[simp] theorem setCap_imn (s : State) (x : Cap) : (s.setCap x).imn = s.imn := rfl

@[simp] theorem setCap_cin (s : State) (x : Cap) : (s.setCap x).cin = s.cin := rfl

@[simp] theorem setCap_rpu (s : State) (x : Cap) : (s.setCap x).rpu = s.rpu := rfl

@[simp] theorem setCap_stc (s : State) (x : Cap) : (s.setCap x).stc = s.stc := rfl

@[simp] theorem setCap_tbu (s : State) (x : Cap) : (s.setCap x).tbu = s.tbu := rfl

@[simp] theorem setCap_sct (s : State) (x : Cap) : (s.setCap x).sct = s.sct := rfl

@[simp] theorem setCap_dpu (s : State) (x : Cap) : (s.setCap x).dpu = s.dpu := rfl

@[simp] theorem setCap_out (s : State) (x : Cap) : (s.setCap x).out = s.out := rfl

@[simp] theorem setCap_cap (s : State) (x : Cap) : (s.setCap x).cap = x := rfl

@[simp] theorem setCap_evq (s : State) (x : Cap) : (s.setCap x).evq = s.evq := rfl

@[simp] theorem setCap_atn (s : State) (x : Cap) : (s.setCap x).atn = s.atn := rfl

@[simp] theorem setCap_aln (s : State) (x : Cap) : (s.setCap x).aln = s.aln := rfl

@[simp] theorem setCap_pending (s : State) (x : Cap) : (s.setCap x).pending = s.pending := rfl

@[simp] theorem setCap_draws (s : State) (x : Cap) : (s.setCap x).draws = s.draws := rfl

@[simp] theorem setCap_twice (s : State) (x y : Cap) :
    (s.setCap x).setCap y = s.setCap y := rfl

@[simp] theorem setCap_self (s : State) : s.setCap s.cap = s := rfl

/-! ### setEvq -/

@[simp] theorem setEvq_lnk (s : State) (x : Evq) : (s.setEvq x).lnk = s.lnk := rfl

@[simp] theorem setEvq_imn (s : State) (x : Evq) : (s.setEvq x).imn = s.imn := rfl

@[simp] theorem setEvq_cin (s : State) (x : Evq) : (s.setEvq x).cin = s.cin := rfl

@[simp] theorem setEvq_rpu (s : State) (x : Evq) : (s.setEvq x).rpu = s.rpu := rfl

@[simp] theorem setEvq_stc (s : State) (x : Evq) : (s.setEvq x).stc = s.stc := rfl

@[simp] theorem setEvq_tbu (s : State) (x : Evq) : (s.setEvq x).tbu = s.tbu := rfl

@[simp] theorem setEvq_sct (s : State) (x : Evq) : (s.setEvq x).sct = s.sct := rfl

@[simp] theorem setEvq_dpu (s : State) (x : Evq) : (s.setEvq x).dpu = s.dpu := rfl

@[simp] theorem setEvq_out (s : State) (x : Evq) : (s.setEvq x).out = s.out := rfl

@[simp] theorem setEvq_cap (s : State) (x : Evq) : (s.setEvq x).cap = s.cap := rfl

@[simp] theorem setEvq_evq (s : State) (x : Evq) : (s.setEvq x).evq = x := rfl

@[simp] theorem setEvq_atn (s : State) (x : Evq) : (s.setEvq x).atn = s.atn := rfl

@[simp] theorem setEvq_aln (s : State) (x : Evq) : (s.setEvq x).aln = s.aln := rfl

@[simp] theorem setEvq_pending (s : State) (x : Evq) : (s.setEvq x).pending = s.pending := rfl

@[simp] theorem setEvq_draws (s : State) (x : Evq) : (s.setEvq x).draws = s.draws := rfl

@[simp] theorem setEvq_twice (s : State) (x y : Evq) :
    (s.setEvq x).setEvq y = s.setEvq y := rfl

@[simp] theorem setEvq_self (s : State) : s.setEvq s.evq = s := rfl

/-! ### setAtn -/

@[simp] theorem setAtn_lnk (s : State) (x : Atn) : (s.setAtn x).lnk = s.lnk := rfl

@[simp] theorem setAtn_imn (s : State) (x : Atn) : (s.setAtn x).imn = s.imn := rfl

@[simp] theorem setAtn_cin (s : State) (x : Atn) : (s.setAtn x).cin = s.cin := rfl

@[simp] theorem setAtn_rpu (s : State) (x : Atn) : (s.setAtn x).rpu = s.rpu := rfl

@[simp] theorem setAtn_stc (s : State) (x : Atn) : (s.setAtn x).stc = s.stc := rfl

@[simp] theorem setAtn_tbu (s : State) (x : Atn) : (s.setAtn x).tbu = s.tbu := rfl

@[simp] theorem setAtn_sct (s : State) (x : Atn) : (s.setAtn x).sct = s.sct := rfl

@[simp] theorem setAtn_dpu (s : State) (x : Atn) : (s.setAtn x).dpu = s.dpu := rfl

@[simp] theorem setAtn_out (s : State) (x : Atn) : (s.setAtn x).out = s.out := rfl

@[simp] theorem setAtn_cap (s : State) (x : Atn) : (s.setAtn x).cap = s.cap := rfl

@[simp] theorem setAtn_evq (s : State) (x : Atn) : (s.setAtn x).evq = s.evq := rfl

@[simp] theorem setAtn_atn (s : State) (x : Atn) : (s.setAtn x).atn = x := rfl

@[simp] theorem setAtn_aln (s : State) (x : Atn) : (s.setAtn x).aln = s.aln := rfl

@[simp] theorem setAtn_pending (s : State) (x : Atn) : (s.setAtn x).pending = s.pending := rfl

@[simp] theorem setAtn_draws (s : State) (x : Atn) : (s.setAtn x).draws = s.draws := rfl

@[simp] theorem setAtn_twice (s : State) (x y : Atn) :
    (s.setAtn x).setAtn y = s.setAtn y := rfl

@[simp] theorem setAtn_self (s : State) : s.setAtn s.atn = s := rfl

/-! ### setAln -/

@[simp] theorem setAln_lnk (s : State) (x : Aln) : (s.setAln x).lnk = s.lnk := rfl

@[simp] theorem setAln_imn (s : State) (x : Aln) : (s.setAln x).imn = s.imn := rfl

@[simp] theorem setAln_cin (s : State) (x : Aln) : (s.setAln x).cin = s.cin := rfl

@[simp] theorem setAln_rpu (s : State) (x : Aln) : (s.setAln x).rpu = s.rpu := rfl

@[simp] theorem setAln_stc (s : State) (x : Aln) : (s.setAln x).stc = s.stc := rfl

@[simp] theorem setAln_tbu (s : State) (x : Aln) : (s.setAln x).tbu = s.tbu := rfl

@[simp] theorem setAln_sct (s : State) (x : Aln) : (s.setAln x).sct = s.sct := rfl

@[simp] theorem setAln_dpu (s : State) (x : Aln) : (s.setAln x).dpu = s.dpu := rfl

@[simp] theorem setAln_out (s : State) (x : Aln) : (s.setAln x).out = s.out := rfl

@[simp] theorem setAln_cap (s : State) (x : Aln) : (s.setAln x).cap = s.cap := rfl

@[simp] theorem setAln_evq (s : State) (x : Aln) : (s.setAln x).evq = s.evq := rfl

@[simp] theorem setAln_atn (s : State) (x : Aln) : (s.setAln x).atn = s.atn := rfl

@[simp] theorem setAln_aln (s : State) (x : Aln) : (s.setAln x).aln = x := rfl

@[simp] theorem setAln_pending (s : State) (x : Aln) : (s.setAln x).pending = s.pending := rfl

@[simp] theorem setAln_draws (s : State) (x : Aln) : (s.setAln x).draws = s.draws := rfl

@[simp] theorem setAln_twice (s : State) (x y : Aln) :
    (s.setAln x).setAln y = s.setAln y := rfl

@[simp] theorem setAln_self (s : State) : s.setAln s.aln = s := rfl

/-! ### setPending -/

@[simp] theorem setPending_lnk (s : State) (x : List Instr) : (s.setPending x).lnk = s.lnk := rfl

@[simp] theorem setPending_imn (s : State) (x : List Instr) : (s.setPending x).imn = s.imn := rfl

@[simp] theorem setPending_cin (s : State) (x : List Instr) : (s.setPending x).cin = s.cin := rfl

@[simp] theorem setPending_rpu (s : State) (x : List Instr) : (s.setPending x).rpu = s.rpu := rfl

@[simp] theorem setPending_stc (s : State) (x : List Instr) : (s.setPending x).stc = s.stc := rfl

@[simp] theorem setPending_tbu (s : State) (x : List Instr) : (s.setPending x).tbu = s.tbu := rfl

@[simp] theorem setPending_sct (s : State) (x : List Instr) : (s.setPending x).sct = s.sct := rfl

@[simp] theorem setPending_dpu (s : State) (x : List Instr) : (s.setPending x).dpu = s.dpu := rfl

@[simp] theorem setPending_out (s : State) (x : List Instr) : (s.setPending x).out = s.out := rfl

@[simp] theorem setPending_cap (s : State) (x : List Instr) : (s.setPending x).cap = s.cap := rfl

@[simp] theorem setPending_evq (s : State) (x : List Instr) : (s.setPending x).evq = s.evq := rfl

@[simp] theorem setPending_atn (s : State) (x : List Instr) : (s.setPending x).atn = s.atn := rfl

@[simp] theorem setPending_aln (s : State) (x : List Instr) : (s.setPending x).aln = s.aln := rfl

@[simp] theorem setPending_pending (s : State) (x : List Instr) : (s.setPending x).pending = x := rfl

@[simp] theorem setPending_draws (s : State) (x : List Instr) : (s.setPending x).draws = s.draws := rfl

@[simp] theorem setPending_twice (s : State) (x y : List Instr) :
    (s.setPending x).setPending y = s.setPending y := rfl

@[simp] theorem setPending_self (s : State) : s.setPending s.pending = s := rfl

/-! ### draw -/

@[simp] theorem draw_lnk (s : State) : s.draw.lnk = s.lnk := rfl

@[simp] theorem draw_imn (s : State) : s.draw.imn = s.imn := rfl

@[simp] theorem draw_cin (s : State) : s.draw.cin = s.cin := rfl

@[simp] theorem draw_rpu (s : State) : s.draw.rpu = s.rpu := rfl

@[simp] theorem draw_stc (s : State) : s.draw.stc = s.stc := rfl

@[simp] theorem draw_tbu (s : State) : s.draw.tbu = s.tbu := rfl

@[simp] theorem draw_sct (s : State) : s.draw.sct = s.sct := rfl

@[simp] theorem draw_dpu (s : State) : s.draw.dpu = s.dpu := rfl

@[simp] theorem draw_out (s : State) : s.draw.out = s.out := rfl

@[simp] theorem draw_cap (s : State) : s.draw.cap = s.cap := rfl

@[simp] theorem draw_evq (s : State) : s.draw.evq = s.evq := rfl

@[simp] theorem draw_atn (s : State) : s.draw.atn = s.atn := rfl

@[simp] theorem draw_aln (s : State) : s.draw.aln = s.aln := rfl

@[simp] theorem draw_pending (s : State) : s.draw.pending = s.pending := rfl

@[simp] theorem draw_draws (s : State) : s.draw.draws = s.draws + 1 := rfl

/-- Two states with the same fields are the same state. -/
theorem ext_fields {s t : State} (hlnk : s.lnk = t.lnk) (himn : s.imn = t.imn) (hcin : s.cin = t.cin)
    (hrpu : s.rpu = t.rpu) (hstc : s.stc = t.stc) (htbu : s.tbu = t.tbu) (hsct : s.sct = t.sct)
    (hdpu : s.dpu = t.dpu) (hout : s.out = t.out) (hcap : s.cap = t.cap) (hevq : s.evq = t.evq)
    (hatn : s.atn = t.atn) (haln : s.aln = t.aln) (hpending : s.pending = t.pending)
    (hdraws : s.draws = t.draws) : s = t := by
  cases s
  cases t
  simp_all

end Sys2Proof.Machine.State
end

