-- ==== Sys2Proof/Laws/Frame.lean ====
section
/-! SUPPORT. The frame of each shared operation: the blocks it leaves as they are. -/

namespace Sys2Proof.Machine

/-! ### Ops -/

@[simp] theorem raiseCondition_lnk (s : State) (c : Condition) :
    (s.raiseCondition c).lnk = s.lnk := rfl

@[simp] theorem raiseCondition_imn (s : State) (c : Condition) :
    (s.raiseCondition c).imn = s.imn := rfl

@[simp] theorem raiseCondition_cin (s : State) (c : Condition) :
    (s.raiseCondition c).cin = s.cin := rfl

@[simp] theorem raiseCondition_rpu (s : State) (c : Condition) :
    (s.raiseCondition c).rpu = s.rpu := rfl

@[simp] theorem raiseCondition_stc (s : State) (c : Condition) :
    (s.raiseCondition c).stc = s.stc := rfl

@[simp] theorem raiseCondition_tbu (s : State) (c : Condition) :
    (s.raiseCondition c).tbu = s.tbu := rfl

@[simp] theorem raiseCondition_sct (s : State) (c : Condition) :
    (s.raiseCondition c).sct = s.sct := rfl

@[simp] theorem raiseCondition_dpu (s : State) (c : Condition) :
    (s.raiseCondition c).dpu = s.dpu := rfl

@[simp] theorem raiseCondition_out (s : State) (c : Condition) :
    (s.raiseCondition c).out = s.out := rfl

@[simp] theorem raiseCondition_cap (s : State) (c : Condition) :
    (s.raiseCondition c).cap = s.cap := rfl

@[simp] theorem raiseCondition_evq (s : State) (c : Condition) :
    (s.raiseCondition c).evq = s.evq := rfl

@[simp] theorem raiseCondition_aln (s : State) (c : Condition) :
    (s.raiseCondition c).aln = s.aln := rfl

@[simp] theorem raiseCondition_pending (s : State) (c : Condition) :
    (s.raiseCondition c).pending = s.pending := rfl

@[simp] theorem raiseCondition_draws (s : State) (c : Condition) :
    (s.raiseCondition c).draws = s.draws := rfl

@[simp] theorem handEvent_lnk (s : State) (b : EventBody) :
    (s.handEvent b).lnk = s.lnk := by
  unfold State.handEvent
  (repeat' split) <;> simp

@[simp] theorem handEvent_imn (s : State) (b : EventBody) :
    (s.handEvent b).imn = s.imn := by
  unfold State.handEvent
  (repeat' split) <;> simp

@[simp] theorem handEvent_cin (s : State) (b : EventBody) :
    (s.handEvent b).cin = s.cin := by
  unfold State.handEvent
  (repeat' split) <;> simp

@[simp] theorem handEvent_rpu (s : State) (b : EventBody) :
    (s.handEvent b).rpu = s.rpu := by
  unfold State.handEvent
  (repeat' split) <;> simp

@[simp] theorem handEvent_stc (s : State) (b : EventBody) :
    (s.handEvent b).stc = s.stc := by
  unfold State.handEvent
  (repeat' split) <;> simp

@[simp] theorem handEvent_tbu (s : State) (b : EventBody) :
    (s.handEvent b).tbu = s.tbu := by
  unfold State.handEvent
  (repeat' split) <;> simp

@[simp] theorem handEvent_sct (s : State) (b : EventBody) :
    (s.handEvent b).sct = s.sct := by
  unfold State.handEvent
  (repeat' split) <;> simp

@[simp] theorem handEvent_dpu (s : State) (b : EventBody) :
    (s.handEvent b).dpu = s.dpu := by
  unfold State.handEvent
  (repeat' split) <;> simp

@[simp] theorem handEvent_out (s : State) (b : EventBody) :
    (s.handEvent b).out = s.out := by
  unfold State.handEvent
  (repeat' split) <;> simp

@[simp] theorem handEvent_cap (s : State) (b : EventBody) :
    (s.handEvent b).cap = s.cap := by
  unfold State.handEvent
  (repeat' split) <;> simp

@[simp] theorem handEvent_aln (s : State) (b : EventBody) :
    (s.handEvent b).aln = s.aln := by
  unfold State.handEvent
  (repeat' split) <;> simp

@[simp] theorem handEvent_pending (s : State) (b : EventBody) :
    (s.handEvent b).pending = s.pending := by
  unfold State.handEvent
  (repeat' split) <;> simp

@[simp] theorem handEvent_draws (s : State) (b : EventBody) :
    (s.handEvent b).draws = s.draws := by
  unfold State.handEvent
  (repeat' split) <;> simp

@[simp] theorem fill_lnk (s : State) (seq : Byte) (r : Result) :
    (s.fill seq r).lnk = s.lnk := rfl

@[simp] theorem fill_imn (s : State) (seq : Byte) (r : Result) :
    (s.fill seq r).imn = s.imn := rfl

@[simp] theorem fill_cin (s : State) (seq : Byte) (r : Result) :
    (s.fill seq r).cin = s.cin := rfl

@[simp] theorem fill_stc (s : State) (seq : Byte) (r : Result) :
    (s.fill seq r).stc = s.stc := rfl

@[simp] theorem fill_tbu (s : State) (seq : Byte) (r : Result) :
    (s.fill seq r).tbu = s.tbu := rfl

@[simp] theorem fill_sct (s : State) (seq : Byte) (r : Result) :
    (s.fill seq r).sct = s.sct := rfl

@[simp] theorem fill_dpu (s : State) (seq : Byte) (r : Result) :
    (s.fill seq r).dpu = s.dpu := rfl

@[simp] theorem fill_out (s : State) (seq : Byte) (r : Result) :
    (s.fill seq r).out = s.out := rfl

@[simp] theorem fill_cap (s : State) (seq : Byte) (r : Result) :
    (s.fill seq r).cap = s.cap := rfl

@[simp] theorem fill_evq (s : State) (seq : Byte) (r : Result) :
    (s.fill seq r).evq = s.evq := rfl

@[simp] theorem fill_atn (s : State) (seq : Byte) (r : Result) :
    (s.fill seq r).atn = s.atn := rfl

@[simp] theorem fill_aln (s : State) (seq : Byte) (r : Result) :
    (s.fill seq r).aln = s.aln := rfl

@[simp] theorem fill_pending (s : State) (seq : Byte) (r : Result) :
    (s.fill seq r).pending = s.pending := rfl

@[simp] theorem fill_draws (s : State) (seq : Byte) (r : Result) :
    (s.fill seq r).draws = s.draws := rfl

@[simp] theorem deliver_lnk (s : State) (o : Origin) (r : Result) :
    (s.deliver o r).lnk = s.lnk := by
  cases o <;> rfl

@[simp] theorem deliver_imn (s : State) (o : Origin) (r : Result) :
    (s.deliver o r).imn = s.imn := by
  cases o <;> rfl

@[simp] theorem deliver_cin (s : State) (o : Origin) (r : Result) :
    (s.deliver o r).cin = s.cin := by
  cases o <;> rfl

@[simp] theorem deliver_stc (s : State) (o : Origin) (r : Result) :
    (s.deliver o r).stc = s.stc := by
  cases o <;> rfl

@[simp] theorem deliver_tbu (s : State) (o : Origin) (r : Result) :
    (s.deliver o r).tbu = s.tbu := by
  cases o <;> rfl

@[simp] theorem deliver_sct (s : State) (o : Origin) (r : Result) :
    (s.deliver o r).sct = s.sct := by
  cases o <;> rfl

@[simp] theorem deliver_dpu (s : State) (o : Origin) (r : Result) :
    (s.deliver o r).dpu = s.dpu := by
  cases o <;> rfl

@[simp] theorem deliver_out (s : State) (o : Origin) (r : Result) :
    (s.deliver o r).out = s.out := by
  cases o <;> rfl

@[simp] theorem deliver_cap (s : State) (o : Origin) (r : Result) :
    (s.deliver o r).cap = s.cap := by
  cases o <;> rfl

@[simp] theorem deliver_evq (s : State) (o : Origin) (r : Result) :
    (s.deliver o r).evq = s.evq := by
  cases o <;> rfl

@[simp] theorem deliver_atn (s : State) (o : Origin) (r : Result) :
    (s.deliver o r).atn = s.atn := by
  cases o <;> rfl

@[simp] theorem deliver_aln (s : State) (o : Origin) (r : Result) :
    (s.deliver o r).aln = s.aln := by
  cases o <;> rfl

@[simp] theorem deliver_pending (s : State) (o : Origin) (r : Result) :
    (s.deliver o r).pending = s.pending := by
  cases o <;> rfl

@[simp] theorem deliver_draws (s : State) (o : Origin) (r : Result) :
    (s.deliver o r).draws = s.draws := by
  cases o <;> rfl

@[simp] theorem reserve_lnk (s : State) (seq : Byte) :
    (s.reserve seq).lnk = s.lnk := rfl

@[simp] theorem reserve_imn (s : State) (seq : Byte) :
    (s.reserve seq).imn = s.imn := rfl

@[simp] theorem reserve_cin (s : State) (seq : Byte) :
    (s.reserve seq).cin = s.cin := rfl

@[simp] theorem reserve_stc (s : State) (seq : Byte) :
    (s.reserve seq).stc = s.stc := rfl

@[simp] theorem reserve_tbu (s : State) (seq : Byte) :
    (s.reserve seq).tbu = s.tbu := rfl

@[simp] theorem reserve_sct (s : State) (seq : Byte) :
    (s.reserve seq).sct = s.sct := rfl

@[simp] theorem reserve_dpu (s : State) (seq : Byte) :
    (s.reserve seq).dpu = s.dpu := rfl

@[simp] theorem reserve_out (s : State) (seq : Byte) :
    (s.reserve seq).out = s.out := rfl

@[simp] theorem reserve_cap (s : State) (seq : Byte) :
    (s.reserve seq).cap = s.cap := rfl

@[simp] theorem reserve_evq (s : State) (seq : Byte) :
    (s.reserve seq).evq = s.evq := rfl

@[simp] theorem reserve_atn (s : State) (seq : Byte) :
    (s.reserve seq).atn = s.atn := rfl

@[simp] theorem reserve_aln (s : State) (seq : Byte) :
    (s.reserve seq).aln = s.aln := rfl

@[simp] theorem reserve_pending (s : State) (seq : Byte) :
    (s.reserve seq).pending = s.pending := rfl

@[simp] theorem reserve_draws (s : State) (seq : Byte) :
    (s.reserve seq).draws = s.draws := rfl

@[simp] theorem leaveQueue_lnk (s : State) (o : Origin) :
    (s.leaveQueue o).lnk = s.lnk := by
  cases o <;> rfl

@[simp] theorem leaveQueue_imn (s : State) (o : Origin) :
    (s.leaveQueue o).imn = s.imn := by
  cases o <;> rfl

@[simp] theorem leaveQueue_rpu (s : State) (o : Origin) :
    (s.leaveQueue o).rpu = s.rpu := by
  cases o <;> rfl

@[simp] theorem leaveQueue_stc (s : State) (o : Origin) :
    (s.leaveQueue o).stc = s.stc := by
  cases o <;> rfl

@[simp] theorem leaveQueue_tbu (s : State) (o : Origin) :
    (s.leaveQueue o).tbu = s.tbu := by
  cases o <;> rfl

@[simp] theorem leaveQueue_sct (s : State) (o : Origin) :
    (s.leaveQueue o).sct = s.sct := by
  cases o <;> rfl

@[simp] theorem leaveQueue_dpu (s : State) (o : Origin) :
    (s.leaveQueue o).dpu = s.dpu := by
  cases o <;> rfl

@[simp] theorem leaveQueue_out (s : State) (o : Origin) :
    (s.leaveQueue o).out = s.out := by
  cases o <;> rfl

@[simp] theorem leaveQueue_cap (s : State) (o : Origin) :
    (s.leaveQueue o).cap = s.cap := by
  cases o <;> rfl

@[simp] theorem leaveQueue_evq (s : State) (o : Origin) :
    (s.leaveQueue o).evq = s.evq := by
  cases o <;> rfl

@[simp] theorem leaveQueue_atn (s : State) (o : Origin) :
    (s.leaveQueue o).atn = s.atn := by
  cases o <;> rfl

@[simp] theorem leaveQueue_aln (s : State) (o : Origin) :
    (s.leaveQueue o).aln = s.aln := by
  cases o <;> rfl

@[simp] theorem leaveQueue_pending (s : State) (o : Origin) :
    (s.leaveQueue o).pending = s.pending := by
  cases o <;> rfl

@[simp] theorem leaveQueue_draws (s : State) (o : Origin) :
    (s.leaveQueue o).draws = s.draws := by
  cases o <;> rfl

@[simp] theorem fillAll_lnk (code : ResultCode) (q : List Staged) (s : State) :
    (fillAll code q s).lnk = s.lnk := by
  induction q generalizing s with
  | nil => rfl
  | cons x q ih => simp [fillAll, ih]

@[simp] theorem fillAll_imn (code : ResultCode) (q : List Staged) (s : State) :
    (fillAll code q s).imn = s.imn := by
  induction q generalizing s with
  | nil => rfl
  | cons x q ih => simp [fillAll, ih]

@[simp] theorem fillAll_cin (code : ResultCode) (q : List Staged) (s : State) :
    (fillAll code q s).cin = s.cin := by
  induction q generalizing s with
  | nil => rfl
  | cons x q ih => simp [fillAll, ih]

@[simp] theorem fillAll_stc (code : ResultCode) (q : List Staged) (s : State) :
    (fillAll code q s).stc = s.stc := by
  induction q generalizing s with
  | nil => rfl
  | cons x q ih => simp [fillAll, ih]

@[simp] theorem fillAll_tbu (code : ResultCode) (q : List Staged) (s : State) :
    (fillAll code q s).tbu = s.tbu := by
  induction q generalizing s with
  | nil => rfl
  | cons x q ih => simp [fillAll, ih]

@[simp] theorem fillAll_sct (code : ResultCode) (q : List Staged) (s : State) :
    (fillAll code q s).sct = s.sct := by
  induction q generalizing s with
  | nil => rfl
  | cons x q ih => simp [fillAll, ih]

@[simp] theorem fillAll_dpu (code : ResultCode) (q : List Staged) (s : State) :
    (fillAll code q s).dpu = s.dpu := by
  induction q generalizing s with
  | nil => rfl
  | cons x q ih => simp [fillAll, ih]

@[simp] theorem fillAll_out (code : ResultCode) (q : List Staged) (s : State) :
    (fillAll code q s).out = s.out := by
  induction q generalizing s with
  | nil => rfl
  | cons x q ih => simp [fillAll, ih]

@[simp] theorem fillAll_cap (code : ResultCode) (q : List Staged) (s : State) :
    (fillAll code q s).cap = s.cap := by
  induction q generalizing s with
  | nil => rfl
  | cons x q ih => simp [fillAll, ih]

@[simp] theorem fillAll_evq (code : ResultCode) (q : List Staged) (s : State) :
    (fillAll code q s).evq = s.evq := by
  induction q generalizing s with
  | nil => rfl
  | cons x q ih => simp [fillAll, ih]

@[simp] theorem fillAll_atn (code : ResultCode) (q : List Staged) (s : State) :
    (fillAll code q s).atn = s.atn := by
  induction q generalizing s with
  | nil => rfl
  | cons x q ih => simp [fillAll, ih]

@[simp] theorem fillAll_aln (code : ResultCode) (q : List Staged) (s : State) :
    (fillAll code q s).aln = s.aln := by
  induction q generalizing s with
  | nil => rfl
  | cons x q ih => simp [fillAll, ih]

@[simp] theorem fillAll_pending (code : ResultCode) (q : List Staged) (s : State) :
    (fillAll code q s).pending = s.pending := by
  induction q generalizing s with
  | nil => rfl
  | cons x q ih => simp [fillAll, ih]

@[simp] theorem fillAll_draws (code : ResultCode) (q : List Staged) (s : State) :
    (fillAll code q s).draws = s.draws := by
  induction q generalizing s with
  | nil => rfl
  | cons x q ih => simp [fillAll, ih]

@[simp] theorem emptyQueue_lnk (s : State) (code : ResultCode) :
    (s.emptyQueue code).lnk = s.lnk := by
  simp [State.emptyQueue]

@[simp] theorem emptyQueue_imn (s : State) (code : ResultCode) :
    (s.emptyQueue code).imn = s.imn := by
  simp [State.emptyQueue]

@[simp] theorem emptyQueue_stc (s : State) (code : ResultCode) :
    (s.emptyQueue code).stc = s.stc := by
  simp [State.emptyQueue]

@[simp] theorem emptyQueue_tbu (s : State) (code : ResultCode) :
    (s.emptyQueue code).tbu = s.tbu := by
  simp [State.emptyQueue]

@[simp] theorem emptyQueue_sct (s : State) (code : ResultCode) :
    (s.emptyQueue code).sct = s.sct := by
  simp [State.emptyQueue]

@[simp] theorem emptyQueue_dpu (s : State) (code : ResultCode) :
    (s.emptyQueue code).dpu = s.dpu := by
  simp [State.emptyQueue]

@[simp] theorem emptyQueue_out (s : State) (code : ResultCode) :
    (s.emptyQueue code).out = s.out := by
  simp [State.emptyQueue]

@[simp] theorem emptyQueue_cap (s : State) (code : ResultCode) :
    (s.emptyQueue code).cap = s.cap := by
  simp [State.emptyQueue]

@[simp] theorem emptyQueue_evq (s : State) (code : ResultCode) :
    (s.emptyQueue code).evq = s.evq := by
  simp [State.emptyQueue]

@[simp] theorem emptyQueue_atn (s : State) (code : ResultCode) :
    (s.emptyQueue code).atn = s.atn := by
  simp [State.emptyQueue]

@[simp] theorem emptyQueue_aln (s : State) (code : ResultCode) :
    (s.emptyQueue code).aln = s.aln := by
  simp [State.emptyQueue]

@[simp] theorem emptyQueue_pending (s : State) (code : ResultCode) :
    (s.emptyQueue code).pending = s.pending := by
  simp [State.emptyQueue]

@[simp] theorem emptyQueue_draws (s : State) (code : ResultCode) :
    (s.emptyQueue code).draws = s.draws := by
  simp [State.emptyQueue]

@[simp] theorem goTo_lnk (s : State) (op : OpState) :
    (s.goTo op).lnk = s.lnk := by
  unfold State.goTo
  (repeat' split) <;> simp

@[simp] theorem goTo_imn (s : State) (op : OpState) :
    (s.goTo op).imn = s.imn := by
  unfold State.goTo
  (repeat' split) <;> simp

@[simp] theorem goTo_cin (s : State) (op : OpState) :
    (s.goTo op).cin = s.cin := by
  unfold State.goTo
  (repeat' split) <;> simp

@[simp] theorem goTo_rpu (s : State) (op : OpState) :
    (s.goTo op).rpu = s.rpu := by
  unfold State.goTo
  (repeat' split) <;> simp

@[simp] theorem goTo_tbu (s : State) (op : OpState) :
    (s.goTo op).tbu = s.tbu := by
  unfold State.goTo
  (repeat' split) <;> simp

@[simp] theorem goTo_sct (s : State) (op : OpState) :
    (s.goTo op).sct = s.sct := by
  unfold State.goTo
  (repeat' split) <;> simp

@[simp] theorem goTo_dpu (s : State) (op : OpState) :
    (s.goTo op).dpu = s.dpu := by
  unfold State.goTo
  (repeat' split) <;> simp

@[simp] theorem goTo_evq (s : State) (op : OpState) :
    (s.goTo op).evq = s.evq := by
  unfold State.goTo
  (repeat' split) <;> simp

@[simp] theorem goTo_atn (s : State) (op : OpState) :
    (s.goTo op).atn = s.atn := by
  unfold State.goTo
  (repeat' split) <;> simp

@[simp] theorem goTo_aln (s : State) (op : OpState) :
    (s.goTo op).aln = s.aln := by
  unfold State.goTo
  (repeat' split) <;> simp

@[simp] theorem goTo_pending (s : State) (op : OpState) :
    (s.goTo op).pending = s.pending := by
  unfold State.goTo
  (repeat' split) <;> simp

@[simp] theorem goTo_draws (s : State) (op : OpState) :
    (s.goTo op).draws = s.draws := by
  unfold State.goTo
  (repeat' split) <;> simp

/-! ### Outputs -/

@[simp] theorem applyAction_lnk (s : State) (a : Action) :
    (s.applyAction a).lnk = s.lnk := by
  cases a <;> rfl

@[simp] theorem applyAction_imn (s : State) (a : Action) :
    (s.applyAction a).imn = s.imn := by
  cases a <;> rfl

@[simp] theorem applyAction_cin (s : State) (a : Action) :
    (s.applyAction a).cin = s.cin := by
  cases a <;> rfl

@[simp] theorem applyAction_rpu (s : State) (a : Action) :
    (s.applyAction a).rpu = s.rpu := by
  cases a <;> rfl

@[simp] theorem applyAction_stc (s : State) (a : Action) :
    (s.applyAction a).stc = s.stc := by
  cases a <;> rfl

@[simp] theorem applyAction_tbu (s : State) (a : Action) :
    (s.applyAction a).tbu = s.tbu := by
  cases a <;> rfl

@[simp] theorem applyAction_sct (s : State) (a : Action) :
    (s.applyAction a).sct = s.sct := by
  cases a <;> rfl

@[simp] theorem applyAction_dpu (s : State) (a : Action) :
    (s.applyAction a).dpu = s.dpu := by
  cases a <;> rfl

@[simp] theorem applyAction_evq (s : State) (a : Action) :
    (s.applyAction a).evq = s.evq := by
  cases a <;> rfl

@[simp] theorem applyAction_atn (s : State) (a : Action) :
    (s.applyAction a).atn = s.atn := by
  cases a <;> rfl

@[simp] theorem applyAction_aln (s : State) (a : Action) :
    (s.applyAction a).aln = s.aln := by
  cases a <;> rfl

@[simp] theorem applyAction_pending (s : State) (a : Action) :
    (s.applyAction a).pending = s.pending := by
  cases a <;> rfl

@[simp] theorem applyAction_draws (s : State) (a : Action) :
    (s.applyAction a).draws = s.draws := by
  cases a <;> rfl

/-! ### Edges among the records of dispatch -/

@[simp] theorem recordEdge_lnk (s : State) (n : Fin 4) (edge : EdgeKind) :
    (s.recordEdge n edge).lnk = s.lnk := by
  unfold State.recordEdge
  split <;> simp

@[simp] theorem recordEdge_imn (s : State) (n : Fin 4) (edge : EdgeKind) :
    (s.recordEdge n edge).imn = s.imn := by
  unfold State.recordEdge
  split <;> simp

@[simp] theorem recordEdge_cin (s : State) (n : Fin 4) (edge : EdgeKind) :
    (s.recordEdge n edge).cin = s.cin := by
  unfold State.recordEdge
  split <;> simp

@[simp] theorem recordEdge_rpu (s : State) (n : Fin 4) (edge : EdgeKind) :
    (s.recordEdge n edge).rpu = s.rpu := by
  unfold State.recordEdge
  split <;> simp

@[simp] theorem recordEdge_stc (s : State) (n : Fin 4) (edge : EdgeKind) :
    (s.recordEdge n edge).stc = s.stc := by
  unfold State.recordEdge
  split <;> simp

@[simp] theorem recordEdge_tbu (s : State) (n : Fin 4) (edge : EdgeKind) :
    (s.recordEdge n edge).tbu = s.tbu := by
  unfold State.recordEdge
  split <;> simp

@[simp] theorem recordEdge_sct (s : State) (n : Fin 4) (edge : EdgeKind) :
    (s.recordEdge n edge).sct = s.sct := by
  unfold State.recordEdge
  split <;> simp

@[simp] theorem recordEdge_dpu (s : State) (n : Fin 4) (edge : EdgeKind) :
    (s.recordEdge n edge).dpu = s.dpu := by
  unfold State.recordEdge
  split <;> simp

@[simp] theorem recordEdge_out (s : State) (n : Fin 4) (edge : EdgeKind) :
    (s.recordEdge n edge).out = s.out := by
  unfold State.recordEdge
  split <;> simp

@[simp] theorem recordEdge_aln (s : State) (n : Fin 4) (edge : EdgeKind) :
    (s.recordEdge n edge).aln = s.aln := by
  unfold State.recordEdge
  split <;> simp

@[simp] theorem recordEdge_pending (s : State) (n : Fin 4) (edge : EdgeKind) :
    (s.recordEdge n edge).pending = s.pending := by
  unfold State.recordEdge
  split <;> simp

@[simp] theorem recordEdge_draws (s : State) (n : Fin 4) (edge : EdgeKind) :
    (s.recordEdge n edge).draws = s.draws := by
  unfold State.recordEdge
  split <;> simp

@[simp] theorem takeEdge_lnk (s : State) (n : Fin 4) (edge : EdgeKind) :
    (s.takeEdge n edge).lnk = s.lnk := by
  unfold State.takeEdge
  split <;> simp

@[simp] theorem takeEdge_imn (s : State) (n : Fin 4) (edge : EdgeKind) :
    (s.takeEdge n edge).imn = s.imn := by
  unfold State.takeEdge
  split <;> simp

@[simp] theorem takeEdge_cin (s : State) (n : Fin 4) (edge : EdgeKind) :
    (s.takeEdge n edge).cin = s.cin := by
  unfold State.takeEdge
  split <;> simp

@[simp] theorem takeEdge_rpu (s : State) (n : Fin 4) (edge : EdgeKind) :
    (s.takeEdge n edge).rpu = s.rpu := by
  unfold State.takeEdge
  split <;> simp

@[simp] theorem takeEdge_stc (s : State) (n : Fin 4) (edge : EdgeKind) :
    (s.takeEdge n edge).stc = s.stc := by
  unfold State.takeEdge
  split <;> simp

@[simp] theorem takeEdge_tbu (s : State) (n : Fin 4) (edge : EdgeKind) :
    (s.takeEdge n edge).tbu = s.tbu := by
  unfold State.takeEdge
  split <;> simp

@[simp] theorem takeEdge_sct (s : State) (n : Fin 4) (edge : EdgeKind) :
    (s.takeEdge n edge).sct = s.sct := by
  unfold State.takeEdge
  split <;> simp

@[simp] theorem takeEdge_dpu (s : State) (n : Fin 4) (edge : EdgeKind) :
    (s.takeEdge n edge).dpu = s.dpu := by
  unfold State.takeEdge
  split <;> simp

@[simp] theorem takeEdge_out (s : State) (n : Fin 4) (edge : EdgeKind) :
    (s.takeEdge n edge).out = s.out := by
  unfold State.takeEdge
  split <;> simp

@[simp] theorem takeEdge_aln (s : State) (n : Fin 4) (edge : EdgeKind) :
    (s.takeEdge n edge).aln = s.aln := by
  unfold State.takeEdge
  split <;> simp

@[simp] theorem takeEdge_pending (s : State) (n : Fin 4) (edge : EdgeKind) :
    (s.takeEdge n edge).pending = s.pending := by
  unfold State.takeEdge
  split <;> simp

@[simp] theorem takeEdge_draws (s : State) (n : Fin 4) (edge : EdgeKind) :
    (s.takeEdge n edge).draws = s.draws := by
  unfold State.takeEdge
  split <;> simp

@[simp] theorem takeEdges_lnk (l : List WaitingEdge) (s : State) :
    (takeEdges l s).lnk = s.lnk := by
  induction l generalizing s with
  | nil => rfl
  | cons w l ih => simp [takeEdges, ih]

@[simp] theorem takeEdges_imn (l : List WaitingEdge) (s : State) :
    (takeEdges l s).imn = s.imn := by
  induction l generalizing s with
  | nil => rfl
  | cons w l ih => simp [takeEdges, ih]

@[simp] theorem takeEdges_cin (l : List WaitingEdge) (s : State) :
    (takeEdges l s).cin = s.cin := by
  induction l generalizing s with
  | nil => rfl
  | cons w l ih => simp [takeEdges, ih]

@[simp] theorem takeEdges_rpu (l : List WaitingEdge) (s : State) :
    (takeEdges l s).rpu = s.rpu := by
  induction l generalizing s with
  | nil => rfl
  | cons w l ih => simp [takeEdges, ih]

@[simp] theorem takeEdges_stc (l : List WaitingEdge) (s : State) :
    (takeEdges l s).stc = s.stc := by
  induction l generalizing s with
  | nil => rfl
  | cons w l ih => simp [takeEdges, ih]

@[simp] theorem takeEdges_tbu (l : List WaitingEdge) (s : State) :
    (takeEdges l s).tbu = s.tbu := by
  induction l generalizing s with
  | nil => rfl
  | cons w l ih => simp [takeEdges, ih]

@[simp] theorem takeEdges_sct (l : List WaitingEdge) (s : State) :
    (takeEdges l s).sct = s.sct := by
  induction l generalizing s with
  | nil => rfl
  | cons w l ih => simp [takeEdges, ih]

@[simp] theorem takeEdges_dpu (l : List WaitingEdge) (s : State) :
    (takeEdges l s).dpu = s.dpu := by
  induction l generalizing s with
  | nil => rfl
  | cons w l ih => simp [takeEdges, ih]

@[simp] theorem takeEdges_out (l : List WaitingEdge) (s : State) :
    (takeEdges l s).out = s.out := by
  induction l generalizing s with
  | nil => rfl
  | cons w l ih => simp [takeEdges, ih]

@[simp] theorem takeEdges_aln (l : List WaitingEdge) (s : State) :
    (takeEdges l s).aln = s.aln := by
  induction l generalizing s with
  | nil => rfl
  | cons w l ih => simp [takeEdges, ih]

@[simp] theorem takeEdges_pending (l : List WaitingEdge) (s : State) :
    (takeEdges l s).pending = s.pending := by
  induction l generalizing s with
  | nil => rfl
  | cons w l ih => simp [takeEdges, ih]

@[simp] theorem takeEdges_draws (l : List WaitingEdge) (s : State) :
    (takeEdges l s).draws = s.draws := by
  induction l generalizing s with
  | nil => rfl
  | cons w l ih => simp [takeEdges, ih]

@[simp] theorem passEdges_lnk (s : State) :
    (s.passEdges).lnk = s.lnk := by
  simp [State.passEdges]

@[simp] theorem passEdges_imn (s : State) :
    (s.passEdges).imn = s.imn := by
  simp [State.passEdges]

@[simp] theorem passEdges_cin (s : State) :
    (s.passEdges).cin = s.cin := by
  simp [State.passEdges]

@[simp] theorem passEdges_rpu (s : State) :
    (s.passEdges).rpu = s.rpu := by
  simp [State.passEdges]

@[simp] theorem passEdges_stc (s : State) :
    (s.passEdges).stc = s.stc := by
  simp [State.passEdges]

@[simp] theorem passEdges_tbu (s : State) :
    (s.passEdges).tbu = s.tbu := by
  simp [State.passEdges]

@[simp] theorem passEdges_sct (s : State) :
    (s.passEdges).sct = s.sct := by
  simp [State.passEdges]

@[simp] theorem passEdges_dpu (s : State) :
    (s.passEdges).dpu = s.dpu := by
  simp [State.passEdges]

@[simp] theorem passEdges_out (s : State) :
    (s.passEdges).out = s.out := by
  simp [State.passEdges]

@[simp] theorem passEdges_aln (s : State) :
    (s.passEdges).aln = s.aln := by
  simp [State.passEdges]

@[simp] theorem passEdges_pending (s : State) :
    (s.passEdges).pending = s.pending := by
  simp [State.passEdges]

@[simp] theorem passEdges_draws (s : State) :
    (s.passEdges).draws = s.draws := by
  simp [State.passEdges]

@[simp] theorem handAction_lnk (s : State) (a : Action) :
    (s.handAction a).lnk = s.lnk := by
  simp [State.handAction]

@[simp] theorem handAction_imn (s : State) (a : Action) :
    (s.handAction a).imn = s.imn := by
  simp [State.handAction]

@[simp] theorem handAction_cin (s : State) (a : Action) :
    (s.handAction a).cin = s.cin := by
  simp [State.handAction]

@[simp] theorem handAction_rpu (s : State) (a : Action) :
    (s.handAction a).rpu = s.rpu := by
  simp [State.handAction]

@[simp] theorem handAction_stc (s : State) (a : Action) :
    (s.handAction a).stc = s.stc := by
  simp [State.handAction]

@[simp] theorem handAction_tbu (s : State) (a : Action) :
    (s.handAction a).tbu = s.tbu := by
  simp [State.handAction]

@[simp] theorem handAction_sct (s : State) (a : Action) :
    (s.handAction a).sct = s.sct := by
  simp [State.handAction]

@[simp] theorem handAction_dpu (s : State) (a : Action) :
    (s.handAction a).dpu = s.dpu := by
  simp [State.handAction]

@[simp] theorem handAction_aln (s : State) (a : Action) :
    (s.handAction a).aln = s.aln := by
  simp [State.handAction]

@[simp] theorem handAction_pending (s : State) (a : Action) :
    (s.handAction a).pending = s.pending := by
  simp [State.handAction]

@[simp] theorem handAction_draws (s : State) (a : Action) :
    (s.handAction a).draws = s.draws := by
  simp [State.handAction]

@[simp] theorem handRecord_lnk (s : State) (b : EventBody) :
    (s.handRecord b).lnk = s.lnk := by
  simp [State.handRecord]

@[simp] theorem handRecord_imn (s : State) (b : EventBody) :
    (s.handRecord b).imn = s.imn := by
  simp [State.handRecord]

@[simp] theorem handRecord_cin (s : State) (b : EventBody) :
    (s.handRecord b).cin = s.cin := by
  simp [State.handRecord]

@[simp] theorem handRecord_rpu (s : State) (b : EventBody) :
    (s.handRecord b).rpu = s.rpu := by
  simp [State.handRecord]

@[simp] theorem handRecord_stc (s : State) (b : EventBody) :
    (s.handRecord b).stc = s.stc := by
  simp [State.handRecord]

@[simp] theorem handRecord_tbu (s : State) (b : EventBody) :
    (s.handRecord b).tbu = s.tbu := by
  simp [State.handRecord]

@[simp] theorem handRecord_sct (s : State) (b : EventBody) :
    (s.handRecord b).sct = s.sct := by
  simp [State.handRecord]

@[simp] theorem handRecord_dpu (s : State) (b : EventBody) :
    (s.handRecord b).dpu = s.dpu := by
  simp [State.handRecord]

@[simp] theorem handRecord_out (s : State) (b : EventBody) :
    (s.handRecord b).out = s.out := by
  simp [State.handRecord]

@[simp] theorem handRecord_aln (s : State) (b : EventBody) :
    (s.handRecord b).aln = s.aln := by
  simp [State.handRecord]

@[simp] theorem handRecord_pending (s : State) (b : EventBody) :
    (s.handRecord b).pending = s.pending := by
  simp [State.handRecord]

@[simp] theorem handRecord_draws (s : State) (b : EventBody) :
    (s.handRecord b).draws = s.draws := by
  simp [State.handRecord]

/-! ### Firing -/

@[simp] theorem reportFired_lnk (s : State) (e : Entry) (time : Nat) (late : Bool) :
    (s.reportFired e time late).lnk = s.lnk := by
  unfold State.reportFired
  (repeat' split) <;> simp

@[simp] theorem reportFired_imn (s : State) (e : Entry) (time : Nat) (late : Bool) :
    (s.reportFired e time late).imn = s.imn := by
  unfold State.reportFired
  (repeat' split) <;> simp

@[simp] theorem reportFired_cin (s : State) (e : Entry) (time : Nat) (late : Bool) :
    (s.reportFired e time late).cin = s.cin := by
  unfold State.reportFired
  (repeat' split) <;> simp

@[simp] theorem reportFired_rpu (s : State) (e : Entry) (time : Nat) (late : Bool) :
    (s.reportFired e time late).rpu = s.rpu := by
  unfold State.reportFired
  (repeat' split) <;> simp

@[simp] theorem reportFired_stc (s : State) (e : Entry) (time : Nat) (late : Bool) :
    (s.reportFired e time late).stc = s.stc := by
  unfold State.reportFired
  (repeat' split) <;> simp

@[simp] theorem reportFired_tbu (s : State) (e : Entry) (time : Nat) (late : Bool) :
    (s.reportFired e time late).tbu = s.tbu := by
  unfold State.reportFired
  (repeat' split) <;> simp

@[simp] theorem reportFired_sct (s : State) (e : Entry) (time : Nat) (late : Bool) :
    (s.reportFired e time late).sct = s.sct := by
  unfold State.reportFired
  (repeat' split) <;> simp

@[simp] theorem reportFired_dpu (s : State) (e : Entry) (time : Nat) (late : Bool) :
    (s.reportFired e time late).dpu = s.dpu := by
  unfold State.reportFired
  (repeat' split) <;> simp

@[simp] theorem reportFired_out (s : State) (e : Entry) (time : Nat) (late : Bool) :
    (s.reportFired e time late).out = s.out := by
  unfold State.reportFired
  (repeat' split) <;> simp

@[simp] theorem reportFired_aln (s : State) (e : Entry) (time : Nat) (late : Bool) :
    (s.reportFired e time late).aln = s.aln := by
  unfold State.reportFired
  (repeat' split) <;> simp

@[simp] theorem reportFired_pending (s : State) (e : Entry) (time : Nat) (late : Bool) :
    (s.reportFired e time late).pending = s.pending := by
  unfold State.reportFired
  (repeat' split) <;> simp

@[simp] theorem reportFired_draws (s : State) (e : Entry) (time : Nat) (late : Bool) :
    (s.reportFired e time late).draws = s.draws := by
  unfold State.reportFired
  (repeat' split) <;> simp

@[simp] theorem reportMissed_lnk (s : State) (e : Entry) (time count : Nat) :
    (s.reportMissed e time count).lnk = s.lnk := by
  simp [State.reportMissed]

@[simp] theorem reportMissed_imn (s : State) (e : Entry) (time count : Nat) :
    (s.reportMissed e time count).imn = s.imn := by
  simp [State.reportMissed]

@[simp] theorem reportMissed_cin (s : State) (e : Entry) (time count : Nat) :
    (s.reportMissed e time count).cin = s.cin := by
  simp [State.reportMissed]

@[simp] theorem reportMissed_rpu (s : State) (e : Entry) (time count : Nat) :
    (s.reportMissed e time count).rpu = s.rpu := by
  simp [State.reportMissed]

@[simp] theorem reportMissed_stc (s : State) (e : Entry) (time count : Nat) :
    (s.reportMissed e time count).stc = s.stc := by
  simp [State.reportMissed]

@[simp] theorem reportMissed_tbu (s : State) (e : Entry) (time count : Nat) :
    (s.reportMissed e time count).tbu = s.tbu := by
  simp [State.reportMissed]

@[simp] theorem reportMissed_sct (s : State) (e : Entry) (time count : Nat) :
    (s.reportMissed e time count).sct = s.sct := by
  simp [State.reportMissed]

@[simp] theorem reportMissed_dpu (s : State) (e : Entry) (time count : Nat) :
    (s.reportMissed e time count).dpu = s.dpu := by
  simp [State.reportMissed]

@[simp] theorem reportMissed_out (s : State) (e : Entry) (time count : Nat) :
    (s.reportMissed e time count).out = s.out := by
  simp [State.reportMissed]

@[simp] theorem reportMissed_aln (s : State) (e : Entry) (time count : Nat) :
    (s.reportMissed e time count).aln = s.aln := by
  simp [State.reportMissed]

@[simp] theorem reportMissed_pending (s : State) (e : Entry) (time count : Nat) :
    (s.reportMissed e time count).pending = s.pending := by
  simp [State.reportMissed]

@[simp] theorem reportMissed_draws (s : State) (e : Entry) (time count : Nat) :
    (s.reportMissed e time count).draws = s.draws := by
  simp [State.reportMissed]

@[simp] theorem consume_lnk (s : State) (e : Entry) (k : Nat) (fired : Bool) :
    (s.consume e k fired).lnk = s.lnk := rfl

@[simp] theorem consume_imn (s : State) (e : Entry) (k : Nat) (fired : Bool) :
    (s.consume e k fired).imn = s.imn := rfl

@[simp] theorem consume_cin (s : State) (e : Entry) (k : Nat) (fired : Bool) :
    (s.consume e k fired).cin = s.cin := rfl

@[simp] theorem consume_rpu (s : State) (e : Entry) (k : Nat) (fired : Bool) :
    (s.consume e k fired).rpu = s.rpu := rfl

@[simp] theorem consume_stc (s : State) (e : Entry) (k : Nat) (fired : Bool) :
    (s.consume e k fired).stc = s.stc := rfl

@[simp] theorem consume_tbu (s : State) (e : Entry) (k : Nat) (fired : Bool) :
    (s.consume e k fired).tbu = s.tbu := rfl

@[simp] theorem consume_dpu (s : State) (e : Entry) (k : Nat) (fired : Bool) :
    (s.consume e k fired).dpu = s.dpu := rfl

@[simp] theorem consume_out (s : State) (e : Entry) (k : Nat) (fired : Bool) :
    (s.consume e k fired).out = s.out := rfl

@[simp] theorem consume_cap (s : State) (e : Entry) (k : Nat) (fired : Bool) :
    (s.consume e k fired).cap = s.cap := rfl

@[simp] theorem consume_evq (s : State) (e : Entry) (k : Nat) (fired : Bool) :
    (s.consume e k fired).evq = s.evq := rfl

@[simp] theorem consume_atn (s : State) (e : Entry) (k : Nat) (fired : Bool) :
    (s.consume e k fired).atn = s.atn := rfl

@[simp] theorem consume_aln (s : State) (e : Entry) (k : Nat) (fired : Bool) :
    (s.consume e k fired).aln = s.aln := rfl

@[simp] theorem consume_pending (s : State) (e : Entry) (k : Nat) (fired : Bool) :
    (s.consume e k fired).pending = s.pending := rfl

@[simp] theorem consume_draws (s : State) (e : Entry) (k : Nat) (fired : Bool) :
    (s.consume e k fired).draws = s.draws := rfl

@[simp] theorem fireOnTime_lnk (s : State) (e : Entry) :
    (s.fireOnTime e).lnk = s.lnk := by
  unfold State.fireOnTime
  (repeat' split) <;> simp

@[simp] theorem fireOnTime_imn (s : State) (e : Entry) :
    (s.fireOnTime e).imn = s.imn := by
  unfold State.fireOnTime
  (repeat' split) <;> simp

@[simp] theorem fireOnTime_cin (s : State) (e : Entry) :
    (s.fireOnTime e).cin = s.cin := by
  unfold State.fireOnTime
  (repeat' split) <;> simp

@[simp] theorem fireOnTime_rpu (s : State) (e : Entry) :
    (s.fireOnTime e).rpu = s.rpu := by
  unfold State.fireOnTime
  (repeat' split) <;> simp

@[simp] theorem fireOnTime_stc (s : State) (e : Entry) :
    (s.fireOnTime e).stc = s.stc := by
  unfold State.fireOnTime
  (repeat' split) <;> simp

@[simp] theorem fireOnTime_tbu (s : State) (e : Entry) :
    (s.fireOnTime e).tbu = s.tbu := by
  unfold State.fireOnTime
  (repeat' split) <;> simp

@[simp] theorem fireOnTime_dpu (s : State) (e : Entry) :
    (s.fireOnTime e).dpu = s.dpu := by
  unfold State.fireOnTime
  (repeat' split) <;> simp

@[simp] theorem fireOnTime_aln (s : State) (e : Entry) :
    (s.fireOnTime e).aln = s.aln := by
  unfold State.fireOnTime
  (repeat' split) <;> simp

@[simp] theorem fireOnTime_pending (s : State) (e : Entry) :
    (s.fireOnTime e).pending = s.pending := by
  unfold State.fireOnTime
  (repeat' split) <;> simp

@[simp] theorem fireOnTime_draws (s : State) (e : Entry) :
    (s.fireOnTime e).draws = s.draws := by
  unfold State.fireOnTime
  (repeat' split) <;> simp

@[simp] theorem fireBatch_lnk (due fuel : Nat) (s : State) :
    (fireBatch due fuel s).lnk = s.lnk := by
  induction fuel generalizing s with
  | zero => rfl
  | succ fuel ih =>
    unfold fireBatch
    (repeat' split) <;> simp [ih]

@[simp] theorem fireBatch_imn (due fuel : Nat) (s : State) :
    (fireBatch due fuel s).imn = s.imn := by
  induction fuel generalizing s with
  | zero => rfl
  | succ fuel ih =>
    unfold fireBatch
    (repeat' split) <;> simp [ih]

@[simp] theorem fireBatch_cin (due fuel : Nat) (s : State) :
    (fireBatch due fuel s).cin = s.cin := by
  induction fuel generalizing s with
  | zero => rfl
  | succ fuel ih =>
    unfold fireBatch
    (repeat' split) <;> simp [ih]

@[simp] theorem fireBatch_rpu (due fuel : Nat) (s : State) :
    (fireBatch due fuel s).rpu = s.rpu := by
  induction fuel generalizing s with
  | zero => rfl
  | succ fuel ih =>
    unfold fireBatch
    (repeat' split) <;> simp [ih]

@[simp] theorem fireBatch_stc (due fuel : Nat) (s : State) :
    (fireBatch due fuel s).stc = s.stc := by
  induction fuel generalizing s with
  | zero => rfl
  | succ fuel ih =>
    unfold fireBatch
    (repeat' split) <;> simp [ih]

@[simp] theorem fireBatch_tbu (due fuel : Nat) (s : State) :
    (fireBatch due fuel s).tbu = s.tbu := by
  induction fuel generalizing s with
  | zero => rfl
  | succ fuel ih =>
    unfold fireBatch
    (repeat' split) <;> simp [ih]

@[simp] theorem fireBatch_dpu (due fuel : Nat) (s : State) :
    (fireBatch due fuel s).dpu = s.dpu := by
  induction fuel generalizing s with
  | zero => rfl
  | succ fuel ih =>
    unfold fireBatch
    (repeat' split) <;> simp [ih]

@[simp] theorem fireBatch_aln (due fuel : Nat) (s : State) :
    (fireBatch due fuel s).aln = s.aln := by
  induction fuel generalizing s with
  | zero => rfl
  | succ fuel ih =>
    unfold fireBatch
    (repeat' split) <;> simp [ih]

@[simp] theorem fireBatch_pending (due fuel : Nat) (s : State) :
    (fireBatch due fuel s).pending = s.pending := by
  induction fuel generalizing s with
  | zero => rfl
  | succ fuel ih =>
    unfold fireBatch
    (repeat' split) <;> simp [ih]

@[simp] theorem fireBatch_draws (due fuel : Nat) (s : State) :
    (fireBatch due fuel s).draws = s.draws := by
  induction fuel generalizing s with
  | zero => rfl
  | succ fuel ih =>
    unfold fireBatch
    (repeat' split) <;> simp [ih]

@[simp] theorem settleLate_lnk (s : State) (e : Entry) (t : Nat) :
    (s.settleLate e t).lnk = s.lnk := by
  unfold State.settleLate
  dsimp only
  (repeat' split) <;> simp

@[simp] theorem settleLate_imn (s : State) (e : Entry) (t : Nat) :
    (s.settleLate e t).imn = s.imn := by
  unfold State.settleLate
  dsimp only
  (repeat' split) <;> simp

@[simp] theorem settleLate_cin (s : State) (e : Entry) (t : Nat) :
    (s.settleLate e t).cin = s.cin := by
  unfold State.settleLate
  dsimp only
  (repeat' split) <;> simp

@[simp] theorem settleLate_rpu (s : State) (e : Entry) (t : Nat) :
    (s.settleLate e t).rpu = s.rpu := by
  unfold State.settleLate
  dsimp only
  (repeat' split) <;> simp

@[simp] theorem settleLate_stc (s : State) (e : Entry) (t : Nat) :
    (s.settleLate e t).stc = s.stc := by
  unfold State.settleLate
  dsimp only
  (repeat' split) <;> simp

@[simp] theorem settleLate_tbu (s : State) (e : Entry) (t : Nat) :
    (s.settleLate e t).tbu = s.tbu := by
  unfold State.settleLate
  dsimp only
  (repeat' split) <;> simp

@[simp] theorem settleLate_dpu (s : State) (e : Entry) (t : Nat) :
    (s.settleLate e t).dpu = s.dpu := by
  unfold State.settleLate
  dsimp only
  (repeat' split) <;> simp

@[simp] theorem settleLate_aln (s : State) (e : Entry) (t : Nat) :
    (s.settleLate e t).aln = s.aln := by
  unfold State.settleLate
  dsimp only
  (repeat' split) <;> simp

@[simp] theorem settleLate_pending (s : State) (e : Entry) (t : Nat) :
    (s.settleLate e t).pending = s.pending := by
  unfold State.settleLate
  dsimp only
  (repeat' split) <;> simp

@[simp] theorem settleLate_draws (s : State) (e : Entry) (t : Nat) :
    (s.settleLate e t).draws = s.draws := by
  unfold State.settleLate
  dsimp only
  (repeat' split) <;> simp

@[simp] theorem latePass_lnk (t fuel : Nat) (s : State) :
    (latePass t fuel s).lnk = s.lnk := by
  induction fuel generalizing s with
  | zero => rfl
  | succ fuel ih =>
    unfold latePass
    (repeat' split) <;> simp [ih]

@[simp] theorem latePass_imn (t fuel : Nat) (s : State) :
    (latePass t fuel s).imn = s.imn := by
  induction fuel generalizing s with
  | zero => rfl
  | succ fuel ih =>
    unfold latePass
    (repeat' split) <;> simp [ih]

@[simp] theorem latePass_cin (t fuel : Nat) (s : State) :
    (latePass t fuel s).cin = s.cin := by
  induction fuel generalizing s with
  | zero => rfl
  | succ fuel ih =>
    unfold latePass
    (repeat' split) <;> simp [ih]

@[simp] theorem latePass_rpu (t fuel : Nat) (s : State) :
    (latePass t fuel s).rpu = s.rpu := by
  induction fuel generalizing s with
  | zero => rfl
  | succ fuel ih =>
    unfold latePass
    (repeat' split) <;> simp [ih]

@[simp] theorem latePass_stc (t fuel : Nat) (s : State) :
    (latePass t fuel s).stc = s.stc := by
  induction fuel generalizing s with
  | zero => rfl
  | succ fuel ih =>
    unfold latePass
    (repeat' split) <;> simp [ih]

@[simp] theorem latePass_tbu (t fuel : Nat) (s : State) :
    (latePass t fuel s).tbu = s.tbu := by
  induction fuel generalizing s with
  | zero => rfl
  | succ fuel ih =>
    unfold latePass
    (repeat' split) <;> simp [ih]

@[simp] theorem latePass_dpu (t fuel : Nat) (s : State) :
    (latePass t fuel s).dpu = s.dpu := by
  induction fuel generalizing s with
  | zero => rfl
  | succ fuel ih =>
    unfold latePass
    (repeat' split) <;> simp [ih]

@[simp] theorem latePass_aln (t fuel : Nat) (s : State) :
    (latePass t fuel s).aln = s.aln := by
  induction fuel generalizing s with
  | zero => rfl
  | succ fuel ih =>
    unfold latePass
    (repeat' split) <;> simp [ih]

@[simp] theorem latePass_pending (t fuel : Nat) (s : State) :
    (latePass t fuel s).pending = s.pending := by
  induction fuel generalizing s with
  | zero => rfl
  | succ fuel ih =>
    unfold latePass
    (repeat' split) <;> simp [ih]

@[simp] theorem latePass_draws (t fuel : Nat) (s : State) :
    (latePass t fuel s).draws = s.draws := by
  induction fuel generalizing s with
  | zero => rfl
  | succ fuel ih =>
    unfold latePass
    (repeat' split) <;> simp [ih]

@[simp] theorem onTimePass_lnk (s : State) (t : Nat) :
    (s.onTimePass t).lnk = s.lnk := by
  simp [State.onTimePass]

@[simp] theorem onTimePass_imn (s : State) (t : Nat) :
    (s.onTimePass t).imn = s.imn := by
  simp [State.onTimePass]

@[simp] theorem onTimePass_cin (s : State) (t : Nat) :
    (s.onTimePass t).cin = s.cin := by
  simp [State.onTimePass]

@[simp] theorem onTimePass_rpu (s : State) (t : Nat) :
    (s.onTimePass t).rpu = s.rpu := by
  simp [State.onTimePass]

@[simp] theorem onTimePass_stc (s : State) (t : Nat) :
    (s.onTimePass t).stc = s.stc := by
  simp [State.onTimePass]

@[simp] theorem onTimePass_tbu (s : State) (t : Nat) :
    (s.onTimePass t).tbu = s.tbu := by
  simp [State.onTimePass]

@[simp] theorem onTimePass_dpu (s : State) (t : Nat) :
    (s.onTimePass t).dpu = s.dpu := by
  simp [State.onTimePass]

@[simp] theorem onTimePass_aln (s : State) (t : Nat) :
    (s.onTimePass t).aln = s.aln := by
  simp [State.onTimePass]

@[simp] theorem onTimePass_pending (s : State) (t : Nat) :
    (s.onTimePass t).pending = s.pending := by
  simp [State.onTimePass]

@[simp] theorem onTimePass_draws (s : State) (t : Nat) :
    (s.onTimePass t).draws = s.draws := by
  simp [State.onTimePass]

@[simp] theorem settleTable_lnk (s : State) (t : Nat) :
    (s.settleTable t).lnk = s.lnk := by
  simp [State.settleTable]

@[simp] theorem settleTable_imn (s : State) (t : Nat) :
    (s.settleTable t).imn = s.imn := by
  simp [State.settleTable]

@[simp] theorem settleTable_cin (s : State) (t : Nat) :
    (s.settleTable t).cin = s.cin := by
  simp [State.settleTable]

@[simp] theorem settleTable_rpu (s : State) (t : Nat) :
    (s.settleTable t).rpu = s.rpu := by
  simp [State.settleTable]

@[simp] theorem settleTable_stc (s : State) (t : Nat) :
    (s.settleTable t).stc = s.stc := by
  simp [State.settleTable]

@[simp] theorem settleTable_tbu (s : State) (t : Nat) :
    (s.settleTable t).tbu = s.tbu := by
  simp [State.settleTable]

@[simp] theorem settleTable_dpu (s : State) (t : Nat) :
    (s.settleTable t).dpu = s.dpu := by
  simp [State.settleTable]

@[simp] theorem settleTable_aln (s : State) (t : Nat) :
    (s.settleTable t).aln = s.aln := by
  simp [State.settleTable]

@[simp] theorem settleTable_pending (s : State) (t : Nat) :
    (s.settleTable t).pending = s.pending := by
  simp [State.settleTable]

@[simp] theorem settleTable_draws (s : State) (t : Nat) :
    (s.settleTable t).draws = s.draws := by
  simp [State.settleTable]

@[simp] theorem evaluate_lnk (s : State) :
    (s.evaluate).lnk = s.lnk := by
  unfold State.evaluate
  (repeat' split) <;> simp

@[simp] theorem evaluate_imn (s : State) :
    (s.evaluate).imn = s.imn := by
  unfold State.evaluate
  (repeat' split) <;> simp

@[simp] theorem evaluate_cin (s : State) :
    (s.evaluate).cin = s.cin := by
  unfold State.evaluate
  (repeat' split) <;> simp

@[simp] theorem evaluate_rpu (s : State) :
    (s.evaluate).rpu = s.rpu := by
  unfold State.evaluate
  (repeat' split) <;> simp

@[simp] theorem evaluate_stc (s : State) :
    (s.evaluate).stc = s.stc := by
  unfold State.evaluate
  (repeat' split) <;> simp

@[simp] theorem evaluate_tbu (s : State) :
    (s.evaluate).tbu = s.tbu := by
  unfold State.evaluate
  (repeat' split) <;> simp

@[simp] theorem evaluate_dpu (s : State) :
    (s.evaluate).dpu = s.dpu := by
  unfold State.evaluate
  (repeat' split) <;> simp

@[simp] theorem evaluate_aln (s : State) :
    (s.evaluate).aln = s.aln := by
  unfold State.evaluate
  (repeat' split) <;> simp

@[simp] theorem evaluate_pending (s : State) :
    (s.evaluate).pending = s.pending := by
  unfold State.evaluate
  (repeat' split) <;> simp

@[simp] theorem evaluate_draws (s : State) :
    (s.evaluate).draws = s.draws := by
  unfold State.evaluate
  (repeat' split) <;> simp

@[simp] theorem evaluateAdded_lnk (s : State) (handle : Nat) :
    (s.evaluateAdded handle).lnk = s.lnk := by
  unfold State.evaluateAdded
  (repeat' split) <;> simp

@[simp] theorem evaluateAdded_imn (s : State) (handle : Nat) :
    (s.evaluateAdded handle).imn = s.imn := by
  unfold State.evaluateAdded
  (repeat' split) <;> simp

@[simp] theorem evaluateAdded_cin (s : State) (handle : Nat) :
    (s.evaluateAdded handle).cin = s.cin := by
  unfold State.evaluateAdded
  (repeat' split) <;> simp

@[simp] theorem evaluateAdded_rpu (s : State) (handle : Nat) :
    (s.evaluateAdded handle).rpu = s.rpu := by
  unfold State.evaluateAdded
  (repeat' split) <;> simp

@[simp] theorem evaluateAdded_stc (s : State) (handle : Nat) :
    (s.evaluateAdded handle).stc = s.stc := by
  unfold State.evaluateAdded
  (repeat' split) <;> simp

@[simp] theorem evaluateAdded_tbu (s : State) (handle : Nat) :
    (s.evaluateAdded handle).tbu = s.tbu := by
  unfold State.evaluateAdded
  (repeat' split) <;> simp

@[simp] theorem evaluateAdded_dpu (s : State) (handle : Nat) :
    (s.evaluateAdded handle).dpu = s.dpu := by
  unfold State.evaluateAdded
  (repeat' split) <;> simp

@[simp] theorem evaluateAdded_aln (s : State) (handle : Nat) :
    (s.evaluateAdded handle).aln = s.aln := by
  unfold State.evaluateAdded
  (repeat' split) <;> simp

@[simp] theorem evaluateAdded_pending (s : State) (handle : Nat) :
    (s.evaluateAdded handle).pending = s.pending := by
  unfold State.evaluateAdded
  (repeat' split) <;> simp

@[simp] theorem evaluateAdded_draws (s : State) (handle : Nat) :
    (s.evaluateAdded handle).draws = s.draws := by
  unfold State.evaluateAdded
  (repeat' split) <;> simp

@[simp] theorem enterRun_lnk (s : State) :
    (s.enterRun).lnk = s.lnk := by
  simp [State.enterRun]

@[simp] theorem enterRun_imn (s : State) :
    (s.enterRun).imn = s.imn := by
  simp [State.enterRun]

@[simp] theorem enterRun_cin (s : State) :
    (s.enterRun).cin = s.cin := by
  simp [State.enterRun]

@[simp] theorem enterRun_rpu (s : State) :
    (s.enterRun).rpu = s.rpu := by
  simp [State.enterRun]

@[simp] theorem enterRun_tbu (s : State) :
    (s.enterRun).tbu = s.tbu := by
  simp [State.enterRun]

@[simp] theorem enterRun_dpu (s : State) :
    (s.enterRun).dpu = s.dpu := by
  simp [State.enterRun]

@[simp] theorem enterRun_aln (s : State) :
    (s.enterRun).aln = s.aln := by
  simp [State.enterRun]

@[simp] theorem enterRun_pending (s : State) :
    (s.enterRun).pending = s.pending := by
  simp [State.enterRun]

@[simp] theorem enterRun_draws (s : State) :
    (s.enterRun).draws = s.draws := by
  simp [State.enterRun]

/-! ### Alignment -/

@[simp] theorem takeSample_lnk (s : State) (p : Sample) :
    (s.takeSample p).lnk = s.lnk := rfl

@[simp] theorem takeSample_imn (s : State) (p : Sample) :
    (s.takeSample p).imn = s.imn := rfl

@[simp] theorem takeSample_cin (s : State) (p : Sample) :
    (s.takeSample p).cin = s.cin := rfl

@[simp] theorem takeSample_rpu (s : State) (p : Sample) :
    (s.takeSample p).rpu = s.rpu := rfl

@[simp] theorem takeSample_stc (s : State) (p : Sample) :
    (s.takeSample p).stc = s.stc := rfl

@[simp] theorem takeSample_tbu (s : State) (p : Sample) :
    (s.takeSample p).tbu = s.tbu := rfl

@[simp] theorem takeSample_sct (s : State) (p : Sample) :
    (s.takeSample p).sct = s.sct := rfl

@[simp] theorem takeSample_dpu (s : State) (p : Sample) :
    (s.takeSample p).dpu = s.dpu := rfl

@[simp] theorem takeSample_out (s : State) (p : Sample) :
    (s.takeSample p).out = s.out := rfl

@[simp] theorem takeSample_evq (s : State) (p : Sample) :
    (s.takeSample p).evq = s.evq := rfl

@[simp] theorem takeSample_atn (s : State) (p : Sample) :
    (s.takeSample p).atn = s.atn := rfl

@[simp] theorem takeSample_pending (s : State) (p : Sample) :
    (s.takeSample p).pending = s.pending := rfl

@[simp] theorem takeSample_draws (s : State) (p : Sample) :
    (s.takeSample p).draws = s.draws := rfl

@[simp] theorem jumpSample_lnk (s : State) (t : Nat) :
    (s.jumpSample t).lnk = s.lnk := by
  unfold State.jumpSample
  (repeat' split) <;> simp

@[simp] theorem jumpSample_imn (s : State) (t : Nat) :
    (s.jumpSample t).imn = s.imn := by
  unfold State.jumpSample
  (repeat' split) <;> simp

@[simp] theorem jumpSample_cin (s : State) (t : Nat) :
    (s.jumpSample t).cin = s.cin := by
  unfold State.jumpSample
  (repeat' split) <;> simp

@[simp] theorem jumpSample_rpu (s : State) (t : Nat) :
    (s.jumpSample t).rpu = s.rpu := by
  unfold State.jumpSample
  (repeat' split) <;> simp

@[simp] theorem jumpSample_stc (s : State) (t : Nat) :
    (s.jumpSample t).stc = s.stc := by
  unfold State.jumpSample
  (repeat' split) <;> simp

@[simp] theorem jumpSample_tbu (s : State) (t : Nat) :
    (s.jumpSample t).tbu = s.tbu := by
  unfold State.jumpSample
  (repeat' split) <;> simp

@[simp] theorem jumpSample_sct (s : State) (t : Nat) :
    (s.jumpSample t).sct = s.sct := by
  unfold State.jumpSample
  (repeat' split) <;> simp

@[simp] theorem jumpSample_dpu (s : State) (t : Nat) :
    (s.jumpSample t).dpu = s.dpu := by
  unfold State.jumpSample
  (repeat' split) <;> simp

@[simp] theorem jumpSample_out (s : State) (t : Nat) :
    (s.jumpSample t).out = s.out := by
  unfold State.jumpSample
  (repeat' split) <;> simp

@[simp] theorem jumpSample_evq (s : State) (t : Nat) :
    (s.jumpSample t).evq = s.evq := by
  unfold State.jumpSample
  (repeat' split) <;> simp

@[simp] theorem jumpSample_atn (s : State) (t : Nat) :
    (s.jumpSample t).atn = s.atn := by
  unfold State.jumpSample
  (repeat' split) <;> simp

@[simp] theorem jumpSample_pending (s : State) (t : Nat) :
    (s.jumpSample t).pending = s.pending := by
  unfold State.jumpSample
  (repeat' split) <;> simp

@[simp] theorem jumpSample_draws (s : State) (t : Nat) :
    (s.jumpSample t).draws = s.draws := by
  unfold State.jumpSample
  (repeat' split) <;> simp

/-! ### Timebase -/

@[simp] theorem stepTo_lnk (s : State) (now : Nat) (e : Int) (x : Tbu) :
    (s.stepTo now e x).lnk = s.lnk := by
  unfold State.stepTo
  dsimp only
  (repeat' split) <;> simp

@[simp] theorem stepTo_imn (s : State) (now : Nat) (e : Int) (x : Tbu) :
    (s.stepTo now e x).imn = s.imn := by
  unfold State.stepTo
  dsimp only
  (repeat' split) <;> simp

@[simp] theorem stepTo_cin (s : State) (now : Nat) (e : Int) (x : Tbu) :
    (s.stepTo now e x).cin = s.cin := by
  unfold State.stepTo
  dsimp only
  (repeat' split) <;> simp

@[simp] theorem stepTo_rpu (s : State) (now : Nat) (e : Int) (x : Tbu) :
    (s.stepTo now e x).rpu = s.rpu := by
  unfold State.stepTo
  dsimp only
  (repeat' split) <;> simp

@[simp] theorem stepTo_stc (s : State) (now : Nat) (e : Int) (x : Tbu) :
    (s.stepTo now e x).stc = s.stc := by
  unfold State.stepTo
  dsimp only
  (repeat' split) <;> simp

@[simp] theorem stepTo_dpu (s : State) (now : Nat) (e : Int) (x : Tbu) :
    (s.stepTo now e x).dpu = s.dpu := by
  unfold State.stepTo
  dsimp only
  (repeat' split) <;> simp

@[simp] theorem stepTo_pending (s : State) (now : Nat) (e : Int) (x : Tbu) :
    (s.stepTo now e x).pending = s.pending := by
  unfold State.stepTo
  dsimp only
  (repeat' split) <;> simp

@[simp] theorem stepTo_draws (s : State) (now : Nat) (e : Int) (x : Tbu) :
    (s.stepTo now e x).draws = s.draws := by
  unfold State.stepTo
  dsimp only
  (repeat' split) <;> simp

@[simp] theorem processSync_lnk (s : State) (time : Nat) (seq : Byte) (since : Nat) :
    (s.processSync time seq since).lnk = s.lnk := by
  unfold State.processSync
  dsimp only
  (repeat' split) <;> simp

@[simp] theorem processSync_imn (s : State) (time : Nat) (seq : Byte) (since : Nat) :
    (s.processSync time seq since).imn = s.imn := by
  unfold State.processSync
  dsimp only
  (repeat' split) <;> simp

@[simp] theorem processSync_cin (s : State) (time : Nat) (seq : Byte) (since : Nat) :
    (s.processSync time seq since).cin = s.cin := by
  unfold State.processSync
  dsimp only
  (repeat' split) <;> simp

@[simp] theorem processSync_rpu (s : State) (time : Nat) (seq : Byte) (since : Nat) :
    (s.processSync time seq since).rpu = s.rpu := by
  unfold State.processSync
  dsimp only
  (repeat' split) <;> simp

@[simp] theorem processSync_stc (s : State) (time : Nat) (seq : Byte) (since : Nat) :
    (s.processSync time seq since).stc = s.stc := by
  unfold State.processSync
  dsimp only
  (repeat' split) <;> simp

@[simp] theorem processSync_dpu (s : State) (time : Nat) (seq : Byte) (since : Nat) :
    (s.processSync time seq since).dpu = s.dpu := by
  unfold State.processSync
  dsimp only
  (repeat' split) <;> simp

@[simp] theorem processSync_pending (s : State) (time : Nat) (seq : Byte) (since : Nat) :
    (s.processSync time seq since).pending = s.pending := by
  unfold State.processSync
  dsimp only
  (repeat' split) <;> simp

@[simp] theorem processSync_draws (s : State) (time : Nat) (seq : Byte) (since : Nat) :
    (s.processSync time seq since).draws = s.draws := by
  unfold State.processSync
  dsimp only
  (repeat' split) <;> simp

@[simp] theorem takeSync_lnk (s : State) (f : Frame) (since : Nat) :
    (s.takeSync f since).lnk = s.lnk := by
  unfold State.takeSync
  dsimp only
  (repeat' split) <;> simp

@[simp] theorem takeSync_imn (s : State) (f : Frame) (since : Nat) :
    (s.takeSync f since).imn = s.imn := by
  unfold State.takeSync
  dsimp only
  (repeat' split) <;> simp

@[simp] theorem takeSync_cin (s : State) (f : Frame) (since : Nat) :
    (s.takeSync f since).cin = s.cin := by
  unfold State.takeSync
  dsimp only
  (repeat' split) <;> simp

@[simp] theorem takeSync_rpu (s : State) (f : Frame) (since : Nat) :
    (s.takeSync f since).rpu = s.rpu := by
  unfold State.takeSync
  dsimp only
  (repeat' split) <;> simp

@[simp] theorem takeSync_stc (s : State) (f : Frame) (since : Nat) :
    (s.takeSync f since).stc = s.stc := by
  unfold State.takeSync
  dsimp only
  (repeat' split) <;> simp

@[simp] theorem takeSync_dpu (s : State) (f : Frame) (since : Nat) :
    (s.takeSync f since).dpu = s.dpu := by
  unfold State.takeSync
  dsimp only
  (repeat' split) <;> simp

@[simp] theorem takeSync_pending (s : State) (f : Frame) (since : Nat) :
    (s.takeSync f since).pending = s.pending := by
  unfold State.takeSync
  dsimp only
  (repeat' split) <;> simp

@[simp] theorem takeSync_draws (s : State) (f : Frame) (since : Nat) :
    (s.takeSync f since).draws = s.draws := by
  unfold State.takeSync
  dsimp only
  (repeat' split) <;> simp

/-! ### TimeCommands -/

@[simp] theorem setSettings_lnk (s : State) (interval limit : Nat) :
    (s.setSettings interval limit).lnk = s.lnk := rfl

@[simp] theorem setSettings_imn (s : State) (interval limit : Nat) :
    (s.setSettings interval limit).imn = s.imn := rfl

@[simp] theorem setSettings_cin (s : State) (interval limit : Nat) :
    (s.setSettings interval limit).cin = s.cin := rfl

@[simp] theorem setSettings_rpu (s : State) (interval limit : Nat) :
    (s.setSettings interval limit).rpu = s.rpu := rfl

@[simp] theorem setSettings_stc (s : State) (interval limit : Nat) :
    (s.setSettings interval limit).stc = s.stc := rfl

@[simp] theorem setSettings_sct (s : State) (interval limit : Nat) :
    (s.setSettings interval limit).sct = s.sct := rfl

@[simp] theorem setSettings_dpu (s : State) (interval limit : Nat) :
    (s.setSettings interval limit).dpu = s.dpu := rfl

@[simp] theorem setSettings_out (s : State) (interval limit : Nat) :
    (s.setSettings interval limit).out = s.out := rfl

@[simp] theorem setSettings_cap (s : State) (interval limit : Nat) :
    (s.setSettings interval limit).cap = s.cap := rfl

@[simp] theorem setSettings_evq (s : State) (interval limit : Nat) :
    (s.setSettings interval limit).evq = s.evq := rfl

@[simp] theorem setSettings_atn (s : State) (interval limit : Nat) :
    (s.setSettings interval limit).atn = s.atn := rfl

@[simp] theorem setSettings_aln (s : State) (interval limit : Nat) :
    (s.setSettings interval limit).aln = s.aln := rfl

@[simp] theorem setSettings_pending (s : State) (interval limit : Nat) :
    (s.setSettings interval limit).pending = s.pending := rfl

@[simp] theorem setSettings_draws (s : State) (interval limit : Nat) :
    (s.setSettings interval limit).draws = s.draws := rfl

@[simp] theorem changeMode_lnk (s : State) (mode : TbMode) :
    (s.changeMode mode).lnk = s.lnk := by
  unfold State.changeMode
  dsimp only
  (repeat' split) <;> simp

@[simp] theorem changeMode_imn (s : State) (mode : TbMode) :
    (s.changeMode mode).imn = s.imn := by
  unfold State.changeMode
  dsimp only
  (repeat' split) <;> simp

@[simp] theorem changeMode_cin (s : State) (mode : TbMode) :
    (s.changeMode mode).cin = s.cin := by
  unfold State.changeMode
  dsimp only
  (repeat' split) <;> simp

@[simp] theorem changeMode_rpu (s : State) (mode : TbMode) :
    (s.changeMode mode).rpu = s.rpu := by
  unfold State.changeMode
  dsimp only
  (repeat' split) <;> simp

@[simp] theorem changeMode_stc (s : State) (mode : TbMode) :
    (s.changeMode mode).stc = s.stc := by
  unfold State.changeMode
  dsimp only
  (repeat' split) <;> simp

@[simp] theorem changeMode_sct (s : State) (mode : TbMode) :
    (s.changeMode mode).sct = s.sct := by
  unfold State.changeMode
  dsimp only
  (repeat' split) <;> simp

@[simp] theorem changeMode_dpu (s : State) (mode : TbMode) :
    (s.changeMode mode).dpu = s.dpu := by
  unfold State.changeMode
  dsimp only
  (repeat' split) <;> simp

@[simp] theorem changeMode_out (s : State) (mode : TbMode) :
    (s.changeMode mode).out = s.out := by
  unfold State.changeMode
  dsimp only
  (repeat' split) <;> simp

@[simp] theorem changeMode_cap (s : State) (mode : TbMode) :
    (s.changeMode mode).cap = s.cap := by
  unfold State.changeMode
  dsimp only
  (repeat' split) <;> simp

@[simp] theorem changeMode_evq (s : State) (mode : TbMode) :
    (s.changeMode mode).evq = s.evq := by
  unfold State.changeMode
  dsimp only
  (repeat' split) <;> simp

@[simp] theorem changeMode_aln (s : State) (mode : TbMode) :
    (s.changeMode mode).aln = s.aln := by
  unfold State.changeMode
  dsimp only
  (repeat' split) <;> simp

@[simp] theorem changeMode_pending (s : State) (mode : TbMode) :
    (s.changeMode mode).pending = s.pending := by
  unfold State.changeMode
  dsimp only
  (repeat' split) <;> simp

@[simp] theorem changeMode_draws (s : State) (mode : TbMode) :
    (s.changeMode mode).draws = s.draws := by
  unfold State.changeMode
  dsimp only
  (repeat' split) <;> simp

/-! ### States -/

@[simp] theorem clearFaultState_lnk (s : State) :
    (s.clearFaultState).lnk = s.lnk := rfl

@[simp] theorem clearFaultState_cin (s : State) :
    (s.clearFaultState).cin = s.cin := rfl

@[simp] theorem clearFaultState_rpu (s : State) :
    (s.clearFaultState).rpu = s.rpu := rfl

@[simp] theorem clearFaultState_stc (s : State) :
    (s.clearFaultState).stc = s.stc := rfl

@[simp] theorem clearFaultState_tbu (s : State) :
    (s.clearFaultState).tbu = s.tbu := rfl

@[simp] theorem clearFaultState_sct (s : State) :
    (s.clearFaultState).sct = s.sct := rfl

@[simp] theorem clearFaultState_dpu (s : State) :
    (s.clearFaultState).dpu = s.dpu := rfl

@[simp] theorem clearFaultState_out (s : State) :
    (s.clearFaultState).out = s.out := rfl

@[simp] theorem clearFaultState_cap (s : State) :
    (s.clearFaultState).cap = s.cap := rfl

@[simp] theorem clearFaultState_evq (s : State) :
    (s.clearFaultState).evq = s.evq := rfl

@[simp] theorem clearFaultState_aln (s : State) :
    (s.clearFaultState).aln = s.aln := rfl

@[simp] theorem clearFaultState_pending (s : State) :
    (s.clearFaultState).pending = s.pending := rfl

@[simp] theorem clearFaultState_draws (s : State) :
    (s.clearFaultState).draws = s.draws := rfl

@[simp] theorem discardContents_lnk (s : State) (op : OpState) :
    (s.discardContents op).lnk = s.lnk := rfl

@[simp] theorem discardContents_tbu (s : State) (op : OpState) :
    (s.discardContents op).tbu = s.tbu := rfl

@[simp] theorem discardContents_dpu (s : State) (op : OpState) :
    (s.discardContents op).dpu = s.dpu := rfl

@[simp] theorem discardContents_pending (s : State) (op : OpState) :
    (s.discardContents op).pending = s.pending := rfl

@[simp] theorem discardContents_draws (s : State) (op : OpState) :
    (s.discardContents op).draws = s.draws := rfl

/-! ### Intake -/

@[simp] theorem countFrame_lnk (s : State) :
    (s.countFrame).lnk = s.lnk := rfl

@[simp] theorem countFrame_imn (s : State) :
    (s.countFrame).imn = s.imn := rfl

@[simp] theorem countFrame_rpu (s : State) :
    (s.countFrame).rpu = s.rpu := rfl

@[simp] theorem countFrame_stc (s : State) :
    (s.countFrame).stc = s.stc := rfl

@[simp] theorem countFrame_tbu (s : State) :
    (s.countFrame).tbu = s.tbu := rfl

@[simp] theorem countFrame_sct (s : State) :
    (s.countFrame).sct = s.sct := rfl

@[simp] theorem countFrame_dpu (s : State) :
    (s.countFrame).dpu = s.dpu := rfl

@[simp] theorem countFrame_out (s : State) :
    (s.countFrame).out = s.out := rfl

@[simp] theorem countFrame_cap (s : State) :
    (s.countFrame).cap = s.cap := rfl

@[simp] theorem countFrame_evq (s : State) :
    (s.countFrame).evq = s.evq := rfl

@[simp] theorem countFrame_atn (s : State) :
    (s.countFrame).atn = s.atn := rfl

@[simp] theorem countFrame_aln (s : State) :
    (s.countFrame).aln = s.aln := rfl

@[simp] theorem countFrame_pending (s : State) :
    (s.countFrame).pending = s.pending := rfl

@[simp] theorem countFrame_draws (s : State) :
    (s.countFrame).draws = s.draws := rfl

@[simp] theorem stage_lnk (s : State) (o : Origin) (bytes : List Byte) :
    (s.stage o bytes).lnk = s.lnk := by
  cases o <;> rfl

@[simp] theorem stage_imn (s : State) (o : Origin) (bytes : List Byte) :
    (s.stage o bytes).imn = s.imn := by
  cases o <;> rfl

@[simp] theorem stage_stc (s : State) (o : Origin) (bytes : List Byte) :
    (s.stage o bytes).stc = s.stc := by
  cases o <;> rfl

@[simp] theorem stage_tbu (s : State) (o : Origin) (bytes : List Byte) :
    (s.stage o bytes).tbu = s.tbu := by
  cases o <;> rfl

@[simp] theorem stage_sct (s : State) (o : Origin) (bytes : List Byte) :
    (s.stage o bytes).sct = s.sct := by
  cases o <;> rfl

@[simp] theorem stage_dpu (s : State) (o : Origin) (bytes : List Byte) :
    (s.stage o bytes).dpu = s.dpu := by
  cases o <;> rfl

@[simp] theorem stage_out (s : State) (o : Origin) (bytes : List Byte) :
    (s.stage o bytes).out = s.out := by
  cases o <;> rfl

@[simp] theorem stage_cap (s : State) (o : Origin) (bytes : List Byte) :
    (s.stage o bytes).cap = s.cap := by
  cases o <;> rfl

@[simp] theorem stage_evq (s : State) (o : Origin) (bytes : List Byte) :
    (s.stage o bytes).evq = s.evq := by
  cases o <;> rfl

@[simp] theorem stage_atn (s : State) (o : Origin) (bytes : List Byte) :
    (s.stage o bytes).atn = s.atn := by
  cases o <;> rfl

@[simp] theorem stage_aln (s : State) (o : Origin) (bytes : List Byte) :
    (s.stage o bytes).aln = s.aln := by
  cases o <;> rfl

@[simp] theorem stage_pending (s : State) (o : Origin) (bytes : List Byte) :
    (s.stage o bytes).pending = s.pending := by
  cases o <;> rfl

@[simp] theorem stage_draws (s : State) (o : Origin) (bytes : List Byte) :
    (s.stage o bytes).draws = s.draws := by
  cases o <;> rfl

@[simp] theorem intake_lnk (s : State) (f : Frame) :
    (s.intake f).lnk = s.lnk := by
  unfold State.intake
  (repeat' split) <;> simp

@[simp] theorem intake_imn (s : State) (f : Frame) :
    (s.intake f).imn = s.imn := by
  unfold State.intake
  (repeat' split) <;> simp

@[simp] theorem intake_stc (s : State) (f : Frame) :
    (s.intake f).stc = s.stc := by
  unfold State.intake
  (repeat' split) <;> simp

@[simp] theorem intake_tbu (s : State) (f : Frame) :
    (s.intake f).tbu = s.tbu := by
  unfold State.intake
  (repeat' split) <;> simp

@[simp] theorem intake_sct (s : State) (f : Frame) :
    (s.intake f).sct = s.sct := by
  unfold State.intake
  (repeat' split) <;> simp

@[simp] theorem intake_dpu (s : State) (f : Frame) :
    (s.intake f).dpu = s.dpu := by
  unfold State.intake
  (repeat' split) <;> simp

@[simp] theorem intake_out (s : State) (f : Frame) :
    (s.intake f).out = s.out := by
  unfold State.intake
  (repeat' split) <;> simp

@[simp] theorem intake_cap (s : State) (f : Frame) :
    (s.intake f).cap = s.cap := by
  unfold State.intake
  (repeat' split) <;> simp

@[simp] theorem intake_evq (s : State) (f : Frame) :
    (s.intake f).evq = s.evq := by
  unfold State.intake
  (repeat' split) <;> simp

@[simp] theorem intake_aln (s : State) (f : Frame) :
    (s.intake f).aln = s.aln := by
  unfold State.intake
  (repeat' split) <;> simp

@[simp] theorem intake_pending (s : State) (f : Frame) :
    (s.intake f).pending = s.pending := by
  unfold State.intake
  (repeat' split) <;> simp

@[simp] theorem intake_draws (s : State) (f : Frame) :
    (s.intake f).draws = s.draws := by
  unfold State.intake
  (repeat' split) <;> simp

@[simp] theorem expireStaging_lnk (s : State) :
    (s.expireStaging).lnk = s.lnk := by
  unfold State.expireStaging
  (repeat' split) <;> simp

@[simp] theorem expireStaging_imn (s : State) :
    (s.expireStaging).imn = s.imn := by
  unfold State.expireStaging
  (repeat' split) <;> simp

@[simp] theorem expireStaging_stc (s : State) :
    (s.expireStaging).stc = s.stc := by
  unfold State.expireStaging
  (repeat' split) <;> simp

@[simp] theorem expireStaging_tbu (s : State) :
    (s.expireStaging).tbu = s.tbu := by
  unfold State.expireStaging
  (repeat' split) <;> simp

@[simp] theorem expireStaging_sct (s : State) :
    (s.expireStaging).sct = s.sct := by
  unfold State.expireStaging
  (repeat' split) <;> simp

@[simp] theorem expireStaging_dpu (s : State) :
    (s.expireStaging).dpu = s.dpu := by
  unfold State.expireStaging
  (repeat' split) <;> simp

@[simp] theorem expireStaging_out (s : State) :
    (s.expireStaging).out = s.out := by
  unfold State.expireStaging
  (repeat' split) <;> simp

@[simp] theorem expireStaging_cap (s : State) :
    (s.expireStaging).cap = s.cap := by
  unfold State.expireStaging
  (repeat' split) <;> simp

@[simp] theorem expireStaging_evq (s : State) :
    (s.expireStaging).evq = s.evq := by
  unfold State.expireStaging
  (repeat' split) <;> simp

@[simp] theorem expireStaging_atn (s : State) :
    (s.expireStaging).atn = s.atn := by
  unfold State.expireStaging
  (repeat' split) <;> simp

@[simp] theorem expireStaging_aln (s : State) :
    (s.expireStaging).aln = s.aln := by
  unfold State.expireStaging
  (repeat' split) <;> simp

@[simp] theorem expireStaging_pending (s : State) :
    (s.expireStaging).pending = s.pending := by
  unfold State.expireStaging
  (repeat' split) <;> simp

@[simp] theorem expireStaging_draws (s : State) :
    (s.expireStaging).draws = s.draws := by
  unfold State.expireStaging
  (repeat' split) <;> simp

@[simp] theorem voidStaging_lnk (s : State) :
    (s.voidStaging).lnk = s.lnk := by
  simp [State.voidStaging]

@[simp] theorem voidStaging_imn (s : State) :
    (s.voidStaging).imn = s.imn := by
  simp [State.voidStaging]

@[simp] theorem voidStaging_stc (s : State) :
    (s.voidStaging).stc = s.stc := by
  simp [State.voidStaging]

@[simp] theorem voidStaging_tbu (s : State) :
    (s.voidStaging).tbu = s.tbu := by
  simp [State.voidStaging]

@[simp] theorem voidStaging_sct (s : State) :
    (s.voidStaging).sct = s.sct := by
  simp [State.voidStaging]

@[simp] theorem voidStaging_dpu (s : State) :
    (s.voidStaging).dpu = s.dpu := by
  simp [State.voidStaging]

@[simp] theorem voidStaging_out (s : State) :
    (s.voidStaging).out = s.out := by
  simp [State.voidStaging]

@[simp] theorem voidStaging_cap (s : State) :
    (s.voidStaging).cap = s.cap := by
  simp [State.voidStaging]

@[simp] theorem voidStaging_evq (s : State) :
    (s.voidStaging).evq = s.evq := by
  simp [State.voidStaging]

@[simp] theorem voidStaging_atn (s : State) :
    (s.voidStaging).atn = s.atn := by
  simp [State.voidStaging]

@[simp] theorem voidStaging_aln (s : State) :
    (s.voidStaging).aln = s.aln := by
  simp [State.voidStaging]

@[simp] theorem voidStaging_pending (s : State) :
    (s.voidStaging).pending = s.pending := by
  simp [State.voidStaging]

@[simp] theorem voidStaging_draws (s : State) :
    (s.voidStaging).draws = s.draws := by
  simp [State.voidStaging]

/-! ### Link -/

@[simp] theorem afterReceiving_imn (s : State) (b : Bool) (r : Receiver) (f : Option Reception) :
    (s.afterReceiving b r f).imn = s.imn := rfl

@[simp] theorem afterReceiving_cin (s : State) (b : Bool) (r : Receiver) (f : Option Reception) :
    (s.afterReceiving b r f).cin = s.cin := rfl

@[simp] theorem afterReceiving_rpu (s : State) (b : Bool) (r : Receiver) (f : Option Reception) :
    (s.afterReceiving b r f).rpu = s.rpu := rfl

@[simp] theorem afterReceiving_stc (s : State) (b : Bool) (r : Receiver) (f : Option Reception) :
    (s.afterReceiving b r f).stc = s.stc := rfl

@[simp] theorem afterReceiving_tbu (s : State) (b : Bool) (r : Receiver) (f : Option Reception) :
    (s.afterReceiving b r f).tbu = s.tbu := rfl

@[simp] theorem afterReceiving_sct (s : State) (b : Bool) (r : Receiver) (f : Option Reception) :
    (s.afterReceiving b r f).sct = s.sct := rfl

@[simp] theorem afterReceiving_dpu (s : State) (b : Bool) (r : Receiver) (f : Option Reception) :
    (s.afterReceiving b r f).dpu = s.dpu := rfl

@[simp] theorem afterReceiving_out (s : State) (b : Bool) (r : Receiver) (f : Option Reception) :
    (s.afterReceiving b r f).out = s.out := rfl

@[simp] theorem afterReceiving_cap (s : State) (b : Bool) (r : Receiver) (f : Option Reception) :
    (s.afterReceiving b r f).cap = s.cap := rfl

@[simp] theorem afterReceiving_evq (s : State) (b : Bool) (r : Receiver) (f : Option Reception) :
    (s.afterReceiving b r f).evq = s.evq := rfl

@[simp] theorem afterReceiving_atn (s : State) (b : Bool) (r : Receiver) (f : Option Reception) :
    (s.afterReceiving b r f).atn = s.atn := rfl

@[simp] theorem afterReceiving_aln (s : State) (b : Bool) (r : Receiver) (f : Option Reception) :
    (s.afterReceiving b r f).aln = s.aln := rfl

@[simp] theorem afterReceiving_pending (s : State) (b : Bool) (r : Receiver) (f : Option Reception) :
    (s.afterReceiving b r f).pending = s.pending := rfl

@[simp] theorem afterReceiving_draws (s : State) (b : Bool) (r : Receiver) (f : Option Reception) :
    (s.afterReceiving b r f).draws = s.draws := rfl

@[simp] theorem hold_lnk (s : State) :
    (s.hold).lnk = s.lnk := by
  unfold State.hold
  (repeat' split) <;> simp

@[simp] theorem hold_imn (s : State) :
    (s.hold).imn = s.imn := by
  unfold State.hold
  (repeat' split) <;> simp

@[simp] theorem hold_cin (s : State) :
    (s.hold).cin = s.cin := by
  unfold State.hold
  (repeat' split) <;> simp

@[simp] theorem hold_rpu (s : State) :
    (s.hold).rpu = s.rpu := by
  unfold State.hold
  (repeat' split) <;> simp

@[simp] theorem hold_tbu (s : State) :
    (s.hold).tbu = s.tbu := by
  unfold State.hold
  (repeat' split) <;> simp

@[simp] theorem hold_sct (s : State) :
    (s.hold).sct = s.sct := by
  unfold State.hold
  (repeat' split) <;> simp

@[simp] theorem hold_dpu (s : State) :
    (s.hold).dpu = s.dpu := by
  unfold State.hold
  (repeat' split) <;> simp

@[simp] theorem hold_evq (s : State) :
    (s.hold).evq = s.evq := by
  unfold State.hold
  (repeat' split) <;> simp

@[simp] theorem hold_atn (s : State) :
    (s.hold).atn = s.atn := by
  unfold State.hold
  (repeat' split) <;> simp

@[simp] theorem hold_pending (s : State) :
    (s.hold).pending = s.pending := by
  unfold State.hold
  (repeat' split) <;> simp

@[simp] theorem hold_draws (s : State) :
    (s.hold).draws = s.draws := by
  unfold State.hold
  (repeat' split) <;> simp

@[simp] theorem reportFault_lnk (s : State) (k : FaultKind) (header : List Byte) :
    (s.reportFault k header).lnk = s.lnk := by
  unfold State.reportFault
  dsimp only
  (repeat' split) <;> simp

@[simp] theorem reportFault_tbu (s : State) (k : FaultKind) (header : List Byte) :
    (s.reportFault k header).tbu = s.tbu := by
  unfold State.reportFault
  dsimp only
  (repeat' split) <;> simp

@[simp] theorem reportFault_sct (s : State) (k : FaultKind) (header : List Byte) :
    (s.reportFault k header).sct = s.sct := by
  unfold State.reportFault
  dsimp only
  (repeat' split) <;> simp

@[simp] theorem reportFault_dpu (s : State) (k : FaultKind) (header : List Byte) :
    (s.reportFault k header).dpu = s.dpu := by
  unfold State.reportFault
  dsimp only
  (repeat' split) <;> simp

@[simp] theorem reportFault_evq (s : State) (k : FaultKind) (header : List Byte) :
    (s.reportFault k header).evq = s.evq := by
  unfold State.reportFault
  dsimp only
  (repeat' split) <;> simp

@[simp] theorem reportFault_pending (s : State) (k : FaultKind) (header : List Byte) :
    (s.reportFault k header).pending = s.pending := by
  unfold State.reportFault
  dsimp only
  (repeat' split) <;> simp

@[simp] theorem reportFault_draws (s : State) (k : FaultKind) (header : List Byte) :
    (s.reportFault k header).draws = s.draws := by
  unfold State.reportFault
  dsimp only
  (repeat' split) <;> simp

@[simp] theorem takeFault_lnk (s : State) (k : FaultKind) (header : List Byte) :
    (s.takeFault k header).lnk = s.lnk := by
  unfold State.takeFault
  (repeat' split) <;> simp

@[simp] theorem takeFault_tbu (s : State) (k : FaultKind) (header : List Byte) :
    (s.takeFault k header).tbu = s.tbu := by
  unfold State.takeFault
  (repeat' split) <;> simp

@[simp] theorem takeFault_sct (s : State) (k : FaultKind) (header : List Byte) :
    (s.takeFault k header).sct = s.sct := by
  unfold State.takeFault
  (repeat' split) <;> simp

@[simp] theorem takeFault_dpu (s : State) (k : FaultKind) (header : List Byte) :
    (s.takeFault k header).dpu = s.dpu := by
  unfold State.takeFault
  (repeat' split) <;> simp

@[simp] theorem takeFault_evq (s : State) (k : FaultKind) (header : List Byte) :
    (s.takeFault k header).evq = s.evq := by
  unfold State.takeFault
  (repeat' split) <;> simp

@[simp] theorem takeFault_pending (s : State) (k : FaultKind) (header : List Byte) :
    (s.takeFault k header).pending = s.pending := by
  unfold State.takeFault
  (repeat' split) <;> simp

@[simp] theorem takeFault_draws (s : State) (k : FaultKind) (header : List Byte) :
    (s.takeFault k header).draws = s.draws := by
  unfold State.takeFault
  (repeat' split) <;> simp

@[simp] theorem handlePoll_imn (s : State) (f : Frame) :
    (s.handlePoll f).imn = s.imn := by
  unfold State.handlePoll
  (repeat' split) <;> simp

@[simp] theorem handlePoll_cin (s : State) (f : Frame) :
    (s.handlePoll f).cin = s.cin := by
  unfold State.handlePoll
  (repeat' split) <;> simp

@[simp] theorem handlePoll_stc (s : State) (f : Frame) :
    (s.handlePoll f).stc = s.stc := by
  unfold State.handlePoll
  (repeat' split) <;> simp

@[simp] theorem handlePoll_tbu (s : State) (f : Frame) :
    (s.handlePoll f).tbu = s.tbu := by
  unfold State.handlePoll
  (repeat' split) <;> simp

@[simp] theorem handlePoll_sct (s : State) (f : Frame) :
    (s.handlePoll f).sct = s.sct := by
  unfold State.handlePoll
  (repeat' split) <;> simp

@[simp] theorem handlePoll_dpu (s : State) (f : Frame) :
    (s.handlePoll f).dpu = s.dpu := by
  unfold State.handlePoll
  (repeat' split) <;> simp

@[simp] theorem handlePoll_out (s : State) (f : Frame) :
    (s.handlePoll f).out = s.out := by
  unfold State.handlePoll
  (repeat' split) <;> simp

@[simp] theorem handlePoll_cap (s : State) (f : Frame) :
    (s.handlePoll f).cap = s.cap := by
  unfold State.handlePoll
  (repeat' split) <;> simp

@[simp] theorem handlePoll_evq (s : State) (f : Frame) :
    (s.handlePoll f).evq = s.evq := by
  unfold State.handlePoll
  (repeat' split) <;> simp

@[simp] theorem handlePoll_atn (s : State) (f : Frame) :
    (s.handlePoll f).atn = s.atn := by
  unfold State.handlePoll
  (repeat' split) <;> simp

@[simp] theorem handlePoll_aln (s : State) (f : Frame) :
    (s.handlePoll f).aln = s.aln := by
  unfold State.handlePoll
  (repeat' split) <;> simp

@[simp] theorem handlePoll_pending (s : State) (f : Frame) :
    (s.handlePoll f).pending = s.pending := by
  unfold State.handlePoll
  (repeat' split) <;> simp

@[simp] theorem handleSync_lnk (s : State) (f : Frame) (since : Nat) :
    (s.handleSync f since).lnk = s.lnk := by
  unfold State.handleSync
  (repeat' split) <;> simp

@[simp] theorem handleSync_imn (s : State) (f : Frame) (since : Nat) :
    (s.handleSync f since).imn = s.imn := by
  unfold State.handleSync
  (repeat' split) <;> simp

@[simp] theorem handleSync_cin (s : State) (f : Frame) (since : Nat) :
    (s.handleSync f since).cin = s.cin := by
  unfold State.handleSync
  (repeat' split) <;> simp

@[simp] theorem handleSync_rpu (s : State) (f : Frame) (since : Nat) :
    (s.handleSync f since).rpu = s.rpu := by
  unfold State.handleSync
  (repeat' split) <;> simp

@[simp] theorem handleSync_stc (s : State) (f : Frame) (since : Nat) :
    (s.handleSync f since).stc = s.stc := by
  unfold State.handleSync
  (repeat' split) <;> simp

@[simp] theorem handleSync_dpu (s : State) (f : Frame) (since : Nat) :
    (s.handleSync f since).dpu = s.dpu := by
  unfold State.handleSync
  (repeat' split) <;> simp

@[simp] theorem handleSync_pending (s : State) (f : Frame) (since : Nat) :
    (s.handleSync f since).pending = s.pending := by
  unfold State.handleSync
  (repeat' split) <;> simp

@[simp] theorem handleSync_draws (s : State) (f : Frame) (since : Nat) :
    (s.handleSync f since).draws = s.draws := by
  unfold State.handleSync
  (repeat' split) <;> simp

@[simp] theorem takeProbe_lnk (s : State) (m : Nat) (seq : Byte) :
    (s.takeProbe m seq).lnk = s.lnk := by
  unfold State.takeProbe
  (repeat' split) <;> simp

@[simp] theorem takeProbe_imn (s : State) (m : Nat) (seq : Byte) :
    (s.takeProbe m seq).imn = s.imn := by
  unfold State.takeProbe
  (repeat' split) <;> simp

@[simp] theorem takeProbe_cin (s : State) (m : Nat) (seq : Byte) :
    (s.takeProbe m seq).cin = s.cin := by
  unfold State.takeProbe
  (repeat' split) <;> simp

@[simp] theorem takeProbe_rpu (s : State) (m : Nat) (seq : Byte) :
    (s.takeProbe m seq).rpu = s.rpu := by
  unfold State.takeProbe
  (repeat' split) <;> simp

@[simp] theorem takeProbe_stc (s : State) (m : Nat) (seq : Byte) :
    (s.takeProbe m seq).stc = s.stc := by
  unfold State.takeProbe
  (repeat' split) <;> simp

@[simp] theorem takeProbe_tbu (s : State) (m : Nat) (seq : Byte) :
    (s.takeProbe m seq).tbu = s.tbu := by
  unfold State.takeProbe
  (repeat' split) <;> simp

@[simp] theorem takeProbe_sct (s : State) (m : Nat) (seq : Byte) :
    (s.takeProbe m seq).sct = s.sct := by
  unfold State.takeProbe
  (repeat' split) <;> simp

@[simp] theorem takeProbe_dpu (s : State) (m : Nat) (seq : Byte) :
    (s.takeProbe m seq).dpu = s.dpu := by
  unfold State.takeProbe
  (repeat' split) <;> simp

@[simp] theorem takeProbe_out (s : State) (m : Nat) (seq : Byte) :
    (s.takeProbe m seq).out = s.out := by
  unfold State.takeProbe
  (repeat' split) <;> simp

@[simp] theorem takeProbe_cap (s : State) (m : Nat) (seq : Byte) :
    (s.takeProbe m seq).cap = s.cap := by
  unfold State.takeProbe
  (repeat' split) <;> simp

@[simp] theorem takeProbe_evq (s : State) (m : Nat) (seq : Byte) :
    (s.takeProbe m seq).evq = s.evq := by
  unfold State.takeProbe
  (repeat' split) <;> simp

@[simp] theorem takeProbe_atn (s : State) (m : Nat) (seq : Byte) :
    (s.takeProbe m seq).atn = s.atn := by
  unfold State.takeProbe
  (repeat' split) <;> simp

@[simp] theorem takeProbe_pending (s : State) (m : Nat) (seq : Byte) :
    (s.takeProbe m seq).pending = s.pending := by
  unfold State.takeProbe
  (repeat' split) <;> simp

@[simp] theorem takeProbe_draws (s : State) (m : Nat) (seq : Byte) :
    (s.takeProbe m seq).draws = s.draws := by
  unfold State.takeProbe
  (repeat' split) <;> simp

@[simp] theorem handleProbe_lnk (s : State) (f : Frame) :
    (s.handleProbe f).lnk = s.lnk := by
  unfold State.handleProbe
  (repeat' split) <;> simp

@[simp] theorem handleProbe_imn (s : State) (f : Frame) :
    (s.handleProbe f).imn = s.imn := by
  unfold State.handleProbe
  (repeat' split) <;> simp

@[simp] theorem handleProbe_cin (s : State) (f : Frame) :
    (s.handleProbe f).cin = s.cin := by
  unfold State.handleProbe
  (repeat' split) <;> simp

@[simp] theorem handleProbe_rpu (s : State) (f : Frame) :
    (s.handleProbe f).rpu = s.rpu := by
  unfold State.handleProbe
  (repeat' split) <;> simp

@[simp] theorem handleProbe_stc (s : State) (f : Frame) :
    (s.handleProbe f).stc = s.stc := by
  unfold State.handleProbe
  (repeat' split) <;> simp

@[simp] theorem handleProbe_tbu (s : State) (f : Frame) :
    (s.handleProbe f).tbu = s.tbu := by
  unfold State.handleProbe
  (repeat' split) <;> simp

@[simp] theorem handleProbe_sct (s : State) (f : Frame) :
    (s.handleProbe f).sct = s.sct := by
  unfold State.handleProbe
  (repeat' split) <;> simp

@[simp] theorem handleProbe_dpu (s : State) (f : Frame) :
    (s.handleProbe f).dpu = s.dpu := by
  unfold State.handleProbe
  (repeat' split) <;> simp

@[simp] theorem handleProbe_out (s : State) (f : Frame) :
    (s.handleProbe f).out = s.out := by
  unfold State.handleProbe
  (repeat' split) <;> simp

@[simp] theorem handleProbe_cap (s : State) (f : Frame) :
    (s.handleProbe f).cap = s.cap := by
  unfold State.handleProbe
  (repeat' split) <;> simp

@[simp] theorem handleProbe_evq (s : State) (f : Frame) :
    (s.handleProbe f).evq = s.evq := by
  unfold State.handleProbe
  (repeat' split) <;> simp

@[simp] theorem handleProbe_atn (s : State) (f : Frame) :
    (s.handleProbe f).atn = s.atn := by
  unfold State.handleProbe
  (repeat' split) <;> simp

@[simp] theorem handleProbe_pending (s : State) (f : Frame) :
    (s.handleProbe f).pending = s.pending := by
  unfold State.handleProbe
  (repeat' split) <;> simp

@[simp] theorem handleProbe_draws (s : State) (f : Frame) :
    (s.handleProbe f).draws = s.draws := by
  unfold State.handleProbe
  (repeat' split) <;> simp

@[simp] theorem handleWake_lnk (s : State) (f : Frame) :
    (s.handleWake f).lnk = s.lnk := by
  unfold State.handleWake
  (repeat' split) <;> simp

@[simp] theorem handleWake_imn (s : State) (f : Frame) :
    (s.handleWake f).imn = s.imn := by
  unfold State.handleWake
  (repeat' split) <;> simp

@[simp] theorem handleWake_cin (s : State) (f : Frame) :
    (s.handleWake f).cin = s.cin := by
  unfold State.handleWake
  (repeat' split) <;> simp

@[simp] theorem handleWake_rpu (s : State) (f : Frame) :
    (s.handleWake f).rpu = s.rpu := by
  unfold State.handleWake
  (repeat' split) <;> simp

@[simp] theorem handleWake_tbu (s : State) (f : Frame) :
    (s.handleWake f).tbu = s.tbu := by
  unfold State.handleWake
  (repeat' split) <;> simp

@[simp] theorem handleWake_sct (s : State) (f : Frame) :
    (s.handleWake f).sct = s.sct := by
  unfold State.handleWake
  (repeat' split) <;> simp

@[simp] theorem handleWake_dpu (s : State) (f : Frame) :
    (s.handleWake f).dpu = s.dpu := by
  unfold State.handleWake
  (repeat' split) <;> simp

@[simp] theorem handleWake_out (s : State) (f : Frame) :
    (s.handleWake f).out = s.out := by
  unfold State.handleWake
  (repeat' split) <;> simp

@[simp] theorem handleWake_cap (s : State) (f : Frame) :
    (s.handleWake f).cap = s.cap := by
  unfold State.handleWake
  (repeat' split) <;> simp

@[simp] theorem handleWake_evq (s : State) (f : Frame) :
    (s.handleWake f).evq = s.evq := by
  unfold State.handleWake
  (repeat' split) <;> simp

@[simp] theorem handleWake_atn (s : State) (f : Frame) :
    (s.handleWake f).atn = s.atn := by
  unfold State.handleWake
  (repeat' split) <;> simp

@[simp] theorem handleWake_aln (s : State) (f : Frame) :
    (s.handleWake f).aln = s.aln := by
  unfold State.handleWake
  (repeat' split) <;> simp

@[simp] theorem handleWake_pending (s : State) (f : Frame) :
    (s.handleWake f).pending = s.pending := by
  unfold State.handleWake
  (repeat' split) <;> simp

@[simp] theorem handleWake_draws (s : State) (f : Frame) :
    (s.handleWake f).draws = s.draws := by
  unfold State.handleWake
  (repeat' split) <;> simp

end Sys2Proof.Machine
end

