-- ==== Sys2Proof/Laws/Pins.lean ====
section
/-! SUPPORT. What the operations over the sixteen channels and the four inputs do to each of them. -/

namespace Sys2Proof.Machine

theorem Out.update_get (x : Out) (n : Fin 16) (f : Channel → Channel) (m : Fin 16) :
    (x.update n f).channels[m] = if n = m then f x.channels[n] else x.channels[m] := by
  unfold Out.update
  simp [Vector.getElem_set, Fin.ext_iff]

theorem Cap.update_get (x : Cap) (n : Fin 4) (f : Input → Input) (m : Fin 4) :
    (x.update n f).inputs[m] = if n = m then f x.inputs[n] else x.inputs[m] := by
  unfold Cap.update
  simp [Vector.getElem_set, Fin.ext_iff]

theorem Out.onMask_get (x : Out) (mask : BitVec 16) (f : Channel → Channel) (m : Fin 16) :
    (x.onMask mask f).channels[m] =
      if mask.getLsbD m.val && x.channels[m].enable then f x.channels[m] else x.channels[m] := by
  simp [Out.onMask]

theorem Cap.onMask_get (x : Cap) (mask : BitVec 4) (length : Nat) (m : Fin 4) :
    (x.onMask mask length).inputs[m] =
      if mask.getLsbD m.val then x.inputs[m].arm length else x.inputs[m] := by
  simp [Cap.onMask]

theorem channels_map_get (v : Vector Channel 16) (f : Channel → Channel) (m : Fin 16) :
    (v.map f)[m] = f v[m] := by
  simp

theorem inputs_map_get (v : Vector Input 4) (f : Input → Input) (m : Fin 4) : (v.map f)[m] = f v[m] := by
  simp

theorem Out.cutPulses_get (x : Out) (m : Fin 16) :
    x.cutPulses.channels[m] = { x.channels[m] with pulse := none } := by
  simp [Out.cutPulses]

theorem Cap.closeWindows_get (x : Cap) (m : Fin 4) :
    x.closeWindows.inputs[m] = { x.inputs[m] with window := none } := by
  simp [Cap.closeWindows]

/-- No action changes whether a channel is enabled. -/
theorem applyAction_enable (s : State) (a : Action) (m : Fin 16) :
    (s.applyAction a).out.channels[m].enable = s.out.channels[m].enable := by
  cases a
  case pulse width mask =>
    simp only [State.applyAction, State.setOut, Out.onMask_get]
    split
    · unfold Channel.firePulse
      split <;> rfl
    · rfl
  all_goals
    simp only [State.applyAction, State.setOut, State.setCap, Out.onMask_get]
    try (split <;> rfl)

/-- No action changes the mode of an input. -/
theorem applyAction_mode (s : State) (a : Action) (m : Fin 4) :
    (s.applyAction a).cap.inputs[m].mode = s.cap.inputs[m].mode := by
  cases a
  case armCapture length mask =>
    simp only [State.applyAction, State.setCap, Cap.onMask_get]
    split
    · unfold Input.arm
      split <;> rfl
    · rfl
  all_goals rfl

/-- A disabled channel takes no action (R28, R67). -/
theorem applyAction_disabled (s : State) (a : Action) (m : Fin 16)
    (h : s.out.channels[m].enable = false) :
    (s.applyAction a).out.channels[m] = s.out.channels[m] := by
  have h' : s.out.channels[m.val].enable = false := h
  cases a
  all_goals
    simp only [State.applyAction, State.setOut, State.setCap, Out.onMask_get]
    try simp [h']

/-- An input that is not WINDOWED takes no ARM_CAPTURE (R91). -/
theorem applyAction_unwindowed (s : State) (a : Action) (m : Fin 4)
    (h : s.cap.inputs[m].mode ≠ .windowed) :
    (s.applyAction a).cap.inputs[m] = s.cap.inputs[m] := by
  cases a
  case armCapture length mask =>
    simp only [State.applyAction, State.setCap, Cap.onMask_get]
    split
    · unfold Input.arm
      split
      · contradiction
      · rfl
      · rfl
    · rfl
  all_goals rfl

end Sys2Proof.Machine
end

