-- ==== Sys2Proof/Laws/Acts.lean ====
section
/-! SUPPORT. Everything a row can do to the part, said once: `Own` lists the changes that blocks make to
their own state, each with what is known when it is made, and `Owns` is any number of them. What holds of
every change holds of every row that is made of them. -/

namespace Sys2Proof.Machine

/-- One change of the part that neither stages a command nor answers one, except where it empties both
queues (SOFT_RESET, ENTER_DORMANT). -/
inductive Own : State → State → Prop
  | lnk (s : State) (x : Lnk) (idle : s.lnk.transmitter = .idle → x.transmitter = .idle)
      (on : x.receiver = .off → s.lnk.receiver = .off)
      (address : x.unitAddress = s.lnk.unitAddress) : Own s (s.setLnk x)
  | hand (s : State) (b : EventBody) : Own s (s.handEvent b)
  | raised (s : State) (c : Condition) (h : c ≠ .fault) : Own s (s.raiseCondition c)
  | applied (s : State) (a : Action) (h : s.stc.op = .run) : Own s (s.applyAction a)
  | consumed (s : State) (e : Entry) (k : Nat) (fired : Bool) (h : e ∈ s.sct.entries) :
      Own s (s.consume e k fired)
  | placed (s : State) (e : Entry) (room : s.sct.entries.length < Config.tableCapacity)
      (free : s.sct.find e.handle = none) (range : e.inRange) (set : s.tbu.state ≠ .unset)
      (lock : e.requireLock = true → s.tbu.mode ≠ .selfTimed) : Own s (s.setSct (s.sct.place e))
  | filtered (s : State) (p : Entry → Bool) :
      Own s (s.setSct { s.sct with entries := s.sct.entries.filter p })
  | flushed (s : State) : Own s (s.setSct Sct.reset)
  | tbu (s : State) (x : Tbu) (sound : s.tbu.Sound → x.Sound)
      (unset : x.state = .unset → s.tbu.state = .unset)
      (mode : x.mode = .selfTimed → s.tbu.mode = .selfTimed ∨ s.sct.requiresLock = false) :
      Own s (s.setTbu x)
  | dpu (s : State) (x : Dpu) : Own s (s.setDpu x)
  | out (s : State) (x : Out)
      (pulses : ∀ n : Fin 16,
        x.channels[n].pulse = none ∨ x.channels[n].pulse = s.out.channels[n].pulse)
      (enables : s.stc.op = .run → ∀ n : Fin 16, x.channels[n].enable = s.out.channels[n].enable) :
      Own s (s.setOut x)
  | cap (s : State) (x : Cap)
      (windows : ∀ n : Fin 4,
        x.inputs[n].window = none ∨
          (x.inputs[n].window = s.cap.inputs[n].window ∧ x.inputs[n].mode = s.cap.inputs[n].mode)) :
      Own s (s.setCap x)
  | read (s : State) (n : Nat) :
      Own s (s.setEvq { s.evq with records := s.evq.records.drop n, lost := 0 })
  | mask (s : State) (m : Conditions) : Own s (s.setAtn { s.atn with mask := m })
  | acknowledged (s : State) (named : Conditions) :
      Own s (s.setAtn { s.atn with flags := s.atn.flags.acknowledge named })
  | aln (s : State) (x : Aln)
      (log : s.aln.log.length ≤ Config.logCapacity → s.aln.log.length ≤ s.aln.total →
        s.aln.total ≤ 255 →
        x.log.length ≤ Config.logCapacity ∧ x.log.length ≤ x.total ∧ x.total ≤ 255)
      (pending : x.pending.isSome → s.stc.op = .align) : Own s (s.setAln x)
  | cleared (s : State) (x : Stc) (nested : s.stc.Nested → x.Nested)
      (out : s.stc.Nested → x.op ≠ .faultHold) (run : x.op ≠ .run → s.stc.op ≠ .run)
      (align : s.stc.op = .align → x.op = .align)
      (accepts : s.stc.op.accepting = true → x.op.accepting = true) :
      Own s (s.clearFaultState.setStc x)
  | stc (s : State) (x : Stc) (nested : s.stc.Nested → x.Nested) (free : x.op ≠ .faultHold)
      (run : x.op ≠ .run → s.stc.op ≠ .run)
      (align : s.aln.pending.isSome → s.stc.op = .align → x.op = .align)
      (accepts : s.stc.op.accepting = true → x.op.accepting = true) : Own s (s.setStc x)
  | parked (s : State) (h : s.stc.op = .run) : Own s (s.goTo .parked)
  | softReset (s : State) (records : List ReplyRecord)
      (h : records = [] ∨ ∃ seq r, records = [{ seq := seq, result := some r }]) :
      Own s ((s.discardContents .config).setRpu { outbox := records })
  | dormant (s : State) : Own s ((s.discardContents .dormant).setTbu s.tbu.lose)
  | lag (s : State) (n : Nat) (h : n ≤ 7) : Own s (s.setCin { s.cin with lag := n })
  | faultMode (s : State) (m : FaultMode) (h : s.stc.op ≠ .faultHold) :
      Own s (s.setImn { s.imn with mode := m })
  | quiesce (s : State) (q : Option Nat) : Own s (s.setImn { s.imn with quiesce := q })
  | fault (s : State) (r : FaultRecord) (h : s.imn.flag = false → s.stc.op ≠ .faultHold → r.op.held.isSome) :
      Own s ((s.setImn (s.imn.report r)).raiseCondition .fault)
  | held (s : State) (flag : s.imn.flag = true) (mode : s.imn.mode = .latched) : Own s s.hold

/-- Any number of changes, one after another. -/
def Owns : State → State → Prop := Relation.ReflTransGen Own

theorem Owns.refl (s : State) : Owns s s := Relation.ReflTransGen.refl

theorem Own.owns {s t : State} (h : Own s t) : Owns s t := Relation.ReflTransGen.single h

theorem Owns.trans {s t u : State} (h : Owns s t) (k : Owns t u) : Owns s u :=
  Relation.ReflTransGen.trans h k

theorem Owns.then {s t u : State} (h : Owns s t) (k : Own t u) : Owns s u :=
  Relation.ReflTransGen.tail h k

/-- A property that every change keeps is kept by any number of them. -/
theorem Owns.keeps {P : State → Prop} (hP : ∀ {s t}, Own s t → P s → P t) {s t : State}
    (h : Owns s t) (hs : P s) : P t := by
  induction h with
  | refl => exact hs
  | tail _ k ih => exact hP k ih

/-- Only a hard reset reads the straps (R148). -/
theorem Own.keeps_address {s t : State} (h : Own s t) :
    t.lnk.unitAddress = s.lnk.unitAddress := by
  cases h with
  | lnk x idle on address => exact address
  | _ => simp

theorem Owns.keeps_address {s t : State} (h : Owns s t) :
    t.lnk.unitAddress = s.lnk.unitAddress :=
  h.keeps (P := fun u => u.lnk.unitAddress = s.lnk.unitAddress)
    (fun k e => k.keeps_address.trans e) rfl

/-! ### Edges -/

/-- Changing one input without touching window and mode. -/
theorem capUpdate_own (s : State) (n : Fin 4) (f : Input → Input)
    (hf : ∀ i, (f i).window = i.window ∧ (f i).mode = i.mode) :
    Own s (s.setCap (s.cap.update n f)) := by
  refine Own.cap s _ ?_
  intro m
  right
  rw [Cap.update_get]
  split
  · rename_i h
    subst h
    exact hf _
  · exact ⟨rfl, rfl⟩

/-- Changing the list of the edges that wait. -/
theorem capWaiting_own (s : State) (l : List WaitingEdge) :
    Own s (s.setCap { s.cap with waiting := l }) :=
  Own.cap s _ fun _ => Or.inr ⟨rfl, rfl⟩

theorem takeEdge_owns (s : State) (n : Fin 4) (edge : EdgeKind) : Owns s (s.takeEdge n edge) := by
  unfold State.takeEdge State.recordEdge
  split
  · split
    · exact Owns.refl s
    · rename_i t _
      refine (Own.hand s (.edge n edge t s.tbu.state)).owns.then ?_
      have h := capUpdate_own (s.handEvent (.edge n edge t s.tbu.state)) n Input.startDead
        (fun _ => ⟨rfl, rfl⟩)
      simpa only [handEvent_cap] using h
  · exact Owns.refl s

theorem takeEdges_owns (l : List WaitingEdge) (s : State) : Owns s (takeEdges l s) := by
  induction l generalizing s with
  | nil => exact Owns.refl s
  | cons w l ih => exact (takeEdge_owns s _ _).trans (ih _)

/-- The edges that are taken at a moment of dispatch. -/
theorem passEdges_owns (s : State) : Owns s s.passEdges :=
  (capWaiting_own _ _).owns.trans (takeEdges_owns _ _)

/-- A record of dispatch and the edges behind it. -/
theorem handRecord_owns (s : State) (b : EventBody) : Owns s (s.handRecord b) :=
  (Own.hand s b).owns.trans (passEdges_owns _)

/-- An action of dispatch and the edges behind it. -/
theorem handAction_owns (s : State) (a : Action) (hrun : s.stc.op = .run) : Owns s (s.handAction a) :=
  (Own.applied s a hrun).owns.trans (passEdges_owns _)

/-! ### Dispatch -/

theorem reportFired_owns (s : State) (e : Entry) (time : Nat) (late : Bool) :
    Owns s (s.reportFired e time late) := by
  unfold State.reportFired
  split
  · exact handRecord_owns s _
  · exact Owns.refl s

theorem reportMissed_owns (s : State) (e : Entry) (time count : Nat) :
    Owns s (s.reportMissed e time count) :=
  (handRecord_owns s _).then (Own.raised _ _ (by decide))

theorem fireOnTime_owns (s : State) (e : Entry) (hrun : s.stc.op = .run) (he : e ∈ s.sct.entries) :
    Owns s (s.fireOnTime e) := by
  unfold State.fireOnTime
  split
  · exact ((handAction_owns s e.action hrun).trans (reportFired_owns _ _ _ _)).then
      (Own.consumed _ _ _ _ (by simpa using he))
  · exact (reportMissed_owns _ _ _ _).then (Own.consumed _ _ _ _ (by simpa using he))

theorem fireBatch_owns (due fuel : Nat) (s : State) (hrun : s.stc.op = .run) :
    Owns s (fireBatch due fuel s) := by
  induction fuel generalizing s with
  | zero => exact Owns.refl s
  | succ fuel ih =>
    unfold fireBatch
    split
    · exact Owns.refl s
    · rename_i e rest heq
      split
      · exact (fireOnTime_owns s e hrun (by simp [heq])).trans (ih _ (by simpa using hrun))
      · exact Owns.refl s

theorem settleLate_owns (s : State) (e : Entry) (t : Nat) (hrun : s.stc.op = .run)
    (he : e ∈ s.sct.entries) : Owns s (s.settleLate e t) := by
  unfold State.settleLate
  dsimp only
  split
  · split
    · exact ((handAction_owns s e.action hrun).trans (reportFired_owns _ _ _ _)).then
        (Own.consumed _ _ _ _ (by simpa using he))
    · exact (((reportMissed_owns _ _ _ _).trans (handAction_owns _ e.action (by simpa using hrun))).trans
        (reportFired_owns _ _ _ _)).then (Own.consumed _ _ _ _ (by simpa using he))
  · exact (reportMissed_owns _ _ _ _).then (Own.consumed _ _ _ _ (by simpa using he))

theorem latePass_owns (t fuel : Nat) (s : State) (hrun : s.stc.op = .run) :
    Owns s (latePass t fuel s) := by
  induction fuel generalizing s with
  | zero => exact Owns.refl s
  | succ fuel ih =>
    unfold latePass
    split
    · exact Owns.refl s
    · rename_i e rest heq
      split
      · exact (settleLate_owns s e t hrun (by simp [heq])).trans (ih _ (by simpa using hrun))
      · exact Owns.refl s

theorem evaluate_owns (s : State) (hrun : s.stc.op = .run) : Owns s s.evaluate := by
  unfold State.evaluate
  split
  · exact Owns.refl s
  · exact ((passEdges_owns s).trans (latePass_owns _ _ _ (by simpa using hrun))).trans
      (fireBatch_owns _ _ _ (by simpa using hrun))

theorem evaluateAdded_owns (s : State) (handle : Nat) (hrun : s.stc.op = .run) :
    Owns s (s.evaluateAdded handle) := by
  unfold State.evaluateAdded
  split
  · rename_i t e _ hfind
    have he : e ∈ s.sct.entries := List.mem_of_find?_eq_some hfind
    split
    · exact ((passEdges_owns s).trans (settleLate_owns _ e t (by simpa using hrun) (by simpa using he))).trans
        (fireBatch_owns _ _ _ (by simpa using hrun))
    · split
      · exact (passEdges_owns s).trans (fireBatch_owns _ _ _ (by simpa using hrun))
      · exact Owns.refl s
  · exact Owns.refl s

theorem enterRun_owns (s : State) (hn : s.stc.Nested → ({ s.stc with op := .run } : Stc).Nested)
    (ha : s.stc.op ≠ .align) : Owns s s.enterRun := by
  refine (Own.stc s { s.stc with op := .run } hn (by simp) (by simp) ?_
    (fun _ => rfl)).owns.trans (evaluate_owns _ rfl)
  intro _ h
  exact absurd h ha

/-! ### Alignment -/

theorem Aln.logOutcome_bounds (a : Aln) (seq : Byte) (o : SampleOutcome)
    (hl : a.log.length ≤ Config.logCapacity) (ht : a.log.length ≤ a.total) (hb : a.total ≤ 255) :
    (a.logOutcome seq o).log.length ≤ Config.logCapacity ∧
      (a.logOutcome seq o).log.length ≤ (a.logOutcome seq o).total ∧
      (a.logOutcome seq o).total ≤ 255 := by
  unfold Aln.logOutcome Config.logCapacity at *
  dsimp only
  split <;> simp <;> omega

theorem takeSample_owns (s : State) (p : Sample) : Owns s (s.takeSample p) := by
  refine (Own.aln s { s.aln.logOutcome p.seq (outcomeOf s.cap.inputs[0].level) with pending := none }
    ?_ (by simp)).owns.then (Own.cap _ _ ?_)
  · intro h1 h2 h3
    exact Aln.logOutcome_bounds s.aln _ _ h1 h2 h3
  · intro n
    right
    simp only [Cap.update_get, State.setAln_cap]
    split
    · rename_i h
      subst h
      exact ⟨rfl, rfl⟩
    · exact ⟨rfl, rfl⟩

theorem jumpSample_owns (s : State) (t : Nat) : Owns s (s.jumpSample t) := by
  unfold State.jumpSample
  split
  · exact Owns.refl s
  · split
    · split
      · exact takeSample_owns s _
      · split
        · refine (Own.aln s _ ?_ (by simp)).owns
          intro h1 h2 h3
          exact Aln.logOutcome_bounds s.aln _ _ h1 h2 h3
        · exact Owns.refl s
    · exact Owns.refl s

end Sys2Proof.Machine
end

