-- ==== Sys2Proof/Laws/Bytes.lean ====
section
/-! SUPPORT. Multi-byte fields: what bytes read most significant first are worth. -/

namespace Sys2Proof

theorem beNat_foldl (l : List Byte) (acc : Nat) :
    l.foldl (fun acc b => acc * 256 + b.toNat) acc = acc * 256 ^ l.length + beNat l := by
  induction l generalizing acc with
  | nil => simp [beNat]
  | cons b l ih =>
    simp only [List.foldl_cons, List.length_cons, beNat]
    rw [ih, ih (0 * 256 + b.toNat)]
    ring

theorem beNat_nil : beNat [] = 0 := rfl

/-- The first byte weighs most. -/
theorem beNat_cons (b : Byte) (l : List Byte) :
    beNat (b :: l) = b.toNat * 256 ^ l.length + beNat l := by
  have h := beNat_foldl l (0 * 256 + b.toNat)
  simpa [beNat] using h

/-- `n` bytes are worth less than 256 ^ n. -/
theorem beNat_lt (l : List Byte) : beNat l < 256 ^ l.length := by
  induction l with
  | nil => simp [beNat]
  | cons b l ih =>
    rw [beNat_cons, List.length_cons, pow_succ]
    have hb : b.toNat < 256 := b.isLt
    nlinarith [Nat.pos_of_ne_zero (pow_ne_zero l.length (by norm_num : (256 : Nat) ≠ 0))]

theorem beBytes_length (n v : Nat) : (beBytes n v).length = n := by
  induction n with
  | zero => rfl
  | succ n ih => simp [beBytes, ih]

/-- Reading back what was written: the value modulo what `n` bytes hold. -/
theorem beNat_beBytes (n v : Nat) : beNat (beBytes n v) = v % 256 ^ n := by
  induction n with
  | zero => simp [beBytes, beNat, Nat.mod_one]
  | succ n ih =>
    rw [beBytes, beNat_cons, ih, beBytes_length]
    simp only [BitVec.toNat_ofNat]
    have h8 : (2 : Nat) ^ 8 = 256 := by norm_num
    rw [h8, pow_succ, @Nat.mod_mul (256 ^ n) 256 v, Nat.mul_comm (256 ^ n), Nat.add_comm]

end Sys2Proof

namespace Sys2Proof.Machine

/-- An `n`-byte argument is worth less than 256 ^ n. -/
theorem argNat_lt (args : List Byte) (i n : Nat) : argNat args i n < 256 ^ n := by
  unfold argNat
  refine lt_of_lt_of_le (beNat_lt _) ?_
  exact Nat.pow_le_pow_right (by norm_num) (by simp)

/-- A time field with its top bit clear is a valid time (R198). -/
theorem argNat_time (args : List Byte) (i : Nat) (h : timeOk args i = true) :
    argNat args i 8 < Config.timeEnd := by
  unfold argNat timeOk argByte at *
  rcases hd : args.drop i with _ | ⟨b, rest⟩
  · simp [beNat, Config.timeEnd]
  · have hb : args.getD i 0 = b := by
      have : (args.drop i)[0]? = some b := by rw [hd]; rfl
      rw [List.getElem?_drop] at this
      simp only [Nat.add_zero] at this
      simp [List.getD, this]
    rw [hb] at h
    have hlt : b.toNat < 128 := by
      have hm : b.msb = false := by simpa using h
      have := BitVec.msb_eq_false_iff_two_mul_lt.mp hm
      omega
    simp only [List.take_succ_cons]
    rw [beNat_cons]
    have hr : beNat (rest.take 7) < 256 ^ (rest.take 7).length := beNat_lt _
    have hle : (rest.take 7).length ≤ 7 := by simp
    have hp : 256 ^ (rest.take 7).length ≤ 256 ^ 7 := Nat.pow_le_pow_right (by norm_num) hle
    have h1 : b.toNat * 256 ^ (rest.take 7).length ≤ 127 * 256 ^ 7 :=
      Nat.mul_le_mul (by omega) hp
    have h2 : (127 : Nat) * 256 ^ 7 + 256 ^ 7 = 2 ^ 63 := by norm_num
    unfold Config.timeEnd
    omega

end Sys2Proof.Machine
end

