-- ==== Sys2Proof/Laws/Timebase.lean ====
section
/-! SUPPORT. What each change of the timebase keeps: `Tbu.Sound`, the values of R46. -/

namespace Sys2Proof.Machine

theorem landTime_lt (t : Nat) : landTime t < Config.timeEnd := by
  unfold landTime
  split
  · assumption
  · exact Nat.mod_lt _ (by decide)

theorem landTime_of_lt {t : Nat} (h : t < Config.timeEnd) : landTime t = t := by
  simp [landTime, h]

theorem heldWithin_bounds (b v : Int) (hb : 0 ≤ b) : -b ≤ heldWithin b v ∧ heldWithin b v ≤ b := by
  unfold heldWithin
  omega

theorem countDown_isSome (w : Option Nat) : (countDown w).isSome = w.isSome := by
  cases w <;> rfl

/-- One oscillator tick keeps the timebase within R46. -/
theorem Tbu.tick_sound (x : Tbu) (h : x.Sound) : x.tick.Sound := by
  unfold Tbu.tick
  split
  · exact { h with watch := by rw [← h.watch, Option.isSome_map] }
  · rename_i t ht
    refine
      { unset := ?_, valid := ?_, modes := h.modes, watch := ?_, fraction := ?_, rate := h.rate,
        offset := h.offset, interval := h.interval, limit := h.limit,
        acquisition := h.acquisition, holdover := h.holdover }
    · have := h.unset
      simp only [ht] at this
      simpa using this
    · intro u hu
      simp only [Option.some.injEq] at hu
      exact hu ▸ landTime_lt _
    · simpa [countDown_isSome] using h.watch
    · constructor
      · exact sub_nonneg.mpr (Int.floor_le (x.fraction + x.increment))
      · exact Int.fract_lt_one (x.fraction + x.increment)

/-- The settings of SET_TIMEBASE, checked as R60 says, are within R46. -/
theorem Tbu.settings_sound (x : Tbu) (h : x.Sound) (interval limit : Nat)
    (hi : 1 ≤ interval ∧ interval ≤ 1000) (hl : 1 ≤ limit ∧ limit ≤ 255) :
    ({ x with syncInterval := interval, holdoverLimit := limit } : Tbu).Sound :=
  { h with interval := hi, limit := hl }

/-- A change of mode keeps the timebase within R46 (R61, R62). -/
theorem Tbu.inMode_sound (x : Tbu) (mode : TbMode) (h : x.Sound) : (x.inMode mode).Sound := by
  refine
    { unset := ?_, valid := h.valid, modes := ?_, watch := ?_, fraction := h.fraction, rate := h.rate,
      offset := h.offset, interval := h.interval, limit := h.limit,
      acquisition := Nat.zero_le _, holdover := h.holdover }
  · show x.localTime = none ↔ (if x.state = .unset then TbState.unset
        else match mode with
          | .selfTimed => TbState.free
          | .disciplined => TbState.unlocked) = .unset
    rw [h.unset]
    split
    · simp [*]
    · cases mode <;> simp [*]
  · show (if x.state = .unset then TbState.unset
        else match mode with
          | .selfTimed => TbState.free
          | .disciplined => TbState.unlocked) = .unset ∨ (mode = .selfTimed ↔
      (if x.state = .unset then TbState.unset
        else match mode with
          | .selfTimed => TbState.free
          | .disciplined => TbState.unlocked) = .free)
    split
    · exact Or.inl rfl
    · right
      cases mode <;> simp
  · show false = (if x.state = .unset then TbState.unset
        else match mode with
          | .selfTimed => TbState.free
          | .disciplined => TbState.unlocked).watched
    split
    · rfl
    · cases mode <;> rfl

/-- Local time set or stepped by a SYNC, in DISCIPLINED mode (R49, R54). -/
theorem Tbu.acquire_sound (x : Tbu) (h : x.Sound) (hm : x.mode = .disciplined) (seq : Byte)
    (since now : Nat) (hn : now < Config.timeEnd) :
    (({ x.noteSync seq since with localTime := some now }).acquire 1).Sound := by
  refine
    { unset := ?_, valid := ?_, modes := ?_, watch := rfl, fraction := h.fraction, rate := h.rate,
      offset := h.offset, interval := h.interval, limit := h.limit, acquisition := ?_,
      holdover := h.holdover }
  · simp [Tbu.acquire, Tbu.restartWatch]
  · intro u hu
    simp only [Tbu.acquire, Tbu.restartWatch, Option.some.injEq] at hu
    exact hu ▸ hn
  · simp [Tbu.acquire, Tbu.restartWatch, Tbu.noteSync, hm]
  · show 1 ≤ 4
    omega

theorem Tbu.learnedRate_bounds (x : Tbu) (e : Int) (since : Nat)
    (h : -Config.rateLimit ≤ x.rate ∧ x.rate ≤ Config.rateLimit) :
    -Config.rateLimit ≤ x.learnedRate e since ∧ x.learnedRate e since ≤ Config.rateLimit := by
  unfold Tbu.learnedRate
  split
  · exact h
  · exact heldWithin_bounds _ _ (by decide)

/-- A slew begun by a SYNC, in a state that is supervised from then on (R50 to R53). -/
theorem Tbu.slew_sound (x : Tbu) (h : x.Sound) (hm : x.mode = .disciplined) (hu : x.state ≠ .unset)
    (e : Int) (seq : Byte) (since count : Nat) (state : TbState)
    (hs : state = .acquiring ∨ state = .locked) (hc : count ≤ Config.lockCount) :
    ({ x.slewBy e since with
        lastSequence := some seq, sinceArrival := some since, state := state,
        acquisitionCount := count } : Tbu).restartWatch.Sound := by
  refine
    { unset := ?_, valid := h.valid, modes := ?_, watch := ?_, fraction := h.fraction,
      rate := Tbu.learnedRate_bounds x e since h.rate, offset := h.offset, interval := h.interval,
      limit := h.limit, acquisition := hc, holdover := h.holdover }
  · show x.localTime = none ↔ state = .unset
    rw [h.unset]
    rcases hs with rfl | rfl <;> simp [hu]
  · show state = .unset ∨ (x.mode = .selfTimed ↔ state = .free)
    rcases hs with rfl | rfl <;> simp [hm]
  · show true = state.watched
    rcases hs with rfl | rfl <;> rfl

/-- The count and the state that a slew leaves (R50 to R52). -/
theorem Tbu.judge_slew (x : Tbu) (size count : Nat) (state : TbState) (h : x.Sound)
    (hj : x.judge size = .slewTo state count) :
    x.state ≠ .unset ∧ (state = .acquiring ∨ state = .locked) ∧ count ≤ Config.lockCount := by
  have hc := h.acquisition
  revert hj
  unfold Tbu.judge Config.lockCount at *
  cases hx : x.state <;> simp only [reduceCtorEq, ne_eq, not_false_eq_true, not_true_eq_false,
    true_and, false_and, imp_false] <;> (repeat' split) <;>
    simp only [SyncOutcome.slewTo.injEq, reduceCtorEq, false_implies] <;>
    (try (rintro ⟨rfl, rfl⟩; simp)) <;> omega

end Sys2Proof.Machine
end

