-- ==== Sys2Proof/Laws/Owners.lean ====
section
/-! SUPPORT. What the owner of each command does to the part, as changes of the blocks: one lemma per
command, and what a commit is made of. -/

namespace Sys2Proof.Machine

/-! ### Commands that report -/

theorem ownGetStatus_owns (args : List Byte) (s : State) : Owns s (ownGetStatus args s).1 := by
  refine (Own.out s _ ?_ ?_).owns
  · intro n
    right
    simp
  · intro _ n
    simp

theorem ownReadConfig_owns (args : List Byte) (s : State) : Owns s (ownReadConfig args s).1 := by
  unfold ownReadConfig
  split <;> exact Owns.refl s

/-! ### Settings -/

theorem ownAckAttention_owns (args : List Byte) (s : State) : Owns s (ownAckAttention args s).1 := by
  unfold ownAckAttention
  dsimp only
  split
  · exact (Own.acknowledged s _).owns
  · exact Owns.refl s

theorem ownSetAttentionMask_owns (args : List Byte) (s : State) :
    Owns s (ownSetAttentionMask args s).1 := by
  unfold ownSetAttentionMask
  dsimp only
  split
  · exact (Own.mask s _).owns
  · exact Owns.refl s

theorem ownSetCommitLag_owns (args : List Byte) (s : State) : Owns s (ownSetCommitLag args s).1 := by
  unfold ownSetCommitLag
  dsimp only
  split
  · exact Owns.refl s
  · rename_i h
    exact (Own.lag s _ (by omega)).owns

theorem ownSetFaultMode_owns (args : List Byte) (s : State)
    (ha : Cmd.admitted .setFaultMode s.stc.op = true) : Owns s (ownSetFaultMode args s).1 := by
  unfold ownSetFaultMode
  split
  · refine (Own.faultMode s _ ?_).owns
    intro h
    rw [h] at ha
    revert ha
    decide
  · exact Owns.refl s

theorem ownSetGroups_owns (args : List Byte) (s : State) : Owns s (ownSetGroups args s).1 :=
  (Own.lnk s { s.lnk with groups := BitVec.ofNat 16 (argNat args 0 2) } (fun h => h)
    (fun h => h) rfl).owns

theorem ownSetLateTolerance_owns (args : List Byte) (s : State) :
    Owns s (ownSetLateTolerance args s).1 :=
  (Own.dpu s _).owns

theorem ownConfigureChannel_owns (args : List Byte) (s : State)
    (ha : Cmd.admitted .configureChannel s.stc.op = true) : Owns s (ownConfigureChannel args s).1 := by
  unfold ownConfigureChannel
  split
  · refine (Own.out s _ ?_ ?_).owns
    · intro n
      right
      rw [Out.update_get]
      split
      · rename_i h
        subst h
        rfl
      · rfl
    · intro h
      rw [h] at ha
      exact absurd ha (by decide)
  · exact Owns.refl s

theorem ownConfigureInput_owns (args : List Byte) (s : State) :
    Owns s (ownConfigureInput args s).1 := by
  unfold ownConfigureInput
  split
  · refine (Own.cap s _ ?_).owns
    intro n
    rw [Cap.update_get]
    split
    · exact Or.inl rfl
    · exact Or.inr ⟨rfl, rfl⟩
  · exact Owns.refl s

/-! ### Operating states -/

theorem ownStart_owns (args : List Byte) (s : State) (ha : Cmd.admitted .start s.stc.op = true) :
    Owns s (ownStart args s).1 := by
  have hop : s.stc.op = .config := by
    revert ha
    cases s.stc.op <;> decide
  refine enterRun_owns s ?_ (by rw [hop]; decide)
  intro hn
  simpa [Stc.Nested, hop] using hn

theorem ownResume_owns (args : List Byte) (s : State) (ha : Cmd.admitted .resume s.stc.op = true) :
    Owns s (ownResume args s).1 := by
  have hop : s.stc.op = .parked := by
    revert ha
    cases s.stc.op <;> decide
  refine enterRun_owns s ?_ (by rw [hop]; decide)
  intro hn
  simpa [Stc.Nested, hop] using hn

theorem ownPark_owns (args : List Byte) (s : State) (ha : Cmd.admitted .park s.stc.op = true) :
    Owns s (ownPark args s).1 := by
  have hop : s.stc.op = .run := by
    revert ha
    cases s.stc.op <;> decide
  exact (Own.parked s hop).owns

theorem ownClearFault_owns (args : List Byte) (s : State) : Owns s (ownClearFault args s).1 := by
  have hplain (h : s.stc.op ≠ .faultHold ∨ s.stc.beforeFault = none) :
      Own s s.clearFaultState := by
    refine Own.cleared s s.stc (fun h => h) ?_ (fun h => h) (fun h => h) (fun h => h)
    intro hn
    rcases h with h | h
    · exact h
    · intro hop
      simp [Stc.Nested, hop, h] at hn
  unfold ownClearFault acting
  dsimp only
  split
  · rename_i h hop hb
    have hc : Own s (s.clearFaultState.setStc { s.stc with op := h.toOp, beforeFault := none }) := by
      refine Own.cleared s _ ?_ ?_ ?_ ?_ (fun _ => by cases h <;> rfl)
      · intro hn
        cases h <;> simp [Stc.Nested, hop, hb, HeldState.toOp] at hn ⊢ <;> simp [hn]
      · intro _
        cases h <;> simp [HeldState.toOp]
      · intro _
        rw [hop]
        decide
      · intro h'
        rw [hop] at h'
        exact absurd h' (by decide)
    split
    · rename_i hr
      subst hr
      refine hc.owns.trans (enterRun_owns _ (fun hn => hn) ?_)
      simp [HeldState.toOp]
    · exact hc.owns
  · rename_i hno
    refine (hplain ?_).owns
    by_cases hop : s.stc.op = .faultHold
    · right
      cases hb : s.stc.beforeFault with
      | none => rfl
      | some h => exact absurd hb (fun hb => hno h hop hb)
    · exact Or.inl hop

theorem ownSoftReset_owns (o : Origin) (args : List Byte) (s : State) :
    Owns s (ownSoftReset o args s).1 := by
  cases o with
  | unit seq => exact (Own.softReset s _ (Or.inr ⟨seq, okEmpty, rfl⟩)).owns
  | broadcast => exact (Own.softReset s [] (Or.inl rfl)).owns
  | group => exact (Own.softReset s [] (Or.inl rfl)).owns

theorem ownEnterDormant_owns (args : List Byte) (s : State) :
    Owns s (ownEnterDormant args s).1 := by
  refine (Own.dormant s).owns.then (Own.lnk _ _ ?_ (fun h => h) rfl)
  intro h
  have h' : s.lnk.transmitter = .idle := h
  simp [Transmitter.discardWaiting, h']

theorem ownEnterAlignment_owns (args : List Byte) (s : State)
    (ha : Cmd.admitted .enterAlignment s.stc.op = true) : Owns s (ownEnterAlignment args s).1 := by
  unfold ownEnterAlignment
  split
  · exact Owns.refl s
  · have hop : s.stc.op = .config ∨ s.stc.op = .parked := by
      revert ha
      cases s.stc.op <;> decide
    refine (Own.stc s _ ?_ (by simp) ?_ (fun _ _ => rfl) (fun _ => rfl)).owns.then (Own.aln _ _ ?_ (by simp [Aln.reset]))
    · intro hn
      rcases hop with h | h <;> simp [Stc.Nested, h] at hn ⊢ <;> simp [hn]
    · intro _
      rcases hop with h | h <;> simp [h]
    · intros
      exact ⟨by decide, by decide, by decide⟩

theorem ownExitAlignment_owns (args : List Byte) (s : State)
    (ha : Cmd.admitted .exitAlignment s.stc.op = true) : Owns s (ownExitAlignment args s).1 := by
  have hop : s.stc.op = .align := by
    revert ha
    cases s.stc.op <;> decide
  unfold ownExitAlignment acting
  dsimp only
  split
  · rename_i a hb
    have h1 : Own s (s.setAln { s.aln with pending := none }) :=
      Own.aln s _ (fun a b c => ⟨a, b, c⟩) (by simp)
    refine h1.owns.then (Own.stc (s.setAln { s.aln with pending := none }) _ ?_ ?_ ?_ ?_
      (fun _ => by cases a <;> rfl))
    · intro hn
      have hn' : s.stc.Nested := hn
      cases a <;> simp [Stc.Nested, hop, AlignedFrom.toOp] at hn' ⊢ <;> simp [hn']
    · cases a <;> simp [AlignedFrom.toOp]
    · intro _
      simp [hop]
    · intro h
      simp at h
  · exact Owns.refl s

/-! ### Timebase -/

theorem changeMode_owns (s : State) (mode : TbMode)
    (h : s.tbu.mode = .selfTimed ∨ mode = .disciplined ∨ s.sct.requiresLock = false) :
    Owns s (s.changeMode mode) := by
  have h1 : Own s (s.setTbu (s.tbu.inMode mode)) := by
    refine Own.tbu s _ (Tbu.inMode_sound _ _) ?_ ?_
    · intro hu
      by_contra hne
      revert hu
      cases mode <;> simp [Tbu.inMode, hne]
    · intro hm
      have hm' : mode = .selfTimed := hm
      subst hm'
      rcases h with h | h | h
      · exact Or.inl h
      · exact absurd h (by decide)
      · exact Or.inr h
  unfold State.changeMode
  dsimp only
  split
  · exact Owns.refl s
  · split
    · exact h1.owns.then (Own.raised _ _ (by decide))
    · exact h1.owns

theorem ownSetTimebase_owns (args : List Byte) (s : State) : Owns s (ownSetTimebase args s).1 := by
  unfold ownSetTimebase
  dsimp only
  split
  · exact Owns.refl s
  · rename_i mode _
    split
    · exact Owns.refl s
    · rename_i hr
      split
      · exact Owns.refl s
      · rename_i hl
        have hm : s.tbu.mode = .selfTimed ∨ mode = .disciplined ∨ s.sct.requiresLock = false := by
          cases h1 : s.tbu.mode <;> cases mode <;> simp_all
        refine (changeMode_owns s mode hm).then (Own.tbu _ _ ?_ (fun h => h) (fun h => Or.inl h))
        intro h
        exact Tbu.settings_sound _ h _ _ (by omega) (by omega)

theorem ownSetOffset_owns (args : List Byte) (s : State) : Owns s (ownSetOffset args s).1 := by
  have hoff : argNat args 0 2 ≤ 65535 := by
    have := argNat_lt args 0 2
    omega
  unfold ownSetOffset
  dsimp only
  split
  · exact (Own.tbu s { s.tbu with offset := argNat args 0 2 } (fun h => { h with offset := hoff })
      (fun h => h) (fun h => Or.inl h)).owns
  · rename_i t ht
    split
    · exact Owns.refl s
    · rename_i hr
      have h1 : Own s (s.setTbu
          { s.tbu with
            offset := argNat args 0 2
            localTime := some ((t : Int) + (argNat args 0 2 : Int) - (s.tbu.offset : Int)).toNat }) := by
        refine Own.tbu s _ (fun h => ?_) (fun h => h) (fun h => Or.inl h)
        refine { h with offset := hoff, unset := ?_, valid := ?_ }
        · have := h.unset
          simp only [ht] at this
          simpa using this
        · intro u hu
          simp only [Option.some.injEq] at hu
          omega
      unfold acting
      dsimp only
      split
      · exact h1.owns
      · exact h1.owns.trans (jumpSample_owns _ _)

theorem ownSetTime_owns (args : List Byte) (s : State) (hc : Cmd.commonOk .setTime args = true) :
    Owns s (ownSetTime args s).1 := by
  unfold ownSetTime
  split
  · exact Owns.refl s
  · rename_i hm
    refine (Own.tbu s _ (fun h => ?_) ?_ (fun _ => Or.inl hm)).owns
    · have hw := h.watch
      refine { h with unset := by simp, valid := ?_, modes := ?_, watch := ?_ }
      · intro u hu
        simp only [Option.some.injEq] at hu
        exact hu ▸ argNat_time args 0 hc
      · right
        simp [hm]
      · have hns : s.tbu.state = .unset ∨ s.tbu.state = .free := by
          rcases h.modes with h | h
          · exact Or.inl h
          · exact Or.inr (h.mp hm)
        show s.tbu.watch.isSome = false
        rcases hns with h' | h' <;> rw [hw, h'] <;> rfl
    · intro h
      cases h

/-! ### Schedule and events -/

theorem repeatOf_some (period count : Nat) (r : Option Repeat) (h : repeatOf period count = some r)
    (hp : period ≤ 4294967295) (hc : count ≤ 65535) :
    ∀ x, r = some x → 1000 ≤ x.period ∧ x.period ≤ 4294967295 ∧ x.count ≤ 65535 := by
  unfold repeatOf at h
  intro x hx
  subst hx
  split at h
  · split at h <;> simp at h
  · split at h
    · simp at h
    · simp only [Option.some.injEq] at h
      subst h
      exact ⟨by simp only; omega, hp, hc⟩

theorem actionOf_inRange (code : Byte) (argument mask : Nat) (a : Action)
    (h : actionOf code argument mask = some a) (ha : argument ≤ 4294967295) (hm : mask < 65536) :
    a.inRange := by
  have hmask : ∀ w, mask < 2 ^ w → mask ≠ 0 → BitVec.ofNat w mask ≠ 0 := by
    intro w hw hne hz
    apply hne
    have := congrArg BitVec.toNat hz
    simp only [BitVec.toNat_ofNat, Nat.mod_eq_of_lt hw] at this
    exact this
  unfold actionOf at h
  split at h <;> (try split at h) <;> simp only [Option.some.injEq, reduceCtorEq] at h <;>
    subst h <;> rename_i hc <;> unfold Action.inRange
  · trivial
  · exact ⟨hc.1, hc.2.1, hmask 16 (by omega) hc.2.2⟩
  · exact hmask 16 (by omega) hc.2
  · exact hmask 16 (by omega) hc.2
  · exact hmask 16 (by omega) hc.2
  · exact ⟨hc.1, ha, hmask 4 (by omega) hc.2.1⟩

/-- An entry read from the arguments of ADD_ENTRY is within R1 (R12, R14). -/
theorem entryOf_inRange (args : List Byte) (e : Entry) (h : entryOf args = some e)
    (ht : timeOk args 2 = true) : e.inRange := by
  unfold entryOf at h
  dsimp only at h
  split at h
  · rename_i action repeats hact hrep
    split at h
    · rename_i hb
      simp only [Option.some.injEq] at h
      subst h
      have hr := repeatOf_some _ _ _ hrep
        (by have := argNat_lt args 19 4; omega) (by have := argNat_lt args 23 2; omega)
      have ha := actionOf_inRange _ _ _ _ hact
        (by have := argNat_lt args 12 4; omega) (by have := argNat_lt args 16 2; omega)
      refine ⟨hb.1, hb.2.1, argNat_time args 2 ht, ha, hb.2.2.1, Nat.zero_le _, ?_⟩
      unfold Entry.remainingOk
      cases repeats with
      | none => rfl
      | some r =>
        obtain ⟨h1, h2, h3⟩ := hr r rfl
        refine ⟨h1, h2, h3, ?_⟩
        dsimp only
        split
        · assumption
        · exact ⟨by omega, le_refl _⟩
    · simp at h
  · simp at h

theorem ownAddEntry_owns (args : List Byte) (s : State) (hc : Cmd.commonOk .addEntry args = true) :
    Owns s (ownAddEntry args s).1 := by
  have ht : timeOk args 2 = true := by
    simp only [Cmd.commonOk, Bool.and_eq_true] at hc
    exact hc.1
  unfold ownAddEntry
  split
  · exact Owns.refl s
  · rename_i now _
    split
    · exact Owns.refl s
    · rename_i hset
      split
      · exact Owns.refl s
      · rename_i e he
        split
        · exact Owns.refl s
        · rename_i hlock
          split
          · exact Owns.refl s
          · rename_i hfree
            split
            · exact Owns.refl s
            · rename_i hroom
              split
              · exact Owns.refl s
              · have h1 : Own s (s.setSct (s.sct.place e)) := by
                  refine Own.placed s e (by omega) ?_ (entryOf_inRange _ _ he ht) hset ?_
                  · simpa using hfree
                  · intro hl hm
                    exact hlock ⟨hl, hm⟩
                unfold State.insertNew
                dsimp only
                split
                · rename_i hrun
                  exact h1.owns.trans (evaluateAdded_owns _ _ hrun.1)
                · exact h1.owns

theorem ownCancelEntry_owns (args : List Byte) (s : State) : Owns s (ownCancelEntry args s).1 := by
  unfold ownCancelEntry
  dsimp only
  split
  · exact Owns.refl s
  · split
    · exact Owns.refl s
    · exact (Own.filtered s _).owns

theorem ownCancelGroup_owns (args : List Byte) (s : State) : Owns s (ownCancelGroup args s).1 := by
  unfold ownCancelGroup
  dsimp only
  split
  · exact Owns.refl s
  · exact (Own.filtered s _).owns

theorem ownFlushSchedule_owns (args : List Byte) (s : State) :
    Owns s (ownFlushSchedule args s).1 :=
  (Own.flushed s).owns

theorem ownQueryEntry_owns (args : List Byte) (s : State) : Owns s (ownQueryEntry args s).1 := by
  unfold ownQueryEntry
  dsimp only
  (repeat' split) <;> exact Owns.refl s

theorem ownListSchedule_owns (args : List Byte) (s : State) :
    Owns s (ownListSchedule args s).1 := by
  unfold ownListSchedule
  dsimp only
  (repeat' split) <;> exact Owns.refl s

theorem ownReadEvents_owns (args : List Byte) (s : State) : Owns s (ownReadEvents args s).1 := by
  unfold ownReadEvents
  dsimp only
  split
  · exact Owns.refl s
  · exact (Own.read s _).owns

end Sys2Proof.Machine
end

