-- ==== Sys2Proof/Laws/Commits.lean ====
section
/-! SUPPORT. What a commit is made of: the command leaves the staging queue, its owner changes the part,
and the result goes to the reservation. -/

namespace Sys2Proof.Machine

/-- A commit where none commits does nothing, and else it is a leaving, the owner's changes, and a
delivery to the same origin (R130, R131). -/
def CommitShape (o : Origin) (s t : State) : Prop :=
  (s.commits = false ∧ t = s) ∨ ∃ u r, Owns (s.leaveQueue o) u ∧ t = u.deliver o r

theorem commitWith_shape (c : Cmd) (o : Origin) (args : List Byte) (owner : State → State × Result)
    (s : State)
    (h : ∀ u : State, Cmd.admitted c u.stc.op = true → Cmd.commonOk c args = true →
      Owns u (owner u).1) :
    CommitShape o s (commitWith c o args owner s) := by
  unfold commitWith
  dsimp only
  split
  · right
    split
    · exact ⟨_, _, Owns.refl _, rfl⟩
    · split
      · exact ⟨_, _, Owns.refl _, rfl⟩
      · rename_i ha
        split
        · exact ⟨_, _, Owns.refl _, rfl⟩
        · rename_i hc
          refine ⟨_, (owner (s.leaveQueue o)).2, h (s.leaveQueue o) ?_ ?_, rfl⟩
          · simpa using ha
          · simpa using hc
  · rename_i h
    exact Or.inl ⟨by simpa using h, rfl⟩

theorem commitUnknown_shape (o : Origin) (s : State) : CommitShape o s (commitUnknown o s) := by
  unfold commitUnknown
  split
  · exact Or.inr ⟨_, _, Owns.refl _, rfl⟩
  · rename_i h
    exact Or.inl ⟨by simpa using h, rfl⟩

/-- The commit of every row that commits a command. -/
theorem commitRow_shape (i : Instr) (o : Origin) (bytes : List Byte) (s : State)
    (h : i.staged = some (o, bytes)) : CommitShape o s (commitRow i s) := by
  cases i with
  | getStatus origin args =>
    simp only [Instr.staged, Option.some.injEq, Prod.mk.injEq] at h
    obtain ⟨rfl, _⟩ := h
    exact commitWith_shape _ _ args _ s (fun u _ _ => ownGetStatus_owns args u)
  | getFaultRecord origin args =>
    simp only [Instr.staged, Option.some.injEq, Prod.mk.injEq] at h
    obtain ⟨rfl, _⟩ := h
    exact commitWith_shape _ _ args (ownGetFaultRecord args) s (fun u _ _ => Owns.refl u)
  | clearFault origin args =>
    simp only [Instr.staged, Option.some.injEq, Prod.mk.injEq] at h
    obtain ⟨rfl, _⟩ := h
    exact commitWith_shape _ _ args _ s (fun u _ _ => ownClearFault_owns args u)
  | softReset origin args =>
    simp only [Instr.staged, Option.some.injEq, Prod.mk.injEq] at h
    obtain ⟨rfl, _⟩ := h
    exact commitWith_shape _ _ args _ s (fun u _ _ => ownSoftReset_owns _ args u)
  | echo origin args =>
    simp only [Instr.staged, Option.some.injEq, Prod.mk.injEq] at h
    obtain ⟨rfl, _⟩ := h
    exact commitWith_shape _ _ args (ownEcho args) s (fun u _ _ => Owns.refl u)
  | ackAttention origin args =>
    simp only [Instr.staged, Option.some.injEq, Prod.mk.injEq] at h
    obtain ⟨rfl, _⟩ := h
    exact commitWith_shape _ _ args _ s (fun u _ _ => ownAckAttention_owns args u)
  | setAttentionMask origin args =>
    simp only [Instr.staged, Option.some.injEq, Prod.mk.injEq] at h
    obtain ⟨rfl, _⟩ := h
    exact commitWith_shape _ _ args _ s (fun u _ _ => ownSetAttentionMask_owns args u)
  | start origin args =>
    simp only [Instr.staged, Option.some.injEq, Prod.mk.injEq] at h
    obtain ⟨rfl, _⟩ := h
    exact commitWith_shape _ _ args _ s (fun u ha _ => ownStart_owns args u ha)
  | park origin args =>
    simp only [Instr.staged, Option.some.injEq, Prod.mk.injEq] at h
    obtain ⟨rfl, _⟩ := h
    exact commitWith_shape _ _ args _ s (fun u ha _ => ownPark_owns args u ha)
  | resume origin args =>
    simp only [Instr.staged, Option.some.injEq, Prod.mk.injEq] at h
    obtain ⟨rfl, _⟩ := h
    exact commitWith_shape _ _ args _ s (fun u ha _ => ownResume_owns args u ha)
  | enterDormant origin args =>
    simp only [Instr.staged, Option.some.injEq, Prod.mk.injEq] at h
    obtain ⟨rfl, _⟩ := h
    exact commitWith_shape _ _ args _ s (fun u _ _ => ownEnterDormant_owns args u)
  | enterAlignment origin args =>
    simp only [Instr.staged, Option.some.injEq, Prod.mk.injEq] at h
    obtain ⟨rfl, _⟩ := h
    exact commitWith_shape _ _ args _ s (fun u ha _ => ownEnterAlignment_owns args u ha)
  | exitAlignment origin args =>
    simp only [Instr.staged, Option.some.injEq, Prod.mk.injEq] at h
    obtain ⟨rfl, _⟩ := h
    exact commitWith_shape _ _ args _ s (fun u ha _ => ownExitAlignment_owns args u ha)
  | getAlignment origin args =>
    simp only [Instr.staged, Option.some.injEq, Prod.mk.injEq] at h
    obtain ⟨rfl, _⟩ := h
    exact commitWith_shape _ _ args (ownGetAlignment args) s (fun u _ _ => Owns.refl u)
  | setCommitLag origin args =>
    simp only [Instr.staged, Option.some.injEq, Prod.mk.injEq] at h
    obtain ⟨rfl, _⟩ := h
    exact commitWith_shape _ _ args _ s (fun u _ _ => ownSetCommitLag_owns args u)
  | setFaultMode origin args =>
    simp only [Instr.staged, Option.some.injEq, Prod.mk.injEq] at h
    obtain ⟨rfl, _⟩ := h
    exact commitWith_shape _ _ args _ s (fun u ha _ => ownSetFaultMode_owns args u ha)
  | setGroups origin args =>
    simp only [Instr.staged, Option.some.injEq, Prod.mk.injEq] at h
    obtain ⟨rfl, _⟩ := h
    exact commitWith_shape _ _ args _ s (fun u _ _ => ownSetGroups_owns args u)
  | readConfig origin args =>
    simp only [Instr.staged, Option.some.injEq, Prod.mk.injEq] at h
    obtain ⟨rfl, _⟩ := h
    exact commitWith_shape _ _ args _ s (fun u _ _ => ownReadConfig_owns args u)
  | setTimebase origin args =>
    simp only [Instr.staged, Option.some.injEq, Prod.mk.injEq] at h
    obtain ⟨rfl, _⟩ := h
    exact commitWith_shape _ _ args _ s (fun u _ _ => ownSetTimebase_owns args u)
  | setOffset origin args =>
    simp only [Instr.staged, Option.some.injEq, Prod.mk.injEq] at h
    obtain ⟨rfl, _⟩ := h
    exact commitWith_shape _ _ args _ s (fun u _ _ => ownSetOffset_owns args u)
  | setTime origin args =>
    simp only [Instr.staged, Option.some.injEq, Prod.mk.injEq] at h
    obtain ⟨rfl, _⟩ := h
    exact commitWith_shape _ _ args _ s (fun u _ hc => ownSetTime_owns args u hc)
  | setLateTolerance origin args =>
    simp only [Instr.staged, Option.some.injEq, Prod.mk.injEq] at h
    obtain ⟨rfl, _⟩ := h
    exact commitWith_shape _ _ args _ s (fun u _ _ => ownSetLateTolerance_owns args u)
  | getTime origin args =>
    simp only [Instr.staged, Option.some.injEq, Prod.mk.injEq] at h
    obtain ⟨rfl, _⟩ := h
    exact commitWith_shape _ _ args (ownGetTime args) s (fun u _ _ => Owns.refl u)
  | configureChannel origin args =>
    simp only [Instr.staged, Option.some.injEq, Prod.mk.injEq] at h
    obtain ⟨rfl, _⟩ := h
    exact commitWith_shape _ _ args _ s (fun u ha _ => ownConfigureChannel_owns args u ha)
  | configureInput origin args =>
    simp only [Instr.staged, Option.some.injEq, Prod.mk.injEq] at h
    obtain ⟨rfl, _⟩ := h
    exact commitWith_shape _ _ args _ s (fun u _ _ => ownConfigureInput_owns args u)
  | addEntry origin args =>
    simp only [Instr.staged, Option.some.injEq, Prod.mk.injEq] at h
    obtain ⟨rfl, _⟩ := h
    exact commitWith_shape _ _ args _ s (fun u _ hc => ownAddEntry_owns args u hc)
  | cancelEntry origin args =>
    simp only [Instr.staged, Option.some.injEq, Prod.mk.injEq] at h
    obtain ⟨rfl, _⟩ := h
    exact commitWith_shape _ _ args _ s (fun u _ _ => ownCancelEntry_owns args u)
  | cancelGroup origin args =>
    simp only [Instr.staged, Option.some.injEq, Prod.mk.injEq] at h
    obtain ⟨rfl, _⟩ := h
    exact commitWith_shape _ _ args _ s (fun u _ _ => ownCancelGroup_owns args u)
  | flushSchedule origin args =>
    simp only [Instr.staged, Option.some.injEq, Prod.mk.injEq] at h
    obtain ⟨rfl, _⟩ := h
    exact commitWith_shape _ _ args _ s (fun u _ _ => ownFlushSchedule_owns args u)
  | queryEntry origin args =>
    simp only [Instr.staged, Option.some.injEq, Prod.mk.injEq] at h
    obtain ⟨rfl, _⟩ := h
    exact commitWith_shape _ _ args _ s (fun u _ _ => ownQueryEntry_owns args u)
  | listSchedule origin args =>
    simp only [Instr.staged, Option.some.injEq, Prod.mk.injEq] at h
    obtain ⟨rfl, _⟩ := h
    exact commitWith_shape _ _ args _ s (fun u _ _ => ownListSchedule_owns args u)
  | readEvents origin args =>
    simp only [Instr.staged, Option.some.injEq, Prod.mk.injEq] at h
    obtain ⟨rfl, _⟩ := h
    exact commitWith_shape _ _ args _ s (fun u _ _ => ownReadEvents_owns args u)
  | unknownCommand origin given =>
    simp only [Instr.staged, Option.some.injEq, Prod.mk.injEq] at h
    obtain ⟨rfl, _⟩ := h
    exact commitUnknown_shape _ s
  | _ => simp [Instr.staged] at h

/-- A row that commits nothing does nothing as a commit. -/
theorem commitRow_of_none (i : Instr) (s : State) (h : i.staged = none) : commitRow i s = s := by
  cases i <;> first | rfl | simp [Instr.staged] at h

/-- The commit rows of `exec` are the commits. -/
theorem exec_commitRow (i : Instr) (o : Origin) (bytes : List Byte) (s : State)
    (h : i.staged = some (o, bytes)) (hw : i.wf = true) : exec i s = .next (commitRow i s) := by
  cases i with
  | unknownCommand origin given =>
    simp only [Instr.wf, Bool.and_eq_true] at hw
    simp [exec, execUnknownCommand, hw.2, commitRow]
  | getStatus origin args => rfl
  | getFaultRecord origin args => rfl
  | clearFault origin args => rfl
  | softReset origin args => rfl
  | echo origin args => rfl
  | ackAttention origin args => rfl
  | setAttentionMask origin args => rfl
  | start origin args => rfl
  | park origin args => rfl
  | resume origin args => rfl
  | enterDormant origin args => rfl
  | enterAlignment origin args => rfl
  | exitAlignment origin args => rfl
  | getAlignment origin args => rfl
  | setCommitLag origin args => rfl
  | setFaultMode origin args => rfl
  | setGroups origin args => rfl
  | readConfig origin args => rfl
  | setTimebase origin args => rfl
  | setOffset origin args => rfl
  | setTime origin args => rfl
  | setLateTolerance origin args => rfl
  | getTime origin args => rfl
  | configureChannel origin args => rfl
  | configureInput origin args => rfl
  | addEntry origin args => rfl
  | cancelEntry origin args => rfl
  | cancelGroup origin args => rfl
  | flushSchedule origin args => rfl
  | queryEntry origin args => rfl
  | listSchedule origin args => rfl
  | readEvents origin args => rfl
  | _ => simp [Instr.staged] at h

/-- Every row but UNKNOWN_COMMAND commits whatever its bytes are. -/
theorem exec_ofCmd (o : Origin) (args : List Byte) (c : Cmd) (s : State) :
    exec (Instr.ofCmd o args c) s = .next (commitRow (Instr.ofCmd o args c) s) := by
  cases c <;> rfl

/-- The row of staged command bytes has their origin. -/
theorem ofStaged_staged (o : Origin) (bytes : List Byte) :
    ∃ b, (Instr.ofStaged o bytes).staged = some (o, b) := by
  cases bytes with
  | nil => exact ⟨_, rfl⟩
  | cons b args =>
    cases hc : Cmd.ofCode b with
    | none => exact ⟨b :: args, by simp [Instr.ofStaged, hc, Instr.staged]⟩
    | some c =>
      refine ⟨Cmd.code c :: args, ?_⟩
      simp only [Instr.ofStaged, hc]
      cases c <;> rfl

theorem commitStaged_shape (c : Staged) (s : State) :
    CommitShape c.origin s (commitStaged c s) := by
  obtain ⟨b, hb⟩ := ofStaged_staged c.origin c.bytes
  exact commitRow_shape _ _ b s hb

end Sys2Proof.Machine
end

