-- ==== Sys2Proof/Laws/Sync.lean ====
section
/-! SUPPORT. The processing of a SYNC as changes of the blocks. -/

namespace Sys2Proof.Machine

theorem timeEnd_pos : 0 < Config.timeEnd := by decide

/-- The timebase record that a SYNC sets or steps to is a legal change. -/
theorem acquire_owns (s : State) (seq : Byte) (since now : Nat) (hn : now < Config.timeEnd)
    (hm : s.tbu.mode = .disciplined) :
    Own s (s.setTbu (({ s.tbu.noteSync seq since with localTime := some now }).acquire 1)) := by
  refine Own.tbu s _ (fun h => Tbu.acquire_sound _ h hm _ _ _ hn) ?_ ?_
  · intro h
    simp [Tbu.acquire, Tbu.restartWatch] at h
  · intro h
    left
    exact h

theorem stepTo_owns (s : State) (now : Nat) (e : Int) (seq : Byte) (since : Nat)
    (hn : now < Config.timeEnd) (hm : s.tbu.mode = .disciplined) :
    Owns s (s.stepTo now e (s.tbu.noteSync seq since)) := by
  have h1 := (acquire_owns s seq since now hn hm).owns
  unfold State.stepTo
  dsimp only
  have h2 : Owns s
      (if s.tbu.state = .locked then
        (s.setTbu (({ s.tbu.noteSync seq since with localTime := some now }).acquire 1)).raiseCondition
          .timebase
      else s.setTbu (({ s.tbu.noteSync seq since with localTime := some now }).acquire 1)) := by
    split
    · exact h1.then (Own.raised _ _ (by decide))
    · exact h1
  have key : ∀ a : State, Owns s a →
      Owns s (if 0 < e ∧ a.stc.op = .run then a.evaluate else a) := by
    intro a ha
    split
    · rename_i hc
      exact ha.trans (evaluate_owns _ hc.2)
    · exact ha
  exact key _ (h2.trans (jumpSample_owns _ now))

theorem processSync_owns (s : State) (time : Nat) (seq : Byte) (since : Nat)
    (hm : s.tbu.mode = .disciplined) : Owns s (s.processSync time seq since) := by
  unfold State.processSync
  dsimp only
  split
  · exact (acquire_owns s seq since _ (landTime_lt _) hm).owns
  · split
    · exact (acquire_owns s seq since _ (landTime_lt _) hm).owns
    · rename_i state count hj
      refine (Own.tbu s _ (fun h => ?_) ?_ ?_).owns
      · obtain ⟨hu, hs, hc⟩ := Tbu.judge_slew _ _ _ _ h hj
        exact Tbu.slew_sound _ h hm hu _ _ _ _ _ hs hc
      · intro h
        have h' : state = .unset := h
        subst h'
        revert hj
        unfold Tbu.judge
        cases s.tbu.state <;> simp only [] <;> (repeat' split) <;> simp
      · intro h
        left
        exact h
    · exact stepTo_owns s _ _ seq since (landTime_lt _) hm

theorem takeSync_owns (s : State) (f : Frame) (since : Nat) : Owns s (s.takeSync f since) := by
  unfold State.takeSync
  dsimp only
  split
  · rename_i h
    exact processSync_owns s _ _ _ h.1
  · exact Owns.refl s

end Sys2Proof.Machine
end

