-- ==== Sys2Proof/Laws/Rows.lean ====
section
/-! SUPPORT. Everything a step can do, said once: whatever is kept by each change of `Act` is kept by
every row of the table and by every step. -/

namespace Sys2Proof.Machine

/-- The changes of `Own`, any change of the staging queue and of the outbox, a hard reset, one oscillator
tick, and, only where `polled` holds, a reply handed to the transmitter and a free value drawn. -/
inductive Act (polled : Prop) : State → State → Prop
  | own {s t : State} (h : Own s t) : Act polled s t
  | cin (s : State) (x : Cin) : Act polled s (s.setCin x)
  | rpu (s : State) (x : Rpu) : Act polled s (s.setRpu x)
  | reply (s : State) (x : Lnk) (h : polled) : Act polled s (s.setLnk x)
  | drawn (s : State) (h : polled) : Act polled s s.draw
  | reset (s : State) (l : Lnk) (h : l.transmitter = .idle) : Act polled s (s.resetWith l)
  | tick (s : State) : Act polled s s.tick

/-- Any number of them. -/
def Acts (polled : Prop) : State → State → Prop := Relation.ReflTransGen (Act polled)

variable {p : Prop}

theorem Acts.refl (s : State) : Acts p s s := Relation.ReflTransGen.refl

theorem Act.acts {s t : State} (h : Act p s t) : Acts p s t := Relation.ReflTransGen.single h

theorem Acts.trans {s t u : State} (h : Acts p s t) (k : Acts p t u) : Acts p s u :=
  Relation.ReflTransGen.trans h k

theorem Acts.then {s t u : State} (h : Acts p s t) (k : Act p t u) : Acts p s u :=
  Relation.ReflTransGen.tail h k

theorem Owns.acts {s t : State} (h : Owns s t) : Acts p s t := by
  induction h with
  | refl => exact Acts.refl _
  | tail _ k ih => exact ih.then (Act.own k)

/-- What every change keeps is kept by any number of them. -/
theorem Acts.keeps {P : State → Prop} (hP : ∀ {s t}, Act p s t → P s → P t) {s t : State}
    (h : Acts p s t) (hs : P s) : P t := by
  induction h with
  | refl => exact hs
  | tail _ k ih => exact hP k ih

/-! ### Queues -/

theorem deliver_acts (s : State) (o : Origin) (r : Result) : Acts p s (s.deliver o r) := by
  cases o with
  | unit seq => exact (Act.rpu s _).acts
  | broadcast => exact Acts.refl s
  | group => exact Acts.refl s

theorem leaveQueue_acts (s : State) (o : Origin) : Acts p s (s.leaveQueue o) := by
  cases o with
  | unit seq => exact (Act.cin s _).acts
  | broadcast => exact Acts.refl s
  | group => exact Acts.refl s

theorem fillAll_acts (code : ResultCode) (q : List Staged) (s : State) :
    Acts p s (fillAll code q s) := by
  induction q generalizing s with
  | nil => exact Acts.refl s
  | cons x q ih => exact (deliver_acts s _ _).trans (ih _)

theorem emptyQueue_acts (s : State) (code : ResultCode) : Acts p s (s.emptyQueue code) :=
  (fillAll_acts code _ s).then (Act.cin _ _)

theorem expireStaging_acts (s : State) : Acts p s s.expireStaging := by
  unfold State.expireStaging
  split
  · exact emptyQueue_acts s _
  · exact Acts.refl s

theorem CommitShape.acts {o : Origin} {s t : State} (h : CommitShape o s t) : Acts p s t := by
  rcases h with ⟨_, rfl⟩ | ⟨u, r, hu, rfl⟩
  · exact Acts.refl _
  · exact ((leaveQueue_acts s o).trans hu.acts).trans (deliver_acts u o r)

theorem commitChain_acts (fuel : Nat) (s : State) : Acts p s (commitChain fuel s) := by
  induction fuel generalizing s with
  | zero => exact Acts.refl s
  | succ fuel ih =>
    unfold commitChain
    split
    · exact Acts.refl s
    · split
      · exact ((Act.cin s _).acts.trans (commitStaged_shape _ _).acts).trans (ih _)
      · exact Acts.refl s

theorem commitAll_acts (s : State) : Acts p s s.commitAll :=
  (commitChain_acts _ s).then (Act.cin _ _)

theorem countAndCommit_acts (s : State) : Acts p s s.countAndCommit :=
  (Act.cin s _).acts.trans (commitAll_acts _)

/-- No commit changes the unit address (R148). -/
theorem CommitShape.keeps_address {o : Origin} {s t : State} (h : CommitShape o s t) :
    t.lnk.unitAddress = s.lnk.unitAddress := by
  rcases h with ⟨_, rfl⟩ | ⟨u, r, hu, rfl⟩
  · rfl
  · simpa using hu.keeps_address

theorem commitChain_address (fuel : Nat) (s : State) :
    (commitChain fuel s).lnk.unitAddress = s.lnk.unitAddress := by
  induction fuel generalizing s with
  | zero => rfl
  | succ fuel ih =>
    unfold commitChain
    split
    · rfl
    · split
      · rw [ih, (commitStaged_shape _ _).keeps_address]
        rfl
      · rfl

theorem countAndCommit_address (s : State) :
    s.countAndCommit.lnk.unitAddress = s.lnk.unitAddress :=
  commitChain_address _ s.countFrame

theorem intake_acts (s : State) (f : Frame) : Acts p s (s.intake f) := by
  unfold State.intake
  split
  · exact Acts.refl s
  · rename_i o _
    split
    · exact Acts.refl s
    · split
      · exact (Act.own (Own.raised s _ (by decide))).acts
      · unfold State.stage
        cases o with
        | unit seq => exact (Act.rpu s _).acts.then (Act.cin _ _)
        | broadcast => exact (Act.cin s _).acts
        | group => exact (Act.cin s _).acts

/-! ### Faults -/

theorem reportFault_acts (s : State) (k : FaultKind) (header : List Byte)
    (ha : s.stc.op.accepting = true) : Acts p s (s.reportFault k header) := by
  unfold State.reportFault State.voidStaging
  dsimp only
  have h1 : Acts p s (s.emptyQueue .voided) := emptyQueue_acts s _
  have hf : Own (s.emptyQueue .voided)
      (((s.emptyQueue .voided).setImn
        ((s.emptyQueue .voided).imn.report
          (s.faultRecord k header s.cin.queue.length))).raiseCondition .fault) := by
    refine Own.fault _ _ ?_
    intro _ hne
    have hop : s.stc.op ≠ .faultHold := by simpa using hne
    simp only [State.faultRecord]
    revert ha hop
    cases s.stc.op <;> decide
  split
  · rename_i hm
    refine (h1.then (Act.own hf)).then (Act.own (Own.held _ ?_ ?_))
    · simp [Imn.report]
    · simpa [Imn.report] using hm
  · exact h1.then (Act.own hf)

theorem takeFault_acts (s : State) (k : FaultKind) (header : List Byte) :
    Acts p s (s.takeFault k header) := by
  unfold State.takeFault
  split
  · exact reportFault_acts s k header (by assumption)
  · exact Acts.refl s

/-! ### Frames -/

/-- No symbol takes the receiver to OFF (R143). -/
theorem rxSymbol_on (quiet : Bool) (r : Receiver) (f : Option Reception) (x : LineSymbol)
    (h : (rxSymbol quiet r f x).1 = .off) : r = .off := by
  unfold rxSymbol at h
  split at h <;> first | rfl | cases h | skip
  · split at h <;> cases h
  · unfold Reception.takeByte at h
    dsimp only at h
    (repeat' split at h) <;> cases h
  · unfold Reception.close at h
    (repeat' split at h) <;> cases h

theorem rxSymbols_on (quiet : Bool) (l : List LineSymbol) (r : Receiver) (f : Option Reception)
    (h : (rxSymbols quiet r f l).1 = .off) : r = .off := by
  induction l generalizing r f with
  | nil => exact h
  | cons x l ih =>
    have hx := rxSymbol_on quiet r f x
    unfold rxSymbols at h
    split at h
    · rename_i r' f' heq
      rw [heq] at hx
      exact hx (ih r' f' h)
    · rename_i r' f' v _ heq
      rw [heq] at hx
      exact hx (ih r' f' h)

theorem receive_on (s : State) (h : Heard) (hr : (s.receive h).1 = .off) : s.lnk.receiver = .off := by
  unfold State.receive at hr
  split at hr
  · exact absurd (rxSymbols_on _ _ _ _ hr) (by decide)
  · split at hr
    · exact rxSymbols_on _ _ _ _ hr
    · exact rxSymbols_on _ _ _ _ hr

theorem afterReceiving_act (s : State) (b : Bool) (r : Receiver) (f : Option Reception)
    (on : r = .off → s.lnk.receiver = .off) : Act p s (s.afterReceiving b r f) := by
  refine Act.own (Own.lnk s _ ?_ on rfl)
  intro h
  simp [Transmitter.abandon, h]

/-- Hearing is made of changes if what is done at the end of an intact frame is. -/
theorem hear_acts (s : State) (h : Heard) (onIntact : State → Frame → State)
    (ho : ∀ u f, Acts p u (onIntact u f)) : Acts p s (s.hear h onIntact) := by
  unfold State.hear
  split
  · exact Acts.refl s
  · have hon := receive_on s h
    split
    · rename_i heq
      exact (afterReceiving_act s _ _ _ (by rw [heq] at hon; exact hon)).acts
    · rename_i heq
      exact (afterReceiving_act s _ _ _ (by rw [heq] at hon; exact hon)).acts.trans (ho _ _)
    · rename_i heq
      exact (afterReceiving_act s _ _ _ (by rw [heq] at hon; exact hon)).acts.trans
        (takeFault_acts _ _ _)

theorem handlePoll_acts (s : State) (f : Frame) (hp : p) : Acts p s (s.handlePoll f) := by
  unfold State.handlePoll
  dsimp only
  split
  · exact ((Act.rpu s _).acts.then (Act.reply _ _ hp)).then (Act.drawn _ hp)
  · exact Acts.refl s

theorem handleSync_acts (s : State) (f : Frame) (since : Nat) : Acts p s (s.handleSync f since) := by
  unfold State.handleSync
  split
  · exact (takeSync_owns s f since).acts
  · exact Acts.refl s

theorem handleProbe_acts (s : State) (f : Frame) : Acts p s (s.handleProbe f) := by
  unfold State.handleProbe
  split
  · rename_i hop
    refine Owns.acts ?_
    unfold State.takeProbe
    split
    · exact Owns.refl s
    · split
      · refine (Own.aln s _ (fun a b c => Aln.logOutcome_bounds _ _ _ a b c) ?_).owns
        intro _
        exact hop.1
      · refine (Own.aln s _ ?_ ?_).owns
        · intro a b c
          split
          · exact Aln.logOutcome_bounds _ _ _ a b c
          · exact ⟨a, b, c⟩
        · intro _
          exact hop.1
  · exact Acts.refl s

theorem handleWake_acts (s : State) (f : Frame) : Acts p s (s.handleWake f) := by
  unfold State.handleWake
  split
  · rename_i h
    refine (Act.own (Own.stc s _ ?_ (by simp) ?_ ?_ ?_)).acts
    · intro hn
      simp only [Stc.Nested, h.1] at hn
      simp [Stc.Nested, hn]
    · intro _
      rw [h.1]
      decide
    · intro _ h'
      rw [h.1] at h'
      exact absurd h' (by decide)
    · intro h'
      rw [h.1] at h'
      exact absurd h' (by decide)
  · exact Acts.refl s

theorem endCommand_acts (s : State) (f : Frame) : Acts p s (s.endCommand f) := by
  unfold State.endCommand
  split
  · exact ((Act.cin s _).acts.trans (intake_acts _ f)).trans (commitAll_acts _)
  · exact Acts.refl s

theorem endPoll_acts (order : PollOrder) (s : State) (f : Frame) (hp : p) :
    Acts p s (s.endPoll order f) := by
  unfold State.endPoll
  split
  · cases order with
    | commits => exact (countAndCommit_acts s).trans (handlePoll_acts _ f hp)
    | handling => exact (handlePoll_acts s f hp).trans (countAndCommit_acts _)
    | handlingThenExpiry =>
      exact ((handlePoll_acts s f hp).trans (expireStaging_acts _)).trans (countAndCommit_acts _)
  · exact Acts.refl s

theorem endSync_acts (order : TakenFirst) (since : Nat) (s : State) (f : Frame) :
    Acts p s (s.endSync order since f) := by
  unfold State.endSync
  split
  · cases order with
    | commits => exact (countAndCommit_acts s).trans (handleSync_acts _ f since)
    | handling => exact (handleSync_acts s f since).trans (countAndCommit_acts _)
  · exact Acts.refl s

theorem endProbe_acts (order : TakenFirst) (s : State) (f : Frame) :
    Acts p s (s.endProbe order f) := by
  unfold State.endProbe
  split
  · cases order with
    | commits => exact (countAndCommit_acts s).trans (handleProbe_acts _ f)
    | handling => exact (handleProbe_acts s f).trans (countAndCommit_acts _)
  · exact Acts.refl s

theorem endWake_acts (s : State) (f : Frame) : Acts p s (s.endWake f) := by
  unfold State.endWake
  split
  · exact countAndCommit_acts s
  · exact handleWake_acts s f

theorem endOther_acts (s : State) (f : Frame) : Acts p s (s.endOther f) := by
  unfold State.endOther
  split
  · exact countAndCommit_acts s
  · exact Acts.refl s

/-! ### The transmitter and DISCARDING -/

theorem startTransmission_acts (s : State) : Acts p s s.startTransmission := by
  unfold State.startTransmission
  split
  · rename_i hw
    split
    · refine Act.acts (Act.own ?_)
      exact Own.lnk s _ (fun h => by rw [h] at hw; cases hw) (fun h => h) rfl
    · exact Acts.refl s
  · exact Acts.refl s
  · exact Acts.refl s

theorem endTransmission_acts (s : State) : Acts p s s.endTransmission := by
  unfold State.endTransmission
  split
  · refine Act.acts (Act.own ?_)
    exact Own.lnk s _ (fun _ => rfl) (fun h => h) rfl
  · exact Acts.refl s

theorem abandonReply_acts (s : State) : Acts p s s.abandonReply := by
  unfold State.abandonReply
  split
  · exact (afterReceiving_act s _ _ _ (fun h => rxSymbol_on _ _ _ _ h)).acts
  · exact Acts.refl s
  · exact Acts.refl s

theorem endDiscarding_acts (s : State) (ending : RunEnd) : Acts p s (s.endDiscarding ending) := by
  unfold State.endDiscarding
  split
  · refine Act.acts (Act.own ?_)
    exact Own.lnk s _ (fun h => h) (fun h => rxSymbol_on _ _ _ _ h) rfl
  · exact Acts.refl s
  · exact Acts.refl s
  · exact Acts.refl s

/-! ### Events -/

theorem hardReset_acts (s : State) (phase : ResetPhase) : Acts p s (s.hardReset phase) := by
  unfold State.hardReset
  split
  · exact (Act.reset s _ rfl).acts
  · exact (Act.reset s _ rfl).acts
  · split
    · exact (Act.reset s _ rfl).acts
    · exact Acts.refl s

theorem endQuiesce_acts (s : State) : Acts p s s.endQuiesce := by
  unfold State.endQuiesce
  split
  · exact (Act.own (Own.quiesce s none)).acts.then (Act.own (Own.lnk _ _ (fun h => h) (fun h => h) rfl))
  · exact Acts.refl s

theorem expireLocked_acts (s : State) : Acts p s s.expireLocked := by
  unfold State.expireLocked
  split
  · rename_i hc
    have h1 : Own s (s.setTbu
        ({ s.tbu with state := .holdover, holdoverCount := 0 } : Tbu).continueWatch) := by
      refine Own.tbu s _ (fun h => ?_) (by simp [Tbu.continueWatch]) (fun h => Or.inl h)
      have hm := h.modes
      have hw := h.watch
      rw [hc.1] at hm hw
      refine { h with unset := ?_, modes := ?_, watch := ?_, holdover := Nat.zero_le _ }
      · have := h.unset
        rw [hc.1] at this
        simpa [Tbu.continueWatch] using this
      · right
        simpa [Tbu.continueWatch] using hm
      · simpa [Tbu.continueWatch, TbState.watched] using hw
    exact (Act.own h1).acts.then (Act.own (Own.raised _ _ (by decide)))
  · exact Acts.refl s

theorem expireHoldover_acts (s : State) : Acts p s s.expireHoldover := by
  unfold State.expireHoldover
  dsimp only
  split
  · rename_i hc
    split
    · have h1 : Own s (s.setTbu
          { s.tbu with
            state := .unlocked, holdoverCount := min 255 (s.tbu.holdoverCount + 1), watch := none }) := by
        refine Own.tbu s _ (fun h => ?_) (by simp) (fun h => Or.inl h)
        have hm := h.modes
        rw [hc.1] at hm
        refine { h with unset := ?_, modes := ?_, watch := rfl, holdover := Nat.min_le_left _ _ }
        · have := h.unset
          rw [hc.1] at this
          simpa using this
        · right
          simpa using hm
      exact (Act.own h1).acts.then (Act.own (Own.raised _ _ (by decide)))
    · refine Act.acts (Act.own ?_)
      refine Own.tbu s _ (fun h => ?_) (fun h => h) (fun h => Or.inl h)
      have hw := h.watch
      rw [hc.1] at hw
      refine { h with watch := ?_, holdover := Nat.min_le_left _ _ }
      show true = s.tbu.state.watched
      rw [hc.1]
      rfl
  · exact Acts.refl s

theorem expireAcquiring_acts (s : State) : Acts p s s.expireAcquiring := by
  unfold State.expireAcquiring
  split
  · rename_i hc
    refine Act.acts (Act.own ?_)
    refine Own.tbu s _ (fun h => ?_) (by simp) (fun h => Or.inl h)
    have hm := h.modes
    rw [hc.1] at hm
    refine { h with unset := ?_, modes := ?_, watch := rfl, acquisition := Nat.zero_le _ }
    · have := h.unset
      rw [hc.1] at this
      simpa using this
    · right
      simpa using hm
  · exact Acts.refl s

theorem endSlew_acts (s : State) : Acts p s s.endSlew := by
  unfold State.endSlew
  split
  · exact Acts.refl s
  · split
    · exact (Act.own (Own.tbu s { s.tbu with slew := none } (fun h => { h with })
        (fun h => h) (fun h => Or.inl h))).acts
    · exact Acts.refl s

theorem endWakeDelay_acts (s : State) : Acts p s s.endWakeDelay := by
  unfold State.endWakeDelay
  split
  · rename_i hc
    have h1 : Own s (s.setStc { s.stc with op := .config, wakeDelay := none }) := by
      refine Own.stc s _ ?_ (by simp) ?_ ?_ (fun _ => rfl)
      · intro hn
        simp only [Stc.Nested, hc.1] at hn
        simp [Stc.Nested, hn.1]
      · intro _
        rw [hc.1]
        decide
      · intro _ h'
        rw [hc.1] at h'
        exact absurd h' (by decide)
    exact (Act.own h1).acts.then (Act.own (Own.lnk _ _ (fun h => h) (fun h => h) rfl))
  · exact Acts.refl s

theorem endPulse_acts (s : State) (n : Fin 16) : Acts p s (s.endPulse n) := by
  unfold State.endPulse
  split
  · refine (Act.own (Own.out s _ ?_ ?_)).acts
    · intro m
      rw [Out.update_get]
      split
      · exact Or.inl rfl
      · exact Or.inr rfl
    · intro _ m
      rw [Out.update_get]
      split
      · rename_i h
        subst h
        rfl
      · rfl
  · exact Acts.refl s

theorem endWindow_acts (s : State) (n : Fin 4) : Acts p s (s.endWindow n) := by
  unfold State.endWindow
  split
  · refine (Act.own (Own.cap s _ ?_)).acts
    intro m
    rw [Cap.update_get]
    split
    · exact Or.inl rfl
    · exact Or.inr ⟨rfl, rfl⟩
  · exact Acts.refl s

theorem endDeadTime_acts (s : State) (n : Fin 4) : Acts p s (s.endDeadTime n) := by
  unfold State.endDeadTime
  split
  · refine Act.acts ?_
    exact Act.own (capUpdate_own s n _ (fun _ => ⟨rfl, rfl⟩))
  · exact Acts.refl s

theorem captureEdge_acts (s : State) (n : Fin 4) (edge : PinEdge) :
    Acts p s (s.captureEdge n edge) := by
  unfold State.captureEdge
  dsimp only
  have h1 : Owns s (s.setCap
      (s.cap.update n fun i => { i with level := edgeTarget edge.kind, sampled := true })) :=
    (capUpdate_own s n (fun i => { i with level := edgeTarget edge.kind, sampled := true })
      (fun _ => ⟨rfl, rfl⟩)).owns
  split
  · split
    · exact (h1.trans (takeEdge_owns _ n edge.kind)).acts
    · exact (h1.then (capWaiting_own _ _)).acts
  · split
    · exact ((capWaiting_own s _).owns.trans (takeEdge_owns _ n edge.kind)).acts
    · exact Acts.refl s

theorem reachHead_acts (s : State) : Acts p s s.reachHead := by
  unfold State.reachHead
  split
  · exact Acts.refl s
  · split
    · rename_i h
      exact (fireBatch_owns _ _ s h.1).acts
    · exact Acts.refl s

theorem reachSample_acts (s : State) : Acts p s s.reachSample := by
  unfold State.reachSample
  split
  · exact Acts.refl s
  · split
    · exact (takeSample_owns s _).acts
    · exact Acts.refl s

/-! ### Rows and steps -/

/-- Whether a row is a POLL. -/
def IsPoll (i : Instr) : Prop := ∃ h order, i = .poll h order

/-- EVERY ROW of the table is made of the changes of `Act`, and only a POLL hands a reply to the
transmitter. -/
theorem exec_acts (i : Instr) (s t : State) (h : exec i s = .next t) : Acts (IsPoll i) s t := by
  have hrow : ∀ o b, i.staged = some (o, b) → exec i s = .next (commitRow i s) →
      Acts (IsPoll i) s t := by
    intro o b hs he
    rw [he] at h
    simp only [Host.Outcome.next.injEq] at h
    subst h
    exact (commitRow_shape i o b s hs).acts
  have hnext : ∀ u, exec i s = .next u → Acts (IsPoll i) s u → Acts (IsPoll i) s t := by
    intro u he ha
    rw [he] at h
    simp only [Host.Outcome.next.injEq] at h
    exact h ▸ ha
  have hif : ∀ (b : Bool) u, exec i s = (if b then .next u else .refused .illFormed) →
      Acts (IsPoll i) s u → Acts (IsPoll i) s t := by
    intro b u he ha
    cases b with
    | true => exact hnext u he ha
    | false =>
      rw [he] at h
      cases h
  cases i with
  | hardReset phase => exact hnext _ rfl (hardReset_acts s phase)
  | commandFrame f => exact hif _ _ rfl (hear_acts s f _ endCommand_acts)
  | poll f order =>
    exact hif _ _ rfl (hear_acts s f _ (fun u x => endPoll_acts order u x ⟨f, order, rfl⟩))
  | transmitStart => exact hnext _ rfl (startTransmission_acts s)
  | transmitEnd => exact hnext _ rfl (endTransmission_acts s)
  | replyAbandoned => exact hnext _ rfl (abandonReply_acts s)
  | sync f order => exact hif _ _ rfl (hear_acts s f _ (endSync_acts order f.since))
  | probe f order => exact hif _ _ rfl (hear_acts s f _ (endProbe_acts order))
  | wake f => exact hif _ _ rfl (hear_acts s f _ endWake_acts)
  | fill f => exact hif _ _ rfl (hear_acts s f _ endOther_acts)
  | otherIntactFrame f => exact hif _ _ rfl (hear_acts s f _ endOther_acts)
  | faultReport f => exact hif _ _ rfl (hear_acts s f _ endOther_acts)
  | quiesceEnd => exact hnext _ rfl (endQuiesce_acts s)
  | stagingExpiry => exact hnext _ rfl (expireStaging_acts s)
  | syncWatchLockedExpiry => exact hnext _ rfl (expireLocked_acts s)
  | syncWatchHoldoverExpiry => exact hnext _ rfl (expireHoldover_acts s)
  | syncWatchAcquiringExpiry => exact hnext _ rfl (expireAcquiring_acts s)
  | slewEnd => exact hnext _ rfl (endSlew_acts s)
  | wakeDelayEnd => exact hnext _ rfl (endWakeDelay_acts s)
  | headReached => exact hnext _ rfl (reachHead_acts s)
  | pulseEnd n => exact hnext _ rfl (endPulse_acts s n)
  | windowEnd n => exact hnext _ rfl (endWindow_acts s n)
  | deadTimeEnd n => exact hnext _ rfl (endDeadTime_acts s n)
  | captureEdge n e => exact hnext _ rfl (captureEdge_acts s n e)
  | sampleReached => exact hnext _ rfl (reachSample_acts s)
  | unknownCommand o b => exact hif _ _ rfl (commitUnknown_shape o s).acts
  | discardingEnd e => exact hnext _ rfl (endDiscarding_acts s e)
  | _ => exact hrow _ _ rfl rfl

/-- Fewer changes may be allowed where `p` cannot hold: a row that is no POLL hands no reply to the
transmitter and draws no free value. -/
theorem Acts.mono {q : Prop} {s t : State} (h : Acts p s t) (hp : p → q) : Acts q s t := by
  induction h with
  | refl => exact Acts.refl _
  | tail _ k ih =>
    refine ih.then ?_
    cases k with
    | own h => exact Act.own h
    | cin x => exact Act.cin _ x
    | rpu x => exact Act.rpu _ x
    | reply x h => exact Act.reply _ x (hp h)
    | drawn h => exact Act.drawn _ (hp h)
    | reset l h => exact Act.reset _ l h
    | tick => exact Act.tick _

/-- EVERY STEP is made of them, after the command at the front has been taken off the queue. -/
theorem step_acts (s t : State) (h : step s = .next t) :
    ∃ p, Acts p (s.setPending s.pending.tail) t := by
  unfold step at h
  split at h
  · rename_i i rest hq
    refine ⟨IsPoll i, ?_⟩
    have := exec_acts i _ t h
    simpa [hq] using this
  · rename_i hq
    have hs : s.setPending s.pending.tail = s := by
      rw [hq]
      show s.setPending [] = s
      rw [← hq]
      rfl
    rw [hs]
    unfold State.idleStep at h
    split at h
    · simp only [Host.Outcome.next.injEq] at h
      subst h
      exact ⟨True, (Act.tick s).acts⟩
    · rename_i i others _
      exact ⟨True, (Act.drawn s trivial).acts.trans ((exec_acts _ _ t h).mono (fun _ => trivial))⟩

end Sys2Proof.Machine
end

