-- ==== Sys2Proof/Laws/Table.lean ====
section
/-! SUPPORT. The schedule table's operations keep `Sct.Sound` (R5), and so does every change of the part. -/

namespace Sys2Proof.Machine

/-- Insertion adds the entry and nothing else. -/
theorem insertEntry_perm (e : Entry) (l : List Entry) : (insertEntry e l).Perm (e :: l) := by
  induction l with
  | nil => exact List.Perm.refl _
  | cons x rest ih =>
    unfold insertEntry
    split
    · exact (ih.cons x).trans (List.Perm.swap e x rest)
    · exact List.Perm.refl _

theorem mem_insertEntry (e y : Entry) (l : List Entry) : y ∈ insertEntry e l ↔ y = e ∨ y ∈ l := by
  rw [(insertEntry_perm e l).mem_iff, List.mem_cons]

theorem insertEntry_length (e : Entry) (l : List Entry) :
    (insertEntry e l).length = l.length + 1 :=
  (insertEntry_perm e l).length_eq

theorem before_due {a b : Entry} (h : a.before b) : a.due ≤ b.due := by
  rcases h with h | h <;> omega

/-- An entry with the largest insertion number keeps the order where R7 puts it. -/
theorem insertEntry_ordered (e : Entry) (l : List Entry) (ho : l.Pairwise Entry.before)
    (hn : ∀ y ∈ l, y.insertion < e.insertion) : (insertEntry e l).Pairwise Entry.before := by
  induction l with
  | nil => simp [insertEntry]
  | cons x rest ih =>
    have hx := List.pairwise_cons.mp ho
    unfold insertEntry
    split
    · rename_i hany
      refine List.pairwise_cons.mpr ⟨?_, ih hx.2 (fun y hy => hn y (List.mem_cons_of_mem _ hy))⟩
      intro y hy
      rcases (mem_insertEntry e y rest).mp hy with rfl | hy
      · obtain ⟨z, hz, hzd⟩ := List.any_eq_true.mp hany
        have hzd' : z.due ≤ y.due := by simpa using hzd
        have hxz : x.due ≤ z.due := by
          rcases List.mem_cons.mp hz with rfl | hz
          · exact le_refl _
          · exact before_due (hx.1 z hz)
        have hxi := hn x (List.mem_cons_self)
        unfold Entry.before
        omega
      · exact hx.1 y hy
    · rename_i hany
      refine List.pairwise_cons.mpr ⟨?_, ho⟩
      intro y hy
      left
      have : ¬ y.due ≤ e.due := by
        intro hle
        exact hany (List.any_eq_true.mpr ⟨y, hy, by simpa using hle⟩)
      omega

/-- Placing a new handle keeps the table sound where there is room (R6, R7). -/
theorem Sct.place_sound (t : Sct) (e : Entry) (h : t.Sound)
    (room : t.entries.length < Config.tableCapacity) (free : ∀ y ∈ t.entries, y.handle ≠ e.handle)
    (range : e.inRange) : (t.place e).Sound := by
  have hperm := insertEntry_perm { e with insertion := t.nextInsertion } t.entries
  refine { capacity := ?_, distinct := ?_, ordered := ?_, fresh := ?_, ranges := ?_ }
  · simp only [Sct.place, insertEntry_length]
    omega
  · simp only [Sct.place]
    rw [(hperm.map Entry.handle).nodup_iff, List.map_cons, List.nodup_cons]
    refine ⟨?_, h.distinct⟩
    intro hm
    obtain ⟨y, hy, hyh⟩ := List.mem_map.mp hm
    exact free y hy hyh
  · exact insertEntry_ordered _ _ h.ordered (fun y hy => h.fresh y hy)
  · intro y hy
    simp only [Sct.place] at hy ⊢
    rcases (mem_insertEntry _ _ _).mp hy with rfl | hy
    · exact Nat.lt_succ_self _
    · exact Nat.lt_succ_of_lt (h.fresh y hy)
  · intro y hy
    rcases (mem_insertEntry _ _ _).mp hy with rfl | hy
    · exact range
    · exact h.ranges y hy

/-- Removing entries keeps the table sound (R5). -/
theorem Sct.filter_sound (t : Sct) (p : Entry → Bool) (h : t.Sound) :
    ({ t with entries := t.entries.filter p } : Sct).Sound where
  capacity := le_trans (List.length_filter_le _ _) h.capacity
  distinct := h.distinct.sublist (List.filter_sublist.map _)
  ordered := h.ordered.sublist List.filter_sublist
  fresh := fun e he => h.fresh e (List.mem_of_mem_filter he)
  ranges := fun e he => h.ranges e (List.mem_of_mem_filter he)

theorem Sct.remove_absent (t : Sct) (handle : Nat) : ∀ y ∈ (t.remove handle).entries, y.handle ≠ handle := by
  intro y hy
  have := (List.mem_filter.mp hy).2
  simpa using this

/-- Removing an entry that stands in the table makes room. -/
theorem Sct.remove_length (t : Sct) (e : Entry) (he : e ∈ t.entries) :
    (t.remove e.handle).entries.length < t.entries.length := by
  refine List.length_filter_lt_length_iff_exists.mpr ⟨e, he, ?_⟩
  simp

/-- What an entry becomes when occurrences are consumed is within R1, and keeps its handle (R3, R8). -/
theorem Entry.advance_inRange (e next : Entry) (k : Nat) (fired : Bool) (h : e.inRange)
    (ha : e.advance k fired = some next) :
    next.inRange ∧ next.handle = e.handle ∧ next.requireLock = e.requireLock := by
  obtain ⟨h1, h2, h3, h4, h5, h6, h7⟩ := h
  have hf : e.countFired fired ≤ 65535 := by
    unfold Entry.countFired
    split
    · exact Nat.min_le_left _ _
    · exact h6
  unfold Entry.advance at ha
  unfold Entry.remainingOk at h7
  split at ha
  · cases ha
  · rename_i r hr
    rw [hr] at h7
    dsimp only at ha h7
    obtain ⟨p1, p2, p3, p4⟩ := h7
    split at ha
    · rename_i hc
      split at ha
      · rename_i hd
        cases ha
        refine ⟨⟨h1, h2, hd, h4, h5, hf, ?_⟩, rfl, rfl⟩
        unfold Entry.remainingOk
        simp only [hr]
        exact ⟨p1, p2, p3, p4⟩
      · cases ha
    · rename_i hc
      split at ha
      · cases ha
      · rename_i hk
        split at ha
        · rename_i hd
          cases ha
          refine ⟨⟨h1, h2, hd, h4, h5, hf, ?_⟩, rfl, rfl⟩
          unfold Entry.remainingOk
          simp only [hr]
          refine ⟨p1, p2, p3, ?_⟩
          rw [if_neg hc] at p4 ⊢
          omega
        · cases ha

/-- The record and the advance of an occurrence keep the table sound (R8, R29, R33). -/
theorem Sct.consume_sound (t : Sct) (e : Entry) (k : Nat) (fired : Bool) (h : t.Sound)
    (he : e ∈ t.entries) : (t.consume e k fired).Sound := by
  unfold Sct.consume
  split
  · exact Sct.filter_sound t _ h
  · rename_i next ha
    obtain ⟨hr, hh, _⟩ := Entry.advance_inRange e next k fired (h.ranges e he) ha
    refine Sct.place_sound _ _ (Sct.filter_sound t _ h) ?_ ?_ hr
    · exact lt_of_lt_of_le (Sct.remove_length t e he) h.capacity
    · rw [hh]
      exact Sct.remove_absent t e.handle

theorem Sct.reset_sound : Sct.reset.Sound where
  capacity := by decide
  distinct := by simp [Sct.reset]
  ordered := by simp [Sct.reset]
  fresh := by simp [Sct.reset]
  ranges := by simp [Sct.reset]

/-- Every change of a block keeps the schedule table sound. -/
theorem Own.keeps_schedule {s t : State} (h : Own s t) (hs : s.sct.Sound) : t.sct.Sound := by
  cases h with
  | consumed e k fired he => exact Sct.consume_sound _ _ _ _ hs he
  | placed e room free range _ _ =>
    refine Sct.place_sound _ _ hs room ?_ range
    intro y hy hyh
    have := List.find?_eq_none.mp free y hy
    simp [hyh] at this
  | filtered p => exact Sct.filter_sound _ _ hs
  | flushed => exact Sct.reset_sound
  | softReset => exact Sct.reset_sound
  | dormant => exact Sct.reset_sound
  | _ => simpa using hs

/-- So does every change of the part. -/
theorem Act.keeps_schedule {p : Prop} {s t : State} (h : Act p s t) (hs : s.sct.Sound) :
    t.sct.Sound := by
  cases h with
  | own h => exact h.keeps_schedule hs
  | reset => exact Sct.reset_sound
  | _ => exact hs

end Sys2Proof.Machine
end

