-- ==== Sys2Proof/Laws/Batch.lean ====
section
/-! SUPPORT. What consuming an occurrence does to the table, and the on-time batch (R8, R26, R29). -/

namespace Sys2Proof.Machine

theorem gateOpen_iff (s : State) (e : Entry) :
    s.gateOpen e = true ↔
      (e.requireLock = false ∨ s.tbu.state = .locked ∨ s.tbu.state = .holdover) := by
  unfold State.gateOpen
  simp [Bool.or_eq_true, beq_iff_eq, or_assoc]

/-- The head's occurrences consumed: it leaves the table, or is placed again at its new due time (R8). -/
theorem Sct.consume_head (t : Sct) (e : Entry) (rest : List Entry) (k : Nat) (fired : Bool)
    (ht : t.entries = e :: rest) (hh : ∀ x ∈ rest, x.handle ≠ e.handle) :
    t.consume e k fired =
      (match e.repeats with
        | none => { t with entries := rest }
        | some r =>
          if e.remaining ≤ k ∧ r.count ≠ 0 ∨ 2 ^ 63 ≤ e.due + k * r.period then
            { t with entries := rest }
          else
            ({ t with entries := rest } : Sct).place
              { e with
                due := e.due + k * r.period
                fired := if fired then min 65535 (e.fired + 1) else e.fired
                remaining := if r.count = 0 then e.remaining else e.remaining - k }) := by
  have hr : rest.filter (fun x => x.handle != e.handle) = rest := by
    apply List.filter_eq_self.mpr
    intro x hx
    simpa using hh x hx
  have hrm : t.remove e.handle = { t with entries := rest } := by
    simp [Sct.remove, ht, hr]
  have hte : Config.timeEnd = 2 ^ 63 := rfl
  unfold Sct.consume Entry.advance
  cases hr : e.repeats with
  | none => simp [hrm]
  | some r =>
    simp only
    by_cases h0 : r.count = 0
    · by_cases hd : e.due + k * r.period < 2 ^ 63
      · simp only [h0, if_true, hte, hd, ne_eq, not_true, and_false, false_or]
        rw [if_neg (by omega), hrm]
        rfl
      · simp only [h0, if_true, hte, hd, ne_eq, not_true, and_false, false_or, if_false]
        rw [if_pos (by omega), hrm]
    · simp only [h0, if_false, hte]
      by_cases hk : e.remaining ≤ k
      · simp [hk, hrm, h0]
      · simp only [hk, if_false, false_and, false_or]
        by_cases hd : e.due + k * r.period < 2 ^ 63
        · rw [if_pos hd, if_neg (by omega)]
          simp only [hrm]
          rfl
        · rw [if_neg hd, if_pos (by omega)]
          simp only [hrm]

/-- An on-time occurrence changes the table by one consuming request (R27, R30). -/
theorem fireOnTime_sct (s : State) (e : Entry) :
    (s.fireOnTime e).sct = s.sct.consume e 1 (s.gateOpen e) := by
  unfold State.fireOnTime
  split
  · rename_i h
    rw [h]
    simp [State.consume]
  · rename_i h
    rw [Bool.not_eq_true] at h
    rw [h]
    simp [State.consume]

/-- A batch with nothing due at its time fires nothing. -/
theorem fireBatch_none (due fuel : Nat) (s : State) (h : ∀ x ∈ s.sct.entries, due < x.due) :
    fireBatch due fuel s = s := by
  cases fuel with
  | zero => rfl
  | succ fuel =>
    unfold fireBatch
    split
    · rfl
    · rename_i e rest he
      rw [if_neg]
      have := h e (by simp [he])
      omega

end Sys2Proof.Machine
end

