-- ==== Sys2Proof/Laws/Hearing.lean ====
section
/-! SUPPORT. What the receiver makes of a frame that it hears from its start delimiter on, and of one that
it does not hear (R142, R143, R153, R177). -/

namespace Sys2Proof.Machine

/-- Where the receiver stands after what it has found: RECEIVING while nothing is, LISTENING after an
intact frame, DISCARDING after a fault (R142, R143). -/
def standsAfter (x : Receiver × Option Reception × Verdict) : Prop :=
  match x with
  | (r, _, .nothing) => r = .receiving
  | (r, f, .intact _) => r = .listening ∧ f = none
  | (r, f, .fault _ _) => r = .discarding ∧ f = none

theorem rxSymbol_receiving (quiet : Bool) (f : Option Reception) (x : LineSymbol) :
    standsAfter (rxSymbol quiet .receiving f x) := by
  cases x with
  | byte b =>
    simp only [rxSymbol, Reception.takeByte]
    split
    · exact ⟨rfl, rfl⟩
    · split
      · exact ⟨rfl, rfl⟩
      · rfl
  | stop =>
    simp only [rxSymbol, Reception.close]
    (repeat' split) <;> exact ⟨rfl, rfl⟩
  | start => exact ⟨rfl, rfl⟩
  | invalid => exact ⟨rfl, rfl⟩
  | idle => exact ⟨rfl, rfl⟩

/-- The receiver after a run of symbols at whose last symbol something is found. -/
theorem rxSymbols_classified (l : List LineSymbol) (f : Option Reception) (v : Verdict)
    (h : classifyFrom .receiving f l = v) (hv : v ≠ .nothing) :
    (rxSymbols false .receiving f l).2.2 = v ∧ standsAfter (rxSymbols false .receiving f l) := by
  induction l generalizing f with
  | nil =>
    subst h
    exact absurd rfl hv
  | cons x l ih =>
    have hx := rxSymbol_receiving false f x
    unfold classifyFrom at h
    unfold rxSymbols
    rcases hr : rxSymbol false .receiving f x with ⟨r', f', w⟩
    rw [hr] at h hx
    cases w with
    | nothing =>
      have hx' : r' = .receiving := hx
      subst hx'
      exact ih f' h
    | intact y =>
      cases l with
      | nil => exact ⟨h, hx⟩
      | cons z l => exact absurd h.symm hv
    | fault k header =>
      cases l with
      | nil => exact ⟨h, hx⟩
      | cons z l => exact absurd h.symm hv

/-- What the receiver makes of a frame that the part hears. -/
theorem receive_heard {s : State} {h : Heard} (hs : s.Hears h) :
    s.receive h = rxSymbols false .receiving (some .fresh) h.symbols := by
  have hst : s.startHeard h.since = true := by
    simp [State.startHeard, State.hearsStart, hs.quiesce, hs.awake, hs.began]
  have hm : s.startMet h.since = true := by
    have := hs.began
    simp only [State.startMet, decide_eq_true_eq]
    omega
  unfold State.receive
  split
  · rename_i hr _
    rw [hs.receiver] at hr
    cases hr
  · rw [hm, hs.receiver, hst]
    rfl

theorem State.Hears.on {s : State} {h : Heard} (hs : s.Hears h) :
    (s.sending || s.inReset || s.breaksOff h) = false := by
  simp [hs.silent, State.inReset, State.breaksOff, hs.receiver]

theorem State.Hears.started {s : State} {h : Heard} (hs : s.Hears h) : s.meetsStart h = true := by
  have := hs.began
  have hm : s.startMet h.since = true := by
    simp only [State.startMet, decide_eq_true_eq]
    omega
  simp [State.meetsStart, hs.receiver, hm]

/-- An intact frame that the part hears is handed on. -/
theorem hear_intact {s : State} {h : Heard} {f : Frame} {onIntact : State → Frame → State}
    (hs : s.Hears h) (hf : h.frame? = some f) : s.hear h onIntact = onIntact s.heard f := by
  have hc : classify h.symbols = .intact f := by
    unfold Heard.frame? at hf
    split at hf
    · rename_i x hx
      cases hf
      exact hx
    · cases hf
  obtain ⟨hv, hr⟩ := rxSymbols_classified h.symbols (some .fresh) _ hc (by simp)
  rcases hx : rxSymbols false .receiving (some .fresh) h.symbols with ⟨r, g, v⟩
  rw [hx] at hv hr
  cases hv
  obtain ⟨rfl, rfl⟩ : r = .listening ∧ g = none := hr
  unfold State.hear
  rw [hs.on, hs.started, receive_heard hs, hx]
  rfl

/-- A fault in a frame that the part hears is taken. -/
theorem hear_fault {s : State} {h : Heard} {k : FaultKind} {header : List Byte}
    {onIntact : State → Frame → State} (hs : s.Hears h) (hc : classify h.symbols = .fault k header) :
    s.hear h onIntact = (s.afterReceiving true .discarding none).takeFault k header := by
  obtain ⟨hv, hr⟩ := rxSymbols_classified h.symbols (some .fresh) _ hc (by simp)
  rcases hx : rxSymbols false .receiving (some .fresh) h.symbols with ⟨r, g, v⟩
  rw [hx] at hv hr
  cases hv
  obtain ⟨rfl, rfl⟩ : r = .discarding ∧ g = none := hr
  unfold State.hear
  rw [hs.on, hs.started, receive_heard hs, hx]
  rfl

/-- While the part transmits, and in a hard reset, nothing is heard. -/
theorem hear_deaf {s : State} {h : Heard} {onIntact : State → Frame → State}
    (hs : s.sending = true ∨ s.lnk.receiver = .off) : s.hear h onIntact = s := by
  unfold State.hear
  rw [if_pos]
  rcases hs with hs | hs
  · simp [hs]
  · simp [State.inReset, hs]

/-- Where no start delimiter is received, nothing is found, and nothing is in reception. -/
theorem rxSymbols_quiet (l : List LineSymbol) (r : Receiver) (hr : r = .listening ∨ r = .discarding) :
    ∃ r', (r' = .listening ∨ r' = .discarding) ∧
      rxSymbols true r none l = (r', none, .nothing) := by
  induction l generalizing r with
  | nil => exact ⟨r, hr, rfl⟩
  | cons x l ih =>
    have : ∃ r1, (r1 = .listening ∨ r1 = .discarding) ∧
        rxSymbol true r none x = (r1, none, .nothing) := by
      rcases hr with rfl | rfl <;> cases x <;>
        first
        | exact ⟨.listening, Or.inl rfl, rfl⟩
        | exact ⟨.discarding, Or.inr rfl, rfl⟩
    obtain ⟨r1, h1, he⟩ := this
    obtain ⟨r2, h2, hl⟩ := ih r1 h1
    refine ⟨r2, h2, ?_⟩
    unfold rxSymbols
    rw [he]
    exact hl

/-! ### Routing by kind -/

theorem isKind_of {h : Heard} {f : Frame} {k : Byte} (hf : h.frame? = some f) (hk : f.kind = k) :
    h.isKind k = true := by
  simp [Heard.isKind, hf, hk]

/-! ### Counting where no command commits (R127) -/

theorem commitChain_waits (fuel : Nat) (s : State)
    (h : ∀ c, s.cin.queue.head? = some c → c.remaining ≠ 0) : commitChain fuel s = s := by
  cases fuel with
  | zero => rfl
  | succ fuel =>
    unfold commitChain
    split
    · rfl
    · rename_i c rest heq
      rw [if_neg]
      exact h c (by simp [heq])

/-- A counted frame at whose end no command commits. -/
theorem countAndCommit_waiting (u : State) (h : u.Waits) :
    u.countAndCommit = u.setCin
      { u.cin with
        queue := u.cin.queue.map fun c => { c with remaining := c.remaining - 1 }
        expiry := if u.cin.queue = [] then none else some 200000 } := by
  unfold State.countAndCommit State.commitAll
  dsimp only
  rw [commitChain_waits]
  · simp only [State.countFrame, State.setCin_cin, Cin.restartExpiry, State.setCin_twice]
    congr 2
    simp only [List.isEmpty_iff, List.map_eq_nil_iff]
    rfl
  · intro c hc
    have hq : u.countFrame.cin.queue =
        u.cin.queue.map fun c => { c with remaining := c.remaining - 1 } := rfl
    rw [hq, List.head?_map] at hc
    obtain ⟨d, hd, rfl⟩ := Option.map_eq_some_iff.mp hc
    have := h d hd
    simp only
    omega

theorem countAndCommit_waits (s : State) (h : s.Waits) : s.heard.countAndCommit = s.counted :=
  countAndCommit_waiting s.heard h

theorem heard_accepting (s : State) : s.heard.stc.op.accepting = s.stc.op.accepting := rfl

end Sys2Proof.Machine
end

