-- ==== Sys2Proof/Laws/Counting.lean ====
section
/-! SUPPORT. Counting and the commits that follow: `CountedTo` holds of one state, the one that
`countAndCommit` answers (R105, R127, R128, R129). -/

namespace Sys2Proof.Machine

/-- A change of the part leaves the staging queue or empties it. -/
theorem Own.queue {s t : State} (h : Own s t) : t.cin.queue = s.cin.queue ∨ t.cin.queue = [] := by
  cases h with
  | softReset => exact Or.inr (by simp [State.discardContents])
  | dormant => exact Or.inr (by simp [State.discardContents])
  | applied a h => exact Or.inl (by simp)
  | lag => exact Or.inl rfl
  | held =>
    left
    simp only [State.hold]
    split <;> simp
  | cleared => exact Or.inl (by simp [State.clearFaultState])
  | parked => exact Or.inl (by simp)
  | hand => exact Or.inl (by simp)
  | raised => exact Or.inl (by simp)
  | consumed => exact Or.inl (by simp [State.consume])
  | fault => exact Or.inl (by simp)
  | _ => exact Or.inl rfl

theorem Owns.queue_length {s t : State} (h : Owns s t) : t.cin.queue.length ≤ s.cin.queue.length := by
  induction h with
  | refl => exact le_refl _
  | tail _ h ih =>
    rcases h.queue with h | h
    · rw [h]
      exact ih
    · rw [h]
      simp

theorem leaveQueue_length (s : State) (o : Origin) :
    (s.leaveQueue o).cin.queue.length ≤ s.cin.queue.length := by
  cases o with
  | unit seq =>
    simp only [State.leaveQueue, State.setCin_cin, Cin.idleIfEmpty]
    exact List.length_filter_le _ _
  | broadcast => exact le_refl _
  | group => exact le_refl _

/-- No commit makes the staging queue longer. -/
theorem commitStaged_length (c : Staged) (s : State) :
    (commitStaged c s).cin.queue.length ≤ s.cin.queue.length := by
  rcases commitStaged_shape c s with ⟨_, h⟩ | ⟨u, r, h, h2⟩
  · rw [h]
  · rw [h2, deliver_cin]
    exact le_trans h.queue_length (leaveQueue_length s _)

/-- The row of staged command bytes runs the commit. -/
theorem exec_ofStaged (o : Origin) (bytes : List Byte) (s : State) :
    exec (Instr.ofStaged o bytes) s = .next (commitRow (Instr.ofStaged o bytes) s) := by
  cases bytes with
  | nil => rfl
  | cons b args =>
    cases hc : Cmd.ofCode b with
    | none => simp [Instr.ofStaged, hc, exec, execUnknownCommand, codeUnknown, commitRow]
    | some c =>
      simp only [Instr.ofStaged, hc]
      exact exec_ofCmd _ _ _ _

theorem commitChain_to (fuel : Nat) (s : State) (h : s.cin.queue.length ≤ fuel) :
    s.CommitsTo (commitChain fuel s) := by
  induction fuel generalizing s with
  | zero =>
    have hq : s.cin.queue = [] := List.length_eq_zero_iff.mp (by omega)
    apply State.CommitsTo.waits
    intro c hc
    rw [hq] at hc
    cases hc
  | succ fuel ih =>
    unfold commitChain
    split
    · rename_i hq
      apply State.CommitsTo.waits
      intro c hc
      rw [hq] at hc
      cases hc
    · rename_i c rest hq
      split
      · rename_i hr
        refine State.CommitsTo.commits s _ _ c rest hq hr (exec_ofStaged _ _ _) (ih _ ?_)
        refine le_trans (commitStaged_length c _) ?_
        rw [hq] at h
        simp only [List.length_cons] at h
        simp only [State.setCin_cin]
        omega
      · rename_i hr
        apply State.CommitsTo.waits
        intro d hd
        rw [hq] at hd
        cases hd
        exact hr

theorem CommitsTo_unique {s t u : State} (h : s.CommitsTo t) (k : s.CommitsTo u) : t = u := by
  induction h with
  | waits s h =>
    cases k with
    | waits => rfl
    | commits _ _ _ c rest hq hr _ _ => exact absurd hr (h c (by rw [hq]; rfl))
  | commits s v t c rest hq hr row _ ih =>
    cases k with
    | waits _ h => exact absurd hr (h c (by rw [hq]; rfl))
    | commits _ v' _ c' rest' hq' hr' row' k' =>
      rw [hq] at hq'
      cases hq'
      rw [row] at row'
      cases row'
      exact ih k'

/-- The end of a counted frame has one outcome. -/
theorem CountedTo_iff (s t : State) : s.CountedTo t ↔ t = s.countAndCommit := by
  have key : ∀ u : State, u.commitAll =
      (commitChain u.cin.queue.length u).setCin
        { (commitChain u.cin.queue.length u).cin with
          expiry := if (commitChain u.cin.queue.length u).cin.queue = [] then none else some 200000 } := by
    intro u
    unfold State.commitAll Cin.restartExpiry
    simp only [List.isEmpty_iff]
    rfl
  constructor
  · rintro ⟨u, h, rfl⟩
    have := CommitsTo_unique h (commitChain_to _ _ (le_refl _))
    subst this
    unfold State.countAndCommit
    rw [key]
    rfl
  · rintro rfl
    refine ⟨_, commitChain_to _ _ (le_refl _), ?_⟩
    unfold State.countAndCommit
    rw [key]
    rfl

end Sys2Proof.Machine
end

