-- ==== Sys2Proof/Laws/Dispatch.lean ====
section
/-! SUPPORT. What one occurrence does to the part: an on-time one is `AfterOnTime`, one that the late rule
settles is `AfterLate` (R26 to R34). -/

namespace Sys2Proof.Machine

/-- Consuming occurrences of an entry leaves the table without them (R8, R29, R33). -/
theorem Sct.consume_without (t : Sct) (e : Entry) (k : Nat) (b : Bool) (p : Prop) [Decidable p]
    (hb : b = true ↔ p) : t.consume e k b = t.without e k p := by
  have hf : (if p then min 65535 (e.fired + 1) else e.fired) = e.countFired b := by
    unfold Entry.countFired
    by_cases h : p
    · rw [if_pos h, if_pos (hb.mpr h)]
    · rw [if_neg h, if_neg (fun x => h (hb.mp x))]
  have hrm : t.remove e.handle =
      { t with entries := t.entries.filter fun x => decide (x.handle ≠ e.handle) } := by
    unfold Sct.remove
    congr 1
    apply List.filter_congr
    intro x _
    by_cases hx : x.handle = e.handle <;> simp [hx]
  have hte : Config.timeEnd = 2 ^ 63 := rfl
  unfold Sct.consume Entry.advance Sct.without
  cases hr : e.repeats with
  | none => simp only [hrm]
  | some r =>
    simp only [hf]
    by_cases h0 : r.count = 0
    · by_cases hd : e.due + k * r.period < 2 ^ 63
      · simp only [h0, if_true, hte, hd, ne_eq, not_true, and_false, false_or]
        rw [if_neg (by omega), hrm]
      · simp only [h0, if_true, hte, hd, ne_eq, not_true, and_false, false_or, if_false]
        rw [if_pos (by omega), hrm]
    · simp only [h0, if_false, hte]
      by_cases hk : e.remaining ≤ k
      · simp [hk, hrm, h0]
      · simp only [hk, if_false, false_and, false_or]
        by_cases hd : e.due + k * r.period < 2 ^ 63
        · rw [if_pos hd, if_neg (by omega)]
          simp only [hrm]
        · rw [if_neg hd, if_pos (by omega)]
          simp only [hrm]

theorem fireOnTime_after (s : State) (e : Entry) : s.AfterOnTime e (s.fireOnTime e) := by
  have hg : s.gateOpen e = true ↔ s.passesGate e := gateOpen_iff s e
  unfold State.fireOnTime State.consume
  constructor
  · intro h
    rw [if_pos (hg.mpr h), Sct.consume_without _ e 1 true True (by simp)]
    simp only [State.reportFired]
    congr 1
    split <;> simp
  · intro h
    rw [if_neg (fun x => h (hg.mp x)), Sct.consume_without _ e 1 false False (by simp)]
    simp only [State.reportMissed]
    congr 1
    simp

/-- The on-time occurrence has one outcome. -/
theorem AfterOnTime_unique {s t : State} {e : Entry} (h : s.AfterOnTime e t) : t = s.fireOnTime e := by
  have h2 := fireOnTime_after s e
  by_cases hg : s.passesGate e
  · rw [h.1 hg, h2.1 hg]
  · rw [h.2 hg, h2.2 hg]

/-- The number of past occurrences and the last of them, as the statements have them (R34). -/
theorem Entry.past_iff (e : Entry) (now k last : Nat) :
    e.Past now k last ↔ k = e.pastCount now ∧ last = e.dueOf (e.pastCount now - 1) := by
  unfold Entry.Past Entry.pastCount Entry.dueOf
  cases e.repeats with
  | none => rfl
  | some r =>
    simp only
    constructor
    · rintro ⟨rfl, rfl⟩
      exact ⟨rfl, rfl⟩
    · rintro ⟨rfl, rfl⟩
      exact ⟨rfl, rfl⟩

theorem Entry.pastCount_pos (e : Entry) (now : Nat) (h : e.inRange) : 1 ≤ e.pastCount now := by
  have h7 := h.2.2.2.2.2.2
  unfold Entry.remainingOk at h7
  unfold Entry.pastCount
  cases hr : e.repeats with
  | none => simp
  | some r =>
    simp only [hr] at h7 ⊢
    obtain ⟨_, _, _, h7⟩ := h7
    split at h7
    · simp_all
    · simp_all

theorem settleLate_after (s : State) (e : Entry) (now : Nat) (h : e.inRange) :
    s.AfterLate e now (s.settleLate e now) := by
  intro k last hp
  obtain ⟨rfl, rfl⟩ := (e.past_iff now k last).mp hp
  have hpos := e.pastCount_pos now h
  have hg : s.gateOpen e = true ↔ s.passesGate e := gateOpen_iff s e
  have hf : s.firesLate e now = true ↔
      (s.passesGate e ∧ e.lateFire = true ∧
        now - e.dueOf (e.pastCount now - 1) ≤ s.dpu.lateTolerance) := by
    unfold State.firesLate
    simp only [Bool.and_eq_true, decide_eq_true_eq, hg, and_assoc]
  have hprev : e.pastCount now ≠ 1 → e.dueOf (e.pastCount now - 2) =
      e.dueOf (e.pastCount now - 1) - (match e.repeats with
        | none => 0
        | some r => r.period) := by
    intro h1
    unfold Entry.dueOf
    cases e.repeats with
    | none => rfl
    | some r =>
      obtain ⟨m, hm⟩ : ∃ m, e.pastCount now = m + 2 := ⟨e.pastCount now - 2, by omega⟩
      simp only [hm, Nat.add_sub_cancel, show m + 2 - 1 = m + 1 from rfl]
      rw [Nat.add_mul]
      omega
  unfold State.settleLate State.consume
  constructor
  · intro hF
    simp only
    rw [if_pos (hf.mpr hF), Sct.consume_without _ e _ true True (by simp)]
    simp only [State.reportFired, State.reportMissed]
    by_cases h1 : e.pastCount now = 1
    · simp only [if_pos h1]
      congr 1
      split <;> simp
    · simp only [if_neg h1, hprev h1]
      congr 1
      split <;> simp
  · intro hF
    simp only
    rw [if_neg (fun x => hF (hf.mp x)), Sct.consume_without _ e _ false False (by simp)]
    simp only [State.reportMissed]
    congr 1
    simp

/-- What the late rule makes of an entry has one outcome. -/
theorem AfterLate_unique {s t : State} {e : Entry} {now : Nat} (h : e.inRange)
    (ht : s.AfterLate e now t) : t = s.settleLate e now := by
  have h2 := settleLate_after s e now h
  have hp := (e.past_iff now _ _).mpr ⟨rfl, rfl⟩
  by_cases hg : s.passesGate e ∧ e.lateFire = true ∧
      now - e.dueOf (e.pastCount now - 1) ≤ s.dpu.lateTolerance
  · rw [(ht _ _ hp).1 hg, (h2 _ _ hp).1 hg]
  · rw [(ht _ _ hp).2 hg, (h2 _ _ hp).2 hg]

/-- Where no edge waits, a moment of dispatch changes nothing (R99). -/
theorem passEdges_alone (s : State) (h : s.cap.waiting = []) : s.passEdges = s := by
  unfold State.passEdges
  simp only [h, List.map_nil, List.filter_nil, takeEdges]
  have : ({ s.cap with waiting := [] } : Cap) = s.cap := by rw [← h]
  rw [this, State.setCap_self]

/-- An action of dispatch leaves the edges that wait. -/
theorem applyAction_waiting (s : State) (a : Action) :
    (s.applyAction a).cap.waiting = s.cap.waiting := by
  cases a <;> rfl

/-- Where no edge waits, DPU's record is handed over and no more (R99). -/
theorem handRecord_alone (s : State) (body : EventBody) (h : s.cap.waiting = []) :
    s.handRecord body = s.handEvent body :=
  passEdges_alone _ (by simpa using h)

/-- Where no edge waits, DPU's action is applied and no more (R28). -/
theorem handAction_alone (s : State) (a : Action) (h : s.cap.waiting = []) :
    s.handAction a = s.applyAction a :=
  passEdges_alone _ (by rw [applyAction_waiting, h])

/-- What the late rule settles changes the table by one consuming request (R33). -/
theorem settleLate_sct (s : State) (e : Entry) (now : Nat) :
    ∃ b, (s.settleLate e now).sct = s.sct.consume e (e.pastCount now) b := by
  unfold State.settleLate
  simp only
  split
  · refine ⟨true, ?_⟩
    simp only [State.consume, State.reportFired, State.setSct_sct]
    split <;> split <;> simp
  · exact ⟨false, by simp [State.consume]⟩

end Sys2Proof.Machine
end

