-- ==== Sys2Proof/Laws/Invariants.lean ====
section
/-! SUPPORT. What every change of the part keeps, one predicate of Safety.lean at a time; the schedule table
stands in `Table.lean`, the staging queue and the outbox in `Intake.lean`. -/

namespace Sys2Proof.Machine

variable {p : Prop}

/-! ### The event queue (R98) -/

/-- A record stored or discarded keeps the run of sequence numbers (R97, R98). -/
theorem handEvent_events (s : State) (b : EventBody) (h : s.evq.Sound) : (s.handEvent b).evq.Sound := by
  unfold State.handEvent
  split
  · rename_i hroom
    refine { capacity := ?_, consecutive := ?_, lost := h.lost }
    · simp only [State.setEvq, List.length_append, List.length_singleton]
      omega
    · intro i hi
      simp only [State.setEvq, List.length_append, List.length_singleton] at hi ⊢
      rw [List.getElem_append]
      split
      · rename_i hlt
        rw [h.consecutive i hlt]
        have hsub : s.evq.records.length + 1 - i = (s.evq.records.length - i) + 1 := by omega
        rw [hsub, BitVec.ofNat_add, show BitVec.ofNat 16 1 = (1 : BitVec 16) from rfl]
        ring
      · have hi' : i = s.evq.records.length := by omega
        subst hi'
        simp
  · refine { capacity := h.capacity, consecutive := h.consecutive, lost := ?_ }
    exact Nat.min_le_left _ _

/-- Reading takes the oldest records and leaves the run of the others (R98, R100). -/
theorem readEvents_events (x : Evq) (n : Nat) (h : x.Sound) :
    ({ x with records := x.records.drop n, lost := 0 } : Evq).Sound where
  capacity := le_trans (by simp) h.capacity
  consecutive := by
    intro i hi
    simp only [List.length_drop] at hi ⊢
    rw [List.getElem_drop, h.consecutive (n + i) (by omega)]
    congr 2
    omega
  lost := Nat.zero_le _

theorem Evq.empty_sound (x : Evq) (h : x.records = []) (hl : x.lost = 0) : x.Sound where
  capacity := by simp [h]
  consecutive := by
    intro i hi
    simp [h] at hi
  lost := by simp [hl]

theorem Own.keeps_events {s t : State} (h : Own s t) (hs : s.evq.Sound) : t.evq.Sound := by
  cases h with
  | hand b => exact handEvent_events s b hs
  | read n => exact readEvents_events _ n hs
  | softReset => exact Evq.empty_sound _ rfl rfl
  | dormant => exact Evq.empty_sound _ rfl rfl
  | _ => simpa using hs

theorem Act.keeps_events {s t : State} (h : Act p s t) (hs : s.evq.Sound) : t.evq.Sound := by
  cases h with
  | own h => exact h.keeps_events hs
  | reset => exact Evq.empty_sound _ rfl rfl
  | _ => exact hs

/-! ### The operating state (R113) -/

theorem hold_stc (s : State) :
    s.hold.stc =
      match s.stc.op.held with
      | none => s.stc
      | some h => { s.stc with op := .faultHold, beforeFault := some h } := by
  unfold State.hold State.goTo
  cases hh : s.stc.op.held <;> dsimp only
  split <;> simp

theorem hold_nested (s : State) (hs : s.stc.Nested) : s.hold.stc.Nested := by
  rw [hold_stc]
  unfold Stc.Nested at hs ⊢
  cases hop : s.stc.op <;> simp [hop, OpState.held] at hs ⊢ <;> simp_all

theorem Own.keeps_nested {s t : State} (h : Own s t) (hs : s.stc.Nested) : t.stc.Nested := by
  cases h with
  | cleared x nested => exact nested hs
  | stc x nested => exact nested hs
  | parked h =>
    have : (s.goTo .parked).stc = { s.stc with op := .parked } := by
      unfold State.goTo
      dsimp only
      split <;> simp
    rw [this]
    simp only [Stc.Nested, h] at hs ⊢
    simpa using hs
  | held => exact hold_nested s hs
  | softReset =>
    show Stc.Nested { op := .config, beforeFault := none, beforeAlign := none, wakeDelay := none }
    simp [Stc.Nested]
  | dormant =>
    show Stc.Nested { op := .dormant, beforeFault := none, beforeAlign := none, wakeDelay := none }
    simp [Stc.Nested]
  | _ => simpa using hs

theorem Act.keeps_nested {s t : State} (h : Act p s t) (hs : s.stc.Nested) : t.stc.Nested := by
  cases h with
  | own h => exact h.keeps_nested hs
  | reset =>
    show Stc.Nested Stc.reset
    simp [Stc.Nested, Stc.reset]
  | tick =>
    show Stc.Nested { s.stc with wakeDelay := countDown s.stc.wakeDelay }
    unfold Stc.Nested at hs ⊢
    simpa [countDown_isSome] using hs
  | _ => exact hs

/-! ### Faults (R171, R175, R178, R185) -/

theorem handEvent_fault (s : State) (b : EventBody) :
    (s.handEvent b).atn.flags.fault = s.atn.flags.fault := by
  unfold State.handEvent
  split <;> rfl

/-- The fault state depends on IMN, the FAULT flag and the operating state alone. -/
theorem faultSound_of_eq {s t : State} (hs : s.FaultSound) (himn : t.imn.flag = s.imn.flag)
    (hrec : t.imn.record = s.imn.record) (hcount : t.imn.count = s.imn.count)
    (hflag : t.atn.flags.fault = s.atn.flags.fault)
    (hop : t.stc.op = .faultHold → s.stc.op = .faultHold ∧ t.imn.mode = s.imn.mode) : t.FaultSound where
  cleared := by
    rw [himn, hrec, hcount]
    exact hs.cleared
  standing := by
    rw [himn, hrec, hcount]
    exact hs.standing
  condition := by
    rw [hflag, himn]
    exact hs.condition
  held := by
    intro h
    obtain ⟨h1, h2⟩ := hop h
    rw [himn, h2]
    exact hs.held h1
  detected := by
    rw [hrec]
    exact hs.detected

theorem FaultSound.ofClear {t : State} (hf : t.imn.flag = false) (hr : t.imn.record = none)
    (hc : t.imn.count = 0) (ha : t.atn.flags.fault = false) (ho : t.stc.op ≠ .faultHold) :
    t.FaultSound where
  cleared := fun _ => ⟨hr, hc⟩
  standing := by
    intro h
    rw [hf] at h
    cases h
  condition := by rw [hf, ha]
  held := fun h => absurd h ho
  detected := by
    intro r h
    rw [hr] at h
    cases h

theorem Own.keeps_faults {s t : State} (h : Own s t) (hn : s.stc.Nested) (hs : s.FaultSound) :
    t.FaultSound := by
  cases h with
  | hand b =>
    exact faultSound_of_eq hs (by simp) (by simp) (by simp) (handEvent_fault s b)
      (fun h => ⟨by simpa using h, by simp⟩)
  | raised c h =>
    refine faultSound_of_eq hs rfl rfl rfl ?_ (fun h => ⟨h, rfl⟩)
    cases c <;> first | rfl | exact absurd rfl h
  | mask => exact faultSound_of_eq hs rfl rfl rfl rfl (fun h => ⟨h, rfl⟩)
  | acknowledged => exact faultSound_of_eq hs rfl rfl rfl rfl (fun h => ⟨h, rfl⟩)
  | cleared x nested out => exact FaultSound.ofClear rfl rfl rfl rfl (out hn)
  | stc x nested free => exact faultSound_of_eq hs rfl rfl rfl rfl (fun h => absurd h free)
  | parked h =>
    refine faultSound_of_eq hs (by simp) (by simp) (by simp) (by simp) ?_
    intro h'
    unfold State.goTo at h'
    dsimp only at h'
    split at h' <;> simp at h'
  | softReset => exact FaultSound.ofClear rfl rfl rfl rfl (by simp [State.discardContents])
  | dormant => exact FaultSound.ofClear rfl rfl rfl rfl (by simp [State.discardContents])
  | faultMode m h =>
    exact faultSound_of_eq hs rfl rfl rfl rfl (fun h' => absurd h' h)
  | quiesce => exact faultSound_of_eq hs rfl rfl rfl rfl (fun h => ⟨h, rfl⟩)
  | fault r hr =>
    have hcl := hs.cleared
    have hst := hs.standing
    have hde := hs.detected
    have hhe := hs.held
    cases hf : s.imn.flag with
    | false =>
      have hop : s.stc.op ≠ .faultHold := by
        intro h
        have := (hhe h).1
        rw [hf] at this
        cases this
      refine { cleared := ?_, standing := ?_, condition := rfl, held := ?_, detected := ?_ }
      · intro h
        simp [Imn.report] at h
      · intro _
        simp [Imn.report, hf]
      · intro h
        exact absurd h hop
      · intro r' h'
        simp [Imn.report, hf] at h'
        exact h' ▸ hr hf hop
    | true =>
      obtain ⟨h1, h2, h3⟩ := hst hf
      refine { cleared := ?_, standing := ?_, condition := rfl, held := ?_, detected := ?_ }
      · intro h
        simp [Imn.report] at h
      · intro _
        simp only [State.raiseCondition, State.setAtn, State.setImn, Imn.report, hf, if_true]
        refine ⟨h1, ?_, Nat.min_le_left _ _⟩
        omega
      · intro h
        exact ⟨rfl, (hhe h).2⟩
      · intro r' h'
        simp [Imn.report, hf] at h'
        exact hde r' h'
  | held flag mode =>
    refine
      { cleared := ?_, standing := ?_, condition := ?_, held := ?_, detected := ?_ }
    · simpa using hs.cleared
    · simpa using hs.standing
    · simpa using hs.condition
    · intro _
      simpa using ⟨flag, mode⟩
    · simpa using hs.detected
  | _ =>
    refine faultSound_of_eq hs ?_ ?_ ?_ ?_ ?_ <;> simp

theorem Act.keeps_faults {s t : State} (h : Act p s t) (hn : s.stc.Nested) (hs : s.FaultSound) :
    t.FaultSound := by
  cases h with
  | own h => exact h.keeps_faults hn hs
  | reset =>
    exact FaultSound.ofClear rfl rfl rfl rfl (by
      show Stc.reset.op ≠ .faultHold
      decide)
  | _ => exact faultSound_of_eq hs rfl rfl rfl rfl (fun h => ⟨h, rfl⟩)

/-! ### Pins outside RUN (R69, R70, R92) -/

/-- Pulses and windows may go, and nothing else of what IdlePins speaks of may change, outside RUN. -/
theorem idlePins_of {s t : State} (hs : s.IdlePins)
    (hrun : t.stc.op ≠ .run → s.stc.op ≠ .run)
    (hout : t.out = s.out) (hcap : t.cap = s.cap) : t.IdlePins where
  pulses := by
    rw [hout]
    exact fun h => hs.pulses (hrun h)
  disabled := by
    rw [hout]
    exact hs.disabled
  windows := by
    rw [hcap]
    exact fun h => hs.windows (hrun h)
  modes := by
    rw [hcap]
    exact hs.modes

/-- Where every pulse and every window is gone there is nothing to show. -/
theorem idlePins_of_none {t : State} (hp : ∀ n : Fin 16, t.out.channels[n].pulse = none)
    (hw : ∀ n : Fin 4, t.cap.inputs[n].window = none) : t.IdlePins where
  pulses := fun _ => hp
  disabled := fun n _ => hp n
  windows := fun _ => hw
  modes := fun n _ => hw n

theorem applyAction_pins (s : State) (a : Action) (h : s.stc.op = .run) (hs : s.IdlePins) :
    (s.applyAction a).IdlePins where
  pulses := by
    intro hne
    exact absurd (by simpa using h) hne
  disabled := by
    intro n hd
    have hd' : s.out.channels[n].enable = false := by
      rw [← applyAction_enable s a n]
      exact hd
    rw [applyAction_disabled s a n hd']
    exact hs.disabled n hd'
  windows := by
    intro hne
    exact absurd (by simpa using h) hne
  modes := by
    intro n hm
    have hm' : s.cap.inputs[n].mode ≠ .windowed := by
      rw [← applyAction_mode s a n]
      exact hm
    rw [applyAction_unwindowed s a n hm']
    exact hs.modes n hm'

theorem goTo_pins (s : State) (op : OpState) (hs : s.IdlePins) :
    (s.goTo op).IdlePins := by
  unfold State.goTo
  dsimp only
  split
  · refine idlePins_of_none ?_ ?_
    · intro n
      simp only [State.setCap_out, State.setOut_out, Out.cutPulses_get]
    · intro n
      simp only [State.setCap_cap, Cap.closeWindows_get]
  · rename_i h
    exact idlePins_of hs (fun _ => h) rfl rfl

theorem discard_pins (s : State) (op : OpState) : (s.discardContents op).IdlePins := by
  refine idlePins_of_none ?_ ?_
  · intro n
    simp [State.discardContents, Channel.softReset]
  · intro n
    simp [State.discardContents, Input.softReset]

theorem Own.keeps_pins {s t : State} (h : Own s t) (hs : s.IdlePins) : t.IdlePins := by
  cases h with
  | applied a h => exact applyAction_pins s a h hs
  | out x pulses enables =>
    refine { pulses := ?_, disabled := ?_, windows := hs.windows, modes := hs.modes }
    · intro hne n
      rcases pulses n with h | h
      · exact h
      · exact h.trans (hs.pulses hne n)
    · intro n hd
      rcases pulses n with h | h
      · exact h
      · by_cases hop : s.stc.op = .run
        · exact h.trans (hs.disabled n ((enables hop n).symm.trans hd))
        · exact h.trans (hs.pulses hop n)
  | cap x windows =>
    refine { pulses := hs.pulses, disabled := hs.disabled, windows := ?_, modes := ?_ }
    · intro hne n
      rcases windows n with h | h
      · exact h
      · exact h.1.trans (hs.windows hne n)
    · intro n hm
      rcases windows n with h | h
      · exact h
      · exact h.1.trans (hs.modes n (fun hx => hm (h.2.trans hx)))
  | cleared x nested out run => exact idlePins_of hs run rfl rfl
  | stc x nested free run => exact idlePins_of hs run rfl rfl
  | parked h => exact goTo_pins s _ hs
  | held =>
    unfold State.hold
    split
    · exact hs
    · exact idlePins_of (goTo_pins s .faultHold hs)
        (fun _ => by
          unfold State.goTo
          dsimp only
          split <;> simp) rfl rfl
  | softReset => exact idlePins_of (discard_pins s .config) (fun h => h) rfl rfl
  | dormant => exact idlePins_of (discard_pins s .dormant) (fun h => h) rfl rfl
  | _ =>
    refine idlePins_of hs ?_ ?_ ?_ <;> simp

theorem tick_pins (s : State) (hs : s.IdlePins) : s.tick.IdlePins where
  pulses := by
    intro hne n
    have := hs.pulses hne n
    simp only [Fin.getElem_fin] at this
    simp [State.tick, Channel.tick, this, countDown]
  disabled := by
    intro n hd
    have h1 : s.out.channels[n].enable = false := by
      simpa [State.tick, Channel.tick] using hd
    have := hs.disabled n h1
    simp only [Fin.getElem_fin] at this
    simp [State.tick, Channel.tick, this, countDown]
  windows := by
    intro hne n
    have := hs.windows hne n
    simp only [Fin.getElem_fin] at this
    simp [State.tick, Input.tick, this, countDown]
  modes := by
    intro n hm
    have h1 : s.cap.inputs[n].mode ≠ .windowed := by
      simpa [State.tick, Input.tick] using hm
    have := hs.modes n h1
    simp only [Fin.getElem_fin] at this
    simp [State.tick, Input.tick, this, countDown]

theorem Act.keeps_pins {s t : State} (h : Act p s t) (hs : s.IdlePins) : t.IdlePins := by
  cases h with
  | own h => exact h.keeps_pins hs
  | reset =>
    refine idlePins_of_none ?_ ?_
    · intro n
      show (Vector.replicate 16 Channel.reset)[n].pulse = none
      simp [Channel.reset]
    · intro n
      show (s.cap.inputs.map fun i => Input.reset i.level i.sampled)[n].window = none
      simp [Input.reset]
  | tick => exact tick_pins s hs
  | _ => exact idlePins_of hs (fun h => h) rfl rfl

/-! ### The timebase (R46, R11, R61) -/

theorem Tbu.reset_sound : Tbu.reset.Sound where
  unset := by simp [Tbu.reset]
  valid := by simp [Tbu.reset]
  modes := Or.inl rfl
  watch := rfl
  fraction := by simp [Tbu.reset]
  rate := by decide
  offset := by decide
  interval := by decide
  limit := by decide
  acquisition := by decide
  holdover := by decide

theorem Tbu.lose_sound (x : Tbu) (h : x.Sound) : x.lose.Sound :=
  { Tbu.reset_sound with
    modes := Or.inl rfl
    offset := h.offset
    interval := h.interval
    limit := h.limit }

theorem Own.keeps_timebase {s t : State} (h : Own s t) (hs : s.tbu.Sound) : t.tbu.Sound := by
  cases h with
  | tbu x sound => exact sound hs
  | dormant => exact Tbu.lose_sound _ hs
  | _ => simpa using hs

theorem Act.keeps_timebase {s t : State} (h : Act p s t) (hs : s.tbu.Sound) : t.tbu.Sound := by
  cases h with
  | own h => exact h.keeps_timebase hs
  | reset => exact Tbu.reset_sound
  | tick => exact Tbu.tick_sound _ hs
  | _ => exact hs

/-- The table of entries may lose entries, and the timebase may not lose its value or change its mode. -/
theorem timedTable_of {s t : State} (hs : s.TimedTable)
    (hu : t.tbu.state = .unset → s.tbu.state = .unset)
    (hm : t.tbu.mode = .selfTimed → s.tbu.mode = .selfTimed)
    (he : ∀ e ∈ t.sct.entries, ∃ y ∈ s.sct.entries, y.requireLock = e.requireLock) : t.TimedTable where
  unset := by
    intro h
    have := hs.unset (hu h)
    rw [List.eq_nil_iff_forall_not_mem]
    intro e hmem
    obtain ⟨y, hy, _⟩ := he e hmem
    rw [this] at hy
    cases hy
  selfTimed := by
    intro h e hmem
    obtain ⟨y, hy, hyl⟩ := he e hmem
    rw [← hyl]
    exact hs.selfTimed (hm h) y hy

theorem timedTable_of_empty {t : State} (h : t.sct.entries = []) : t.TimedTable where
  unset := fun _ => h
  selfTimed := by simp [h]

theorem Entry.advance_requireLock (e next : Entry) (k : Nat) (fired : Bool)
    (ha : e.advance k fired = some next) : next.requireLock = e.requireLock := by
  unfold Entry.advance at ha
  dsimp only at ha
  (repeat' split at ha) <;> cases ha <;> rfl

theorem Own.keeps_timed {s t : State} (h : Own s t) (hs : s.TimedTable) : t.TimedTable := by
  cases h with
  | consumed e k fired hmem =>
    refine timedTable_of hs (fun h => h) (fun h => h) ?_
    intro y hy
    simp only [State.consume, State.setSct_sct, Sct.consume] at hy
    split at hy
    · exact ⟨y, List.mem_of_mem_filter hy, rfl⟩
    · rename_i next ha
      rcases (mem_insertEntry _ _ _).mp hy with rfl | hy
      · exact ⟨e, hmem, (Entry.advance_requireLock e next k fired ha).symm⟩
      · exact ⟨y, List.mem_of_mem_filter hy, rfl⟩
  | placed e room free range set lock =>
    refine { unset := fun h => absurd h set, selfTimed := ?_ }
    intro hm y hy
    rcases (mem_insertEntry _ _ _).mp hy with rfl | hy
    · by_contra hl
      exact lock (by simpa using hl) hm
    · exact hs.selfTimed hm y hy
  | filtered q =>
    exact timedTable_of hs (fun h => h) (fun h => h)
      (fun y hy => ⟨y, List.mem_of_mem_filter hy, rfl⟩)
  | flushed => exact timedTable_of_empty rfl
  | tbu x sound unset mode =>
    refine { unset := fun h => hs.unset (unset h), selfTimed := ?_ }
    intro hm e he
    rcases mode hm with h | h
    · exact hs.selfTimed h e he
    · have := List.any_eq_false.mp h e he
      simpa using this
  | softReset => exact timedTable_of_empty rfl
  | dormant => exact timedTable_of_empty rfl
  | _ =>
    refine timedTable_of hs ?_ ?_ ?_
    · simp
    · simp
    · intro e he
      exact ⟨e, by simpa using he, rfl⟩

theorem Act.keeps_timed {s t : State} (h : Act p s t) (hs : s.TimedTable) : t.TimedTable := by
  cases h with
  | own h => exact h.keeps_timed hs
  | reset => exact timedTable_of_empty rfl
  | tick =>
    have htick : s.tick.tbu.state = s.tbu.state ∧ s.tick.tbu.mode = s.tbu.mode := by
      show s.tbu.tick.state = _ ∧ s.tbu.tick.mode = _
      unfold Tbu.tick
      split <;> exact ⟨rfl, rfl⟩
    exact timedTable_of hs (fun h => by rw [← htick.1]; exact h)
      (fun h => by rw [← htick.2]; exact h) (fun e he => ⟨e, he, rfl⟩)
  | _ => exact timedTable_of hs (fun h => h) (fun h => h) (fun e he => ⟨e, he, rfl⟩)

/-! ### Alignment (R190, R191) -/

theorem alignSound_of {s t : State} (hs : s.AlignSound) (ha : t.aln = s.aln)
    (hop : s.aln.pending.isSome → s.stc.op = .align → t.stc.op = .align) : t.AlignSound where
  log := by
    rw [ha]
    exact hs.log
  total := by
    rw [ha]
    exact hs.total
  pending := by
    rw [ha]
    exact fun h => hop h (hs.pending h)

theorem alignSound_reset {t : State} (ha : t.aln = Aln.reset) : t.AlignSound where
  log := by
    rw [ha]
    decide
  total := by
    rw [ha]
    decide
  pending := by
    rw [ha]
    simp [Aln.reset]

theorem Own.keeps_alignment {s t : State} (h : Own s t) (hs : s.AlignSound) : t.AlignSound := by
  cases h with
  | aln x log pending =>
    obtain ⟨h1, h2, h3⟩ := log hs.log hs.total.1 hs.total.2
    exact { log := h1, total := ⟨h2, h3⟩, pending := pending }
  | cleared x nested out run align => exact alignSound_of hs rfl (fun _ h => align h)
  | stc x nested free run align => exact alignSound_of hs rfl align
  | parked h =>
    refine alignSound_of hs (by simp) ?_
    intro _ h'
    rw [h] at h'
    exact absurd h' (by decide)
  | held =>
    unfold State.hold
    split
    · exact hs
    · refine { log := by simpa using hs.log, total := by simpa using hs.total, pending := by simp }
  | softReset => exact alignSound_reset rfl
  | dormant => exact alignSound_reset rfl
  | _ =>
    refine alignSound_of hs ?_ ?_ <;> simp

theorem Act.keeps_alignment {s t : State} (h : Act p s t) (hs : s.AlignSound) : t.AlignSound := by
  cases h with
  | own h => exact h.keeps_alignment hs
  | reset => exact alignSound_reset rfl
  | _ => exact alignSound_of hs rfl (fun _ h => h)

/-! ### The queue of waiting commands, and the transmitter -/

theorem Own.keeps_pending {s t : State} (h : Own s t) : t.pending = s.pending := by
  cases h <;> first | rfl | simp

theorem Act.keeps_pending {s t : State} (h : Act p s t) : t.pending = s.pending := by
  cases h with
  | own h => exact h.keeps_pending
  | _ => rfl

theorem Own.keeps_draws {s t : State} (h : Own s t) : t.draws = s.draws := by
  cases h <;> first | rfl | simp

/-- Only a POLL, and the choice among due rows, draw a free value (logs 6 and 7). -/
theorem Act.keeps_draws {s t : State} (h : Act False s t) : t.draws = s.draws := by
  cases h with
  | own h => exact h.keeps_draws
  | drawn h => exact absurd h id
  | _ => rfl

theorem Own.keeps_quiet {s t : State} (h : Own s t) (hs : s.lnk.transmitter = .idle) :
    t.lnk.transmitter = .idle := by
  cases h with
  | lnk x idle => exact idle hs
  | _ => simpa using hs

/-- Only a reply handed over by RPU takes the transmitter out of IDLE (R151). -/
theorem Act.keeps_quiet {s t : State} (h : Act False s t) (hs : s.lnk.transmitter = .idle) :
    t.lnk.transmitter = .idle := by
  cases h with
  | own h => exact h.keeps_quiet hs
  | reset l h => exact h
  | reply x h => exact absurd h id
  | tick =>
    show s.lnk.transmitter.tick = .idle
    rw [hs]
    rfl
  | _ => exact hs

end Sys2Proof.Machine
end

