-- ==== Sys2Proof/Laws/Intake.lean ====
section
/-! SUPPORT. The staging queue and the outbox (R129, R155, R158): every row keeps `State.IntakeSound`. While
a command commits, its reservation is owed a result: `Owing` is the same with that one exception. -/

namespace Sys2Proof.Machine

/-! ### Live: commits go on, or nothing is staged -/

theorem hold_accepting (s : State) (h : s.stc.op.accepting = true) :
    s.hold.stc.op.accepting = true := by
  rw [hold_stc]
  cases hop : s.stc.op <;> rw [hop] at h <;> first | rfl | exact absurd h (by decide) | skip
  all_goals simp [OpState.held, hop, OpState.accepting]

theorem goTo_op (s : State) (op : OpState) : (s.goTo op).stc.op = op := by
  unfold State.goTo
  dsimp only
  split <;> rfl

theorem commits_of {s t : State} (ho : s.stc.op.accepting = true → t.stc.op.accepting = true)
    (hr : t.lnk.receiver = .off → s.lnk.receiver = .off) (h : s.commits = true) :
    t.commits = true := by
  unfold State.commits State.inReset at *
  simp only [Bool.and_eq_true, Bool.not_eq_true', beq_eq_false_iff_ne, ne_eq] at *
  exact ⟨ho h.1, fun hx => h.2 (hr hx)⟩

theorem Own.keeps_live {s t : State} (h : Own s t) (hs : s.Live) : t.Live := by
  have plain (hl : t.lnk = s.lnk) (hst : t.stc = s.stc) (hq : t.cin.queue = s.cin.queue) :
      t.Live := by
    rcases hs with hc | hq0
    · left
      refine commits_of ?_ ?_ hc
      · rw [hst]
        exact fun h => h
      · rw [hl]
        exact fun h => h
    · right
      rw [hq, hq0]
  cases h with
  | lnk x idle on =>
    rcases hs with hc | hq
    · exact Or.inl (commits_of (s := s) (t := s.setLnk x) (fun h => h) on hc)
    · exact Or.inr hq
  | cleared x _ _ _ _ accepts =>
    rcases hs with hc | hq
    · exact Or.inl (commits_of accepts (fun h => h) hc)
    · exact Or.inr hq
  | stc x _ _ _ _ accepts =>
    rcases hs with hc | hq
    · exact Or.inl (commits_of accepts (fun h => h) hc)
    · exact Or.inr hq
  | parked h =>
    rcases hs with hc | hq
    · refine Or.inl (commits_of ?_ ?_ hc)
      · rw [goTo_op]
        intro _
        rfl
      · simp
    · right
      simpa using hq
  | held =>
    rcases hs with hc | hq
    · exact Or.inl (commits_of (hold_accepting s) (by simp) hc)
    · right
      simpa using hq
  | softReset => exact Or.inr rfl
  | dormant => exact Or.inr rfl
  | _ => exact plain (by simp) (by simp) (by simp)

/-! ### Owing -/

/-- The sequence whose reservation a commit owes a result. -/
def owedSeq : Origin → Option Byte
  | .unit seq => some seq
  | .broadcast => none
  | .group => none

/-- `State.IntakeSound`, but that the RESERVED record of the sequence `owed` has no command staged. -/
structure State.Owing (owed : Option Byte) (s : State) : Prop where
  staging : s.cin.queue.length ≤ Config.stagingCapacity
  lag : s.cin.lag ≤ 7
  counts : ∀ c ∈ s.cin.queue, c.remaining ≤ 7
  outbox : s.rpu.outbox.length ≤ Config.outboxCapacity
  distinct : (s.rpu.outbox.map ReplyRecord.seq).Nodup
  reserved : s.rpu.reservedSeqs.filter (fun q => some q != owed) = s.cin.unitSeqs
  gone : ∀ q ∈ s.cin.unitSeqs, some q ≠ owed

theorem IntakeSound.owing {s : State} (h : s.IntakeSound) : s.Owing none where
  staging := h.staging
  lag := h.lag
  counts := h.counts
  outbox := h.outbox
  distinct := h.distinct
  reserved := by
    rw [← h.reserved]
    simp
  gone := by simp

theorem Owing.sound {s : State} (h : s.Owing none) : s.IntakeSound where
  staging := h.staging
  lag := h.lag
  counts := h.counts
  outbox := h.outbox
  distinct := h.distinct
  reserved := by
    rw [← h.reserved]
    exact (List.filter_eq_self.mpr (fun _ _ => rfl)).symm

theorem owing_of_eq {owed : Option Byte} {s t : State} (h : s.Owing owed)
    (hq : t.cin.queue = s.cin.queue) (hl : t.cin.lag ≤ 7) (hr : t.rpu = s.rpu) : t.Owing owed where
  staging := by
    rw [hq]
    exact h.staging
  lag := hl
  counts := by
    rw [hq]
    exact h.counts
  outbox := by
    rw [hr]
    exact h.outbox
  distinct := by
    rw [hr]
    exact h.distinct
  reserved := by
    rw [hr, h.reserved]
    simp [Cin.unitSeqs, hq]
  gone := by
    have : t.cin.unitSeqs = s.cin.unitSeqs := by simp [Cin.unitSeqs, hq]
    rw [this]
    exact h.gone

/-- Both queues emptied, but for at most one READY record, owe nothing. -/
theorem owing_of_emptied {owed : Option Byte} {t : State} (hq : t.cin.queue = [])
    (hl : t.cin.lag ≤ 7)
    (hr : t.rpu.outbox = [] ∨ ∃ seq r, t.rpu.outbox = [{ seq := seq, result := some r }]) :
    t.Owing owed where
  staging := by simp [hq]
  lag := hl
  counts := by simp [hq]
  outbox := by
    rcases hr with h | ⟨_, _, h⟩ <;> simp [h, Config.outboxCapacity]
  distinct := by
    rcases hr with h | ⟨_, _, h⟩ <;> simp [h]
  reserved := by
    rcases hr with h | ⟨_, _, h⟩ <;>
      simp [Rpu.reservedSeqs, Cin.unitSeqs, h, hq, ReplyRecord.reservedSeq]
  gone := by simp [Cin.unitSeqs, hq]

theorem Own.keeps_owing {owed : Option Byte} {s t : State} (h : Own s t) (hs : s.Owing owed) :
    t.Owing owed := by
  cases h with
  | softReset records h =>
    refine owing_of_emptied rfl hs.lag ?_
    rcases h with h | h
    · exact Or.inl h
    · exact Or.inr h
  | dormant => exact owing_of_emptied rfl hs.lag (Or.inl rfl)
  | lag n h => exact owing_of_eq hs rfl h rfl
  | _ => exact owing_of_eq hs (by simp) (by simpa using hs.lag) (by simp)

theorem Owns.keeps_owing {owed : Option Byte} {s t : State} (h : Owns s t) (hs : s.Owing owed) :
    t.Owing owed :=
  h.keeps (fun k => k.keeps_owing) hs

/-! ### Leaving and answering -/

theorem unitSeqs_filter (q : List Staged) (seq : Byte) :
    (q.filter fun x => x.origin != .unit seq).filterMap Staged.unitSeq =
      (q.filterMap Staged.unitSeq).filter fun x => x != seq := by
  induction q with
  | nil => rfl
  | cons c q ih =>
    cases ho : c.origin with
    | unit x =>
      by_cases hx : x = seq
      · subst hx
        simp [ho, Staged.unitSeq, ih]
      · have hb : (Origin.unit x != Origin.unit seq) = true := by simp [hx]
        simp [ho, Staged.unitSeq, ih, hx]
    | broadcast => simp [ho, Staged.unitSeq, ih]
    | group => simp [ho, Staged.unitSeq, ih]

/-- Leaving the staging queue leaves the reservation owed. -/
theorem leaveQueue_owing {s : State} (o : Origin) (hs : s.Owing none ∨ s.Owing (owedSeq o)) :
    (s.leaveQueue o).Owing (owedSeq o) := by
  cases o with
  | broadcast => exact hs.elim id id
  | group => exact hs.elim id id
  | unit seq =>
    have hu : (s.leaveQueue (.unit seq)).cin.unitSeqs =
        s.cin.unitSeqs.filter fun x => x != seq := by
      simp only [State.leaveQueue, State.setCin_cin, Cin.unitSeqs, Cin.idleIfEmpty]
      exact unitSeqs_filter _ _
    have hstag : (s.leaveQueue (.unit seq)).cin.queue.length ≤ s.cin.queue.length :=
      List.length_filter_le _ _
    have hmem : ∀ c ∈ (s.leaveQueue (.unit seq)).cin.queue, c ∈ s.cin.queue :=
      fun c hc => List.mem_of_mem_filter hc
    have hgone : ∀ q ∈ (s.leaveQueue (.unit seq)).cin.unitSeqs, some q ≠ some seq := by
      intro q hq
      rw [hu] at hq
      have := (List.mem_filter.mp hq).2
      simpa using this
    rcases hs with hs | hs
    · refine { staging := le_trans hstag hs.staging, lag := hs.lag,
               counts := fun c hc => hs.counts c (hmem c hc), outbox := hs.outbox,
               distinct := hs.distinct, reserved := ?_, gone := hgone }
      rw [hu, ← (Owing.sound hs).reserved]
      rfl
    · refine { staging := le_trans hstag hs.staging, lag := hs.lag,
               counts := fun c hc => hs.counts c (hmem c hc), outbox := hs.outbox,
               distinct := hs.distinct, reserved := ?_, gone := hgone }
      rw [hu, ← hs.reserved, List.filter_filter]
      show List.filter (fun q => some q != some seq) s.rpu.reservedSeqs = _
      refine List.filter_congr fun q _ => ?_
      show (some q != some seq) = ((q != seq) && (some q != some seq))
      by_cases hx : q = seq <;> simp [hx]

/-- The head of the staging queue taken off it leaves its reservation owed (R128). -/
theorem pop_owing {s : State} (c : Staged) (rest : List Staged) (hq : s.cin.queue = c :: rest)
    (hs : s.IntakeSound) : (s.setCin { s.cin with queue := rest }).Owing (owedSeq c.origin) := by
  have hlen := hs.staging
  rw [hq, List.length_cons] at hlen
  have hres := hs.reserved
  have hnd : s.rpu.reservedSeqs.Nodup := by
    have hsub : ∀ l : List ReplyRecord, (l.map ReplyRecord.seq).Nodup →
        (l.filterMap ReplyRecord.reservedSeq).Nodup := by
      intro l
      induction l with
      | nil => simp
      | cons x l ih =>
        intro hn
        rw [List.map_cons, List.nodup_cons] at hn
        unfold List.filterMap
        split
        · exact ih hn.2
        · rename_i b hb
          refine List.nodup_cons.mpr ⟨?_, ih hn.2⟩
          intro hm
          apply hn.1
          obtain ⟨y, hy, hyb⟩ := List.mem_filterMap.mp hm
          have hx : x.seq = b := by
            unfold ReplyRecord.reservedSeq at hb
            split at hb
            · exact Option.some.inj hb
            · cases hb
          have hy' : y.seq = b := by
            unfold ReplyRecord.reservedSeq at hyb
            split at hyb
            · exact Option.some.inj hyb
            · cases hyb
          rw [hx, ← hy']
          exact List.mem_map.mpr ⟨y, hy, rfl⟩
    exact hsub _ hs.distinct
  rw [hres] at hnd
  have hcounts : ∀ x ∈ rest, x.remaining ≤ 7 := by
    intro x hx
    exact hs.counts x (by rw [hq]; exact List.mem_cons_of_mem _ hx)
  cases ho : c.origin with
  | unit seq =>
    have hu : s.cin.unitSeqs = seq :: rest.filterMap Staged.unitSeq := by
      simp [Cin.unitSeqs, hq, Staged.unitSeq, ho]
    rw [hu] at hnd hres
    have hnot := (List.nodup_cons.mp hnd).1
    refine { staging := by show rest.length ≤ _; omega, lag := hs.lag, counts := hcounts,
             outbox := hs.outbox, distinct := hs.distinct, reserved := ?_, gone := ?_ }
    · show List.filter _ s.rpu.reservedSeqs = rest.filterMap Staged.unitSeq
      rw [hres]
      simp only [owedSeq, List.filter_cons]
      simp only [bne_self_eq_false, Bool.false_eq_true, if_false]
      rw [List.filter_eq_self]
      intro q hq
      have : q ≠ seq := fun h => hnot (h ▸ hq)
      simpa using this
    · intro q hq
      have hq' : q ∈ rest.filterMap Staged.unitSeq := hq
      simp only [owedSeq, ne_eq, Option.some.injEq]
      exact fun h => hnot (h ▸ hq')
  | broadcast =>
    have hu : s.cin.unitSeqs = rest.filterMap Staged.unitSeq := by
      simp [Cin.unitSeqs, hq, Staged.unitSeq, ho]
    refine { staging := by show rest.length ≤ _; omega, lag := hs.lag, counts := hcounts,
             outbox := hs.outbox, distinct := hs.distinct, reserved := ?_, gone := by simp [owedSeq] }
    show List.filter _ s.rpu.reservedSeqs = rest.filterMap Staged.unitSeq
    rw [hres, hu]
    simp [owedSeq]
  | group =>
    have hu : s.cin.unitSeqs = rest.filterMap Staged.unitSeq := by
      simp [Cin.unitSeqs, hq, Staged.unitSeq, ho]
    refine { staging := by show rest.length ≤ _; omega, lag := hs.lag, counts := hcounts,
             outbox := hs.outbox, distinct := hs.distinct, reserved := ?_, gone := by simp [owedSeq] }
    show List.filter _ s.rpu.reservedSeqs = rest.filterMap Staged.unitSeq
    rw [hres, hu]
    simp [owedSeq]

theorem fillRecord_seq (seq : Byte) (r : Result) (x : ReplyRecord) :
    (fillRecord seq r x).seq = x.seq := by
  unfold fillRecord
  split <;> rfl

/-- A fill leaves the other reservations as they are (R157). -/
theorem fill_reservedSeqs (s : State) (seq : Byte) (r : Result) :
    (s.fill seq r).rpu.reservedSeqs = s.rpu.reservedSeqs.filter fun q => q != seq := by
  simp only [State.fill, State.setRpu_rpu, Rpu.reservedSeqs]
  induction s.rpu.outbox with
  | nil => rfl
  | cons x l ih =>
    rw [List.map_cons]
    cases hx : x.result with
    | some y =>
      have h1 : fillRecord seq r x = x := by simp [fillRecord, hx]
      simp [h1, ReplyRecord.reservedSeq, hx, ih]
    | none =>
      by_cases hq : x.seq = seq
      · have h1 : (fillRecord seq r x).reservedSeq = none := by
          simp [fillRecord, hx, hq, ReplyRecord.reservedSeq]
        have h2 : x.reservedSeq = some x.seq := by simp [ReplyRecord.reservedSeq, hx]
        simp [h1, h2, hq, ih]
      · have h1 : fillRecord seq r x = x := by simp [fillRecord, hq]
        have h2 : x.reservedSeq = some x.seq := by simp [ReplyRecord.reservedSeq, hx]
        simp [h1, h2, hq, ih]

theorem fill_seqs (s : State) (seq : Byte) (r : Result) :
    (s.fill seq r).rpu.outbox.map ReplyRecord.seq = s.rpu.outbox.map ReplyRecord.seq := by
  simp [State.fill, Function.comp_def, fillRecord_seq]

/-- The result delivered pays what was owed (R131). -/
theorem deliver_sound {s : State} (o : Origin) (r : Result) (hs : s.Owing (owedSeq o)) :
    (s.deliver o r).IntakeSound := by
  cases o with
  | broadcast => exact Owing.sound hs
  | group => exact Owing.sound hs
  | unit seq =>
    refine { staging := hs.staging, lag := hs.lag, counts := hs.counts, outbox := ?_,
             distinct := ?_, reserved := ?_ }
    · show (s.rpu.outbox.map (fillRecord seq r)).length ≤ _
      rw [List.length_map]
      exact hs.outbox
    · show ((s.fill seq r).rpu.outbox.map ReplyRecord.seq).Nodup
      rw [fill_seqs]
      exact hs.distinct
    · show (s.fill seq r).rpu.reservedSeqs = s.cin.unitSeqs
      rw [fill_reservedSeqs, ← hs.reserved]
      rfl

/-! ### Commits and frames -/

theorem Own.keeps_intake {s t : State} (h : Own s t) (hs : s.IntakeSound) : t.IntakeSound :=
  Owing.sound (h.keeps_owing (IntakeSound.owing hs))

theorem Owns.keeps_intake {s t : State} (h : Owns s t) (hs : s.IntakeSound) : t.IntakeSound :=
  h.keeps (fun k => k.keeps_intake) hs

theorem Owns.keeps_live {s t : State} (h : Owns s t) (hs : s.Live) : t.Live :=
  h.keeps (fun k => k.keeps_live) hs

theorem leaveQueue_live {s : State} (o : Origin) (hs : s.Live) : (s.leaveQueue o).Live := by
  rcases hs with h | h
  · left
    exact commits_of (by simp) (by simp) h
  · right
    cases o <;> simp [State.leaveQueue, Cin.idleIfEmpty, h]

theorem deliver_live {s : State} (o : Origin) (r : Result) (hs : s.Live) : (s.deliver o r).Live := by
  rcases hs with h | h
  · left
    exact commits_of (by simp) (by simp) h
  · right
    simpa using h

/-- A commit from a state in which its reservation is owed, or not yet. -/
theorem CommitShape.keeps_intake {o : Origin} {s t : State} (h : CommitShape o s t)
    (hs : s.Owing none ∨ (s.commits = true ∧ s.Owing (owedSeq o))) : t.IntakeSound := by
  rcases h with ⟨hc, rfl⟩ | ⟨u, r, hu, rfl⟩
  · rcases hs with hs | hs
    · exact Owing.sound hs
    · rw [hs.1] at hc
      cases hc
  · exact deliver_sound o r (hu.keeps_owing (leaveQueue_owing o (hs.imp id And.right)))

theorem CommitShape.keeps_live {o : Origin} {s t : State} (h : CommitShape o s t) (hs : s.Live) :
    t.Live := by
  rcases h with ⟨_, rfl⟩ | ⟨u, r, hu, rfl⟩
  · exact hs
  · exact deliver_live o r (hu.keeps_live (leaveQueue_live o hs))

theorem commitChain_intake (fuel : Nat) (s : State) (hs : s.IntakeLive) :
    (commitChain fuel s).IntakeLive := by
  induction fuel generalizing s with
  | zero => exact hs
  | succ fuel ih =>
    unfold commitChain
    split
    · exact hs
    · rename_i c rest hq
      split
      · have hc : s.commits = true := by
          rcases hs.2 with h | h
          · exact h
          · rw [hq] at h
            cases h
        have hc' : (s.setCin { s.cin with queue := rest }).commits = true := hc
        refine ih _ ⟨?_, ?_⟩
        · exact (commitStaged_shape c _).keeps_intake (Or.inr ⟨hc', pop_owing c rest hq hs.1⟩)
        · exact (commitStaged_shape c _).keeps_live (Or.inl hc')
      · exact hs

theorem setExpiry_intake {s : State} (x : Option Nat) (hs : s.IntakeLive) :
    (s.setCin { s.cin with expiry := x }).IntakeLive :=
  ⟨Owing.sound (owing_of_eq (IntakeSound.owing hs.1) rfl hs.1.lag rfl), hs.2⟩

theorem commitAll_intake (s : State) (hs : s.IntakeLive) : s.commitAll.IntakeLive :=
  setExpiry_intake _ (commitChain_intake _ s hs)

theorem countFrame_intake (s : State) (hs : s.IntakeLive) : s.countFrame.IntakeLive := by
  have hu : s.countFrame.cin.unitSeqs = s.cin.unitSeqs := by
    simp only [State.countFrame, State.setCin_cin, Cin.unitSeqs, List.filterMap_map]
    rfl
  refine ⟨{ staging := ?_, lag := hs.1.lag, counts := ?_, outbox := hs.1.outbox,
            distinct := hs.1.distinct, reserved := ?_ }, ?_⟩
  · show (s.cin.queue.map _).length ≤ _
    rw [List.length_map]
    exact hs.1.staging
  · intro c hc
    obtain ⟨d, hd, rfl⟩ := List.mem_map.mp hc
    exact le_trans (Nat.sub_le _ _) (hs.1.counts d hd)
  · rw [hu]
    exact hs.1.reserved
  · rcases hs.2 with h | h
    · exact Or.inl h
    · right
      simp [State.countFrame, h]

theorem countAndCommit_intake (s : State) (hs : s.IntakeLive) : s.countAndCommit.IntakeLive :=
  commitAll_intake _ (countFrame_intake s hs)

theorem holds_iff (r : Rpu) (seq : Byte) :
    r.holds seq = false ↔ seq ∉ r.outbox.map ReplyRecord.seq := by
  unfold Rpu.holds
  rw [List.any_eq_false]
  simp

theorem stage_intake (s : State) (o : Origin) (bytes : List Byte) (hs : s.IntakeLive)
    (hc : s.commits = true) (hd : s.isDuplicate o = false) (hroom : s.noRoom o = false) :
    (s.stage o bytes).IntakeLive := by
  simp only [State.noRoom, Bool.or_eq_false_iff, decide_eq_false_iff_not, not_le] at hroom
  have hcommits : (s.stage o bytes).commits = true := commits_of (by simp) (by simp) hc
  refine ⟨?_, Or.inl hcommits⟩
  have hcounts : ∀ c ∈ s.cin.queue ++ [{ origin := o, bytes := bytes, remaining := s.cin.lag }],
      c.remaining ≤ 7 := by
    intro c hm
    rcases List.mem_append.mp hm with hm | hm
    · exact hs.1.counts c hm
    · rw [List.mem_singleton.mp hm]
      exact hs.1.lag
  have hres := hs.1.reserved
  cases o with
  | unit seq =>
    have hfresh := (holds_iff _ _).mp hd
    have hout := hroom.2
    simp only [decide_eq_false_iff_not, not_le] at hout
    refine { staging := ?_, lag := hs.1.lag, counts := hcounts, outbox := ?_, distinct := ?_,
             reserved := ?_ }
    · show (s.cin.queue ++ [_]).length ≤ _
      rw [List.length_append, List.length_singleton]
      exact hroom.1
    · show (s.rpu.outbox ++ [_]).length ≤ _
      rw [List.length_append, List.length_singleton]
      exact hout
    · show ((s.rpu.outbox ++ [_]).map ReplyRecord.seq).Nodup
      rw [List.map_append, List.nodup_append]
      refine ⟨hs.1.distinct, by simp, ?_⟩
      intro a ha b hb
      simp only [List.map_cons, List.map_nil, List.mem_singleton] at hb
      rw [hb]
      exact fun h => hfresh (h ▸ ha)
    · show (s.rpu.outbox ++ [_]).filterMap ReplyRecord.reservedSeq =
        (s.cin.queue ++ [_]).filterMap Staged.unitSeq
      rw [List.filterMap_append, List.filterMap_append]
      have : s.rpu.outbox.filterMap ReplyRecord.reservedSeq =
        s.cin.queue.filterMap Staged.unitSeq := hres
      rw [this]
      rfl
  | broadcast =>
    refine { staging := ?_, lag := hs.1.lag, counts := hcounts, outbox := hs.1.outbox,
             distinct := hs.1.distinct, reserved := ?_ }
    · show (s.cin.queue ++ [_]).length ≤ _
      rw [List.length_append, List.length_singleton]
      exact hroom.1
    · show s.rpu.reservedSeqs = (s.cin.queue ++ [_]).filterMap Staged.unitSeq
      rw [List.filterMap_append, hres]
      simp [Cin.unitSeqs, Staged.unitSeq]
  | group =>
    refine { staging := ?_, lag := hs.1.lag, counts := hcounts, outbox := hs.1.outbox,
             distinct := hs.1.distinct, reserved := ?_ }
    · show (s.cin.queue ++ [_]).length ≤ _
      rw [List.length_append, List.length_singleton]
      exact hroom.1
    · show s.rpu.reservedSeqs = (s.cin.queue ++ [_]).filterMap Staged.unitSeq
      rw [List.filterMap_append, hres]
      simp [Cin.unitSeqs, Staged.unitSeq]

theorem intake_intake (s : State) (f : Frame) (hs : s.IntakeLive) (hc : s.commits = true) :
    (s.intake f).IntakeLive := by
  unfold State.intake
  split
  · exact hs
  · split
    · exact hs
    · rename_i o _ hd
      split
      · exact ⟨Owing.sound (owing_of_eq (IntakeSound.owing hs.1) rfl hs.1.lag rfl), hs.2⟩
      · rename_i hr
        exact stage_intake s o _ hs hc (by simpa using hd) (by simpa using hr)

/-- Every staged command answered and gone (R133, R136). -/
theorem emptyQueue_intake (s : State) (code : ResultCode) (hs : s.IntakeSound) :
    (s.emptyQueue code).IntakeSound := by
  have hfill : ∀ (q : List Staged) (u : State),
      u.rpu.outbox.length ≤ Config.outboxCapacity → (u.rpu.outbox.map ReplyRecord.seq).Nodup →
      (∀ x ∈ u.rpu.reservedSeqs, x ∈ q.filterMap Staged.unitSeq) →
      (fillAll code q u).rpu.outbox.length ≤ Config.outboxCapacity ∧
        ((fillAll code q u).rpu.outbox.map ReplyRecord.seq).Nodup ∧
        (fillAll code q u).rpu.reservedSeqs = [] := by
    intro q
    induction q with
    | nil =>
      intro u h1 h2 h3
      refine ⟨h1, h2, ?_⟩
      rw [fillAll, List.eq_nil_iff_forall_not_mem]
      intro x hx
      simpa using h3 x hx
    | cons c q ih =>
      intro u h1 h2 h3
      rw [fillAll]
      cases ho : c.origin with
      | unit seq =>
        refine ih _ ?_ ?_ ?_
        · show (u.rpu.outbox.map _).length ≤ _
          rw [List.length_map]
          exact h1
        · show ((u.fill seq _).rpu.outbox.map ReplyRecord.seq).Nodup
          rw [fill_seqs]
          exact h2
        · intro x hx
          have hx' : x ∈ (u.fill seq { code := code, payload := [] }).rpu.reservedSeqs := hx
          rw [fill_reservedSeqs] at hx'
          obtain ⟨ha, hb⟩ := List.mem_filter.mp hx'
          have := h3 x ha
          simp only [List.filterMap_cons, Staged.unitSeq, ho, List.mem_cons] at this
          rcases this with h | h
          · subst h
            simp at hb
          · exact h
      | broadcast =>
        refine ih u h1 h2 ?_
        intro x hx
        have := h3 x hx
        simpa [Staged.unitSeq, ho] using this
      | group =>
        refine ih u h1 h2 ?_
        intro x hx
        have := h3 x hx
        simpa [Staged.unitSeq, ho] using this
  obtain ⟨a, b, c⟩ := hfill s.cin.queue s hs.outbox hs.distinct (by
    intro x hx
    rw [hs.reserved] at hx
    exact hx)
  refine { staging := Nat.zero_le _, lag := ?_, counts := by simp [State.emptyQueue], outbox := a,
           distinct := b, reserved := c }
  simpa [State.emptyQueue] using hs.lag

theorem expireStaging_intake (s : State) (hs : s.IntakeLive) : s.expireStaging.IntakeLive := by
  unfold State.expireStaging
  split
  · exact ⟨emptyQueue_intake s _ hs.1, Or.inr rfl⟩
  · exact hs

theorem takeFault_intake (s : State) (k : FaultKind) (header : List Byte) (hs : s.IntakeLive) :
    (s.takeFault k header).IntakeLive := by
  unfold State.takeFault
  split
  · have h0 : (s.emptyQueue .voided).IntakeSound := emptyQueue_intake s _ hs.1
    have hq : (s.reportFault k header).cin = (s.emptyQueue .voided).cin := by
      unfold State.reportFault State.voidStaging
      dsimp only
      split <;> simp
    have hr : (s.reportFault k header).rpu = (s.emptyQueue .voided).rpu := by
      unfold State.reportFault State.voidStaging
      dsimp only
      split <;> simp
    refine ⟨Owing.sound (owing_of_eq (IntakeSound.owing h0) (by rw [hq]) ?_ hr), Or.inr ?_⟩
    · rw [hq]
      exact h0.lag
    · rw [hq]
      rfl
  · exact hs

theorem acknowledge_intake (s : State) (valid : Bool) (seq : Byte) (hs : s.IntakeSound) :
    (s.setRpu (s.rpu.acknowledge valid seq)).IntakeSound := by
  unfold Rpu.acknowledge
  split
  · exact hs
  · rename_i x rest ho
    split
    · rename_i hx
      have hout := hs.outbox
      have hdis := hs.distinct
      have hres := hs.reserved
      rw [ho] at hout hdis
      refine { staging := hs.staging, lag := hs.lag, counts := hs.counts, outbox := ?_,
               distinct := ?_, reserved := ?_ }
      · rw [List.length_cons] at hout
        show rest.length ≤ _
        omega
      · rw [List.map_cons, List.nodup_cons] at hdis
        exact hdis.2
      · show rest.filterMap ReplyRecord.reservedSeq = s.cin.unitSeqs
        rw [← hres]
        show rest.filterMap ReplyRecord.reservedSeq = s.rpu.outbox.filterMap ReplyRecord.reservedSeq
        have hr : x.reservedSeq = none := by
          unfold ReplyRecord.reservedSeq
          have h2 := hx.2.1
          cases hh : x.result with
          | none =>
            rw [hh] at h2
            cases h2
          | some r => simp
        rw [ho, List.filterMap_cons, hr]
    · exact hs

theorem handlePoll_intake (s : State) (f : Frame) (hs : s.IntakeLive) :
    (s.handlePoll f).IntakeLive := by
  unfold State.handlePoll
  dsimp only
  split
  · refine ⟨?_, hs.2⟩
    have h1 := acknowledge_intake s ((f.payload.headD 0).getLsbD 0) f.seq hs.1
    exact Owing.sound (owing_of_eq (IntakeSound.owing h1) rfl h1.lag rfl)
  · exact hs

/-- A change without the staging queue and the outbox. -/
theorem acts_owns_intake {s t : State} (h : Owns s t) (hs : s.IntakeLive) : t.IntakeLive :=
  ⟨h.keeps_intake hs.1, h.keeps_live hs.2⟩

theorem resetWith_intake (s : State) (l : Lnk) : (s.resetWith l).IntakeLive :=
  ⟨Owing.sound (owing_of_emptied rfl (by show (0 : Nat) ≤ 7; omega) (Or.inl rfl)), Or.inr rfl⟩

theorem handleSync_owns (s : State) (f : Frame) (since : Nat) : Owns s (s.handleSync f since) := by
  unfold State.handleSync
  split
  · exact takeSync_owns s f since
  · exact Owns.refl s

theorem handleProbe_intake (s : State) (f : Frame) (hs : s.IntakeLive) :
    (s.handleProbe f).IntakeLive := by
  refine ⟨Owing.sound (owing_of_eq (IntakeSound.owing hs.1) (by simp) (by simpa using hs.1.lag)
    (by simp)), ?_⟩
  rcases hs.2 with h | h
  · exact Or.inl (commits_of (by simp) (by simp) h)
  · right
    simpa using h

theorem handleWake_intake (s : State) (f : Frame) (hs : s.IntakeLive) (hq : s.cin.queue = []) :
    (s.handleWake f).IntakeLive :=
  ⟨Owing.sound (owing_of_eq (IntakeSound.owing hs.1) (by simp) (by simpa using hs.1.lag) (by simp)),
    Or.inr (by simpa using hq)⟩

theorem live_queue {s : State} (hs : s.Live) (h : s.stc.op.accepting = false) : s.cin.queue = [] := by
  rcases hs with hc | hq
  · unfold State.commits at hc
    simp [h] at hc
  · exact hq

/-- Frames, whatever is done at their end if it keeps the queues. -/
theorem hear_intake (s : State) (h : Heard) (onIntact : State → Frame → State)
    (ho : ∀ u f, u.IntakeLive → u.inReset = false → (onIntact u f).IntakeLive)
    (hs : s.IntakeLive) : (s.hear h onIntact).IntakeLive := by
  have hrec : ∀ b r f, (r = .off → s.lnk.receiver = .off) →
      (s.afterReceiving b r f).IntakeLive := by
    intro b r f hon
    refine ⟨Owing.sound (owing_of_eq (IntakeSound.owing hs.1) rfl hs.1.lag rfl), ?_⟩
    rcases hs.2 with hc | hq
    · exact Or.inl (commits_of (s := s) (t := s.afterReceiving b r f) (fun h => h) hon hc)
    · exact Or.inr hq
  unfold State.hear
  split
  · exact hs
  · rename_i hoff
    have hon := receive_on s h
    have hnot : s.lnk.receiver ≠ .off := by
      intro hx
      simp [State.inReset, hx] at hoff
    split
    · rename_i heq
      exact hrec _ _ _ (by rw [heq] at hon; exact hon)
    · rename_i r f x heq
      refine ho _ _ (hrec _ _ _ (by rw [heq] at hon; exact hon)) ?_
      have : r ≠ .off := fun hx => hnot (by rw [heq] at hon; exact hon hx)
      simpa [State.inReset, State.afterReceiving] using this
    · rename_i heq
      exact takeFault_intake _ _ _ (hrec _ _ _ (by rw [heq] at hon; exact hon))

theorem commits_of_accepting {s : State} (h : s.stc.op.accepting = true) (hr : s.inReset = false) :
    s.commits = true := by
  simp [State.commits, h, hr]

theorem endCommand_intake (s : State) (f : Frame) (hs : s.IntakeLive) (hr : s.inReset = false) :
    (s.endCommand f).IntakeLive := by
  unfold State.endCommand
  split
  · rename_i ha
    have hc : s.countFrame.commits = true := commits_of_accepting ha hr
    exact commitAll_intake _ (intake_intake _ f (countFrame_intake s hs) hc)
  · exact hs

theorem endPoll_intake (order : PollOrder) (s : State) (f : Frame) (hs : s.IntakeLive) :
    (s.endPoll order f).IntakeLive := by
  unfold State.endPoll
  split
  · cases order with
    | commits => exact handlePoll_intake _ f (countAndCommit_intake s hs)
    | handling => exact countAndCommit_intake _ (handlePoll_intake s f hs)
    | handlingThenExpiry =>
      exact countAndCommit_intake _ (expireStaging_intake _ (handlePoll_intake s f hs))
  · exact hs

theorem endSync_intake (order : TakenFirst) (since : Nat) (s : State) (f : Frame)
    (hs : s.IntakeLive) : (s.endSync order since f).IntakeLive := by
  unfold State.endSync
  split
  · cases order with
    | commits => exact acts_owns_intake (handleSync_owns _ f since) (countAndCommit_intake s hs)
    | handling => exact countAndCommit_intake _ (acts_owns_intake (handleSync_owns s f since) hs)
  · exact hs

theorem endProbe_intake (order : TakenFirst) (s : State) (f : Frame) (hs : s.IntakeLive) :
    (s.endProbe order f).IntakeLive := by
  unfold State.endProbe
  split
  · cases order with
    | commits => exact handleProbe_intake _ f (countAndCommit_intake s hs)
    | handling => exact countAndCommit_intake _ (handleProbe_intake s f hs)
  · exact hs

theorem endWake_intake (s : State) (f : Frame) (hs : s.IntakeLive) : (s.endWake f).IntakeLive := by
  unfold State.endWake
  split
  · exact countAndCommit_intake s hs
  · rename_i ha
    exact handleWake_intake s f hs (live_queue hs.2 (by simpa using ha))

theorem endOther_intake (s : State) (f : Frame) (hs : s.IntakeLive) : (s.endOther f).IntakeLive := by
  unfold State.endOther
  split
  · exact countAndCommit_intake s hs
  · exact hs

/-! ### Rows that touch neither queue -/

/-- What leaves both queues as they are, and the part as ready to commit as it was. -/
theorem intakeLive_of {s t : State} (hs : s.IntakeLive) (hq : t.cin.queue = s.cin.queue)
    (hl : t.cin.lag = s.cin.lag) (hr : t.rpu = s.rpu)
    (ho : s.stc.op.accepting = true → t.stc.op.accepting = true)
    (hon : t.lnk.receiver = .off → s.lnk.receiver = .off) : t.IntakeLive := by
  refine ⟨Owing.sound (owing_of_eq (IntakeSound.owing hs.1) hq (by rw [hl]; exact hs.1.lag) hr), ?_⟩
  rcases hs.2 with h | h
  · exact Or.inl (commits_of ho hon h)
  · right
    rw [hq, h]

/-- EVERY ROW keeps the staging queue and the outbox sound, and commits going on while any command is
staged. -/
theorem exec_intake (i : Instr) (s t : State) (h : exec i s = .next t) (hs : s.IntakeLive) :
    t.IntakeLive := by
  have hrow : ∀ o b, i.staged = some (o, b) → exec i s = .next (commitRow i s) → t.IntakeLive := by
    intro o b hst he
    rw [he] at h
    simp only [Host.Outcome.next.injEq] at h
    subst h
    have hshape := commitRow_shape i o b s hst
    exact ⟨hshape.keeps_intake (Or.inl (IntakeSound.owing hs.1)), hshape.keeps_live hs.2⟩
  have hnext : ∀ u, exec i s = .next u → u.IntakeLive → t.IntakeLive := by
    intro u he ha
    rw [he] at h
    simp only [Host.Outcome.next.injEq] at h
    exact h ▸ ha
  have hif : ∀ (b : Bool) u, exec i s = (if b then .next u else .refused .illFormed) →
      u.IntakeLive → t.IntakeLive := by
    intro b u he ha
    cases b with
    | true => exact hnext u he ha
    | false =>
      rw [he] at h
      cases h
  have hacts : Acts False s t → (t.cin = s.cin ∧ t.rpu = s.rpu ∧
      (s.stc.op.accepting = true → t.stc.op.accepting = true) ∧
      (t.lnk.receiver = .off → s.lnk.receiver = .off)) → t.IntakeLive := by
    intro _ ⟨h1, h2, h3, h4⟩
    exact intakeLive_of hs (by rw [h1]) (by rw [h1]) h2 h3 h4
  cases i with
  | hardReset phase =>
    refine hnext _ rfl ?_
    unfold State.hardReset
    split
    · exact resetWith_intake s _
    · exact resetWith_intake s _
    · split
      · exact resetWith_intake s _
      · exact hs
  | commandFrame f => exact hif _ _ rfl (hear_intake s f _ endCommand_intake hs)
  | poll f order =>
    exact hif _ _ rfl (hear_intake s f _ (fun u x hu _ => endPoll_intake order u x hu) hs)
  | transmitStart =>
    refine hnext _ rfl ?_
    unfold State.startTransmission
    (repeat' split) <;> first | exact hs | exact intakeLive_of hs rfl rfl rfl (fun h => h) (fun h => h)
  | transmitEnd =>
    refine hnext _ rfl ?_
    unfold State.endTransmission
    (repeat' split) <;> first | exact hs | exact intakeLive_of hs rfl rfl rfl (fun h => h) (fun h => h)
  | replyAbandoned =>
    refine hnext _ rfl ?_
    unfold State.abandonReply
    split
    · exact intakeLive_of hs rfl rfl rfl (fun h => h) (fun h => rxSymbol_on _ _ _ _ h)
    · exact hs
    · exact hs
  | sync f order =>
    exact hif _ _ rfl (hear_intake s f _ (fun u x hu _ => endSync_intake order f.since u x hu) hs)
  | probe f order =>
    exact hif _ _ rfl (hear_intake s f _ (fun u x hu _ => endProbe_intake order u x hu) hs)
  | wake f => exact hif _ _ rfl (hear_intake s f _ (fun u x hu _ => endWake_intake u x hu) hs)
  | fill f => exact hif _ _ rfl (hear_intake s f _ (fun u x hu _ => endOther_intake u x hu) hs)
  | otherIntactFrame f =>
    exact hif _ _ rfl (hear_intake s f _ (fun u x hu _ => endOther_intake u x hu) hs)
  | faultReport f => exact hif _ _ rfl (hear_intake s f _ (fun u x hu _ => endOther_intake u x hu) hs)
  | quiesceEnd =>
    refine hnext _ rfl ?_
    unfold State.endQuiesce
    split
    · exact intakeLive_of hs rfl rfl rfl (fun h => h) (fun h => h)
    · exact hs
  | stagingExpiry => exact hnext _ rfl (expireStaging_intake s hs)
  | syncWatchLockedExpiry =>
    refine hnext _ rfl ?_
    unfold State.expireLocked
    split
    · exact intakeLive_of hs rfl rfl rfl (fun h => h) (fun h => h)
    · exact hs
  | syncWatchHoldoverExpiry =>
    refine hnext _ rfl ?_
    unfold State.expireHoldover
    dsimp only
    (repeat' split) <;> first | exact hs | exact intakeLive_of hs rfl rfl rfl (fun h => h) (fun h => h)
  | syncWatchAcquiringExpiry =>
    refine hnext _ rfl ?_
    unfold State.expireAcquiring
    split
    · exact intakeLive_of hs rfl rfl rfl (fun h => h) (fun h => h)
    · exact hs
  | slewEnd =>
    refine hnext _ rfl ?_
    unfold State.endSlew
    (repeat' split) <;> first | exact hs | exact intakeLive_of hs rfl rfl rfl (fun h => h) (fun h => h)
  | wakeDelayEnd =>
    refine hnext _ rfl ?_
    unfold State.endWakeDelay
    split
    · exact intakeLive_of hs rfl rfl rfl (fun _ => rfl) (fun h => h)
    · exact hs
  | headReached =>
    refine hnext _ rfl ?_
    unfold State.reachHead
    (repeat' split) <;> first | exact hs | exact intakeLive_of hs (by simp) (by simp) (by simp) (by simp) (by simp)
  | pulseEnd n =>
    refine hnext _ rfl ?_
    unfold State.endPulse
    split
    · exact intakeLive_of hs rfl rfl rfl (fun h => h) (fun h => h)
    · exact hs
  | windowEnd n =>
    refine hnext _ rfl ?_
    unfold State.endWindow
    split
    · exact intakeLive_of hs rfl rfl rfl (fun h => h) (fun h => h)
    · exact hs
  | deadTimeEnd n =>
    refine hnext _ rfl ?_
    unfold State.endDeadTime
    split
    · exact intakeLive_of hs rfl rfl rfl (fun h => h) (fun h => h)
    · exact hs
  | captureEdge n e =>
    refine hnext _ rfl ?_
    unfold State.captureEdge
    dsimp only
    (repeat' split) <;> first | exact hs | exact intakeLive_of hs (by simp) (by simp) (by simp) (by simp) (by simp)
  | sampleReached =>
    refine hnext _ rfl ?_
    unfold State.reachSample
    (repeat' split) <;> first | exact hs | exact intakeLive_of hs (by simp) (by simp) (by simp) (by simp) (by simp)
  | unknownCommand o b =>
    have hshape := commitUnknown_shape o s
    exact hif _ _ rfl
      ⟨hshape.keeps_intake (Or.inl (IntakeSound.owing hs.1)), hshape.keeps_live hs.2⟩
  | discardingEnd e =>
    refine hnext _ rfl ?_
    unfold State.endDiscarding
    split
    · exact intakeLive_of hs rfl rfl rfl (fun h => h) (fun h => rxSymbol_on _ _ _ _ h)
    · exact hs
    · exact hs
    · exact hs
  | _ => exact hrow _ _ rfl rfl

/-- EVERY STEP keeps them. -/
theorem step_intake (s t : State) (h : step s = .next t) (hs : s.IntakeLive) : t.IntakeLive := by
  unfold step at h
  split at h
  · rename_i i rest _
    exact exec_intake i (s.setPending rest) t h
      (intakeLive_of hs rfl rfl rfl (fun h => h) (fun h => h))
  · unfold State.idleStep at h
    split at h
    · simp only [Host.Outcome.next.injEq] at h
      subst h
      exact intakeLive_of hs rfl rfl rfl (fun h => h) (fun h => h)
    · exact exec_intake _ s.draw t h (intakeLive_of hs rfl rfl rfl (fun h => h) (fun h => h))

end Sys2Proof.Machine
end

