-- ==== Sys2Proof/Laws/Judged.lean ====
section
/-! SUPPORT. What the commit of a command comes to, once its length and its common arguments are known
(R130). -/

namespace Sys2Proof.Machine

theorem commits_accepting {s : State} (h : s.commits = true) : s.stc.op.accepting = true := by
  unfold State.commits at h
  simp only [Bool.and_eq_true] at h
  exact h.1

/-- A commit of good length and common arguments: refused by the operating state, or the owner's. -/
theorem commitWith_judged {c : Cmd} {o : Origin} {args : List Byte} {owner : State → State × Result}
    {s : State} (hs : s.commits = true) (hl : Cmd.lengthOk c args = true)
    (hc : Cmd.commonOk c args = true) :
    commitWith c o args owner s =
      s.judged o (Cmd.admittedIn c)
        ((owner (s.leaveQueue o)).1.deliver o (owner (s.leaveQueue o)).2) := by
  unfold commitWith State.judged State.answered
  rw [if_pos hs]
  simp only [hl, hc, Bool.not_true, Bool.false_eq_true, if_false, leaveQueue_stc]
  by_cases ha : s.stc.op ∈ Cmd.admittedIn c
  · rw [if_pos ha]
    have : Cmd.admitted c s.stc.op = true := by simpa [Cmd.admitted] using ha
    simp [this]
  · rw [if_neg ha]
    have : Cmd.admitted c s.stc.op = false := by simpa [Cmd.admitted] using ha
    simp only [this]
    cases s.stc.op <;> rfl

/-- The same where every accepting state admits the command. -/
theorem commitWith_accepted {c : Cmd} {o : Origin} {args : List Byte} {owner : State → State × Result}
    {s : State} (hs : s.commits = true) (hl : Cmd.lengthOk c args = true)
    (hc : Cmd.commonOk c args = true) (ha : Cmd.admittedIn c = acceptingStates) :
    commitWith c o args owner s =
      (owner (s.leaveQueue o)).1.deliver o (owner (s.leaveQueue o)).2 := by
  rw [commitWith_judged hs hl hc, ha]
  unfold State.judged
  have h := commits_accepting hs
  rw [if_pos]
  revert h
  cases s.stc.op <;> decide

/-- A commit of a wrong length. -/
theorem commitWith_badLength {c : Cmd} {o : Origin} {args : List Byte}
    {owner : State → State × Result} {s : State} (hs : s.commits = true)
    (hl : Cmd.lengthOk c args = false) :
    commitWith c o args owner s = s.answered o (refusedWith .badLength) := by
  unfold commitWith State.answered
  rw [if_pos hs]
  simp [hl]

/-- A commit where no command commits. -/
theorem commitWith_deaf {c : Cmd} {o : Origin} {args : List Byte} {owner : State → State × Result}
    {s : State} (hs : s.commits = false) : commitWith c o args owner s = s := by
  unfold commitWith
  simp [hs]

/-- Emptying the staging queue fills the RESERVED record of every staged UNIT command (R133, R136). -/
theorem fillAll_rpu (code : ResultCode) (q : List Staged) (s : State) :
    fillAll code q s = s.setRpu
      { outbox := s.rpu.outbox.map fun x =>
          if x.result = none ∧ ∃ c ∈ q, c.origin = .unit x.seq then
            { seq := x.seq, result := some { code := code, payload := [] } }
          else x } := by
  induction q generalizing s with
  | nil =>
    show s = _
    simp only [List.not_mem_nil, false_and, exists_false, and_false, if_false, List.map_id']
    rfl
  | cons c q ih =>
    simp only [fillAll]
    rw [ih]
    cases hc : c.origin with
    | unit seq =>
      simp only [State.deliver, State.fill, State.setRpu_rpu, State.setRpu_twice, List.map_map]
      congr 2
      apply List.map_congr_left
      rintro ⟨y, r⟩ _
      simp only [Function.comp, fillRecord]
      by_cases h : y = seq ∧ r = none
      · obtain ⟨rfl, rfl⟩ := h
        simp [hc]
      · by_cases hr : r = none
        · have hy : y ≠ seq := fun e => h ⟨e, hr⟩
          simp [hy, hc, hr, Ne.symm hy]
        · simp [hr]
    | broadcast =>
      simp only [State.deliver]
      congr 2
      apply List.map_congr_left
      intro x _
      simp [hc]
    | group =>
      simp only [State.deliver]
      congr 2
      apply List.map_congr_left
      intro x _
      simp [hc]

/-- An outcome logged: the log keeps the eight newest (R191). -/
theorem logOutcome_eq (a : Aln) (seq : Byte) (o : SampleOutcome) (h : a.log.length ≤ 8) :
    a.logOutcome seq o =
      { pending := a.pending
        log := List.drop (a.log.length + 1 - 8) (a.log ++ [{ seq := seq, outcome := o }])
        total := min 255 (a.total + 1) } := by
  unfold Aln.logOutcome Config.logCapacity
  rcases Nat.lt_or_ge a.log.length 8 with h | h
  · simp only [h, if_true]
    rw [show a.log.length + 1 - 8 = 0 by omega]
    rfl
  · have : ¬ a.log.length < 8 := by omega
    simp only [this, if_false]
    rw [show a.log.length + 1 - 8 = 1 by omega, List.drop_append_of_le_length (by omega)]

end Sys2Proof.Machine
end

