-- ==== Sys2Proof/Laws/PerInstr.lean ====
section
/-! SUPPORT. Per constructor of Instr: what it stages as reads back as itself. -/

namespace Sys2Proof.Laws

/-- The origin and command bytes of a well-formed commit row are read back as that row (R130 step 1,
R199). -/
def StagedRoundTrip.Statement (i : Instr) : Prop :=
  ∀ o bytes, i.staged = some (o, bytes) → i.wf = true → Instr.ofStaged o bytes = i

/-- Staged bytes that are a known code and its arguments are that command's row. -/
theorem ofStaged_code (o : Origin) (c : Cmd) (args : List Byte) :
    Instr.ofStaged o (Cmd.code c :: args) = Instr.ofCmd o args c := by
  cases c <;> rfl

theorem StagedRoundTrip.hardReset (phase : ResetPhase) :
    StagedRoundTrip.Statement (.hardReset phase) := by
  intro _ _ h _
  cases h

theorem StagedRoundTrip.commandFrame (h : Heard) :
    StagedRoundTrip.Statement (.commandFrame h) := by
  intro _ _ h _
  cases h

theorem StagedRoundTrip.poll (h : Heard) (order : PollOrder) :
    StagedRoundTrip.Statement (.poll h order) := by
  intro _ _ h _
  cases h

theorem StagedRoundTrip.transmitStart :
    StagedRoundTrip.Statement .transmitStart := by
  intro _ _ h _
  cases h

theorem StagedRoundTrip.transmitEnd :
    StagedRoundTrip.Statement .transmitEnd := by
  intro _ _ h _
  cases h

theorem StagedRoundTrip.replyAbandoned :
    StagedRoundTrip.Statement .replyAbandoned := by
  intro _ _ h _
  cases h

theorem StagedRoundTrip.sync (h : Heard) (order : TakenFirst) :
    StagedRoundTrip.Statement (.sync h order) := by
  intro _ _ h _
  cases h

theorem StagedRoundTrip.probe (h : Heard) (order : TakenFirst) :
    StagedRoundTrip.Statement (.probe h order) := by
  intro _ _ h _
  cases h

theorem StagedRoundTrip.wake (h : Heard) :
    StagedRoundTrip.Statement (.wake h) := by
  intro _ _ h _
  cases h

theorem StagedRoundTrip.fill (h : Heard) :
    StagedRoundTrip.Statement (.fill h) := by
  intro _ _ h _
  cases h

theorem StagedRoundTrip.otherIntactFrame (h : Heard) :
    StagedRoundTrip.Statement (.otherIntactFrame h) := by
  intro _ _ h _
  cases h

theorem StagedRoundTrip.faultReport (h : Heard) :
    StagedRoundTrip.Statement (.faultReport h) := by
  intro _ _ h _
  cases h

theorem StagedRoundTrip.quiesceEnd :
    StagedRoundTrip.Statement .quiesceEnd := by
  intro _ _ h _
  cases h

theorem StagedRoundTrip.stagingExpiry :
    StagedRoundTrip.Statement .stagingExpiry := by
  intro _ _ h _
  cases h

theorem StagedRoundTrip.syncWatchLockedExpiry :
    StagedRoundTrip.Statement .syncWatchLockedExpiry := by
  intro _ _ h _
  cases h

theorem StagedRoundTrip.syncWatchHoldoverExpiry :
    StagedRoundTrip.Statement .syncWatchHoldoverExpiry := by
  intro _ _ h _
  cases h

theorem StagedRoundTrip.syncWatchAcquiringExpiry :
    StagedRoundTrip.Statement .syncWatchAcquiringExpiry := by
  intro _ _ h _
  cases h

theorem StagedRoundTrip.slewEnd :
    StagedRoundTrip.Statement .slewEnd := by
  intro _ _ h _
  cases h

theorem StagedRoundTrip.wakeDelayEnd :
    StagedRoundTrip.Statement .wakeDelayEnd := by
  intro _ _ h _
  cases h

theorem StagedRoundTrip.headReached :
    StagedRoundTrip.Statement .headReached := by
  intro _ _ h _
  cases h

theorem StagedRoundTrip.pulseEnd (channel : Fin 16) :
    StagedRoundTrip.Statement (.pulseEnd channel) := by
  intro _ _ h _
  cases h

theorem StagedRoundTrip.windowEnd (input : Fin 4) :
    StagedRoundTrip.Statement (.windowEnd input) := by
  intro _ _ h _
  cases h

theorem StagedRoundTrip.deadTimeEnd (input : Fin 4) :
    StagedRoundTrip.Statement (.deadTimeEnd input) := by
  intro _ _ h _
  cases h

theorem StagedRoundTrip.captureEdge (input : Fin 4) (edge : PinEdge) :
    StagedRoundTrip.Statement (.captureEdge input edge) := by
  intro _ _ h _
  cases h

theorem StagedRoundTrip.sampleReached :
    StagedRoundTrip.Statement .sampleReached := by
  intro _ _ h _
  cases h

theorem StagedRoundTrip.getStatus (origin : Origin) (args : List Byte) :
    StagedRoundTrip.Statement (.getStatus origin args) := by
  intro o b h _
  simp only [Instr.staged, Option.some.injEq, Prod.mk.injEq] at h
  obtain ⟨rfl, rfl⟩ := h
  exact ofStaged_code _ _ _

theorem StagedRoundTrip.getFaultRecord (origin : Origin) (args : List Byte) :
    StagedRoundTrip.Statement (.getFaultRecord origin args) := by
  intro o b h _
  simp only [Instr.staged, Option.some.injEq, Prod.mk.injEq] at h
  obtain ⟨rfl, rfl⟩ := h
  exact ofStaged_code _ _ _

theorem StagedRoundTrip.clearFault (origin : Origin) (args : List Byte) :
    StagedRoundTrip.Statement (.clearFault origin args) := by
  intro o b h _
  simp only [Instr.staged, Option.some.injEq, Prod.mk.injEq] at h
  obtain ⟨rfl, rfl⟩ := h
  exact ofStaged_code _ _ _

theorem StagedRoundTrip.softReset (origin : Origin) (args : List Byte) :
    StagedRoundTrip.Statement (.softReset origin args) := by
  intro o b h _
  simp only [Instr.staged, Option.some.injEq, Prod.mk.injEq] at h
  obtain ⟨rfl, rfl⟩ := h
  exact ofStaged_code _ _ _

theorem StagedRoundTrip.echo (origin : Origin) (args : List Byte) :
    StagedRoundTrip.Statement (.echo origin args) := by
  intro o b h _
  simp only [Instr.staged, Option.some.injEq, Prod.mk.injEq] at h
  obtain ⟨rfl, rfl⟩ := h
  exact ofStaged_code _ _ _

theorem StagedRoundTrip.ackAttention (origin : Origin) (args : List Byte) :
    StagedRoundTrip.Statement (.ackAttention origin args) := by
  intro o b h _
  simp only [Instr.staged, Option.some.injEq, Prod.mk.injEq] at h
  obtain ⟨rfl, rfl⟩ := h
  exact ofStaged_code _ _ _

theorem StagedRoundTrip.setAttentionMask (origin : Origin) (args : List Byte) :
    StagedRoundTrip.Statement (.setAttentionMask origin args) := by
  intro o b h _
  simp only [Instr.staged, Option.some.injEq, Prod.mk.injEq] at h
  obtain ⟨rfl, rfl⟩ := h
  exact ofStaged_code _ _ _

theorem StagedRoundTrip.start (origin : Origin) (args : List Byte) :
    StagedRoundTrip.Statement (.start origin args) := by
  intro o b h _
  simp only [Instr.staged, Option.some.injEq, Prod.mk.injEq] at h
  obtain ⟨rfl, rfl⟩ := h
  exact ofStaged_code _ _ _

theorem StagedRoundTrip.park (origin : Origin) (args : List Byte) :
    StagedRoundTrip.Statement (.park origin args) := by
  intro o b h _
  simp only [Instr.staged, Option.some.injEq, Prod.mk.injEq] at h
  obtain ⟨rfl, rfl⟩ := h
  exact ofStaged_code _ _ _

theorem StagedRoundTrip.resume (origin : Origin) (args : List Byte) :
    StagedRoundTrip.Statement (.resume origin args) := by
  intro o b h _
  simp only [Instr.staged, Option.some.injEq, Prod.mk.injEq] at h
  obtain ⟨rfl, rfl⟩ := h
  exact ofStaged_code _ _ _

theorem StagedRoundTrip.enterDormant (origin : Origin) (args : List Byte) :
    StagedRoundTrip.Statement (.enterDormant origin args) := by
  intro o b h _
  simp only [Instr.staged, Option.some.injEq, Prod.mk.injEq] at h
  obtain ⟨rfl, rfl⟩ := h
  exact ofStaged_code _ _ _

theorem StagedRoundTrip.enterAlignment (origin : Origin) (args : List Byte) :
    StagedRoundTrip.Statement (.enterAlignment origin args) := by
  intro o b h _
  simp only [Instr.staged, Option.some.injEq, Prod.mk.injEq] at h
  obtain ⟨rfl, rfl⟩ := h
  exact ofStaged_code _ _ _

theorem StagedRoundTrip.exitAlignment (origin : Origin) (args : List Byte) :
    StagedRoundTrip.Statement (.exitAlignment origin args) := by
  intro o b h _
  simp only [Instr.staged, Option.some.injEq, Prod.mk.injEq] at h
  obtain ⟨rfl, rfl⟩ := h
  exact ofStaged_code _ _ _

theorem StagedRoundTrip.getAlignment (origin : Origin) (args : List Byte) :
    StagedRoundTrip.Statement (.getAlignment origin args) := by
  intro o b h _
  simp only [Instr.staged, Option.some.injEq, Prod.mk.injEq] at h
  obtain ⟨rfl, rfl⟩ := h
  exact ofStaged_code _ _ _

theorem StagedRoundTrip.setCommitLag (origin : Origin) (args : List Byte) :
    StagedRoundTrip.Statement (.setCommitLag origin args) := by
  intro o b h _
  simp only [Instr.staged, Option.some.injEq, Prod.mk.injEq] at h
  obtain ⟨rfl, rfl⟩ := h
  exact ofStaged_code _ _ _

theorem StagedRoundTrip.setFaultMode (origin : Origin) (args : List Byte) :
    StagedRoundTrip.Statement (.setFaultMode origin args) := by
  intro o b h _
  simp only [Instr.staged, Option.some.injEq, Prod.mk.injEq] at h
  obtain ⟨rfl, rfl⟩ := h
  exact ofStaged_code _ _ _

theorem StagedRoundTrip.setGroups (origin : Origin) (args : List Byte) :
    StagedRoundTrip.Statement (.setGroups origin args) := by
  intro o b h _
  simp only [Instr.staged, Option.some.injEq, Prod.mk.injEq] at h
  obtain ⟨rfl, rfl⟩ := h
  exact ofStaged_code _ _ _

theorem StagedRoundTrip.readConfig (origin : Origin) (args : List Byte) :
    StagedRoundTrip.Statement (.readConfig origin args) := by
  intro o b h _
  simp only [Instr.staged, Option.some.injEq, Prod.mk.injEq] at h
  obtain ⟨rfl, rfl⟩ := h
  exact ofStaged_code _ _ _

theorem StagedRoundTrip.setTimebase (origin : Origin) (args : List Byte) :
    StagedRoundTrip.Statement (.setTimebase origin args) := by
  intro o b h _
  simp only [Instr.staged, Option.some.injEq, Prod.mk.injEq] at h
  obtain ⟨rfl, rfl⟩ := h
  exact ofStaged_code _ _ _

theorem StagedRoundTrip.setOffset (origin : Origin) (args : List Byte) :
    StagedRoundTrip.Statement (.setOffset origin args) := by
  intro o b h _
  simp only [Instr.staged, Option.some.injEq, Prod.mk.injEq] at h
  obtain ⟨rfl, rfl⟩ := h
  exact ofStaged_code _ _ _

theorem StagedRoundTrip.setTime (origin : Origin) (args : List Byte) :
    StagedRoundTrip.Statement (.setTime origin args) := by
  intro o b h _
  simp only [Instr.staged, Option.some.injEq, Prod.mk.injEq] at h
  obtain ⟨rfl, rfl⟩ := h
  exact ofStaged_code _ _ _

theorem StagedRoundTrip.setLateTolerance (origin : Origin) (args : List Byte) :
    StagedRoundTrip.Statement (.setLateTolerance origin args) := by
  intro o b h _
  simp only [Instr.staged, Option.some.injEq, Prod.mk.injEq] at h
  obtain ⟨rfl, rfl⟩ := h
  exact ofStaged_code _ _ _

theorem StagedRoundTrip.getTime (origin : Origin) (args : List Byte) :
    StagedRoundTrip.Statement (.getTime origin args) := by
  intro o b h _
  simp only [Instr.staged, Option.some.injEq, Prod.mk.injEq] at h
  obtain ⟨rfl, rfl⟩ := h
  exact ofStaged_code _ _ _

theorem StagedRoundTrip.configureChannel (origin : Origin) (args : List Byte) :
    StagedRoundTrip.Statement (.configureChannel origin args) := by
  intro o b h _
  simp only [Instr.staged, Option.some.injEq, Prod.mk.injEq] at h
  obtain ⟨rfl, rfl⟩ := h
  exact ofStaged_code _ _ _

theorem StagedRoundTrip.configureInput (origin : Origin) (args : List Byte) :
    StagedRoundTrip.Statement (.configureInput origin args) := by
  intro o b h _
  simp only [Instr.staged, Option.some.injEq, Prod.mk.injEq] at h
  obtain ⟨rfl, rfl⟩ := h
  exact ofStaged_code _ _ _

theorem StagedRoundTrip.addEntry (origin : Origin) (args : List Byte) :
    StagedRoundTrip.Statement (.addEntry origin args) := by
  intro o b h _
  simp only [Instr.staged, Option.some.injEq, Prod.mk.injEq] at h
  obtain ⟨rfl, rfl⟩ := h
  exact ofStaged_code _ _ _

theorem StagedRoundTrip.cancelEntry (origin : Origin) (args : List Byte) :
    StagedRoundTrip.Statement (.cancelEntry origin args) := by
  intro o b h _
  simp only [Instr.staged, Option.some.injEq, Prod.mk.injEq] at h
  obtain ⟨rfl, rfl⟩ := h
  exact ofStaged_code _ _ _

theorem StagedRoundTrip.cancelGroup (origin : Origin) (args : List Byte) :
    StagedRoundTrip.Statement (.cancelGroup origin args) := by
  intro o b h _
  simp only [Instr.staged, Option.some.injEq, Prod.mk.injEq] at h
  obtain ⟨rfl, rfl⟩ := h
  exact ofStaged_code _ _ _

theorem StagedRoundTrip.flushSchedule (origin : Origin) (args : List Byte) :
    StagedRoundTrip.Statement (.flushSchedule origin args) := by
  intro o b h _
  simp only [Instr.staged, Option.some.injEq, Prod.mk.injEq] at h
  obtain ⟨rfl, rfl⟩ := h
  exact ofStaged_code _ _ _

theorem StagedRoundTrip.queryEntry (origin : Origin) (args : List Byte) :
    StagedRoundTrip.Statement (.queryEntry origin args) := by
  intro o b h _
  simp only [Instr.staged, Option.some.injEq, Prod.mk.injEq] at h
  obtain ⟨rfl, rfl⟩ := h
  exact ofStaged_code _ _ _

theorem StagedRoundTrip.listSchedule (origin : Origin) (args : List Byte) :
    StagedRoundTrip.Statement (.listSchedule origin args) := by
  intro o b h _
  simp only [Instr.staged, Option.some.injEq, Prod.mk.injEq] at h
  obtain ⟨rfl, rfl⟩ := h
  exact ofStaged_code _ _ _

theorem StagedRoundTrip.readEvents (origin : Origin) (args : List Byte) :
    StagedRoundTrip.Statement (.readEvents origin args) := by
  intro o b h _
  simp only [Instr.staged, Option.some.injEq, Prod.mk.injEq] at h
  obtain ⟨rfl, rfl⟩ := h
  exact ofStaged_code _ _ _

theorem StagedRoundTrip.unknownCommand (origin : Origin) (bytes : List Byte) :
    StagedRoundTrip.Statement (.unknownCommand origin bytes) := by
  intro o b h hw
  simp only [Instr.staged, Option.some.injEq, Prod.mk.injEq] at h
  obtain ⟨rfl, rfl⟩ := h
  simp only [Instr.wf, Bool.and_eq_true] at hw
  cases bytes with
  | nil => rfl
  | cons x rest =>
    have : Cmd.ofCode x = none := by simpa [codeUnknown] using hw.2
    simp [Instr.ofStaged, this]

theorem StagedRoundTrip.discardingEnd (ending : RunEnd) :
    StagedRoundTrip.Statement (.discardingEnd ending) := by
  intro _ _ h _
  cases h

end Sys2Proof.Laws
end

