-- ==== Sys2Proof/Laws/Receiving.lean ====
section
/-! SUPPORT. What the receiver holds after the bytes of a frame (R140, R141): the bytes, and the check word
over as many of them as the length field covers. -/

namespace Sys2Proof

theorem crc_snoc (l : List Byte) (b : Byte) : crc (l ++ [b]) = crcFeed (crc l) b := by
  simp [crc]

/-- How many of the bytes received so far the check word covers (R141). -/
def covered (bytes : List Byte) : Nat :=
  match bytes[3]? with
  | none => bytes.length
  | some b => min bytes.length (4 + b.toNat)

/-- The reception after some bytes. -/
def Reception.after (bytes : List Byte) : Reception :=
  { bytes := bytes, check := crc (bytes.take (covered bytes)), age := 0 }

/-- A byte that finds nothing. -/
theorem classifyFrom_byte (f : Reception) (b : Byte) (rest : List LineSymbol)
    (h1 : f.bytes.length < 62) (h2 : ¬ (f.bytes.length = 3 ∧ 56 < b.toNat)) :
    classifyFrom .receiving (some f) (.byte b :: rest) =
      classifyFrom .receiving
        (some
          { bytes := f.bytes ++ [b]
            check := if f.covers f.bytes.length then crcFeed f.check b else f.check
            age := f.age })
        rest := by
  conv_lhs => unfold classifyFrom
  simp only [rxSymbol, Option.getD_some, Reception.takeByte]
  rw [if_neg (by omega), if_neg h2]

theorem after_snoc (bytes : List Byte) (b : Byte) :
    Reception.after (bytes ++ [b]) =
      { bytes := bytes ++ [b]
        check :=
          if (Reception.after bytes).covers bytes.length then crcFeed (Reception.after bytes).check b
          else (Reception.after bytes).check
        age := 0 } := by
  unfold Reception.after
  congr 1
  simp only [Reception.covers]
  obtain hb | ⟨len, hb⟩ : bytes[3]? = none ∨ ∃ len, bytes[3]? = some len := by
    cases bytes[3]? <;> simp
  · have hlen : bytes.length ≤ 3 := by simpa using hb
    have c1 : covered bytes = bytes.length := by simp [covered, hb]
    have c2 : covered (bytes ++ [b]) = bytes.length + 1 := by
      unfold covered
      by_cases h : bytes.length = 3
      · have : (bytes ++ [b])[3]? = some b := by
          rw [← h]
          simp
        rw [this]
        simp
        omega
      · have : (bytes ++ [b])[3]? = none := by
          simp
          omega
        rw [this]
        simp
    simp only [hb]
    rw [c1, c2, List.take_length, List.take_of_length_le (by simp), crc_snoc]
    simp
  · have hlen : 3 < bytes.length := by
      by_contra h
      have : bytes[3]? = none := by
        simp
        omega
      rw [this] at hb
      cases hb
    have hb2 : (bytes ++ [b])[3]? = some len := by
      rw [List.getElem?_append_left hlen]
      exact hb
    have c1 : covered bytes = min bytes.length (4 + len.toNat) := by simp [covered, hb]
    have c2 : covered (bytes ++ [b]) = min (bytes.length + 1) (4 + len.toNat) := by
      simp [covered, hb2]
    simp only [hb, c1, c2]
    by_cases h : bytes.length < 4 + len.toNat
    · simp only [h, decide_true, if_true]
      rw [show min bytes.length (4 + len.toNat) = bytes.length by omega,
        show min (bytes.length + 1) (4 + len.toNat) = bytes.length + 1 by omega, List.take_length,
        List.take_of_length_le (by simp), crc_snoc]
    · simp only [h, decide_false]
      rw [show min bytes.length (4 + len.toNat) = 4 + len.toNat by omega,
        show min (bytes.length + 1) (4 + len.toNat) = 4 + len.toNat by omega,
        List.take_append_of_le_length (by omega)]
      rfl

/-- Bytes at which nothing is found, one after another. -/
theorem classifyFrom_bytes (bytes more : List Byte) (rest : List LineSymbol)
    (hl : (bytes ++ more).length ≤ 62)
    (h3 : ∀ b, (bytes ++ more)[3]? = some b → b.toNat ≤ 56) :
    classifyFrom .receiving (some (Reception.after bytes)) (more.map LineSymbol.byte ++ rest) =
      classifyFrom .receiving (some (Reception.after (bytes ++ more))) rest := by
  induction more generalizing bytes with
  | nil => simp
  | cons b more ih =>
    have e : bytes ++ b :: more = (bytes ++ [b]) ++ more := by simp
    rw [e] at hl h3 ⊢
    rw [List.map_cons, List.cons_append, classifyFrom_byte]
    · rw [← ih (bytes ++ [b]) hl h3, after_snoc]
      rfl
    · simp at hl
      show bytes.length < 62
      omega
    · rintro ⟨h1, h2⟩
      have h1' : bytes.length = 3 := h1
      have := h3 b (by
        rw [List.append_assoc, ← h1']
        simp)
      omega

/-- What a run of at most 62 bytes and what follows it spells. -/
theorem classify_bytes (bytes : List Byte) (rest : List LineSymbol) (hl : bytes.length ≤ 62)
    (h3 : ∀ b, bytes[3]? = some b → b.toNat ≤ 56) :
    classify (bytes.map LineSymbol.byte ++ rest) =
      classifyFrom .receiving (some (Reception.after bytes)) rest :=
  classifyFrom_bytes [] bytes rest (by simpa using hl) (by simpa using h3)

end Sys2Proof
end

