-- ==== Sys2Proof/Laws/Runs.lean ====
section
/-! SUPPORT. Runs of symbols in the receiver's other modes: what DISCARDING and LISTENING make of the
symbols after a start delimiter that was not received (R140, R143). -/

namespace Sys2Proof.Machine

/-- A run at whose last symbol something is found is bytes up to that symbol. -/
theorem run_shape (l : List LineSymbol) (f : Option Reception)
    (h : classifyFrom .receiving f l ≠ .nothing) :
    ∃ (bytes : List Byte) (x : LineSymbol), l = bytes.map .byte ++ [x] := by
  induction l generalizing f with
  | nil => exact absurd rfl h
  | cons x l ih =>
    cases l with
    | nil => exact ⟨[], x, rfl⟩
    | cons y l =>
      unfold classifyFrom at h
      have hx := rxSymbol_receiving false f x
      rcases hr : rxSymbol false .receiving f x with ⟨r', f', w⟩
      rw [hr] at h hx
      cases w with
      | nothing =>
        have hx' : r' = .receiving := hx
        subst hx'
        obtain ⟨bytes, z, hz⟩ := ih f' h
        cases x with
        | byte b => exact ⟨b :: bytes, z, by rw [hz]; rfl⟩
        | stop =>
          simp only [rxSymbol, Reception.close] at hr
          (repeat' split at hr) <;> simp at hr
        | start => simp [rxSymbol] at hr
        | invalid => simp [rxSymbol] at hr
        | idle => simp [rxSymbol] at hr
      | intact _ => exact absurd rfl h
      | fault _ _ => exact absurd rfl h

/-- Every row that brings a run of symbols brings one at which something is found. -/
theorem heardOf_classified {c : Instr} {h : Heard} (hc : heardOf c = some h) (hw : c.wf = true) :
    classify h.symbols ≠ .nothing := by
  have key : ∀ b, h.isKind b = true → classify h.symbols ≠ .nothing := by
    intro b hb he
    simp [Heard.isKind, Heard.frame?, he] at hb
  cases c <;> simp only [heardOf, Option.some.injEq, reduceCtorEq] at hc <;> subst hc <;>
    simp only [Instr.wf] at hw
  all_goals
    first
    | exact key _ hw
    | intro he
      simp [Heard.isOther, Heard.frame?, Heard.isFault, he] at hw

/-- Such a row is heard, by a handling of its own. -/
theorem heardOf_exec {c : Instr} {h : Heard} (hc : heardOf c = some h) (hw : c.wf = true) :
    ∃ onIntact, ∀ s, exec c s = .next (s.hear h onIntact) := by
  cases c <;> simp only [heardOf, Option.some.injEq, reduceCtorEq] at hc <;> subst hc <;>
    simp only [Instr.wf] at hw <;>
    simp only [exec, execCommandFrame, execPoll, execSync, execProbe, execWake, execFill,
      execOtherIntactFrame, execFaultReport, hw, if_true] <;>
    exact ⟨_, fun _ => rfl⟩

/-- DISCARDING ends with the run, at an end delimiter or an idle line (R143). -/
theorem rxSymbols_discarding (quiet : Bool) (bytes : List Byte) (x : LineSymbol) (f : Option Reception) :
    rxSymbols quiet .discarding f (bytes.map .byte ++ [x]) =
      ((if x = .stop ∨ x = .idle then .listening else .discarding), none, .nothing) := by
  induction bytes generalizing f with
  | nil => cases x <;> rfl
  | cons b bytes ih =>
    simp only [List.map_cons, List.cons_append]
    unfold rxSymbols
    exact ih none

/-- In LISTENING only a start delimiter is taken (R140). -/
theorem rxSymbols_listening (quiet : Bool) (bytes : List Byte) (x : LineSymbol) (f : Option Reception) :
    rxSymbols quiet .listening f (bytes.map .byte ++ [x]) =
      (if x = .start then
        (if quiet then (.discarding, none, .nothing) else (.receiving, some .fresh, .nothing))
      else (.listening, none, .nothing)) := by
  induction bytes generalizing f with
  | nil => cases x <;> cases quiet <;> rfl
  | cons b bytes ih =>
    simp only [List.map_cons, List.cons_append]
    unfold rxSymbols
    exact ih none

theorem endsRun_iff (h : Heard) (bytes : List Byte) (x : LineSymbol)
    (he : h.symbols = bytes.map .byte ++ [x]) : endsRun h ↔ (x = .stop ∨ x = .idle) := by
  unfold endsRun
  rw [he]
  simp

/-- A run in which nothing is found changes the receiver alone, and a waiting reply where a start delimiter
came with it. -/
theorem hear_nothing {s : State} {h : Heard} {r : Receiver} {f : Option Reception}
    (onIntact : State → Frame → State) (silent : s.sending = false) (on : s.lnk.receiver ≠ .off)
    (whole : s.breaksOff h = false) (hr : s.receive h = (r, f, .nothing)) :
    s.hear h onIntact = s.afterReceiving (s.meetsStart h) r f := by
  have hi : s.inReset = false := by simp [State.inReset, on]
  unfold State.hear
  rw [hr, silent, hi, whole]
  rfl

/-- A run that would have broken off the frame in reception is no event (R173). -/
theorem hear_broken {s : State} {h : Heard} (onIntact : State → Frame → State)
    (hb : s.breaksOff h = true) : s.hear h onIntact = s := by
  unfold State.hear
  rw [if_pos (by simp [hb])]

/-- What is found in a run does not depend on the ticks since its start delimiter. -/
theorem classifyFrom_age (l : List LineSymbol) (bytes : List Byte) (check : BitVec 16) (a b : Nat) :
    classifyFrom .receiving (some ⟨bytes, check, a⟩) l =
      classifyFrom .receiving (some ⟨bytes, check, b⟩) l := by
  induction l generalizing bytes check with
  | nil => rfl
  | cons x l ih =>
    unfold classifyFrom
    cases x with
    | byte y =>
      simp only [rxSymbol, Option.getD_some, Reception.takeByte]
      by_cases h1 : 62 ≤ bytes.length
      · simp [h1]
      · by_cases h2 : bytes.length = 3 ∧ 56 < y.toNat
        · simp [h2]
        · simp only [h1, h2, if_false, Reception.covers]
          exact ih _ _
    | stop =>
      have : rxSymbol false .receiving (some ⟨bytes, check, a⟩) .stop =
          rxSymbol false .receiving (some ⟨bytes, check, b⟩) .stop := by
        simp only [rxSymbol, Option.getD_some, Reception.close]
      rw [this]
    | start => rfl
    | invalid => rfl
    | idle => rfl

end Sys2Proof.Machine
end

