-- ==== Sys2Proof/Tests/Slice0.lean ====
section
/-! SUPPORT. The model's own tests: an ill-formed term for each check of WellFormed, single steps from the
manual's worked examples, and for each statement with hypotheses a state and operands that meet them. -/

namespace Sys2Proof.Tests

open Sys2Proof.Machine

/-! ### Small states -/

/-- A part at unit address 5 and in group 1, which has been listening for 10 µs. -/
def part (op : OpState) : State :=
  { State.reset with
    lnk := { Lnk.reset 5 with groups := 2, freeFor := 1000 }
    stc := { Stc.reset with op := op } }

/-- The same with a running timebase. -/
def timed (op : OpState) (state : TbState) (now : Nat) : State :=
  { part op with
    tbu :=
      { Tbu.reset with
        localTime := some now, state := state, watch := some { interval := 1000000, left := 5000 } } }

/-- The same with a table. -/
def holding (s : State) (entries : List Entry) : State :=
  { s with sct := { entries := entries, nextInsertion := entries.length + 1 } }

/-- In ALIGN, entered from PARKED. -/
def aligned : State :=
  { timed .align .locked 8000000 with
    stc := { op := .align, beforeFault := none, beforeAlign := some .parked, wakeDelay := none } }

/-- Held by a fault found in RUN. -/
def heldByFault : State :=
  { part .faultHold with
    stc := { op := .faultHold, beforeFault := some .run, beforeAlign := none, wakeDelay := none }
    imn :=
      { flag := true
        record := some { kind := .checkWord, time := none, op := .run, header := [1, 2, 3], voided := 2 }
        count := 3, mode := .latched, quiesce := none } }

/-- A one-shot PULSE of 2,000 ticks on OUT3 and OUT4. -/
def pulseEntry (handle due : Nat) : Entry :=
  { handle := handle, due := due, action := .pulse 2000 0x18, tag := 1, repeats := none,
    requireLock := false, lateFire := false, report := true, remaining := 1, fired := 0,
    insertion := 1 }

/-- The repeating entry of 2.7: handle 7, period 200,000, count 500, LATE_FIRE and REPORT set. -/
def repeating (due remaining : Nat) : Entry :=
  { pulseEntry 7 due with
    repeats := some { period := 200000, count := 500 }, lateFire := true, remaining := remaining }

/-- A frame heard whole, 6 µs after its start delimiter arrived. -/
def line (dest kind seq : Byte) (payload : List Byte) : Heard :=
  { symbols := ({ dest := dest, kind := kind, seq := seq, payload := payload } : Frame).line
    since := 600 }

/-- A FILL frame whose check word does not match. -/
def damaged : Heard :=
  { symbols := [0x00, 0x06, 0x00, 0x00, 0x36, 0x61].map LineSymbol.byte ++ [.stop], since := 600 }

/-- A step's next state meets a test. -/
def nextHas (o : Host.Outcome State Fault Refusal) (test : State → Bool) : Bool :=
  match o with
  | .next t => test t
  | _ => false

/-- A step is refused as ill-formed. -/
def refusesIllFormed (o : Host.Outcome State Fault Refusal) : Bool :=
  match o with
  | .refused .illFormed => true
  | _ => false

/-! ### WellFormed: an ill-formed term for each check -/

theorem test_wf_commandFrame : (Instr.commandFrame (line 0 0x06 0 [])).wf = false := by
  decide +kernel

theorem test_wf_poll : (Instr.poll (line 5 0x01 0 [0]) .commits).wf = false := by decide +kernel

theorem test_wf_sync : (Instr.sync (line 0 0x04 0 []) .commits).wf = false := by decide +kernel

theorem test_wf_probe : (Instr.probe (line 0 0x03 0 []) .commits).wf = false := by decide +kernel

theorem test_wf_wake : (Instr.wake damaged).wf = false := by decide +kernel

theorem test_wf_fill : (Instr.fill { symbols := [], since := 0 }).wf = false := by decide +kernel

theorem test_wf_otherIntactFrame : (Instr.otherIntactFrame (line 47 0x06 0 [])).wf = false := by
  decide +kernel

theorem test_wf_faultReport : (Instr.faultReport (line 0 0x06 0 [])).wf = false := by decide +kernel

theorem test_wf_bytes_unit : (Instr.echo (.unit 1) (List.replicate 56 0)).wf = false := by
  decide +kernel

theorem test_wf_bytes_broadcast : (Instr.echo .broadcast (List.replicate 52 0)).wf = false := by
  decide +kernel

theorem test_wf_unknownCommand : (Instr.unknownCommand .group [0x05, 1]).wf = false := by
  decide +kernel

/-- Every other commit row carries the same check; SET_TIME stands for them. -/
theorem test_wf_bytes_group : (Instr.setTime .group (List.replicate 56 0)).wf = false := by
  decide +kernel

theorem test_wf_good :
    (Instr.fill (line 0 0x06 0 [])).wf = true ∧ (Instr.otherIntactFrame (line 48 0x06 0 [])).wf = true ∧
    (Instr.otherIntactFrame (line 63 0x81 0 [])).wf = true ∧ (Instr.faultReport damaged).wf = true ∧
    (Instr.unknownCommand .group [0x08]).wf = true ∧
    (Instr.echo .broadcast (List.replicate 51 0)).wf = true := by
  decide +kernel

/-- An ill-formed link row is refused (log 20). -/
theorem test_refused_illFormed :
    refusesIllFormed (exec (.fill damaged) (part .run)) = true ∧
    refusesIllFormed (exec (.unknownCommand .group [0x05]) (part .run)) = true := by
  decide +kernel

/-- No word spells a command (log 22). -/
theorem test_decodeTableWord : decodeTableWord 8 1 = none := rfl

/-! ### Single steps -/

/-- 13.2: a FILL frame is 00h 06h 00h 00h 36h 60h. -/
theorem test_fill_line :
    (line 0 0x06 0 []).symbols =
      [0x00, 0x06, 0x00, 0x00, 0x36, 0x60].map LineSymbol.byte ++ [.stop] := by
  decide +kernel

theorem test_fill_heard :
    nextHas (exec (.fill (line 0 0x06 0 [])) (part .run)) (fun t => t.lnk.freeFor == 0) = true := by
  decide +kernel

/-- 1.8, step 1: handle 7 goes to position 0, remaining 500, insertion 1. -/
theorem test_addEntry :
    nextHas
      (exec
        (.addEntry (.unit 20)
          [0, 7, 0, 0, 0, 0, 5, 0xFD, 0x82, 0x20, 1, 0, 0, 0, 0x07, 0xD0, 0, 0x18, 1, 0, 3, 0x0D, 0x40, 1,
            0xF4, 6])
        { timed .config .locked 100000000 with
          rpu := { outbox := [{ seq := 20, result := none }] } })
      (fun t =>
        t.sct.entries == [{ repeating 100500000 500 with insertion := 1 }] &&
          t.rpu.outbox == [{ seq := 20, result := some { code := .ok, payload := [0] } }]) = true := by
  decide +kernel

/-- 2.7, step 2: the first occurrence is fired on time. -/
theorem test_headReached :
    nextHas (exec .headReached (holding (timed .run .locked 100500000) [repeating 100500000 500]))
      (fun t =>
        t.sct.entries ==
            [{ repeating 100700000 499 with fired := 1, insertion := 2 }] &&
          t.evq.records.map EventRecord.body == [.fired 7 100500000 false]) = true := by
  decide +kernel

/-- R34's example: four past occurrences at 1,650,000, or the three that remain. -/
theorem test_pastCount :
    (repeating 1000000 10).pastCount 1650000 = 4 ∧ (repeating 1000000 3).pastCount 1650000 = 3 := by
  decide

/-- A RESUME settles a head past due: all but the last occurrence missed, the last fired late. -/
theorem test_resume :
    nextHas
      (exec (.resume .broadcast [])
        { holding (timed .parked .locked 1650000) [repeating 1000000 10] with
          dpu := { lateTolerance := 50000 } })
      (fun t =>
        t.stc.op == .run &&
          t.evq.records.map EventRecord.body ==
            [.missed 7 1400000 3, .fired 7 1650000 true] &&
          t.sct.entries.map Entry.due == [1800000]) = true := by
  decide +kernel

/-- 3.6, sequence 41: error −12, ACQUIRING with count 2. -/
theorem test_sync :
    nextHas
      (exec (.sync (line 0 0x03 41 [0, 0, 0, 0, 0, 0x4D, 0xAA, 0xD0]) .commits)
        { timed .run .acquiring (5090362 + 600) with
          tbu :=
            { Tbu.reset with
              localTime := some (5090362 + 600), state := .acquiring, offset := 350,
              acquisitionCount := 1, sinceArrival := some (90000 + 600) } })
      (fun t =>
        t.tbu.acquisitionCount == 2 && t.tbu.slew.map Slew.amount == some (-12) &&
          t.tbu.rate == -133333) = true := by
  decide +kernel

theorem test_watch :
    nextHas
      (exec .syncWatchLockedExpiry
        { part .run with
          tbu := { Tbu.reset with state := .locked, watch := some { interval := 1000000, left := 0 } } })
      (fun t => t.tbu.state == .holdover && t.attnLow) = true := by
  decide +kernel

/-- R60: after a SET_TIMEBASE that takes the interval from 10 ms to 4 ms, with no SYNC since, HOLDOVER's
first interval is the one the watch was started with, and its second the one in force. -/
theorem test_watch_interval :
    nextHas
      (exec .syncWatchLockedExpiry
        { part .config with
          tbu :=
            { Tbu.reset with
              state := .locked, syncInterval := 4, watch := some { interval := 1000000, left := 0 } } })
      (fun t =>
        t.tbu.watch == some { interval := 1000000, left := 1000000 } &&
        nextHas
          (exec .syncWatchHoldoverExpiry
            { t with tbu := { t.tbu with watch := some { interval := 1000000, left := 0 } } })
          (fun u => u.tbu.watch == some { interval := 400000, left := 400000 })) = true := by
  decide +kernel

/-- 4.9: a second PULSE restarts the first and flags the overlap, and TOGGLE takes the pulse level. -/
theorem test_pulses :
    let c : Channel := { Channel.reset with enable := true, pulse := some 1000 }
    (c.firePulse 2000).pulse = some 2000 ∧ (c.firePulse 2000).overlap = true ∧
      c.pin .run = .driven .high ∧ c.toggleBase.pin .run = .driven .high ∧
      (({ c with policy := .ignore } : Channel).firePulse 2000).pulse = some 1000 := by
  decide

/-- 5.8: the record handed to a full queue is discarded and counted. -/
theorem test_full_queue :
    let full : State :=
      { part .run with
        evq :=
          { records := List.replicate 64 { seq := 0, gap := false, body := .fired 5 0 false }
            next := 964, lost := 1, gap := true } }
    (full.handEvent (.fired 5 2000000 false)).evq.lost = 2 ∧
      (full.handEvent (.fired 5 2000000 false)).atn.flags.eventLoss = true := by
  decide +kernel

theorem test_captureEdge :
    nextHas
      (exec (.captureEdge 1 { kind := .rising, after := 0 })
        { timed .run .locked 5000 with
          cap :=
            { inputs := Vector.replicate 4
                { Input.reset .low false with mode := .continuous, edges := .both, dead := 1000 }
              waiting := [] } })
      (fun t =>
        t.evq.records.map EventRecord.body == [.edge 1 .rising 5000 .locked] &&
          t.cap.inputs[1].lastEdge == some 1000) = true := by
  decide +kernel

/-- R99: the records that one batch leaves where an edge of the same instant falls behind so many of
dispatch's moments. -/
def batchWithEdge (after : Nat) (mode : InputMode) (first : Entry) : List EventBody :=
  let s : State :=
    { holding (timed .run .unlocked 1000) [first, { pulseEntry 9 1000 with insertion := 2 }] with
      cap :=
        { inputs := Vector.replicate 4
            { Input.reset .low false with mode := mode, edges := .both, dead := 1000 }
          waiting := [] } }
  match exec (.captureEdge 1 { kind := .rising, after := after }) s with
  | .next t =>
    match exec .headReached t with
    | .next u => u.evq.records.map EventRecord.body
    | _ => []
  | _ => []

theorem test_edge_among_records :
    let first : Entry := { pulseEntry 7 1000 with requireLock := true }
    batchWithEdge 0 .continuous first =
      [.edge 1 .rising 1000 .unlocked, .missed 7 1000 1, .fired 9 1000 false] ∧
    batchWithEdge 1 .continuous first =
      [.missed 7 1000 1, .edge 1 .rising 1000 .unlocked, .fired 9 1000 false] ∧
    batchWithEdge 3 .continuous first =
      [.missed 7 1000 1, .fired 9 1000 false, .edge 1 .rising 1000 .unlocked] := by
  decide +kernel

/-- R91, R93: an edge let in by the batch's own ARM_CAPTURE, before the next FIRED record. -/
theorem test_edge_in_the_window_opened :
    let first : Entry := { pulseEntry 7 1000 with action := .armCapture 500 2#4, report := false }
    batchWithEdge 0 .windowed first = [.fired 9 1000 false] ∧
    batchWithEdge 1 .windowed first = [.edge 1 .rising 1000 .unlocked, .fired 9 1000 false] := by
  decide +kernel

/-- 6.8: a fault in ALIGN is held with both states remembered, and CLEAR_FAULT returns to ALIGN. -/
theorem test_faultReport :
    nextHas (exec (.faultReport damaged) aligned)
      (fun t =>
        t.stc ==
            { op := .faultHold, beforeFault := some .align, beforeAlign := some .parked,
              wakeDelay := none } &&
          t.imn.quiesce == some 6400 && t.imn.count == 1 &&
          nextHas (exec (.clearFault .group []) t) (fun u => u.stc == aligned.stc)) = true := by
  decide +kernel

theorem test_exitAlignment_held :
    nextHas
      (exec (.exitAlignment (.unit 9) [])
        { heldByFault with rpu := { outbox := [{ seq := 9, result := none }] } })
      (fun t => t.rpu.outbox.map ReplyRecord.result == [some (refusedWith .faultLatched)]) = true := by
  decide +kernel

/-- R140, R152: symbols without a start delimiter leave a reply waiting, and a frame abandons it. -/
theorem test_waiting_reply_and_runs :
    let waiting : State :=
      (part .config).setLnk
        { Lnk.reset 5 with transmitter := .waiting [1] 500 0, freeFor := 500 }
    nextHas (exec (.fill { line 0 0x06 0 [] with since := 501 }) waiting)
      (fun t => t.lnk.transmitter == .waiting [1] 500 0 && t.lnk.receiver == .listening) = true ∧
    nextHas (exec (.fill { line 0 0x06 0 [] with since := 500 }) waiting)
      (fun t => t.lnk.transmitter == .idle) = true := by
  decide +kernel

/-- 7.8, frames 1 and 2: staged with count 2, then one frame less. -/
theorem test_commandFrame :
    nextHas
      (exec (.commandFrame (line 5 0x01 20 [0x34]))
        { part .config with cin := { queue := [], lag := 2, expiry := none } })
      (fun t =>
        t.cin ==
            { queue := [{ origin := .unit 20, bytes := [0x34], remaining := 2 }], lag := 2,
              expiry := some 200000 } &&
          t.rpu.outbox == [{ seq := 20, result := none }]) = true := by
  decide +kernel

/-- 8.8: who is matched by a frame to unit 7, by a select mask with bits 0 and 3, and by group 1. -/
theorem test_matching :
    let a : State := { part .align with lnk := { Lnk.reset 3 with groups := 2 } }
    let c : State := { part .align with lnk := { Lnk.reset 0 with groups := 16 } }
    let f (dest : Byte) (payload : List Byte) : Frame :=
      { dest := dest, kind := 1, seq := 1, payload := payload }
    [a, c].map (fun s => s.commandOrigin (f 7 [0x34])) = [none, none] ∧
      [a, c].map (fun s => s.commandOrigin (f 0 [0, 0, 0, 9, 0x34])) =
        [some .broadcast, some .broadcast] ∧
      [a, c].map (fun s => s.commandOrigin (f 33 [0x34])) = [some .group, none] ∧
      [a, c].map (fun s => s.commandOrigin (f 0 [0, 0, 0])) = [none, none] := by
  decide +kernel

/-- 9.9, frame 7: the last record is acknowledged, and the reply is EMPTY. -/
theorem test_poll :
    nextHas
      (exec (.poll (line 5 0x02 41 [1]) .commits)
        { part .config with rpu := { outbox := [{ seq := 41, result := some okEmpty }] } })
      (fun t =>
        t.rpu.outbox == [] &&
          t.lnk.transmitter ==
            .waiting
              ({ dest := 63, kind := 0x81, seq := 0, payload := [0, 5, 0, 0, 0, 0, 0] } : Frame).bytes 0
              0) = true := by
  decide +kernel

/-- 12.7: PROBE 1 becomes the pending sample. -/
theorem test_probe :
    nextHas (exec (.probe (line 0 0x04 1 [0, 0, 0, 0, 0, 0x7A, 0x12, 0xC8]) .handling) aligned)
      (fun t => t.aln.pending == some { time := 8000200, seq := 1 }) = true := by
  decide +kernel

theorem test_hardReset :
    nextHas (exec (.hardReset (.whole 9)) (timed .run .locked 77))
      (fun t => t == { State.reset with lnk := Lnk.reset 9 }) = true := by
  decide +kernel

/-- A step takes the front command and leaves the rest. -/
theorem test_step_front :
    nextHas (step { part .run with pending := [.slewEnd, .transmitEnd] })
      (fun t => t.pending == [.transmitEnd]) = true := by
  decide +kernel

/-! ### Hypotheses that are met: steps and resets -/

theorem witness_StepRunsTheFront :
    ∃ (s : State) (c : Instr) (rest : List Instr), s.pending = c :: rest :=
  ⟨{ part .run with pending := [.transmitStart, .slewEnd] }, _, _, rfl⟩

theorem witness_EmptyQueueRunsTheClock :
    (∃ s : State, s.pending = [] ∧ s.dueRows ≠ []) ∧
    (∃ s : State, s.pending = [] ∧ s.dueRows = [] ∧ s.tbu.localTime = none) ∧
    (∃ (s : State) (now : Nat), s.pending = [] ∧ s.dueRows = [] ∧ s.tbu.localTime = some now ∧
      now + (s.tbu.fraction + (1 + (s.tbu.rate : Rat) / 1000000000 + 0)).floor.toNat < 2 ^ 63) ∧
    (∃ (s : State) (w : WaitingEdge), s.pending = [] ∧ s.cap.waiting = [w] ∧
      s.dueRows = [.captureEdge w.input { kind := w.edge.kind, after := 0 }]) :=
  ⟨⟨{ part .waking with stc := { Stc.reset with op := .waking, wakeDelay := some 0 } }, rfl,
      by decide +kernel⟩,
    ⟨part .run, rfl, by decide +kernel, rfl⟩,
    ⟨timed .run .locked (2 ^ 63 - 2), 2 ^ 63 - 2, rfl, by decide +kernel, rfl, by decide +kernel⟩,
    ⟨(part .run).setCap
        { (part .run).cap with waiting := [{ input := 2, edge := { kind := .falling, after := 1 } }] },
      _, rfl, rfl, by decide +kernel⟩⟩

theorem witness_RowsCompleteAndKeepTheQueue :
    (∃ (c : Instr) (s t : State), exec c s = .next t ∧ ∀ h order, c ≠ .poll h order) ∧
    (∃ c : Instr, c.wf = true) :=
  ⟨⟨.transmitEnd, part .run, _, rfl, by simp⟩, ⟨.transmitEnd, rfl⟩⟩

theorem witness_HardResetLeavesResetValues :
    ∃ (s : State) (straps : BitVec 5),
      (ResetPhase.released straps = .released straps ∧ s.lnk.receiver = .off) :=
  ⟨(part .run).hardReset .asserted, 31, rfl, rfl⟩

theorem witness_WhileHardResetLasts :
    (∃ (t : State) (c : Instr), t.lnk.receiver = .off ∧ c.wf = true ∧ (heardOf c).isSome = true ∧
      t.lnk.transmitter = .idle ∧ exec .transmitEnd t = .next t) ∧
    (∃ s : State, s.lnk.receiver ≠ .off) ∧
    (∀ op ∈ [OpState.dormant, .waking], (part op).stc.op = op) ∧
    (∃ c : Instr, c.staged.isSome = true ∧ c.wf = true) :=
  ⟨⟨(part .run).hardReset .asserted, .fill (line 0 0x06 0 []), rfl, by decide +kernel, rfl,
      rfl, by rfl⟩,
    ⟨part .run, by decide⟩, by decide, ⟨.start .group [], rfl, by decide⟩⟩

/-- The one hypothesis of SoftResetDividesTheState, EnterDormantDividesTheState,
StartAndResumeEnterRun, ParkLeavesRun, GetStatusReports, GetTimeReports, ReadConfigReports,
SetCommitLagTable, SingleSettings, AttentionCommands, ConfigurationCommands, RemovalsFromTheTable and
ReadEventsTakes, and of the first clauses of AlignmentIsEnteredAndLeft, TimebaseCommands and
ReportsOfTheTable: met in every accepting state, in and out of those that admit the command. -/
theorem witness_commits : ∀ op ∈ acceptingStates, (part op).commits = true ∧ (part op).stc.op = op := by
  decide

/-- A part that is neither in a hard reset nor in DORMANT or WAKING hears a frame from its start on. -/
theorem part_hears (op : OpState) (h : op ≠ .waking) (dest kind seq : Byte) (payload : List Byte) :
    (part op).Hears (line dest kind seq payload) :=
  ⟨rfl, rfl, h, rfl, by show 600 ≤ 1000; omega⟩

theorem witness_WakeAndWakeDelay :
    (part .dormant).stc.op = .dormant ∧ (part .dormant).Hears (line 0 0x05 1 [0, 0, 0, 0x20]) ∧
    (line 0 0x05 1 [0, 0, 0, 0x20]).frame? =
      some { dest := 0, kind := 0x05, seq := 1, payload := [0, 0, 0, 0x20] } ∧
    (beNat [0, 0, 0, 0x20]).testBit (part .dormant).lnk.unitAddress.toNat = true ∧
    (line 5 0x05 1 []).frame? = some { dest := 5, kind := 0x05, seq := 1, payload := [] } ∧
    (line 33 0x05 1 []).frame? = some { dest := 33, kind := 0x05, seq := 1, payload := [] } ∧
    (part .dormant).lnk.groups.getLsbD 1 = true ∧
    (line 6 0x05 1 []).frame? = some { dest := 6, kind := 0x05, seq := 1, payload := [] } :=
  ⟨rfl, part_hears _ (by decide) _ _ _ _, by decide +kernel, by decide +kernel, by decide +kernel,
    by decide +kernel, by decide +kernel, by decide +kernel⟩

/-! ### Commits -/

theorem witness_JudgementOrder :
    (∃ (b : Byte) (rest : List Byte), ∀ c : Cmd, c ∈ Cmd.catalogue → Cmd.code c ≠ b ∧ rest = []) ∧
    (Cmd.echo = .echo ∧ 40 < (List.replicate 41 (0 : Byte)).length) ∧
    (Cmd.start ≠ .echo ∧ ([0] : List Byte).length + 1 ≠ Cmd.byteCount .start) ∧
    (Cmd.start ≠ .echo ∧ ([] : List Byte).length + 1 = Cmd.byteCount .start ∧
      (part .run).stc.op ∉ Cmd.admittedIn .start) ∧
    ((List.replicate 26 (0x80 : Byte)).length = 26 ∧
      ((List.replicate 26 (0x80 : Byte)).getD 2 0).msb = true) ∧
    ((List.replicate 8 (0x80 : Byte)).length = 8 ∧
      ((List.replicate 8 (0x80 : Byte)).getD 0 0).msb = true) :=
  ⟨⟨0, [], by decide⟩, by decide, by decide, by decide, by decide, by decide⟩

theorem witness_ResultsAreDelivered :
    (part .run).commits = true ∧ codeUnknown [] = true ∧ codeUnknown [0xFF] = true := by
  decide

theorem witness_AlignmentIsEnteredAndLeft :
    aligned.commits = true ∧ aligned.stc.beforeAlign = some .parked ∧ aligned.stc.op = .align := by
  decide

theorem witness_ClearFaultReleases :
    ((part .run).commits = true ∧ (part .run).stc.op ≠ .faultHold) ∧
    ∀ h ∈ [HeldState.config, .run, .parked, .align],
      let s : State := { heldByFault with stc := { heldByFault.stc with beforeFault := some h } }
      s.commits = true ∧ s.stc.op = .faultHold ∧ s.stc.beforeFault = some h := by
  decide

theorem witness_FaultRecordAndAlignmentReports :
    ((part .run).imn.flag = false ∧ (part .run).imn.record = none ∧ (part .run).imn.count = 0) ∧
    (∃ r, heldByFault.commits = true ∧ heldByFault.imn.flag = true ∧
      heldByFault.imn.record = some r ∧ r.header.length ≤ 4) ∧
    (∃ s : State, s.commits = true ∧ s.aln.log.length = 8) :=
  ⟨by decide, ⟨_, by decide, rfl, rfl, by decide⟩,
    ⟨{ aligned with
        aln := { pending := none, log := List.replicate 8 { seq := 0, outcome := .low }, total := 8 } },
      by decide, rfl⟩⟩

theorem witness_EchoReturnsItsData :
    ∀ op ∈ acceptingStates, (part op).stc.op ∈ acceptingStates ∧ (part op).lnk.receiver ≠ .off := by
  decide

theorem witness_TimebaseCommands :
    (part .parked).commits = true ∧ (part .parked).stc.op ∈ [OpState.config, .parked] ∧
    2 ^ 63 - 1 < 2 ^ 63 := by
  decide

/-- ALIGN at 1,000 with offset 300 and a sample pending. -/
def awaiting (time : Nat) : State :=
  { timed .align .locked 1000 with
    tbu := { Tbu.reset with localTime := some 1000, state := .locked, offset := 300 }
    aln := { pending := some { time := time, seq := 1 }, log := [], total := 0 } }

theorem witness_SetOffsetShifts :
    ((part .config).commits = true ∧ (part .config).aln.pending = none ∧
      (part .config).tbu.localTime = none) ∧
    ((timed .config .locked 0).commits = true ∧ (timed .config .locked 0).aln.pending = none ∧
      (timed .config .locked 0).tbu.localTime = some 0) ∧
    (∀ time ∈ [1101, 1100, 1099], (awaiting time).commits = true ∧ (awaiting time).stc.op = .align ∧
      (awaiting time).aln.pending = some { time := time, seq := 1 } ∧ 1000 < time ∧
      (awaiting time).aln.log.length ≤ 8 ∧ (awaiting time).tbu.offset ≤ 1000 + 400 ∧
      1000 + 400 - (awaiting time).tbu.offset = 1100 ∧
      nextHas (exec (.setOffset .group [1, 0x90]) (awaiting time))
        (fun u => u.tbu.localTime == some 1100) = true) ∧
    (List.replicate 8 ({ seq := 0, outcome := .low } : LogEntry)).length ≤ 8 := by
  decide +kernel

/-! ### Schedule table -/

/-- The arguments of ADD_ENTRY for a one-shot PULSE. -/
def pulseArgs (handle due : Nat) : List Byte := (pulseEntry handle due).argumentBytes

theorem witness_AddEntryChecks :
    (∀ args ∈ [pulseArgs 0 2000, pulseArgs 7 2000, pulseArgs 8 2000, pulseArgs 8 999],
      args.length = 26 ∧ args.getD 11 0 = 0 ∧ addEntryField args 3 8 < 2 ^ 63) ∧
    ((part .config).commits = true ∧ (part .config).tbu.state = .unset) ∧
    (let s := holding (timed .run .locked 1000) [pulseEntry 7 2000];
      s.commits = true ∧ s.tbu.state ≠ .unset ∧ s.tbu.localTime = some 1000 ∧
      addEntryField (pulseArgs 0 2000) 1 2 = 0 ∧
      (∃ e ∈ s.sct.entries, e.handle = addEntryField (pulseArgs 7 2000) 1 2) ∧
      (∀ e ∈ s.sct.entries, e.handle ≠ addEntryField (pulseArgs 8 999) 1 2) ∧
      addEntryField (pulseArgs 8 999) 3 8 < 1000 ∧
      (addEntryField (pulseArgs 8 999) 26 1).testBit 1 = false) ∧
    (List.replicate 128 (pulseEntry 7 2000)).length = 128 := by
  decide +kernel

theorem witness_addEntryInRange :
    addEntryInRange (pulseArgs 8 999) ∧ ¬ addEntryInRange (pulseArgs 0 999) := by
  unfold addEntryInRange
  decide +kernel

theorem pulseEntry_inRange (handle due : Nat) (h1 : 1 ≤ handle) (h2 : handle ≤ 255)
    (h3 : due < Config.timeEnd) : (pulseEntry handle due).inRange :=
  ⟨h1, h2, h3, ⟨by decide, by decide, by decide⟩, by show 1 ≤ 15; omega, by show 0 ≤ 65535; omega, rfl⟩

theorem witness_AddEntryInserts :
    ∃ (s : State) (e : Entry) (now : Nat) (before after : List Entry),
      s.commits = true ∧ s.stc.op = .run ∧ s.tbu.state ≠ .unset ∧ s.tbu.localTime = some now ∧
      e.inRange ∧ e.fired = 0 ∧ e.remaining = 1 ∧ e.repeats = none ∧ e.requireLock = false ∧
      s.sct.entries = before ++ after ∧ s.sct.entries.length < 128 ∧
      (∀ x ∈ s.sct.entries, x.handle ≠ e.handle) ∧
      (∃ x, before.getLast? = some x ∧ x.due ≤ e.due) ∧ (∀ x ∈ after, e.due < x.due) ∧ now ≤ e.due :=
  ⟨holding (timed .run .locked 1000) [pulseEntry 7 1000, pulseEntry 9 1001], pulseEntry 8 1000, 1000,
    [pulseEntry 7 1000], [pulseEntry 9 1001], by decide, rfl, by decide, rfl,
    pulseEntry_inRange _ _ (by decide) (by decide) (by decide), rfl, rfl, rfl, rfl, rfl, by decide,
    by decide, ⟨pulseEntry 7 1000, rfl, by decide⟩, by decide, by decide⟩

theorem repeating_inRange (due remaining : Nat) (h1 : due < Config.timeEnd) (h2 : 1 ≤ remaining)
    (h3 : remaining ≤ 500) : (repeating due remaining).inRange := by
  refine ⟨by show 1 ≤ 7; omega, by show 7 ≤ 255; omega, h1, ⟨by decide, by decide, by decide⟩,
    by show 1 ≤ 15; omega, by show 0 ≤ 65535; omega, ?_⟩
  unfold Entry.remainingOk
  exact ⟨by show 1000 ≤ 200000; omega, by show 200000 ≤ 4294967295; omega, by show 500 ≤ 65535; omega,
    ⟨h2, h3⟩⟩

/-- In RUN, where the other entry is later: an entry due now, and one past due that is re-placed at now.
-/
theorem witness_AddEntryInserts_run :
    let s := holding (timed .run .locked 1200000) [pulseEntry 9 1200001]
    let late : State := s.setDpu { lateTolerance := 200000 }
    s.commits = true ∧ s.stc.op = .run ∧ s.sct.entries = [] ++ [pulseEntry 9 1200001] ∧
    (∀ x ∈ s.sct.entries, 1200000 < x.due) ∧ (pulseEntry 8 1200000).due = 1200000 ∧
    (repeating 1000000 500).lateFire = true ∧ 1200000 - (repeating 1000000 500).due ≤ late.dpu.lateTolerance ∧
    (repeating 1000000 500).remaining = 500 ∧
    ((late.setSct { s.sct with entries := [repeating 1000000 500] }).settleLate (repeating 1000000 500)
      1200000).sct.entries.map Entry.due = [1200000] := by
  decide +kernel

theorem witness_AfterOnTime (s : State) : ∃ t, s.AfterOnTime (pulseEntry 8 1200000) t :=
  ⟨_, fireOnTime_after s _⟩

theorem witness_AfterLate (s : State) : ∃ t, s.AfterLate (repeating 1000000 500) 1200000 t :=
  ⟨_, settleLate_after s _ _ (repeating_inRange _ _ (by decide) (by decide) (by decide))⟩

theorem witness_ReportsOfTheTable :
    let s := holding (timed .run .locked 1000) [pulseEntry 9 1000, pulseEntry 7 2000]
    s.commits = true ∧ (∀ e ∈ s.sct.entries, e.handle ≠ 8) ∧
      s.sct.entries = [pulseEntry 9 1000] ++ pulseEntry 7 2000 :: [] ∧ (pulseEntry 7 2000).handle = 7 ∧
      (∀ x ∈ [pulseEntry 9 1000], x.handle ≠ 7) := by
  decide +kernel

/-! ### Capture inputs -/

/-- Every input ON, CONTINUOUS or WINDOWED, and LOW. -/
def capturing (mode : InputMode) (window : Option Nat) : State :=
  { timed .run .locked 5000 with
    cap :=
      { inputs := Vector.replicate 4
          { Input.reset .low false with mode := mode, edges := .both, window := window }
        waiting := [] } }

/-- The same with edges that have been sampled and wait for dispatch's moments, each for so many. -/
def withWaitingEdges (moments : List (Fin 4 × Nat)) : State :=
  let s := capturing .continuous none
  s.setCap
    { inputs := s.cap.inputs.map fun i => { i with level := .high, sampled := true }
      waiting := moments.map fun m => { input := m.1, edge := { kind := .rising, after := m.2 } } }

theorem witness_CaptureEdges :
    (∀ s ∈ [capturing .continuous none, capturing .windowed (some 0)],
      (s.cap.inputs[3]).sampled = false ∧ (s.cap.inputs[3]).level ≠ .high ∧
      (s.cap.inputs[3]).edges = .both ∧
      ((s.cap.inputs[3]).mode = .continuous ∨
        ((s.cap.inputs[3]).mode = .windowed ∧ (s.cap.inputs[3]).window.isSome = true)) ∧
      s.tbu.state ≠ .unset ∧ s.tbu.localTime = some 5000 ∧ s.stc.op ≠ .dormant ∧ s.stc.op ≠ .waking ∧
      (s.cap.inputs[3]).lastEdge = none) ∧
    ((capturing .continuous none).cap.inputs[0]).level = .low ∧
    ((capturing .windowed none).cap.inputs[0]).window = none ∧
    (∃ s : State, (s.cap.inputs[0]).mode = .continuous ∧ s.stc.op = .align) ∧
    ((withWaitingEdges [(1, 2), (2, 1), (3, 1)]).cap.waiting =
        [{ input := 1, edge := { kind := .rising, after := 2 } }] ++
          { input := 2, edge := { kind := .rising, after := 1 } } ::
            [{ input := 3, edge := { kind := .rising, after := 1 } }] ∧
      ((withWaitingEdges [(1, 2), (2, 1), (3, 1)]).cap.inputs[2]).sampled = true ∧
      ((withWaitingEdges [(1, 2), (2, 1), (3, 1)]).cap.inputs[2]).level ≠ .low) ∧
    (∀ w ∈ (withWaitingEdges [(2, 2)]).cap.waiting, 2 ≤ w.edge.after) :=
  ⟨by decide +kernel, rfl, rfl,
    ⟨{ capturing .continuous none with stc := { Stc.reset with op := .align } }, rfl, rfl⟩,
    by decide +kernel, by decide +kernel⟩

/-! ### Dispatch -/

/-- One entry, placed first. -/
theorem single_sound (due : Nat) (h : due < Config.timeEnd) (s : State) :
    (holding s [pulseEntry 7 due]).sct.Sound where
  capacity := by
    show 1 ≤ 128
    omega
  distinct := by
    show [(7 : Nat)].Nodup
    simp
  ordered := by
    show [pulseEntry 7 due].Pairwise Entry.before
    simp
  fresh := by
    intro e he
    have : e = pulseEntry 7 due := by simpa [holding] using he
    subst this
    show 1 < 2
    omega
  ranges := by
    intro e he
    have : e = pulseEntry 7 due := by simpa [holding] using he
    subst this
    exact pulseEntry_inRange _ _ (by omega) (by omega) h

/-- A repeating entry and one behind it. -/
def pair (op : OpState) (now due second : Nat) : State :=
  holding (timed op .locked now) [repeating due 500, { pulseEntry 9 second with insertion := 2 }]

theorem pair_sound (op : OpState) (now due second : Nat) (h : second < Config.timeEnd)
    (hle : due ≤ second) : (pair op now due second).sct.Sound where
  capacity := by
    show 2 ≤ 128
    omega
  distinct := by
    show [(7 : Nat), 9].Nodup
    decide
  ordered := by
    show [repeating due 500, { pulseEntry 9 second with insertion := 2 }].Pairwise Entry.before
    simp only [List.pairwise_cons, List.mem_singleton, forall_eq, List.not_mem_nil, false_imp_iff,
      implies_true, List.Pairwise.nil, and_true]
    unfold Entry.before
    show due < second ∨ (due = second ∧ 1 < 2)
    omega
  fresh := by
    intro e he
    have : e = repeating due 500 ∨ e = { pulseEntry 9 second with insertion := 2 } := by
      simpa [pair, holding] using he
    rcases this with rfl | rfl
    · show 1 < 3
      omega
    · show 2 < 3
      omega
  ranges := by
    intro e he
    have : e = repeating due 500 ∨ e = { pulseEntry 9 second with insertion := 2 } := by
      simpa [pair, holding] using he
    rcases this with rfl | rfl
    · exact repeating_inRange _ _ (by omega) (by decide) (by decide)
    · exact pulseEntry_inRange _ _ (show 1 ≤ 9 by omega) (show 9 ≤ 255 by omega) h

/-- Alone at its due time, and with another behind it at the same. -/
theorem witness_HeadFiresOnTime :
    ∀ second ∈ [1000, 1001],
      let s := pair .run 1000 1000 second
      s.sct.Sound ∧ s.stc.op = .run ∧ s.tbu.localTime = some 1000 ∧
      s.sct.entries = repeating 1000 500 :: [{ pulseEntry 9 second with insertion := 2 }] ∧
      (repeating 1000 500).due ≤ 1000 ∧
      ((∃ x ∈ [{ pulseEntry 9 second with insertion := 2 }], x.due = 1000) ↔ second = 1000) := by
  intro second hs
  have h : 1000 ≤ second ∧ second ≤ 1001 := by
    rcases List.mem_cons.mp hs with rfl | hs
    · omega
    · have := List.mem_singleton.mp hs
      omega
  refine ⟨pair_sound _ _ _ _ (show second < 2 ^ 63 by omega) h.1, rfl, rfl, rfl, by decide, ?_⟩
  simp only [List.mem_singleton, exists_eq_left]
  rfl

theorem witness_BatchLeavesNothingDue :
    (∃ (s t : State) (e : Entry) (rest : List Entry), s.sct.Sound ∧ s.sct.entries = e :: rest ∧
      s.stc.op = .run ∧ s.reached e.due = true ∧ exec .headReached s = .next t) ∧
    ((part .config).stc.op ≠ .run ∧ (part .run).sct.entries = [] ∧ (part .run).tbu.localTime = none) ∧
    (let s := holding (timed .run .locked 999) [pulseEntry 7 1000];
      s.sct.entries = pulseEntry 7 1000 :: [] ∧ s.tbu.localTime = some 999 ∧ 999 < 1000) :=
  ⟨⟨holding (timed .run .locked 1000) [pulseEntry 7 1000], _, _, _, single_sound 1000 (by decide) _,
      rfl, rfl, rfl, rfl⟩,
    by decide, by decide +kernel⟩

/-- An evaluation with a head past due, one due now, and none; a START whose late rule leaves an entry at
now, and one whose late rule leaves none there. -/
theorem witness_LateRuleSettles :
    ((pair .run 1650000 1000000 1000001).sct.Sound ∧
      (pair .run 1650000 1000000 1000001).tbu.localTime = some 1650000 ∧ 1000000 < 1650000) ∧
    ((pair .run 1000000 1000000 1000001).sct.Sound ∧ (repeating 1000000 500).due = 1000000) ∧
    (∀ e ∈ (pair .run 999999 1000000 1000001).sct.entries, 999999 < e.due) ∧
    (let s := pair .config 1200000 1000000 1200001;
      s.commits = true ∧ s.stc.op = .config ∧ s.sct.Sound ∧
      ((s.setStc { s.stc with op := .run }).settleLate (repeating 1000000 500) 1200000).sct.entries.map
        Entry.due = [1200000, 1200001]) ∧
    (let s := pair .config 1100000 1000000 1200001;
      s.commits = true ∧ s.stc.op = .config ∧ s.sct.Sound ∧
      ((s.setStc { s.stc with op := .run }).settleLate (repeating 1000000 500) 1100000).sct.entries.map
        Entry.due = [1200000, 1200001]) :=
  ⟨⟨pair_sound _ _ _ _ (by decide) (by decide), rfl, by decide⟩,
    ⟨pair_sound _ _ _ _ (by decide) (by decide), rfl⟩, by decide +kernel,
    ⟨by decide, rfl, pair_sound _ _ _ _ (by decide) (by decide), by decide +kernel⟩,
    ⟨by decide, rfl, pair_sound _ _ _ _ (by decide) (by decide), by decide +kernel⟩⟩

/-! ### Pins and durations -/

theorem witness_PinsFollowTheState :
    (part .run).lnk.receiver ≠ .off ∧ ((part .run).out.channels[0]).enable = false ∧
    (∀ op ∈ [OpState.run, .config], ∀ pulse ∈ [none, some 5],
      let s : State :=
        { part op with
          out := { channels := Vector.replicate 16 { Channel.reset with enable := true, pulse := pulse } } }
      s.lnk.receiver ≠ .off ∧ (s.out.channels[15]).enable = true ∧
        (s.out.channels[15]).pulse = pulse ∧ s.stc.op = op) := by
  decide +kernel

theorem witness_SyncWatchExpires :
    (part .run).tbu.watch = none ∧
    (∃ w, (timed .run .locked 1000).tbu.watch = some w ∧ 0 < w.left) ∧
    (∀ state ∈ [TbState.locked, .holdover, .acquiring],
      let s : State :=
        { timed .run state 1000 with
          tbu :=
            { Tbu.reset with state := state, localTime := some 1000, holdoverCount := 9
                             watch := some { interval := 5, left := 0 } } }
      s.tbu.state = state ∧ s.tbu.watch = some { interval := 5, left := 0 } ∧
        s.tbu.holdoverLimit ≤ min 255 (s.tbu.holdoverCount + 1)) :=
  ⟨rfl, ⟨{ interval := 1000000, left := 5000 }, rfl, by decide⟩, by decide⟩

theorem witness_DurationsEndAndSamplesAreTaken :
    (∃ s : State, s.aln.pending = some { time := 1000, seq := 1 } ∧ s.aln.log.length = 8 ∧
      s.stc.op = .align ∧ s.reached 1000 = true) ∧
    (awaiting 1001).reached 1001 = false :=
  ⟨⟨{ timed .align .locked 1000 with
      aln :=
        { pending := some { time := 1000, seq := 1 }
          log := List.replicate 8 { seq := 0, outcome := .low }, total := 9 } },
    rfl, rfl, rfl, rfl⟩, rfl⟩

/-! ### The link -/

theorem witness_FramesAreReadBack : (List.replicate 56 (0 : Byte)).length ≤ 56 := by decide

/-- A queue of broadcasts, each with two frames to wait. -/
def staging (n : Nat) (lag : Nat) : State :=
  { part .run with
    cin :=
      { queue := List.replicate n { origin := .broadcast, bytes := [], remaining := 2 }, lag := lag
        expiry := some 100 } }

theorem witness_waits (n lag : Nat) : (staging n lag).Waits := by
  intro c hc
  have hm : c ∈ List.replicate n ({ origin := .broadcast, bytes := [], remaining := 2 } : Staged) :=
    List.mem_of_head? hc
  rw [(List.mem_replicate.mp hm).2]

theorem staging_hears (n lag : Nat) (dest kind seq : Byte) (payload : List Byte) :
    (staging n lag).Hears (line dest kind seq payload) :=
  ⟨rfl, rfl, by show OpState.run ≠ .waking; decide, rfl, by show 600 ≤ 1000; omega⟩

theorem witness_CommandFrameIsTakenIn :
    (line 5 0x01 20 [0x34]).frame? = some { dest := 5, kind := 1, seq := 20, payload := [0x34] } ∧
    (line 6 0x01 20 []).frame? = some { dest := 6, kind := 1, seq := 20, payload := [] } ∧
    (line 0 0x01 20 [0, 0, 0, 0x20]).frame? =
      some { dest := 0, kind := 1, seq := 20, payload := [0, 0, 0, 0x20] } ∧
    (line 33 0x01 20 []).frame? = some { dest := 33, kind := 1, seq := 20, payload := [] } ∧
    (staging 8 0).stc.op ∈ acceptingStates ∧ (staging 0 1).cin.queue = [] ∧ 1 ≤ (staging 0 1).cin.lag ∧
    (staging 7 0).cin.queue.length < 8 ∧ 8 ≤ (staging 8 0).cin.queue.length ∧
    (staging 7 0).rpu.outbox.length < 16 ∧ (staging 8 0).lnk.unitAddress.toNat = 5 ∧
    (beNat [0, 0, 0, 0x20]).testBit 5 = true ∧ (staging 8 0).lnk.groups.getLsbD 1 = true ∧
    (∃ s : State, s.rpu.outbox = [{ seq := 20, result := none }] ∧ s.cin = (staging 1 0).cin) := by
  refine ⟨?_, ?_, ?_, ?_, ?_, ?_, ?_, ?_, ?_, ?_, ?_, ?_, ?_, ?_⟩
  case refine_14 =>
    exact ⟨{ staging 1 0 with rpu := { outbox := [{ seq := 20, result := none }] } }, rfl, rfl⟩
  all_goals decide +kernel

theorem witness_CommitsAtTheEndOfAFrame :
    ((part .config).Hears (line 5 0x01 20 [0x34]) ∧ (part .config).cin.queue = [] ∧
      (part .config).cin.lag = 0 ∧ (part .config).lnk.unitAddress.toNat = 5 ∧
      (part .config).rpu.outbox = []) ∧
    ((part .config).Hears (line 0 0x01 20 [0, 0, 0, 0x20, 0x34]) ∧
      (beNat [0, 0, 0, 0x20]).testBit (part .config).lnk.unitAddress.toNat = true ∧
      (part .config).Hears (line 33 0x01 20 [0x34]) ∧ (part .config).lnk.groups.getLsbD 1 = true) ∧
    (∃ s t : State, s.Hears (line 5 0x02 41 [1]) ∧ s.stc.op ∈ acceptingStates ∧
      s.cin.queue = [{ origin := .broadcast, bytes := [0x34], remaining := 1 }] ∧
      s.cin.expiry = some 0 ∧ s.heard.CountedTo t ∧
      (∀ order ∈ [PollOrder.commits, .handling, .handlingThenExpiry],
        (Instr.poll (line 5 0x02 41 [1]) order).wf = true) ∧
      (Instr.sync (line 0 0x03 41 (beBytes 8 5)) .commits).wf = true ∧
      (Instr.probe (line 0 0x04 41 (beBytes 8 5)) .handling).wf = true) ∧
    (∃ s : State, s.Hears (line 0 0x06 0 []) ∧ (Instr.fill (line 0 0x06 0 [])).wf = true ∧
      s.cin.queue =
        [{ origin := .unit 1, bytes := 0x05 :: [7], remaining := 1 },
         { origin := .unit 2, bytes := 0x05 :: List.replicate 40 8, remaining := 0 },
         { origin := .broadcast, bytes := [0x10], remaining := 2 }] ∧
      s.rpu.outbox = [{ seq := 1, result := none }, { seq := 2, result := none }]) :=
  ⟨⟨part_hears _ (by decide) _ _ _ _, rfl, rfl, rfl, rfl⟩,
    ⟨part_hears _ (by decide) _ _ _ _, by decide +kernel, part_hears _ (by decide) _ _ _ _, by decide⟩,
    ⟨(part .config).setCin
        { queue := [{ origin := .broadcast, bytes := [0x34], remaining := 1 }], lag := 1
          expiry := some 0 },
      _, ⟨rfl, rfl, by decide, rfl, by decide⟩, by decide, rfl, rfl, (CountedTo_iff _ _).mpr rfl,
      by decide +kernel, by decide +kernel, by decide +kernel⟩,
    ⟨{ part .config with
      cin :=
        { queue :=
            [{ origin := .unit 1, bytes := 0x05 :: [7], remaining := 1 },
             { origin := .unit 2, bytes := 0x05 :: List.replicate 40 8, remaining := 0 },
             { origin := .broadcast, bytes := [0x10], remaining := 2 }]
          lag := 2, expiry := some 9 }
      rpu := { outbox := [{ seq := 1, result := none }, { seq := 2, result := none }] } },
      ⟨rfl, rfl, by decide, rfl, by decide⟩, by decide +kernel, rfl, rfl⟩⟩

theorem witness_CountedFrames :
    (part .dormant).Hears (line 0 0x06 0 []) ∧ (Instr.fill (line 0 0x06 0 [])).wf = true ∧
    (staging 3 0).Hears (line 63 0x81 0 []) ∧ (staging 3 0).Waits ∧
    (Instr.otherIntactFrame (line 63 0x81 0 [])).wf = true ∧ (Instr.wake (line 5 0x05 0 [])).wf = true ∧
    (staging 3 0).stc.op ≠ .dormant ∧ (∃ t, (part .run).heard.CountedTo t) :=
  ⟨part_hears _ (by decide) _ _ _ _, by decide +kernel, staging_hears _ _ _ _ _ _, witness_waits _ _,
    by decide +kernel, by decide +kernel, by decide, ⟨_, (CountedTo_iff _ _).mpr rfl⟩⟩

/-- A frame that a second start delimiter breaks off, and one that an invalid symbol does. -/
def broken (x : LineSymbol) : Heard :=
  { symbols := [.byte 5, .byte 1, x], since := 600 }

/-- The receiver in another mode. -/
def receiver (op : OpState) (mode : Receiver) (freeFor quietFor : Nat) : State :=
  (part op).setLnk { Lnk.reset 5 with receiver := mode, freeFor := freeFor, quietFor := quietFor }

theorem witness_QuietFramesArePassedOver :
    heardOf (.fill (line 0 0x06 0 [])) = some (line 0 0x06 0 []) ∧
    (Instr.fill (line 0 0x06 0 [])).wf = true ∧ endsRun (line 0 0x06 0 []) ∧
    (∀ x ∈ [LineSymbol.start, .invalid], (Instr.faultReport (broken x)).wf = true ∧
      (broken x).symbols.getLast? = some x) ∧
    ¬ endsRun (broken .start) ∧ ¬ endsRun (broken .invalid) ∧
    (∃ s : State, s.sending = true) ∧
    (∃ (s : State) (f : Reception), s.lnk.receiver = .receiving ∧ s.lnk.reception = some f ∧
      f.age ≠ (line 0 0x06 0 []).since) ∧
    ((part .run).setImn { Imn.reset with quiesce := some 1 }).imn.quiesce.isSome = true ∧
    ((receiver .waking .listening 0 600).sending = false ∧
      (receiver .waking .listening 0 600).lnk.receiver = .listening ∧
      600 ≤ (receiver .waking .listening 0 600).lnk.freeFor +
        (receiver .waking .listening 0 600).lnk.quietFor ∧
      (receiver .waking .listening 0 600).stc.op = .waking) ∧
    (receiver .run .listening 599 1).lnk.freeFor < 600 ∧
    (receiver .run .discarding 0 0).lnk.receiver = .discarding ∧
    (State.reset.lnk.freeFor + State.reset.lnk.quietFor < (line 0 0x06 0 []).since ∧
      State.reset.lnk.receiver = .listening ∧ State.reset.imn.quiesce = none ∧
      State.reset.stc.op ≠ .waking) :=
  ⟨rfl, by decide +kernel, Or.inl rfl, by decide +kernel, by unfold endsRun; decide,
    by unfold endsRun; decide, ⟨(part .run).setLnk { Lnk.reset 5 with transmitter := .sending [] }, rfl⟩,
    ⟨(part .run).setLnk
        { Lnk.reset 5 with
          receiver := .receiving, reception := some { bytes := [], check := 0xFFFF#16, age := 900 } },
      _, rfl, rfl, by decide⟩,
    rfl, by decide, by decide, rfl, by decide⟩

theorem witness_PollDrawsOneReply :
    (staging 2 0).Hears (line 5 0x02 41 [1]) ∧
    (line 5 0x02 41 [1]).frame? = some { dest := 5, kind := 2, seq := 41, payload := [1] } ∧
    (staging 2 0).stc.op ∈ acceptingStates ∧ (staging 2 0).Waits ∧ (staging 2 0).cin.expiry ≠ some 0 ∧
    (staging 2 0).lnk.unitAddress.toNat = 5 ∧
    (line 5 0x02 41 []).frame? = some { dest := 5, kind := 2, seq := 41, payload := [] } ∧
    (line 32 0x02 41 [1]).frame? = some { dest := 32, kind := 2, seq := 41, payload := [1] } :=
  ⟨staging_hears _ _ _ _ _ _, by decide +kernel, by decide, witness_waits _ _, by decide, by decide,
    by decide +kernel, by decide +kernel⟩

theorem witness_TransmitterAndDiscarding :
    (∀ t ∈ [Transmitter.waiting [1] 400 0, .waiting [1] 1200 0, .waiting [1] 399 0, .sending [1], .idle],
      ((part .run).setLnk { (part .run).lnk with transmitter := t }).lnk.transmitter = t) ∧
    (∃ s : State, s.lnk.receiver = .discarding) ∧ (part .run).lnk.receiver ≠ .discarding ∧
    (part .run).imn.quiesce = none ∧
    (∃ s : State, s.sending = false ∧ s.imn.quiesce = none ∧ s.stc.op = .run ∧ s.lnk.receiver = .receiving ∧
      s.lnk.reception = some { bytes := [], check := 0xFFFF#16, age := (line 0 0x06 0 []).since }) :=
  ⟨by decide, ⟨(part .run).setLnk { Lnk.reset 5 with receiver := .discarding }, rfl⟩, by decide, rfl,
    ⟨(part .run).setLnk
        { Lnk.reset 5 with
          receiver := .receiving, reception := some { bytes := [], check := 0xFFFF#16, age := 600 } },
      rfl, rfl, rfl, rfl, rfl⟩⟩

/-- A SYNC frame of a master time. -/
def syncAt (time : Nat) : Heard := line 0 0x03 41 (beBytes 8 time)

theorem witness_SyncSetsOrIsIgnored :
    (staging 1 0).Hears (syncAt 5000) ∧ (staging 1 0).Waits ∧ (staging 1 0).stc.op ∈ acceptingStates ∧
    (syncAt 5000).frame? = some { dest := 0, kind := 3, seq := 41, payload := beBytes 8 5000 } ∧
    (staging 1 0).tbu.mode = .disciplined ∧ (staging 1 0).tbu.localTime = none ∧
    beNat (beBytes 8 5000) = 5000 ∧
    (syncAt (2 ^ 63)).frame? = some { dest := 0, kind := 3, seq := 41, payload := beBytes 8 (2 ^ 63) } ∧
    beNat (beBytes 8 (2 ^ 63)) = 2 ^ 63 ∧
    (line 1 0x03 41 [0]).frame? = some { dest := 1, kind := 3, seq := 41, payload := [0] } :=
  ⟨staging_hears _ _ _ _ _ _, witness_waits _ _, by decide, by decide +kernel, rfl, rfl, by decide +kernel,
    by decide +kernel, by decide +kernel, by decide +kernel⟩

/-- A SYNC of master time 1,000,000 that arrived at local time 1,000,000 less the error. -/
def erring (op : OpState) (state : TbState) (now : Nat) : State := timed op state (now + 600)

theorem erring_hears (op : OpState) (state : TbState) (now : Nat) (h : op ≠ .waking) (time : Nat) :
    (erring op state now).Hears (syncAt time) :=
  ⟨rfl, rfl, h, rfl, by show 600 ≤ 1000; omega⟩

theorem erring_waits (op : OpState) (state : TbState) (now : Nat) : (erring op state now).Waits := by
  intro c hc
  cases hc

theorem witness_SyncSlews :
    (syncAt 1000000).frame? = some { dest := 0, kind := 3, seq := 41, payload := beBytes 8 1000000 } ∧
    beNat (beBytes 8 1000000) = 1000000 ∧ (syncAt 1000000).since = 600 ∧
    (∀ x ∈ [(TbState.acquiring, 1000016, (-16 : Int)), (.unlocked, 999984, 16), (.locked, 1000256, -256),
        (.holdover, 999744, 256)],
      (erring .run x.1 x.2.1).tbu.state = x.1 ∧ (erring .run x.1 x.2.1).tbu.mode = .disciplined ∧
      (erring .run x.1 x.2.1).tbu.localTime = some (x.2.1 + 600) ∧
      x.2.2 =
        (1000000 + (erring .run x.1 x.2.1).tbu.offset : Int) - (((x.2.1 + 600 : Nat) : Int) - 600)) := by
  decide +kernel

theorem witness_SyncSteps :
    (∀ x ∈ [(TbState.acquiring, 1000017, (-17 : Int)), (.unlocked, 999983, 17), (.locked, 1000257, -257),
        (.holdover, 999743, 257)],
      (erring .run x.1 x.2.1).tbu.state = x.1 ∧
      x.2.2 = (1000000 + (erring .run x.1 x.2.1).tbu.offset : Int) - (((x.2.1 + 600 : Nat) : Int) - 600)) ∧
    (erring .run .locked 1000257).aln.pending = none ∧
    (∀ time ∈ [1000599, 1000600, 1000601],
      let s : State :=
        { erring .align .locked 999743 with
          aln := { pending := some { time := time, seq := 9 }, log := [], total := 0 } }
      s.aln.pending = some { time := time, seq := 9 } ∧ s.stc.op = .align ∧ s.aln.log.length ≤ 8 ∧
        (((999743 + 600 : Nat) : Int) + 257).toNat = 1000600) := by
  decide +kernel

theorem witness_ProbeSetsTheSample :
    aligned.Hears (line 0 0x04 1 (beBytes 8 8000200)) ∧ aligned.Waits ∧ aligned.stc.op = .align ∧
    aligned.tbu.localTime = some 8000000 ∧ aligned.aln.log.length ≤ 8 ∧
    (∀ time ∈ [8000000, 8000001], beNat (beBytes 8 time) = time ∧
      (line 0 0x04 1 (beBytes 8 time)).frame? =
        some { dest := 0, kind := 4, seq := 1, payload := beBytes 8 time }) ∧
    (line 0 0x04 1 []).frame? = some { dest := 0, kind := 4, seq := 1, payload := [] } ∧
    (part .run).stc.op ≠ .align :=
  ⟨⟨rfl, rfl, by decide, rfl, by decide⟩, (by intro c hc; cases hc), rfl, rfl, by decide, by decide +kernel,
    by decide +kernel, by decide⟩

theorem witness_FaultReportActs :
    (∀ op ∈ [OpState.run, .align, .faultHold, .dormant], (part op).stc.op = op) ∧
    (part .run).Hears damaged ∧ classify damaged.symbols = .fault .checkWord [0, 6, 0, 0] ∧
    (part .run).imn.mode = .latched ∧ (part .run).stc.op.held = some .run ∧
    (∃ s : State, s.imn.mode = .persistent ∧ s.stc.op ∈ acceptingStates) ∧
    (∃ (s : State) (f : Reception), s.sending = false ∧ s.lnk.receiver = .receiving ∧
      s.lnk.reception = some f ∧ f.age = (broken .start).since ∧
      (Instr.faultReport (broken .start)).wf = true ∧
      classifyFrom .receiving (some f) (broken .start).symbols = .fault .framing [5, 1]) :=
  ⟨by decide, ⟨rfl, rfl, by decide, rfl, by decide⟩, by decide +kernel, rfl, rfl,
    ⟨(part .run).setImn { Imn.reset with mode := .persistent }, rfl, by decide⟩,
    ⟨(part .run).setLnk
        { Lnk.reset 5 with
          receiver := .receiving, reception := some { bytes := [], check := 0xFFFF#16, age := 600 } },
      _, rfl, rfl, rfl, rfl, by decide +kernel, by decide +kernel⟩⟩

theorem witness_FaultsAreClassified :
    (List.replicate 62 (56 : Byte)).length ≤ 62 ∧ ((List.replicate 62 (56 : Byte))[3]? = some 56) ∧
    (([0, 1, 0, 57] : List Byte).length = 4 ∧ ([0, 1, 0, 57] : List Byte)[3]? = some 57) ∧
    (List.replicate 63 (56 : Byte)).length = 63 ∧ ([0, 1, 0, 0, 0] : List Byte).length < 6 ∧
    (([0, 1, 0, 1, 0, 0] : List Byte).length ≠ (1 : Byte).toNat + 6) ∧
    (([0, 6, 0, 0, 0x36, 0x61] : List Byte).length = (0 : Byte).toNat + 6 ∧
      beNat (([0, 6, 0, 0, 0x36, 0x61] : List Byte).drop 4) ≠ (crc [0, 6, 0, 0]).toNat) := by
  decide +kernel

/-! ### What every step keeps -/

/-- In RUN at 1,000: one entry due at 2,000, one record stored, one UNIT command staged. -/
def busy : State :=
  { holding (timed .run .locked 1000) [pulseEntry 7 2000] with
    evq :=
      { records := [{ seq := 65535, gap := false, body := .fired 7 900 false }], next := 0, lost := 0
        gap := false }
    cin := { queue := [{ origin := .unit 3, bytes := [0x34], remaining := 7 }], lag := 7, expiry := some 9 }
    rpu := { outbox := [{ seq := 2, result := some okEmpty }, { seq := 3, result := none }] } }

theorem busy_sound : busy.Sound where
  schedule := single_sound 2000 (by decide) (timed .run .locked 1000)
  events :=
    { capacity := by decide
      consecutive := by
        intro i h
        have hi : i = 0 := by
          have : i < 1 := h
          omega
        subst hi
        rfl
      lost := by decide }
  intake :=
    ⟨{ staging := by decide, lag := by decide, counts := by decide, outbox := by decide
       distinct := by decide, reserved := by decide },
      Or.inl (by decide)⟩
  nested := ⟨⟨rfl, rfl⟩, by decide⟩
  faults :=
    { cleared := by decide
      standing := by decide
      condition := rfl
      held := by decide
      detected := by
        intro r h
        cases h }
  pins :=
    { pulses := by decide
      disabled := by decide
      windows := by decide
      modes := by decide }
  timebase :=
    { unset := by decide
      valid := by
        intro t h
        have : t = 1000 := by simpa using (Option.some.inj h).symm
        subst this
        decide
      modes := Or.inr (by decide)
      watch := rfl
      fraction := by decide
      rate := by decide
      offset := by decide
      interval := by decide
      limit := by decide
      acquisition := by decide
      holdover := by decide }
  timed := { unset := by decide, selfTimed := by decide }
  alignment := { log := by decide, total := by decide, pending := by decide }

/-- For ScheduleStaysOrdered, EventsStayConsecutive, ReservationsMatchTheStaged, RememberedStatesNest and
EveryStepIsSound: a sound state that holds something of each kind, and a step from it. -/
theorem witness_EveryStepIsSound :
    ∃ s t : State, step s = .next t ∧ s.Sound ∧ s.sct.Sound ∧ s.evq.Sound ∧ s.IntakeLive ∧ s.stc.Nested :=
  ⟨busy, busy.tick, by rfl, busy_sound, busy_sound.schedule, busy_sound.events, busy_sound.intake,
    busy_sound.nested⟩

theorem witness_OnlyAPollIsAnswered :
    (part .config).lnk.transmitter = .idle ∧
    nextHas (exec (.poll (line 5 0x02 41 [1]) .commits) (part .config))
      (fun t => t.lnk.transmitter != .idle) = true := by
  decide +kernel

end Sys2Proof.Tests
end

section
/-! SUPPORT. Every step keeps every invariant of the part. A predicate that each change of `Act` keeps, and
that does not look at the queue of waiting commands, is kept by every step; the invariants of Safety.lean
follow from it one by one, but for the staging queue and the outbox, whose reservations are out of step
inside a commit (`step_intake`). -/

namespace Sys2Proof.Machine

/-- What every change of `Act` keeps, whatever commands wait, is kept by every step. -/
theorem step_keeps {P : State → Prop} (hP : ∀ {p : Prop} {s t : State}, Act p s t → P s → P t)
    (queue : ∀ (s : State) (q : List Instr), P s → P (s.setPending q)) {s t : State}
    (h : step s = .next t) (hs : P s) : P t := by
  obtain ⟨p, hacts⟩ := step_acts s t h
  exact hacts.keeps hP (queue s _ hs)

theorem step_keeps_schedule {s t : State} (h : step s = .next t) (hs : s.sct.Sound) : t.sct.Sound :=
  step_keeps (P := fun s => s.sct.Sound) Act.keeps_schedule (fun _ _ hs => hs) h hs

theorem step_keeps_events {s t : State} (h : step s = .next t) (hs : s.evq.Sound) : t.evq.Sound :=
  step_keeps (P := fun s => s.evq.Sound) Act.keeps_events (fun _ _ hs => hs) h hs

/-- FAULT_HOLD is entered and left by the combinations of R113, so the two go together. -/
theorem step_keeps_nested_faults {s t : State} (h : step s = .next t)
    (hs : s.stc.Nested ∧ s.FaultSound) : t.stc.Nested ∧ t.FaultSound :=
  step_keeps (P := fun s => s.stc.Nested ∧ s.FaultSound)
    (fun a hs => ⟨a.keeps_nested hs.1, a.keeps_faults hs.1 hs.2⟩)
    (fun _ _ hs => ⟨hs.1, faultSound_of_eq hs.2 rfl rfl rfl rfl fun hop => ⟨hop, rfl⟩⟩) h hs

theorem step_keeps_pins {s t : State} (h : step s = .next t) (hs : s.IdlePins) : t.IdlePins :=
  step_keeps Act.keeps_pins (fun _ _ hs => idlePins_of hs id rfl rfl) h hs

theorem step_keeps_timebase {s t : State} (h : step s = .next t) (hs : s.tbu.Sound) : t.tbu.Sound :=
  step_keeps (P := fun s => s.tbu.Sound) Act.keeps_timebase (fun _ _ hs => hs) h hs

theorem step_keeps_timed {s t : State} (h : step s = .next t) (hs : s.TimedTable) : t.TimedTable :=
  step_keeps Act.keeps_timed
    (fun _ _ hs => timedTable_of hs id id fun e he => ⟨e, he, rfl⟩) h hs

theorem step_keeps_alignment {s t : State} (h : step s = .next t) (hs : s.AlignSound) :
    t.AlignSound :=
  step_keeps Act.keeps_alignment (fun _ _ hs => alignSound_of hs rfl fun _ hop => hop) h hs

/-- Settles O55: each change of the part keeps the table sound (`Act.keeps_schedule`), and a step is made
of such changes. -/
theorem scheduleStaysOrdered : Obligations.ScheduleStaysOrdered :=
  fun _ _ h hs => step_keeps_schedule h hs

/-- Settles O60, invariant by invariant. -/
theorem everyStepIsSound : Obligations.EveryStepIsSound := by
  intro s t h hs
  obtain ⟨hnested, hfaults⟩ := step_keeps_nested_faults h ⟨hs.nested, hs.faults⟩
  exact
    { schedule := step_keeps_schedule h hs.schedule
      events := step_keeps_events h hs.events
      intake := step_intake s t h hs.intake
      nested := hnested
      faults := hfaults
      pins := step_keeps_pins h hs.pins
      timebase := step_keeps_timebase h hs.timebase
      timed := step_keeps_timed h hs.timed
      alignment := step_keeps_alignment h hs.alignment }

end Sys2Proof.Machine
end

section
/-! SUPPORT. What the lookups and the reports of the schedule table come to (R6, R15 to R19, R200), and the
five commands that name, remove or report its entries. -/

namespace Sys2Proof.Machine

/-! ### Argument bytes -/

/-- A field of ADD_ENTRY by R199's table, which counts the code byte, is the argument one place before. -/
theorem addEntryField_succ (args : List Byte) (i n : Nat) :
    addEntryField args (i + 1) n = argNat args i n := rfl

theorem argNat_pair (a b : Byte) : argNat [a, b] 0 2 = 256 * a.toNat + b.toNat := by
  show (0 * 256 + a.toNat) * 256 + b.toNat = _
  omega

/-- A one-byte field is its byte. -/
theorem argNat_one (args : List Byte) (i : Nat) : argNat args i 1 = (argByte args i).toNat := by
  unfold argNat argByte
  rw [List.take_one, List.head?_drop, List.getD_eq_getElem?_getD]
  cases args[i]? with
  | none => rfl
  | some b => simp [beNat]

/-! ### Finding and removing -/

theorem Sct.find_eq_none_iff (t : Sct) (handle : Nat) :
    t.find handle = none ↔ ∀ e ∈ t.entries, e.handle ≠ handle := by
  simp [Sct.find]

theorem Sct.find_isSome_iff (t : Sct) (handle : Nat) :
    (t.find handle).isSome ↔ ∃ e ∈ t.entries, e.handle = handle := by
  simp [Sct.find]

/-- The entry found is the first with its handle. -/
theorem Sct.find_of_split (t : Sct) (before after : List Entry) (e : Entry)
    (split : t.entries = before ++ e :: after) (first : ∀ x ∈ before, x.handle ≠ e.handle) :
    t.find e.handle = some e := by
  have hnone : before.find? (fun x => x.handle == e.handle) = none := by simpa using first
  simp [Sct.find, split, hnone]

/-- Its position is the number of entries before it (R6). -/
theorem Sct.position_of_split (t : Sct) (before after : List Entry) (e : Entry)
    (split : t.entries = before ++ e :: after) (first : ∀ x ∈ before, x.handle ≠ e.handle) :
    t.position e.handle = before.length := by
  have hnone : before.findIdx (fun x => x.handle == e.handle) = before.length := by
    rw [List.findIdx_eq_length]
    simpa using first
  simp [Sct.position, split, List.findIdx_append, hnone, List.findIdx_cons]

theorem Sct.remove_eq_filter (t : Sct) (handle : Nat) :
    t.remove handle =
      { t with entries := t.entries.filter fun e => decide (e.handle ≠ handle) } := by
  have same : (fun e : Entry => e.handle != handle) = fun e => decide (e.handle ≠ handle) := by
    funext e
    rw [decide_not]
    rfl
  rw [Sct.remove, same]

/-! ### Removals (R15 to R17) -/

theorem ownCancelEntry_badArgument (args : List Byte) (s : State)
    (h : argNat args 0 2 = 0 ∨ 255 < argNat args 0 2) :
    ownCancelEntry args s = refusing .badArgument s :=
  if_pos h

theorem ownCancelEntry_of_handle (args : List Byte) (s : State)
    (h : ¬ (argNat args 0 2 = 0 ∨ 255 < argNat args 0 2)) :
    ownCancelEntry args s =
      if ∃ e ∈ s.sct.entries, e.handle = argNat args 0 2 then
        (s.setSct
          { s.sct with
            entries := s.sct.entries.filter fun e => decide (e.handle ≠ argNat args 0 2) }, okEmpty)
      else refusing .noSuchHandle s := by
  rw [← Sct.remove_eq_filter]
  unfold ownCancelEntry
  dsimp only
  rw [if_neg h]
  by_cases hf : ∃ e ∈ s.sct.entries, e.handle = argNat args 0 2
  · have found := (Sct.find_isSome_iff s.sct _).mpr hf
    rw [if_pos hf, if_neg (by simpa [Option.isSome_iff_ne_none] using found)]
    rfl
  · rw [if_neg hf, if_pos]
    simpa [Option.isSome_iff_ne_none] using fun h => hf ((Sct.find_isSome_iff s.sct _).mp h)

theorem ownCancelGroup_eq (b : Byte) (s : State) :
    ownCancelGroup [b] s =
      if 15 < b.toNat then refusing .badArgument s
      else
        (s.setSct
          { s.sct with entries := s.sct.entries.filter fun e => decide (e.tag ≠ b.toNat) },
          okWith (byteOf (s.sct.entries.filter fun e => decide (e.tag = b.toNat)).length)) := by
  have others : (fun e : Entry => e.tag != b.toNat) = fun e => decide (e.tag ≠ b.toNat) := by
    funext e
    rw [decide_not]
    rfl
  rw [← others, ← List.countP_eq_length_filter]
  rfl

/-- Settles O29: the owner of each command by the equation of its cases, under the judgement of R130. -/
theorem removalsFromTheTable : Obligations.RemovalsFromTheTable := by
  intro s o a b hs
  refine ⟨?_, ?_, ?_⟩
  · show Host.Outcome.next (commitWith .cancelEntry o [a, b] _ s) = _
    rw [commitWith_judged hs rfl rfl]
    congr 2
    dsimp only
    rw [← argNat_pair]
    split
    · rename_i hbad
      rw [ownCancelEntry_badArgument _ _ hbad]
      rfl
    · rename_i hgood
      rw [ownCancelEntry_of_handle _ _ hgood, leaveQueue_sct]
      split <;> rfl
  · show Host.Outcome.next (commitWith .cancelGroup o [b] _ s) = _
    rw [commitWith_judged hs rfl rfl, ownCancelGroup_eq, leaveQueue_sct]
    congr 2
    split <;> rfl
  · show Host.Outcome.next (commitWith .flushSchedule o [] _ s) = _
    rw [commitWith_judged hs rfl rfl, ownFlushSchedule, leaveQueue_sct]
    rfl

/-! ### Reports (R18, R19, R200) -/

/-- The attributes byte, bit by bit (R198). -/
theorem Entry.attributes_eq (e : Entry) :
    e.attributes = (if e.requireLock then 1 else 0) + (if e.lateFire then 2 else 0) +
      (if e.report then 4 else 0) := by
  unfold Entry.attributes bit
  cases e.requireLock <;> cases e.lateFire <;> cases e.report <;> rfl

/-- The payload of QUERY_ENTRY, with the repeat fields given (R200). -/
theorem queryPayload_eq {e : Entry} {period count : Nat} (position : Nat)
    (repeats : e.repeatFields = (period, count)) :
    queryPayload e position =
      byteOf e.handle ++ beBytes 8 e.due ++ byteOf e.action.code ++ beBytes 4 e.action.argument ++
        beBytes 2 e.action.mask ++ byteOf e.tag ++ (beBytes 4 period ++ beBytes 2 count) ++
        byteOf ((if e.requireLock then 1 else 0) + (if e.lateFire then 2 else 0) +
          (if e.report then 4 else 0)) ++
        beBytes 2 e.remaining ++ beBytes 2 e.fired ++ byteOf position := by
  rw [queryPayload, repeats, Entry.attributes_eq, ← List.append_assoc (_ ++ byteOf e.tag)]

theorem Entry.repeatFields_of_none {e : Entry} (h : e.repeats = none) : e.repeatFields = (0, 0) := by
  rw [Entry.repeatFields, h]

theorem Entry.repeatFields_of_some {e : Entry} {r : Repeat} (h : e.repeats = some r) :
    e.repeatFields = (r.period, r.count) := by
  rw [Entry.repeatFields, h]

theorem ownQueryEntry_refused (args : List Byte) (s : State)
    (h : argNat args 0 2 = 0 ∨ 255 < argNat args 0 2 ∨
      ∀ e ∈ s.sct.entries, e.handle ≠ argNat args 0 2) :
    ownQueryEntry args s = refusing
      (if argNat args 0 2 = 0 ∨ 255 < argNat args 0 2 then .badArgument else .noSuchHandle) s := by
  unfold ownQueryEntry
  dsimp only
  split
  · rfl
  · rename_i hgood
    have absent : s.sct.find (argNat args 0 2) = none := by
      rw [Sct.find_eq_none_iff]
      exact (h.resolve_left fun h => hgood (.inl h)).resolve_left fun h => hgood (.inr h)
    rw [absent]

theorem ownQueryEntry_found (args : List Byte) (s : State) (before after : List Entry) (e : Entry)
    (low : 1 ≤ e.handle) (high : e.handle ≤ 255) (handle : e.handle = argNat args 0 2)
    (split : s.sct.entries = before ++ e :: after) (first : ∀ x ∈ before, x.handle ≠ e.handle) :
    ownQueryEntry args s = (s, okWith (queryPayload e before.length)) := by
  unfold ownQueryEntry
  dsimp only
  rw [← handle, if_neg (by omega), Sct.find_of_split _ _ _ _ split first,
    Sct.position_of_split _ _ _ _ split first]

theorem listingRecord_eq (e : Entry) :
    listingRecord e =
      byteOf e.handle ++ beBytes 8 e.due ++ byteOf e.action.code ++ beBytes 2 e.action.mask ++
        byteOf e.tag ++
        byteOf ((if e.requireLock then 1 else 0) + (if e.lateFire then 2 else 0) +
          (if e.report then 4 else 0) + (if e.repeats = none then 0 else 128)) ++
        beBytes 2 e.remaining ++ beBytes 2 e.fired := by
  have repeating : 128 * bit e.repeats.isSome = if e.repeats = none then 0 else 128 := by
    cases e.repeats <;> rfl
  rw [listingRecord, Entry.attributes_eq, repeating]

theorem ownListSchedule_eq (a b : Byte) (s : State) :
    ownListSchedule [a, b] s =
      if 127 < a.toNat ∨ b.toNat < 1 ∨ 2 < b.toNat then refusing .badArgument s
      else
        (s, okWith (byteOf s.sct.entries.length ++
          byteOf (min b.toNat (s.sct.entries.length - a.toNat)) ++
          ((s.sct.entries.drop a.toNat).take b.toNat).flatMap listingRecord)) := by
  simp only [Nat.lt_one_iff, ← List.length_drop, ← List.length_take]
  rfl

/-- Settles O30: both commands leave the part as it is, and their results are the owner's. -/
theorem reportsOfTheTable : Obligations.ReportsOfTheTable := by
  intro s o a b hs
  refine ⟨⟨?_, ?_⟩, ?_⟩
  · rw [← argNat_pair]
    intro h
    show Host.Outcome.next (commitWith .queryEntry o [a, b] _ s) = _
    rw [commitWith_judged hs rfl rfl, ownQueryEntry_refused _ _ (by simpa using h)]
    rfl
  · rw [← argNat_pair]
    intro before after e split handle low high first
    show Host.Outcome.next (commitWith .queryEntry o [a, b] _ s) = _
    rw [← handle] at low high first
    rw [commitWith_judged hs rfl rfl,
      ownQueryEntry_found _ _ before after e low high handle (by simpa using split) first]
    cases hr : e.repeats with
    | none =>
      rw [queryPayload_eq _ (Entry.repeatFields_of_none hr)]
      rfl
    | some r =>
      rw [queryPayload_eq _ (Entry.repeatFields_of_some hr)]
      rfl
  · show Host.Outcome.next (commitWith .listSchedule o [a, b] _ s) = _
    rw [commitWith_judged hs rfl rfl, ownListSchedule_eq, leaveQueue_sct]
    simp only [← listingRecord_eq]
    congr 2
    split <;> rfl

end Sys2Proof.Machine
end

section
/-! SUPPORT. ADD_ENTRY reads its arguments by R199, refuses them in the order of R10, and places the entry
(R10 to R14). -/

namespace Sys2Proof.Machine

/-! ### The checks of R12 on the fields -/

theorem actionOf_isSome_iff (code : Byte) (argument mask : Nat) :
    (actionOf code argument mask).isSome ↔
      code.toNat ≤ 5 ∧ (code.toNat = 1 → 1 ≤ argument ∧ argument ≤ 16777215) ∧
        (code.toNat = 5 → 1 ≤ argument) ∧ (code.toNat ≠ 1 → code.toNat ≠ 5 → argument = 0) ∧
        (1 ≤ code.toNat → mask ≠ 0) ∧ (code.toNat = 5 → mask < 16) ∧ (code.toNat = 0 → mask = 0) := by
  unfold actionOf
  generalize code.toNat = n
  rcases n with _ | _ | _ | _ | _ | _ | n
  case succ.succ.succ.succ.succ.succ => simp
  all_goals simp [Option.isSome_ite]
  all_goals tauto

theorem repeatOf_isSome_iff (period count : Nat) :
    (repeatOf period count).isSome ↔ (period = 0 ∨ 1000 ≤ period) ∧ (period = 0 → count = 0) := by
  unfold repeatOf
  by_cases hp : period = 0
  · simp [hp, Option.isSome_ite]
  · by_cases hl : period < 1000
    · simp [hp, hl]
    · simp [hp, hl]
      omega

/-- ADD_ENTRY's fields make an entry exactly where no bound of R12 is crossed. -/
theorem entryOf_isSome_iff (args : List Byte) : (entryOf args).isSome ↔ addEntryInRange args := by
  have hact := actionOf_isSome_iff (argByte args 10) (argNat args 12 4) (argNat args 16 2)
  have hrep := repeatOf_isSome_iff (argNat args 19 4) (argNat args 23 2)
  unfold addEntryInRange entryOf
  simp only [addEntryField_succ, argNat_one]
  cases ha : actionOf (argByte args 10) (argNat args 12 4) (argNat args 16 2) with
  | none =>
    rw [ha] at hact
    constructor
    · rintro ⟨⟩
    · rintro ⟨_, h1, h2, h3, h4, h5, h6, h7, _⟩
      exact absurd (hact.mpr ⟨h1, h2, h3, h4, h5, h6, h7⟩) Bool.false_ne_true
  | some action =>
    rw [ha] at hact
    cases hr : repeatOf (argNat args 19 4) (argNat args 23 2) with
    | none =>
      rw [hr] at hrep
      constructor
      · rintro ⟨⟩
      · rintro ⟨_, _, _, _, _, _, _, _, _, period, count, _⟩
        exact absurd (hrep.mpr ⟨period, count⟩) Bool.false_ne_true
    | some repeats =>
      rw [hr] at hrep
      obtain ⟨h1, h2, h3, h4, h5, h6, h7⟩ := hact.mp rfl
      obtain ⟨period, count⟩ := hrep.mp rfl
      simp only [Option.isSome_ite]
      constructor
      · rintro ⟨low, high, tag, attributes⟩
        exact ⟨⟨low, high⟩, h1, h2, h3, h4, h5, h6, h7, tag, period, count, attributes⟩
      · rintro ⟨⟨low, high⟩, _, _, _, _, _, _, _, tag, _, _, attributes⟩
        exact ⟨low, high, tag, attributes⟩

/-- The fields that the later checks of R10 look at. -/
theorem entryOf_fields {args : List Byte} {e : Entry} (h : entryOf args = some e) :
    e.handle = argNat args 0 2 ∧ e.due = argNat args 2 8 ∧
      e.requireLock = (argNat args 25 1).testBit 0 ∧ e.lateFire = (argNat args 25 1).testBit 1 := by
  simp only [argNat_one]
  unfold entryOf at h
  dsimp only at h
  split at h
  · split at h
    · cases h
      exact ⟨rfl, rfl, rfl, rfl⟩
    · cases h
  · cases h

/-! ### The common checks of R130 -/

/-- A time field that holds a valid time has its top bit clear (R198). -/
theorem timeOk_of_argNat_lt {args : List Byte} {i : Nat} (len : i + 8 ≤ args.length)
    (h : argNat args i 8 < 2 ^ 63) : timeOk args i = true := by
  have hi : i < args.length := by omega
  have hget : argByte args i = args[i] := by simp [argByte, hi]
  unfold argNat at h
  rw [List.drop_eq_getElem_cons hi, List.take_succ_cons, beNat_cons, List.length_take,
    List.length_drop, min_eq_left (by omega)] at h
  unfold timeOk
  rw [hget, Bool.not_eq_true', BitVec.msb_eq_false_iff_two_mul_lt]
  omega

/-- ADD_ENTRY at its commit, in a state that admits it and with the common checks passed, is its owner's
(R130, R131). -/
theorem exec_addEntry {s : State} {o : Origin} {args : List Byte} (hs : s.commits = true)
    (hop : s.stc.op ∈ [OpState.config, .run, .parked]) (len : args.length = 26)
    (reserved : args.getD 11 0 = 0) (time : argNat args 2 8 < 2 ^ 63) :
    exec (.addEntry o args) s =
      .next ((ownAddEntry args (s.leaveQueue o)).1.deliver o
        (ownAddEntry args (s.leaveQueue o)).2) := by
  have length : Cmd.lengthOk .addEntry args = true := by simp [Cmd.lengthOk, Cmd.byteCount, len]
  have common : Cmd.commonOk .addEntry args = true := by
    have htime := timeOk_of_argNat_lt (by omega) time
    have hreserved : argByte args 11 = 0 := reserved
    simp [Cmd.commonOk, htime, hreserved]
  show Host.Outcome.next (commitWith .addEntry o args _ s) = _
  rw [commitWith_judged hs length common]
  exact congrArg _ (if_pos hop)

/-! ### The owner's checks in their order (R10, R11, R13) -/

theorem ownAddEntry_unset {args : List Byte} {s : State} (h : s.tbu.state = .unset) :
    ownAddEntry args s = refusing .noTime s := by
  unfold ownAddEntry
  cases s.tbu.localTime with
  | none => rfl
  | some now => exact if_pos h

theorem ownAddEntry_badFields {args : List Byte} {s : State} {now : Nat} (set : s.tbu.state ≠ .unset)
    (time : s.tbu.localTime = some now) (h : entryOf args = none) :
    ownAddEntry args s = refusing .badArgument s := by
  simp [ownAddEntry, time, set, h]

theorem ownAddEntry_of_entry {args : List Byte} {s : State} {now : Nat} {e : Entry}
    (set : s.tbu.state ≠ .unset) (time : s.tbu.localTime = some now) (h : entryOf args = some e) :
    ownAddEntry args s =
      if e.requireLock = true ∧ s.tbu.mode = .selfTimed then refusing .badArgument s
      else if ∃ x ∈ s.sct.entries, x.handle = e.handle then refusing .duplicateHandle s
      else if 128 ≤ s.sct.entries.length then refusing .tableFull s
      else if e.due < now ∧ (e.lateFire = false ∨ s.dpu.lateTolerance < now - e.due) then
        refusing .tooLate s
      else s.insertNew e now := by
  have late : s.tooLate e now = true ↔
      e.due < now ∧ (e.lateFire = false ∨ s.dpu.lateTolerance < now - e.due) := by
    simp [State.tooLate]
  simp only [ownAddEntry, time, if_neg set, h, Sct.find_isSome_iff, late]
  rfl

/-- Settles O27: each refusal is the owner's, at the first check that fails. -/
theorem addEntryChecks : Obligations.AddEntryChecks := by
  intro s o args hs hop len reserved
  rw [addEntryField_succ]
  intro htime
  have refused : ∀ code, ownAddEntry args (s.leaveQueue o) = refusing code (s.leaveQueue o) →
      exec (.addEntry o args) s = .next (s.answered o (refusedWith code)) := by
    intro code h
    rw [exec_addEntry hs hop len reserved htime, h]
    rfl
  refine ⟨fun unset => refused _ (ownAddEntry_unset (by simpa using unset)), ?_⟩
  intro now set time
  simp only [addEntryField_succ]
  have set' : (s.leaveQueue o).tbu.state ≠ .unset := by simpa using set
  have time' : (s.leaveQueue o).tbu.localTime = some now := by simpa using time
  cases he : entryOf args with
  | none =>
    have bad : ¬ addEntryInRange args := by simp [← entryOf_isSome_iff, he]
    exact ⟨fun _ => refused _ (ownAddEntry_badFields set' time' he), fun h => absurd h.1 bad,
      fun h => absurd h.1 bad, fun h => absurd h.1 bad⟩
  | some e =>
    have good : addEntryInRange args := by simp [← entryOf_isSome_iff, he]
    obtain ⟨handle, due, lock, late⟩ := entryOf_fields he
    have owner := ownAddEntry_of_entry set' time' he
    simp only [leaveQueue_tbu, leaveQueue_sct, leaveQueue_dpu] at owner
    rw [← handle, ← due, ← lock, ← late]
    refine ⟨fun h => refused _ ?_, fun h taken => refused _ ?_, fun h free full => refused _ ?_,
      fun h free room tooLate => refused _ ?_⟩
    · rw [owner, if_pos]
      simpa [good] using h
    · rw [owner, if_neg (fun x => h.2 x.1 x.2), if_pos taken]
    · rw [owner, if_neg (fun x => h.2 x.1 x.2), if_neg free, if_pos full]
    · rw [owner, if_neg (fun x => h.2 x.1 x.2), if_neg free, if_neg room, if_pos tooLate]

/-! ### Reading back an entry's own argument bytes (R199) -/

theorem argNat_of_bytes {args : List Byte} {i n v : Nat} (h : (args.drop i).take n = beBytes n v)
    (hv : v < 256 ^ n) : argNat args i n = v := by
  rw [argNat, h, beNat_beBytes, Nat.mod_eq_of_lt hv]

theorem argByte_of_bytes {args : List Byte} {i v : Nat} (h : (args.drop i).take 1 = byteOf v) :
    argByte args i = BitVec.ofNat 8 v := by
  have hget : args[i]? = some (BitVec.ofNat 8 v) := by
    have head := congrArg List.head? h
    rw [List.head?_take, if_neg Nat.one_ne_zero, List.head?_drop] at head
    simpa [byteOf, beBytes] using head
  simp [argByte, List.getD_eq_getElem?_getD, hget]

theorem argNat_due {e : Entry} (h : e.inRange) : argNat e.argumentBytes 2 8 = e.due := by
  obtain ⟨_, _, due, _⟩ := h
  exact argNat_of_bytes rfl (lt_trans due (by norm_num [Config.timeEnd]))

theorem argNat_due_lt {e : Entry} (h : e.inRange) : argNat e.argumentBytes 2 8 < 2 ^ 63 := by
  rw [argNat_due h]
  obtain ⟨_, _, due, _⟩ := h
  exact due

/-- An action within R1 passes the checks of R12 and is read back from its fields. -/
theorem actionOf_fields {a : Action} (h : a.inRange) :
    actionOf (BitVec.ofNat 8 a.code) a.argument a.mask = some a := by
  have nonzero : ∀ {w : Nat} {m : BitVec w}, m ≠ 0 → m.toNat ≠ 0 := by
    intro w m hm hz
    exact hm (BitVec.eq_of_toNat_eq (by simpa using hz))
  cases a with
  | noAction => rfl
  | pulse width mask =>
    obtain ⟨low, high, hm⟩ := h
    simp [actionOf, Action.code, Action.argument, Action.mask, low, high, nonzero hm]
  | setHigh mask => simp [actionOf, Action.code, Action.argument, Action.mask, nonzero h]
  | setLow mask => simp [actionOf, Action.code, Action.argument, Action.mask, nonzero h]
  | toggle mask => simp [actionOf, Action.code, Action.argument, Action.mask, nonzero h]
  | armCapture length mask =>
    obtain ⟨low, _, hm⟩ := h
    have := mask.isLt
    simp [actionOf, Action.code, Action.argument, Action.mask, low, nonzero hm]
    omega

theorem Action.argument_lt {a : Action} (h : a.inRange) : a.argument < 256 ^ 4 := by
  cases a with
  | pulse width mask => exact lt_of_le_of_lt h.2.1 (by norm_num)
  | armCapture length mask => exact lt_of_le_of_lt h.2.1 (by norm_num)
  | _ => exact Nat.zero_lt_succ _

theorem Action.mask_lt (a : Action) : a.mask < 256 ^ 2 := by
  cases a with
  | noAction => exact Nat.zero_lt_succ _
  | armCapture length mask => exact lt_trans mask.isLt (by norm_num)
  | _ mask => exact BitVec.isLt _

theorem repeatOf_fields {e : Entry} (h : e.remainingOk) :
    repeatOf e.repeatFields.1 e.repeatFields.2 = some e.repeats ∧
      e.repeatFields.1 < 256 ^ 4 ∧ e.repeatFields.2 < 256 ^ 2 := by
  unfold Entry.remainingOk at h
  unfold Entry.repeatFields
  cases hr : e.repeats with
  | none => simp [repeatOf]
  | some r =>
    rw [hr] at h
    obtain ⟨low, high, count, _⟩ := h
    refine ⟨?_, lt_of_le_of_lt high (by norm_num), lt_of_le_of_lt count (by norm_num)⟩
    simp only [repeatOf]
    rw [if_neg (by omega), if_neg (by omega)]

/-- The attributes byte names no unused bit, and holds the three attributes (R198). -/
theorem attributes_bits (e : Entry) :
    (BitVec.ofNat 8 e.attributes).toNat < 8 ∧
      (BitVec.ofNat 8 e.attributes).getLsbD 0 = e.requireLock ∧
      (BitVec.ofNat 8 e.attributes).getLsbD 1 = e.lateFire ∧
      (BitVec.ofNat 8 e.attributes).getLsbD 2 = e.report := by
  unfold Entry.attributes
  cases e.requireLock <;> cases e.lateFire <;> cases e.report <;> decide

/-- ADD_ENTRY reads an entry that has not fired yet back from its bytes, but for the insertion number, which
is SCT's to give (R14). -/
theorem entryOf_argumentBytes {e : Entry} (range : e.inRange) (unfired : e.fired = 0)
    (full : e.remaining = (match e.repeats with
      | none => 1
      | some r => r.count)) :
    entryOf e.argumentBytes = some { e with insertion := 0 } := by
  have hdue := argNat_due range
  obtain ⟨low, high, _, action, tag, _, remaining⟩ := range
  obtain ⟨hrep, hperiod, hcount⟩ := repeatOf_fields remaining
  obtain ⟨attributes, lock, late, report⟩ := attributes_bits e
  have hhandle : argNat e.argumentBytes 0 2 = e.handle := argNat_of_bytes rfl (by omega)
  have hcode : argByte e.argumentBytes 10 = BitVec.ofNat 8 e.action.code := argByte_of_bytes rfl
  have hargument : argNat e.argumentBytes 12 4 = e.action.argument :=
    argNat_of_bytes rfl (Action.argument_lt action)
  have hmask : argNat e.argumentBytes 16 2 = e.action.mask := argNat_of_bytes rfl e.action.mask_lt
  have htag : (argByte e.argumentBytes 18).toNat = e.tag := by
    rw [argByte_of_bytes (v := e.tag) rfl]
    exact Nat.mod_eq_of_lt (by omega)
  have hper : argNat e.argumentBytes 19 4 = e.repeatFields.1 := argNat_of_bytes rfl hperiod
  have hcnt : argNat e.argumentBytes 23 2 = e.repeatFields.2 := argNat_of_bytes rfl hcount
  have hattr : argByte e.argumentBytes 25 = BitVec.ofNat 8 e.attributes := argByte_of_bytes rfl
  unfold entryOf
  simp only [hhandle, hdue, hcode, hargument, hmask, htag, hper, hcnt, hattr, actionOf_fields action,
    hrep, lock, late, report]
  rw [if_pos ⟨low, high, tag, attributes⟩, ← unfired]
  congr 2
  exact full.symm

end Sys2Proof.Machine
end

section
/-! SUPPORT. Where ADD_ENTRY places an entry, and the evaluation of it in RUN while every other entry is
later (R7, R14, R35, R38). -/

namespace Sys2Proof.Machine

/-! ### Placement (R7, R14) -/

/-- R7's place: directly behind the last entry due no later. -/
theorem insertEntry_between {e : Entry} {before after : List Entry}
    (last : before = [] ∨ ∃ x, before.getLast? = some x ∧ x.due ≤ e.due)
    (later : ∀ x ∈ after, e.due < x.due) :
    insertEntry e (before ++ after) = before ++ e :: after := by
  induction before with
  | nil =>
    cases after with
    | nil => rfl
    | cons x rest =>
      have noneDue : ¬ ((x :: rest).any fun y => decide (y.due ≤ e.due)) = true := by
        simpa using later
      rw [List.nil_append, insertEntry, if_neg noneDue]
      rfl
  | cons x rest ih =>
    obtain ⟨y, hlast, hdue⟩ := last.resolve_left (List.cons_ne_nil x rest)
    have someDue : (x :: (rest ++ after)).any (fun y => decide (y.due ≤ e.due)) = true := by
      refine List.any_eq_true.mpr ⟨y, ?_, by simpa using hdue⟩
      exact List.mem_append_left after (List.mem_of_getLast? hlast)
    have rest_last : rest = [] ∨ ∃ x, rest.getLast? = some x ∧ x.due ≤ e.due := by
      cases rest with
      | nil => exact .inl rfl
      | cons z l => exact .inr ⟨y, by rwa [List.getLast?_cons_cons] at hlast, hdue⟩
    rw [List.cons_append, insertEntry, if_pos someDue, ih rest_last, List.cons_append]

theorem Sct.place_between {t : Sct} {e : Entry} {before after : List Entry}
    (split : t.entries = before ++ after)
    (last : before = [] ∨ ∃ x, before.getLast? = some x ∧ x.due ≤ e.due)
    (later : ∀ x ∈ after, e.due < x.due) :
    t.place e =
      { entries := before ++ { e with insertion := t.nextInsertion } :: after
        nextInsertion := t.nextInsertion + 1 } := by
  rw [Sct.place, split]
  exact congrArg (Sct.mk · _)
    (insertEntry_between (e := { e with insertion := t.nextInsertion }) last later)

/-- An entry that passed the checks takes its place with the next insertion number, and its position is
reported as it was before any evaluation (R14). -/
theorem insertNew_eq {s placed : State} {e : Entry} {now : Nat} {before after : List Entry}
    (hplaced : s.setSct (s.sct.place e) = placed)
    (entries : placed.sct.entries = before ++ { e with insertion := s.sct.nextInsertion } :: after)
    (free : ∀ x ∈ before, x.handle ≠ e.handle) :
    s.insertNew e now =
      (if s.stc.op = .run ∧ e.due ≤ now then placed.evaluateAdded e.handle else placed,
        okWith (byteOf before.length)) := by
  have position : placed.sct.position e.handle = before.length :=
    Sct.position_of_split _ before after { e with insertion := s.sct.nextInsertion } entries free
  unfold State.insertNew
  dsimp only
  rw [hplaced, position]

/-- ADD_ENTRY whose entry passes every check places it (R10, R14). -/
theorem ownAddEntry_inserts {args : List Byte} {s : State} {now : Nat} {e : Entry}
    (set : s.tbu.state ≠ .unset) (time : s.tbu.localTime = some now) (h : entryOf args = some e)
    (lock : e.requireLock = true → s.tbu.mode = .disciplined)
    (free : ∀ x ∈ s.sct.entries, x.handle ≠ e.handle) (room : s.sct.entries.length < 128)
    (due : now ≤ e.due ∨ (e.lateFire = true ∧ now - e.due ≤ s.dpu.lateTolerance)) :
    ownAddEntry args s = s.insertNew e now := by
  have unlocked : ¬ (e.requireLock = true ∧ s.tbu.mode = .selfTimed) := by
    rintro ⟨hlock, hmode⟩
    rw [lock hlock] at hmode
    cases hmode
  have inTime : ¬ (e.due < now ∧ (e.lateFire = false ∨ s.dpu.lateTolerance < now - e.due)) := by
    rintro ⟨past, off | tolerance⟩
    · rcases due with h | ⟨on, _⟩
      · omega
      · rw [on] at off
        cases off
    · omega
  rw [ownAddEntry_of_entry set time h, if_neg unlocked,
    if_neg (by rintro ⟨x, hx, hxe⟩; exact free x hx hxe), if_neg (by omega), if_neg inTime]

/-! ### Occurrences consumed (R8) -/

/-- What stands in the table after occurrences of an entry are consumed: the other entries, and the entry
itself where it is placed again. -/
theorem Sct.mem_consume {t : Sct} {e y : Entry} {k : Nat} {fired : Bool}
    (hy : y ∈ (t.consume e k fired).entries) :
    (y ∈ t.entries ∧ y.handle ≠ e.handle) ∨
      ∃ r, e.repeats = some r ∧ y.due = e.due + k * r.period := by
  have others : ∀ {y}, y ∈ (t.remove e.handle).entries → y ∈ t.entries ∧ y.handle ≠ e.handle :=
    fun hy => ⟨List.mem_of_mem_filter hy, Sct.remove_absent t e.handle _ hy⟩
  unfold Sct.consume at hy
  split at hy
  · exact .inl (others hy)
  · rename_i next hadvance
    rcases (mem_insertEntry _ _ _).mp hy with rfl | hy
    · right
      unfold Entry.advance at hadvance
      split at hadvance
      · cases hadvance
      · rename_i r hr
        refine ⟨r, hr, ?_⟩
        dsimp only at hadvance
        (repeat' split at hadvance) <;> cases hadvance <;> rfl
    · exact .inl (others hy)

/-- Where the other entries are due after `now`, an entry that is due at `now` once occurrences of `e` are
consumed is `e` itself, placed again at the head. -/
theorem Sct.consume_due_head {t : Sct} {e x : Entry} {k now : Nat} {fired : Bool} (range : e.inRange)
    (later : ∀ y ∈ t.entries, y.handle ≠ e.handle → now < y.due)
    (hx : x ∈ (t.consume e k fired).entries) (due : x.due = now) :
    ∃ rest, (t.consume e k fired).entries = x :: rest ∧ x.inRange ∧ ∀ y ∈ rest, now < y.due := by
  have others : ∀ y ∈ (t.remove e.handle).entries, now < y.due := fun y hy =>
    later y (List.mem_of_mem_filter hy) (Sct.remove_absent t e.handle y hy)
  unfold Sct.consume at hx ⊢
  cases hadvance : e.advance k fired with
  | none =>
    rw [hadvance] at hx
    have := others x hx
    omega
  | some next =>
    rw [hadvance] at hx
    rcases (mem_insertEntry _ _ _).mp hx with rfl | hx
    · refine ⟨(t.remove e.handle).entries, insertEntry_between (.inl rfl) ?_,
        (Entry.advance_inRange e next k fired range hadvance).1, others⟩
      intro y hy
      rw [due]
      exact others y hy
    · have := others x hx
      omega

/-- An entry in range that repeats has a period (R1). -/
theorem Entry.period_pos {e : Entry} {r : Repeat} (h : e.inRange) (hr : e.repeats = some r) :
    0 < r.period := by
  obtain ⟨_, _, _, _, _, _, remaining⟩ := h
  rw [Entry.remainingOk, hr] at remaining
  exact lt_of_lt_of_le (by norm_num) remaining.1

/-! ### The passes of an evaluation (R35, R38) -/

/-- Where the head alone is due at `now`, the on-time pass at `now` is its one occurrence (R26). -/
theorem onTimePass_head {s : State} {x : Entry} {rest : List Entry} {now : Nat}
    (split : s.sct.entries = x :: rest) (range : x.inRange) (due : x.due = now)
    (later : ∀ y ∈ rest, now < y.due) : s.onTimePass now = s.fireOnTime x := by
  have after : ∀ y ∈ (s.fireOnTime x).sct.entries, now < y.due := by
    intro y hy
    rw [fireOnTime_sct] at hy
    rcases Sct.mem_consume hy with ⟨hy, hne⟩ | ⟨r, hr, hdue⟩
    · rw [split] at hy
      rcases List.mem_cons.mp hy with rfl | hy
      · exact absurd rfl hne
      · exact later y hy
    · have := Entry.period_pos range hr
      omega
  unfold State.onTimePass
  rw [split, List.length_cons, fireBatch, split]
  simp only [due, if_true]
  exact fireBatch_none now rest.length _ after

theorem evaluateAdded_now {s : State} {e : Entry} {now : Nat} (time : s.tbu.localTime = some now)
    (found : s.sct.find e.handle = some e) (due : e.due = now) :
    s.evaluateAdded e.handle = s.passEdges.onTimePass now := by
  simp [State.evaluateAdded, time, found, due]

theorem evaluateAdded_late {s : State} {e : Entry} {now : Nat} (time : s.tbu.localTime = some now)
    (found : s.sct.find e.handle = some e) (due : e.due < now) :
    s.evaluateAdded e.handle = (s.passEdges.settleLate e now).onTimePass now := by
  simp [State.evaluateAdded, time, found, due]

/-- An entry added in RUN and due now, the others later: its on-time occurrence, behind the edges that fall
before it (R38, R99). -/
theorem evaluateAdded_fires {s t : State} {e : Entry} {now : Nat} {rest : List Entry}
    (time : s.tbu.localTime = some now) (split : s.sct.entries = e :: rest) (range : e.inRange)
    (due : e.due = now) (later : ∀ y ∈ rest, now < y.due) (ht : s.passEdges.AfterOnTime e t) :
    s.evaluateAdded e.handle = t := by
  have found : s.sct.find e.handle = some e :=
    Sct.find_of_split _ [] rest e split fun _ h => absurd h List.not_mem_nil
  rw [evaluateAdded_now time found due,
    onTimePass_head (by simpa using split) range due later, ← AfterOnTime_unique ht]

/-- An entry added in RUN and past due is settled by the late rule, and nothing follows where nothing is
due now (R38). -/
theorem evaluateAdded_settles {s t : State} {e : Entry} {now : Nat}
    (time : s.tbu.localTime = some now) (found : s.sct.find e.handle = some e) (range : e.inRange)
    (due : e.due < now) (ht : s.passEdges.AfterLate e now t)
    (later : ∀ x ∈ t.sct.entries, now < x.due) : s.evaluateAdded e.handle = t := by
  rw [evaluateAdded_late time found due, ← AfterLate_unique range ht]
  exact fireBatch_none now _ t later

/-- Where the late rule places it again at now, and the others are later, its on-time occurrence follows
(R38). -/
theorem evaluateAdded_settles_fires {s t u : State} {e x : Entry} {now : Nat}
    (time : s.tbu.localTime = some now) (found : s.sct.find e.handle = some e) (range : e.inRange)
    (due : e.due < now) (later : ∀ y ∈ s.sct.entries, y.handle ≠ e.handle → now < y.due)
    (ht : s.passEdges.AfterLate e now t) (hx : x ∈ t.sct.entries) (now_x : x.due = now)
    (hu : t.AfterOnTime x u) : s.evaluateAdded e.handle = u := by
  have settled := AfterLate_unique range ht
  obtain ⟨fired, consumed⟩ := settleLate_sct s.passEdges e now
  rw [← settled, passEdges_sct] at consumed
  rw [consumed] at hx
  obtain ⟨rest, split, range_x, others⟩ := Sct.consume_due_head range later hx now_x
  rw [evaluateAdded_late time found due, ← settled,
    onTimePass_head (by rw [consumed, split]) range_x now_x others, ← AfterOnTime_unique hu]

/-- Settles O28: the entry is read back from its bytes, passes the checks, and is placed; in RUN its
evaluation is that of an entry due now, or past due. -/
theorem addEntryInserts : Obligations.AddEntryInserts := by
  intro s o e now before after hs hop set time range unfired full lock split room free last later due
    stored placed answer
  have entries : placed.sct.entries = before ++ stored :: after := rfl
  have free_before : ∀ x ∈ before, x.handle ≠ e.handle := fun x hx =>
    free x (by rw [split]; exact List.mem_append_left after hx)
  have others_held : ∀ y ∈ placed.sct.entries, y.handle ≠ e.handle → y ∈ s.sct.entries := by
    intro y hy hne
    rw [entries, List.mem_append, List.mem_cons] at hy
    rw [split, List.mem_append]
    rcases hy with hy | rfl | hy
    · exact .inl hy
    · exact absurd rfl hne
    · exact .inr hy
  have hplaced : (s.leaveQueue o).setSct ((s.leaveQueue o).sct.place { e with insertion := 0 }) =
      placed := by
    rw [Sct.place_between (e := { e with insertion := 0 }) (by simpa using split) last later,
      leaveQueue_sct]
  have added : exec (.addEntry o e.argumentBytes) s =
      .next (answer
        (if s.stc.op = .run ∧ e.due ≤ now then placed.evaluateAdded e.handle else placed)) := by
    rw [exec_addEntry hs hop rfl rfl (argNat_due_lt range),
      ownAddEntry_inserts (by simpa using set) (by simpa using time)
        (entryOf_argumentBytes range unfired full) (by simpa using lock) (by simpa using free)
        (by simpa using room) (by simpa using due),
      insertNew_eq hplaced (by rw [entries, leaveQueue_sct]) free_before, leaveQueue_stc]
    rfl
  have added_run : s.stc.op = .run → e.due ≤ now → ∀ t, placed.evaluateAdded e.handle = t →
      exec (.addEntry o e.argumentBytes) s = .next (answer t) := by
    intro run reached t ht
    rw [added, if_pos ⟨run, reached⟩, ht]
  have placed_time : placed.tbu.localTime = some now := by simpa [placed] using time
  have found : placed.sct.find e.handle = some stored :=
    Sct.find_of_split _ before after stored entries free_before
  refine ⟨?_, ?_, ?_, ?_⟩
  · intro h
    rw [added, if_neg]
    rintro ⟨run, reached⟩
    rcases h with h | h
    · exact h run
    · omega
  · intro run reached
    exact added_run run reached _ rfl
  · intro run hdue others t ht
    have alone : before = [] := by
      rcases last with h | ⟨x, hx, hle⟩
      · exact h
      · have := others x (by rw [split]; exact List.mem_append_left after (List.mem_of_getLast? hx))
        omega
    rw [alone] at entries
    exact added_run run hdue.le t
      (evaluateAdded_fires (e := stored) placed_time entries range hdue
        (fun y hy => hdue ▸ later y hy) ht)
  · intro run hdue others t ht
    refine ⟨fun hlater => ?_, fun x hx now_x u hu => ?_⟩
    · exact added_run run hdue.le t
        (evaluateAdded_settles (e := stored) placed_time found range hdue ht hlater)
    · exact added_run run hdue.le u
        (evaluateAdded_settles_fires (e := stored) placed_time found range hdue
          (fun y hy hne => others y (others_held y hy hne)) ht hx now_x hu)

end Sys2Proof.Machine
end

section
/-! SUPPORT. The two passes of an evaluation settle heads while they are due, and their fuel is enough
(R26, R33, R35); the reaching of the head, the evaluation, and START's. -/

namespace Sys2Proof.Machine

/-! ### The head of the table (R5) -/

/-- The head stands at the earliest due time. -/
theorem Sct.Sound.head_due_le {t : Sct} {e : Entry} {rest : List Entry} (sound : t.Sound)
    (split : t.entries = e :: rest) : ∀ x ∈ t.entries, e.due ≤ x.due := by
  have ordered := sound.ordered
  rw [split, List.pairwise_cons] at ordered
  intro x hx
  rw [split] at hx
  rcases List.mem_cons.mp hx with rfl | hx
  · exact le_rfl
  · exact before_due (ordered.1 x hx)

/-- No other entry has the head's handle. -/
theorem Sct.Sound.rest_handle_ne {t : Sct} {e : Entry} {rest : List Entry} (sound : t.Sound)
    (split : t.entries = e :: rest) : ∀ x ∈ rest, x.handle ≠ e.handle := by
  have distinct := sound.distinct
  rw [split, List.map_cons, List.nodup_cons] at distinct
  intro x hx same
  exact distinct.1 (same ▸ List.mem_map_of_mem hx)

theorem Sct.Sound.head_inRange {t : Sct} {e : Entry} {rest : List Entry} (sound : t.Sound)
    (split : t.entries = e :: rest) : e.inRange :=
  sound.ranges e (split ▸ List.mem_cons_self)

/-! ### Occurrences consumed at the head (R8, R34) -/

/-- An entry that stays repeats, stands whole periods later, and has occurrences left (R8). -/
theorem Entry.advance_due {e next : Entry} {k : Nat} {fired : Bool}
    (h : e.advance k fired = some next) :
    ∃ r, e.repeats = some r ∧ next.due = e.due + k * r.period ∧ (r.count ≠ 0 → k < e.remaining) := by
  unfold Entry.advance at h
  cases hr : e.repeats with
  | none =>
    rw [hr] at h
    cases h
  | some r =>
    rw [hr] at h
    refine ⟨r, rfl, ?_⟩
    dsimp only at h
    split at h
    next unlimited =>
      split at h
      next =>
        cases h
        exact ⟨rfl, fun counted => absurd unlimited counted⟩
      next => cases h
    next =>
      split at h
      next => cases h
      next left =>
        split at h
        next =>
          cases h
          exact ⟨rfl, fun _ => Nat.lt_of_not_le left⟩
        next => cases h

/-- After one on-time occurrence an entry is due later (R29). -/
theorem Entry.advance_one_due_lt {e next : Entry} {fired : Bool} (range : e.inRange)
    (h : e.advance 1 fired = some next) : e.due < next.due := by
  obtain ⟨r, hr, due, _⟩ := Entry.advance_due h
  have := Entry.period_pos range hr
  omega

/-- An entry that stays after its past occurrences is no longer past due (R33, R34). -/
theorem Entry.advance_past_due_ge {e next : Entry} {now : Nat} {fired : Bool} (range : e.inRange)
    (h : e.advance (e.pastCount now) fired = some next) : now ≤ next.due := by
  obtain ⟨r, hr, due, left⟩ := Entry.advance_due h
  have whole : e.pastCount now = (now - e.due - 1) / r.period + 1 := by
    unfold Entry.pastCount at left ⊢
    simp only [hr] at left ⊢
    split
    next => rfl
    next counted =>
      have := left counted
      rw [if_neg counted] at this
      omega
  have passed := Nat.lt_mul_div_succ (now - e.due - 1) (Entry.period_pos range hr)
  rw [whole, Nat.mul_comm] at due
  omega

/-- The other entries stay when occurrences of `e` are consumed. -/
theorem Sct.mem_consume_of_ne {t : Sct} {e y : Entry} (k : Nat) (fired : Bool) (hy : y ∈ t.entries)
    (other : y.handle ≠ e.handle) : y ∈ (t.consume e k fired).entries := by
  have kept : y ∈ (t.remove e.handle).entries := List.mem_filter.mpr ⟨hy, by simpa using other⟩
  unfold Sct.consume
  split
  · exact kept
  · exact (mem_insertEntry _ _ _).mpr (.inr kept)

/-! ### Settling heads while they are due (R26, R35) -/

/-- The number of entries whose due time is one of `due`. -/
def Sct.dueCount (t : Sct) (due : Nat → Bool) : Nat :=
  t.entries.countP fun x => due x.due

/-- What the on-time batch and the late pass have in common: while the head's due time is one of `due`,
the head is settled. -/
def settleHeads (due : Nat → Bool) (settle : State → Entry → State) : Nat → State → State
  | 0, s => s
  | fuel + 1, s =>
    match s.sct.entries with
    | [] => s
    | e :: _ => if due e.due then settleHeads due settle fuel (settle s e) else s

theorem fireBatch_eq_settleHeads (due fuel : Nat) (s : State) :
    fireBatch due fuel s = settleHeads (fun d => decide (d = due)) State.fireOnTime fuel s := by
  induction fuel generalizing s with
  | zero => rfl
  | succ fuel ih =>
    unfold fireBatch settleHeads
    cases s.sct.entries with
    | nil => rfl
    | cons e rest => simp [ih]

theorem latePass_eq_settleHeads (now fuel : Nat) (s : State) :
    latePass now fuel s =
      settleHeads (fun d => decide (d < now)) (fun s e => s.settleLate e now) fuel s := by
  induction fuel generalizing s with
  | zero => rfl
  | succ fuel ih =>
    unfold latePass settleHeads
    cases s.sct.entries with
    | nil => rfl
    | cons e rest => simp [ih]

/-- Settling a head that is due keeps the table sound and leaves fewer entries due. -/
def SettlesHead (due : Nat → Bool) (settle : State → Entry → State) : Prop :=
  ∀ (s : State) (e : Entry) (rest : List Entry), s.sct.Sound → s.sct.entries = e :: rest →
    due e.due = true →
    (settle s e).sct.Sound ∧ (settle s e).sct.dueCount due < s.sct.dueCount due

/-- Occurrences of the head consumed, up to one that is not due: fewer entries are due. -/
theorem Sct.consume_dueCount_lt {t : Sct} {e : Entry} {rest : List Entry} {due : Nat → Bool} {k : Nat}
    {fired : Bool} (sound : t.Sound) (split : t.entries = e :: rest) (head : due e.due = true)
    (settled : ∀ next, e.advance k fired = some next → due next.due = false) :
    (t.consume e k fired).dueCount due < t.dueCount due := by
  have others : (t.remove e.handle).entries = rest := by
    have hrest : rest.filter (fun x => x.handle != e.handle) = rest :=
      List.filter_eq_self.mpr fun x hx => by simpa using sound.rest_handle_ne split x hx
    simp [Sct.remove, split, hrest]
  have before : t.dueCount due = rest.countP (fun x => due x.due) + 1 := by
    simp [Sct.dueCount, split, head]
  have after : (t.consume e k fired).dueCount due = rest.countP fun x => due x.due := by
    unfold Sct.consume
    cases hadvance : e.advance k fired with
    | none => simp [Sct.dueCount, others]
    | some next =>
      simp only [Sct.dueCount, Sct.place, others]
      rw [(insertEntry_perm _ _).countP_eq]
      simp [settled next hadvance]
  omega

theorem fireOnTime_settlesHead (now : Nat) :
    SettlesHead (fun d => decide (d = now)) State.fireOnTime := by
  intro s e rest sound split head
  have range := sound.head_inRange split
  rw [fireOnTime_sct]
  refine ⟨Sct.consume_sound _ _ _ _ sound (split ▸ List.mem_cons_self),
    Sct.consume_dueCount_lt sound split head fun next hadvance => ?_⟩
  have later := Entry.advance_one_due_lt range hadvance
  have due : e.due = now := by simpa using head
  exact decide_eq_false (by omega)

theorem settleLate_settlesHead (now : Nat) :
    SettlesHead (fun d => decide (d < now)) (fun s e => s.settleLate e now) := by
  intro s e rest sound split head
  have range := sound.head_inRange split
  obtain ⟨fired, consumed⟩ := settleLate_sct s e now
  rw [consumed]
  refine ⟨Sct.consume_sound _ _ _ _ sound (split ▸ List.mem_cons_self),
    Sct.consume_dueCount_lt sound split head fun next hadvance => ?_⟩
  simpa using Entry.advance_past_due_ge range hadvance

/-- With no entry due, nothing is settled. -/
theorem settleHeads_none {due : Nat → Bool} (settle : State → Entry → State) (fuel : Nat) {s : State}
    (none_due : ∀ x ∈ s.sct.entries, due x.due = false) : settleHeads due settle fuel s = s := by
  cases fuel with
  | zero => rfl
  | succ fuel =>
    unfold settleHeads
    cases split : s.sct.entries with
    | nil => rfl
    | cons e rest => simp [none_due e (split ▸ List.mem_cons_self)]

theorem settleHeads_of_dueCount_zero {due : Nat → Bool} (settle : State → Entry → State) (fuel : Nat)
    {s : State} (h : s.sct.dueCount due = 0) : settleHeads due settle fuel s = s :=
  settleHeads_none settle fuel (by simpa [Sct.dueCount] using h)

/-- Fuel for every entry that is due is enough. -/
theorem settleHeads_fuel {due : Nat → Bool} {settle : State → Entry → State}
    (settles : SettlesHead due settle) {n m : Nat} {s : State} (sound : s.sct.Sound)
    (hn : s.sct.dueCount due ≤ n) (hm : s.sct.dueCount due ≤ m) :
    settleHeads due settle n s = settleHeads due settle m s := by
  induction n generalizing s m with
  | zero =>
    have none_due := Nat.eq_zero_of_le_zero hn
    rw [settleHeads_of_dueCount_zero _ _ none_due, settleHeads_of_dueCount_zero _ _ none_due]
  | succ n ih =>
    cases m with
    | zero =>
      have none_due := Nat.eq_zero_of_le_zero hm
      rw [settleHeads_of_dueCount_zero _ _ none_due, settleHeads_of_dueCount_zero _ _ none_due]
    | succ m =>
      unfold settleHeads
      cases split : s.sct.entries with
      | nil => rfl
      | cons e rest =>
        dsimp only
        split
        next head =>
          obtain ⟨sound', fewer⟩ := settles s e rest sound split head
          exact ih sound' (by omega) (by omega)
        next => rfl

/-- A head that is due is settled, and the pass goes on over the table that leaves. -/
theorem settleHeads_head {due : Nat → Bool} {settle : State → Entry → State}
    (settles : SettlesHead due settle) {s : State} {e : Entry} {rest : List Entry}
    (sound : s.sct.Sound) (split : s.sct.entries = e :: rest) (head : due e.due = true) :
    settleHeads due settle s.sct.entries.length s =
      settleHeads due settle (settle s e).sct.entries.length (settle s e) := by
  obtain ⟨sound', fewer⟩ := settles s e rest sound split head
  have most : s.sct.dueCount due ≤ rest.length + 1 := by
    rw [← List.length_cons (a := e), ← split]
    exact List.countP_le_length
  have one : settleHeads due settle (rest.length + 1) s =
      settleHeads due settle rest.length (settle s e) := by
    rw [settleHeads, split]
    exact if_pos head
  rw [split, List.length_cons, one]
  exact settleHeads_fuel settles sound' (by omega) List.countP_le_length

/-! ### The on-time batch (R26) -/

/-- A head due at `now` is fired, and the pass goes on with the next. -/
theorem onTimePass_due {s : State} {e : Entry} {rest : List Entry} {now : Nat} (sound : s.sct.Sound)
    (split : s.sct.entries = e :: rest) (due : e.due = now) :
    s.onTimePass now = (s.fireOnTime e).onTimePass now := by
  simp only [State.onTimePass, fireBatch_eq_settleHeads]
  exact settleHeads_head (fireOnTime_settlesHead now) sound split (by simpa using due)

theorem onTimePass_later {s : State} {now : Nat} (later : ∀ x ∈ s.sct.entries, now < x.due) :
    s.onTimePass now = s :=
  fireBatch_none now _ s later

theorem fireOnTime_sound {s : State} {e : Entry} {rest : List Entry} (sound : s.sct.Sound)
    (split : s.sct.entries = e :: rest) : (s.fireOnTime e).sct.Sound := by
  rw [fireOnTime_sct]
  exact Sct.consume_sound _ _ _ _ sound (split ▸ List.mem_cons_self)

/-- Behind an on-time occurrence of the head nothing is due earlier than it was. -/
theorem fireOnTime_due_ge {s : State} {e : Entry} {rest : List Entry} (sound : s.sct.Sound)
    (split : s.sct.entries = e :: rest) : ∀ x ∈ (s.fireOnTime e).sct.entries, e.due ≤ x.due := by
  intro x hx
  rw [fireOnTime_sct] at hx
  rcases Sct.mem_consume hx with ⟨hx, _⟩ | ⟨r, _, due⟩
  · exact sound.head_due_le split x hx
  · omega

/-- An entry due with the head follows it: the next head is due then too. -/
theorem fireOnTime_next_due {s : State} {e x : Entry} {rest : List Entry} (sound : s.sct.Sound)
    (split : s.sct.entries = e :: rest) (hx : x ∈ rest) (same : x.due = e.due) :
    ∃ y others, (s.fireOnTime e).sct.entries = y :: others ∧ y.due = e.due := by
  have stays : x ∈ (s.fireOnTime e).sct.entries := by
    rw [fireOnTime_sct]
    exact Sct.mem_consume_of_ne _ _ (split ▸ List.mem_cons_of_mem e hx)
      (sound.rest_handle_ne split x hx)
  obtain ⟨y, others, split'⟩ := List.exists_cons_of_ne_nil (List.ne_nil_of_mem stays)
  have not_later : y.due ≤ e.due :=
    same ▸ (fireOnTime_sound sound split).head_due_le split' x stays
  have not_earlier : e.due ≤ y.due :=
    fireOnTime_due_ge sound split y (split' ▸ List.mem_cons_self)
  exact ⟨y, others, split', le_antisymm not_later not_earlier⟩

/-- Where no entry is due before `now`, the on-time pass at `now` leaves none due then. -/
theorem onTimePass_leaves {s : State} {now : Nat} (sound : s.sct.Sound)
    (from_now : ∀ x ∈ s.sct.entries, now ≤ x.due) :
    ∀ x ∈ (s.onTimePass now).sct.entries, now < x.due := by
  induction hn : s.sct.dueCount (fun d => decide (d = now)) using Nat.strong_induction_on
    generalizing s with
  | _ n ih =>
    by_cases later : ∀ x ∈ s.sct.entries, now < x.due
    · rwa [onTimePass_later later]
    · cases split : s.sct.entries with
      | nil => simp [split] at later
      | cons e rest =>
        have due : e.due = now := by
          have hle : now ≤ e.due := from_now e (split ▸ List.mem_cons_self)
          push Not at later
          obtain ⟨x, hx, hxle⟩ := later
          have := sound.head_due_le split x hx
          omega
        obtain ⟨sound', fewer⟩ :=
          fireOnTime_settlesHead now s e rest sound split (by simpa using due)
        rw [onTimePass_due sound split due]
        exact ih _ (hn ▸ fewer) sound' (due ▸ fireOnTime_due_ge sound split) rfl

/-! ### The reaching of the head (R24, R26) -/

theorem exec_headReached (s : State) : exec .headReached s = .next s.reachHead := rfl

/-- In RUN, with its time come, the head's batch is the on-time pass at its due time. -/
theorem reachHead_reached {s : State} {e : Entry} {rest : List Entry} (run : s.stc.op = .run)
    (split : s.sct.entries = e :: rest) (reached : s.reached e.due = true) :
    s.reachHead = s.onTimePass e.due := by
  unfold State.reachHead
  rw [split]
  dsimp only
  rw [if_pos ⟨run, reached⟩, State.onTimePass, split]

/-- Outside RUN, on an empty table, without a local time or before the head's time nothing happens
(log 4). -/
theorem reachHead_idle {s : State}
    (h : s.stc.op ≠ .run ∨ s.sct.entries = [] ∨ s.tbu.localTime = none ∨
      ∃ e rest now, s.sct.entries = e :: rest ∧ s.tbu.localTime = some now ∧ now < e.due) :
    s.reachHead = s := by
  unfold State.reachHead
  cases split : s.sct.entries with
  | nil => rfl
  | cons e rest =>
    dsimp only
    rw [if_neg]
    rintro ⟨run, reached⟩
    rcases h with hop | empty | unset | ⟨x, others, now, split', time, before⟩
    · exact hop run
    · simp [split] at empty
    · simp [State.reached, unset] at reached
    · rw [split, List.cons.injEq] at split'
      rw [← split'.1] at before
      simp only [State.reached, time, decide_eq_true_eq] at reached
      omega

/-- Settles O33: the head's occurrence is `fireOnTime`, and the batch for its due time goes on over the
table that leaves, at whose head stands the next entry due then. -/
theorem headFiresOnTime : Obligations.HeadFiresOnTime := by
  intro s e rest now sound run time split due
  have reached : s.reached e.due = true := by simpa [State.reached, time] using due
  have first := sound.head_due_le split
  rw [split] at first
  refine ⟨s.fireOnTime e, fireOnTime_after s e, fun alone => ?_, ?_⟩
  · have later : ∀ x ∈ rest, e.due < x.due := fun x hx =>
      lt_of_le_of_ne (first x (List.mem_cons_of_mem e hx)) (Ne.symm (alone x hx))
    rw [exec_headReached, reachHead_reached run split reached,
      onTimePass_head split (sound.head_inRange split) rfl later]
  · rintro ⟨x, hx, same⟩
    obtain ⟨y, others, split', next_due⟩ := fireOnTime_next_due sound split hx same
    have reached' : (s.fireOnTime e).reached y.due = true := by
      simpa [State.reached, next_due] using reached
    rw [exec_headReached, exec_headReached, reachHead_reached run split reached,
      reachHead_reached (by simpa using run) split' reached', next_due,
      onTimePass_due sound split rfl]

/-- Settles O34: the batch is the on-time pass at the head's due time, before which nothing is due. -/
theorem batchLeavesNothingDue : Obligations.BatchLeavesNothingDue := by
  refine ⟨fun s t e rest sound split run reached h => ?_, fun s h => ?_⟩
  · rw [exec_headReached, reachHead_reached run split reached] at h
    cases h
    exact onTimePass_leaves sound (sound.head_due_le split)
  · rw [exec_headReached, reachHead_idle h]

/-! ### An evaluation (R35, R36) -/

theorem latePass_from_now {s : State} {now : Nat} (fuel : Nat)
    (from_now : ∀ x ∈ s.sct.entries, now ≤ x.due) : latePass now fuel s = s := by
  rw [latePass_eq_settleHeads]
  exact settleHeads_none _ _ (by simpa using from_now)

theorem evaluate_eq {s : State} {now : Nat} (time : s.tbu.localTime = some now) :
    s.evaluate = s.passEdges.settleTable now := by
  simp [State.evaluate, time]

/-- A head past due is settled by the late rule, and the evaluation goes on with the table that leaves. -/
theorem settleTable_late {s : State} {e : Entry} {rest : List Entry} {now : Nat} (sound : s.sct.Sound)
    (split : s.sct.entries = e :: rest) (due : e.due < now) :
    s.settleTable now = (s.settleLate e now).settleTable now := by
  simp only [State.settleTable, latePass_eq_settleHeads]
  rw [settleHeads_head (settleLate_settlesHead now) sound split (by simpa using due)]

/-- Once nothing is past due, the on-time pass is what is left. -/
theorem settleTable_from_now {s : State} {now : Nat} (from_now : ∀ x ∈ s.sct.entries, now ≤ x.due) :
    s.settleTable now = s.onTimePass now := by
  rw [State.settleTable, latePass_from_now _ from_now]

theorem settleTable_now {s : State} {e : Entry} {rest : List Entry} {now : Nat} (sound : s.sct.Sound)
    (split : s.sct.entries = e :: rest) (due : e.due = now) :
    s.settleTable now = (s.fireOnTime e).settleTable now := by
  rw [settleTable_from_now (due ▸ sound.head_due_le split),
    settleTable_from_now (due ▸ fireOnTime_due_ge sound split), onTimePass_due sound split due]

theorem settleTable_later {s : State} {now : Nat} (later : ∀ x ∈ s.sct.entries, now < x.due) :
    s.settleTable now = s := by
  rw [settleTable_from_now fun x hx => (later x hx).le, onTimePass_later later]

/-- A head past due behind which everything is later: the evaluation is the late rule's settlement. -/
theorem settleTable_late_alone {s : State} {e : Entry} {rest : List Entry} {now : Nat}
    (sound : s.sct.Sound) (split : s.sct.entries = e :: rest) (due : e.due < now)
    (later : ∀ x ∈ (s.settleLate e now).sct.entries, now < x.due) :
    s.settleTable now = s.settleLate e now := by
  rw [settleTable_late sound split due, settleTable_later later]

/-- A head past due behind which one entry is due now: the late rule settles the first and the other is
fired on time. -/
theorem settleTable_late_fires {s : State} {e x : Entry} {rest others : List Entry} {now : Nat}
    (sound : s.sct.Sound) (split : s.sct.entries = e :: rest) (due : e.due < now)
    (split' : (s.settleLate e now).sct.entries = x :: others) (due' : x.due = now)
    (later : ∀ y ∈ others, now < y.due) :
    s.settleTable now = (s.settleLate e now).fireOnTime x := by
  obtain ⟨sound', _⟩ := settleLate_settlesHead now s e rest sound split (by simpa using due)
  have from_now := due' ▸ sound'.head_due_le split'
  rw [settleTable_late sound split due, settleTable_from_now from_now,
    onTimePass_head split' (sound'.head_inRange split') due' later]

/-- START in CONFIG enters RUN, settles the table and answers OK (R36, R106). -/
theorem exec_start {s : State} {o : Origin} {now : Nat} (hs : s.commits = true)
    (config : s.stc.op = .config) (time : s.tbu.localTime = some now) :
    exec (.start o []) s =
      .next ((((s.leaveQueue o).setStc { s.stc with op := .run }).passEdges.settleTable now).deliver o
        okEmpty) := by
  have entered : (s.leaveQueue o).enterRun =
      ((s.leaveQueue o).setStc { s.stc with op := .run }).passEdges.settleTable now := by
    rw [State.enterRun, leaveQueue_stc]
    exact evaluate_eq (by simpa using time)
  have committed : commitStart o [] s = ((s.leaveQueue o).enterRun).deliver o okEmpty := by
    rw [commitStart, commitWith_judged hs rfl rfl, State.judged, if_pos (by rw [config]; decide)]
    rfl
  rw [← entered, ← committed]
  rfl

/-- Settles O35: each head is settled by its rule and the evaluation goes on behind it; START's is an
evaluation of the table with the part in RUN. -/
theorem lateRuleSettles : Obligations.LateRuleSettles := by
  refine ⟨fun s now sound time => ⟨evaluate_eq time, ?_, ?_, settleTable_later⟩, ?_⟩
  · intro e rest split due
    exact ⟨s.settleLate e now, settleLate_after s e now (sound.head_inRange split),
      settleTable_late sound split due⟩
  · intro e rest split due
    exact ⟨s.fireOnTime e, fireOnTime_after s e, settleTable_now sound split due⟩
  · intro s o e rest now hs config sound time split due
    refine ⟨_, settleLate_after _ e now (sound.head_inRange split), fun later => ?_,
      fun x others split' due' later => ⟨_, fireOnTime_after _ x, ?_⟩⟩
    · rw [exec_start hs config time,
        settleTable_late_alone (by simpa using sound) (by simpa using split) due later]
    · rw [exec_start hs config time,
        settleTable_late_fires (by simpa using sound) (by simpa using split) due split' due' later]

end Sys2Proof.Machine
end

section
/-! SUPPORT. What each action does to one channel and to one input (R28, R72 to R76, R91). -/

namespace Sys2Proof.Machine

/-- An action over a mask changes the channels that are named and enabled (R28). -/
theorem Out.onMask_named (x : Out) (mask : BitVec 16) (f : Channel → Channel) (n : Fin 16) :
    (x.onMask mask f).channels[n] =
      if mask.getLsbD n.val = true ∧ x.channels[n].enable = true then f x.channels[n]
      else x.channels[n] := by
  rw [Out.onMask_get]
  simp only [Bool.and_eq_true]

/-- A pulse starts, or the overlap is flagged and the policy decides which runs on (R73). -/
theorem Channel.firePulse_eq (width : Nat) (c : Channel) :
    c.firePulse width =
      match c.pulse with
      | none => { c with pulse := some width }
      | some left =>
        { c with pulse := some (if c.policy = .restart then width else left), overlap := true } := by
  obtain ⟨_, _, _, policy, _, pulse, _⟩ := c
  cases pulse with
  | none => rfl
  | some left => cases policy <;> rfl

/-- TOGGLE at a channel drives the other level (R76). -/
theorem Channel.toggleBase_eq (c : Channel) :
    c.toggleBase = { c with base := (if c.base = .low then .high else .low), pulse := none } := by
  unfold Channel.toggleBase
  cases c.base <;> rfl

/-- An input that is not WINDOWED takes no ARM_CAPTURE; a WINDOWED one opens its window, or runs it on for
the greater length (R91). -/
theorem Input.arm_eq (length : Nat) (i : Input) :
    i.arm length =
      if i.mode = .windowed then
        { i with window := some (match i.window with
            | none => length
            | some left => max left length) }
      else i := by
  unfold Input.arm
  cases hmode : i.mode with
  | windowed => cases i.window <;> simp
  | continuous => simp
  | off => simp

/-- ARM_CAPTURE changes the inputs that are named and WINDOWED (R28, R91). -/
theorem Cap.onMask_named (x : Cap) (mask : BitVec 4) (length : Nat) (k : Fin 4) :
    (x.onMask mask length).inputs[k] =
      if mask.getLsbD k.val = true ∧ x.inputs[k].mode = .windowed then
        { x.inputs[k] with window := some (match x.inputs[k].window with
            | none => length
            | some left => max left length) }
      else x.inputs[k] := by
  rw [Cap.onMask_get, Input.arm_eq, ite_and]

/-! ### The actions -/

theorem applyAction_setHigh (s : State) (mask : BitVec 16) :
    s.applyAction (.setHigh mask) = s.setOut (s.out.onMask mask (Channel.setBase .high)) := by
  rw [State.applyAction]

theorem applyAction_setLow (s : State) (mask : BitVec 16) :
    s.applyAction (.setLow mask) = s.setOut (s.out.onMask mask (Channel.setBase .low)) := by
  rw [State.applyAction]

theorem applyAction_toggle (s : State) (mask : BitVec 16) :
    s.applyAction (.toggle mask) = s.setOut (s.out.onMask mask Channel.toggleBase) := by
  rw [State.applyAction]

theorem applyAction_pulse (s : State) (width : Nat) (mask : BitVec 16) :
    s.applyAction (.pulse width mask) = s.setOut (s.out.onMask mask (Channel.firePulse width)) := by
  rw [State.applyAction]

theorem applyAction_armCapture (s : State) (length : Nat) (mask : BitVec 4) :
    s.applyAction (.armCapture length mask) = s.setCap (s.cap.onMask mask length) := by
  rw [State.applyAction]

theorem applyAction_noAction (s : State) : s.applyAction .noAction = s := by
  rw [State.applyAction]

/-- An action changes channels and inputs and nothing else (R28). -/
theorem applyAction_eq_set (s : State) (a : Action) :
    s.applyAction a = (s.setOut (s.applyAction a).out).setCap (s.applyAction a).cap := by
  cases a <;>
    simp only [State.applyAction, State.setOut_out, State.setOut_self, State.setCap_out,
      State.setCap_cap, State.setCap_self]

/-- Settles O36, action by action. -/
theorem actionsAtTargets : Obligations.ActionsAtTargets := by
  intro s w m c n k
  simp only [applyAction_setHigh, applyAction_setLow, applyAction_toggle, applyAction_pulse,
    applyAction_armCapture, applyAction_noAction, State.setOut_out, State.setOut_cap, State.setCap_cap,
    State.setCap_out, and_true, true_and]
  refine ⟨?_, ?_, ?_, ?_, ?_, applyAction_eq_set s⟩
  · exact Out.onMask_named s.out m (Channel.setBase .high) n
  · exact Out.onMask_named s.out m (Channel.setBase .low) n
  · rw [Out.onMask_named, Channel.toggleBase_eq]
  · have pulsed := Out.onMask_named s.out m (Channel.firePulse w) n
    rw [Channel.firePulse_eq] at pulsed
    exact pulsed
  · exact Cap.onMask_named s.cap c w k

end Sys2Proof.Machine
end

section
/-! SUPPORT. The commands of the timebase: its report at GET_TIME (R65), the change of mode and of the
settings (R59 to R63), and the shift of local time at SET_OFFSET with what it does to a pending sample
(R64, R194, R195). -/

namespace Sys2Proof.Machine

/-! ### GET_TIME (R65) -/

/-- The payload of GET_TIME, the two bytes of the last SYNC taken together (R65, R200). -/
theorem timePayload_eq (x : Tbu) :
    timePayload x =
      beBytes 8 (match x.localTime with
        | some t => t
        | none => 0) ++
      byteOf x.mode.code ++ byteOf x.state.code ++
      (match x.lastSequence with
        | some seq => [1, seq]
        | none => [0, 0]) ++
      beBytes 2 x.offset ++ byteOf x.holdoverCount := by
  have time : x.localTime.getD 0 = (match x.localTime with
      | some t => t
      | none => 0) := by
    cases x.localTime <;> rfl
  have last : byteOf (bit x.lastSequence.isSome) ++ [x.lastSequence.getD 0] =
      (match x.lastSequence with
        | some seq => [1, seq]
        | none => [0, 0]) := by
    cases x.lastSequence with
    | none => rfl
    | some seq => exact congrArg (· ++ [seq]) (by decide : byteOf 1 = [1])
  rw [← time, ← last, timePayload, ← List.append_assoc (_ ++ byteOf x.state.code)]

/-- Settles O18. -/
theorem getTimeReports : Obligations.GetTimeReports := by
  intro s o hs
  show Host.Outcome.next (commitWith .getTime o [] _ s) = _
  rw [commitWith_judged hs rfl rfl]
  show _ = Host.Outcome.next (s.judged o _ (s.answered o (okWith _)))
  rw [ownGetTime, reporting, leaveQueue_tbu, timePayload_eq]
  rfl

/-! ### SET_TIMEBASE (R59 to R62) -/

/-- The mode named by a known mode byte (R60). -/
def tbModeNamed (m : Byte) : TbMode :=
  if m = 1 then .selfTimed else .disciplined

theorem tbModeNamed_selfTimed_iff (m : Byte) : tbModeNamed m = .selfTimed ↔ m = 1 := by
  simp [tbModeNamed]

/-- The mode byte of SET_TIMEBASE: 0, 1, and nothing else (R60). -/
theorem tbModeOf_eq (m : Byte) :
    tbModeOf m = if 1 < m.toNat then none else some (tbModeNamed m) := by
  have one : m = 1 ↔ m.toNat = 1 := BitVec.toNat_inj.symm
  simp only [tbModeNamed, one]
  unfold tbModeOf
  split
  · simp [*]
  · simp [*]
  · rename_i zero one
    have zero : ¬ m.toNat = 0 := zero
    have one : ¬ m.toNat = 1 := one
    exact (if_pos (by omega)).symm

theorem argNat_setTimebase (m i1 i0 l1 l0 : Byte) :
    argNat [m, i1, i0, l1, l0] 1 2 = 256 * i1.toNat + i0.toNat ∧
      argNat [m, i1, i0, l1, l0] 3 2 = 256 * l1.toNat + l0.toNat :=
  ⟨argNat_pair i1 i0, argNat_pair l1 l0⟩

theorem Sct.requiresLock_iff (t : Sct) :
    t.requiresLock = true ↔ ∃ e ∈ t.entries, e.requireLock = true := by
  simp [Sct.requiresLock]

/-- TIMEBASE is raised where the timebase leaves LOCKED (R59). -/
theorem raiseTimebase_if_locked (u : State) (state : TbState) :
    (if state = .locked then u.raiseCondition .timebase else u) =
      u.setAtn
        { u.atn with
          flags := { u.atn.flags with timebase := u.atn.flags.timebase || state == .locked } } := by
  split
  · rename_i locked
    simp [locked, State.raiseCondition, Conditions.put]
  · rename_i unlocked
    rw [beq_eq_false_iff_ne.mpr unlocked, Bool.or_false]
    rfl

/-- The timebase after a change to the mode named (R61, R62). -/
theorem Tbu.inMode_named (x : Tbu) (m : Byte) :
    x.inMode (tbModeNamed m) =
      { x with
        mode := tbModeNamed m
        state := if x.state = .unset then .unset else if m = 1 then .free else .unlocked
        slew := none
        watch := none
        acquisitionCount := 0 } := by
  unfold tbModeNamed
  split <;> rfl

/-- A change to the mode named, and the settings: the timebase's record, and TIMEBASE on leaving LOCKED
(R59 to R62). -/
theorem changeMode_setSettings (s : State) (m : Byte) (interval limit : Nat)
    (changes : s.tbu.mode ≠ tbModeNamed m) :
    (s.changeMode (tbModeNamed m)).setSettings interval limit =
      { s with
        tbu :=
          { s.tbu with
            mode := tbModeNamed m
            state := if s.tbu.state = .unset then .unset else if m = 1 then .free else .unlocked
            slew := none
            watch := none
            acquisitionCount := 0
            syncInterval := interval
            holdoverLimit := limit }
        atn :=
          { s.atn with
            flags :=
              { s.atn.flags with timebase := s.atn.flags.timebase || s.tbu.state == .locked } } } := by
  rw [State.changeMode, if_neg changes]
  dsimp only
  rw [raiseTimebase_if_locked, Tbu.inMode_named]
  rfl

/-- Where the mode named is not the one in force, SELF-TIMED is refused while an entry requires lock (R61). -/
theorem lockForbids_iff (s : State) (m : Byte) (changes : s.tbu.mode ≠ tbModeNamed m) :
    s.tbu.mode = .disciplined ∧ tbModeNamed m = .selfTimed ∧ s.sct.requiresLock ↔
      m = 1 ∧ ∃ e ∈ s.sct.entries, e.requireLock = true := by
  rw [tbModeNamed_selfTimed_iff, Sct.requiresLock_iff]
  refine and_iff_right_of_imp ?_
  rintro ⟨one, -⟩
  rw [(tbModeNamed_selfTimed_iff m).mpr one] at changes
  cases hmode : s.tbu.mode with
  | disciplined => rfl
  | selfTimed => exact absurd hmode changes

/-- SET_TIMEBASE, case by case: bad values, the mode in force, the refusal IN_USE, the change of mode (R60
to R62; log 31). -/
theorem ownSetTimebase_eq (m i1 i0 l1 l0 : Byte) (s : State) :
    let interval := 256 * i1.toNat + i0.toNat
    let limit := 256 * l1.toNat + l0.toNat
    ownSetTimebase [m, i1, i0, l1, l0] s =
      if 1 < m.toNat ∨ interval = 0 ∨ 1000 < interval ∨ limit = 0 ∨ 255 < limit then
        refusing .badArgument s
      else if s.tbu.mode = tbModeNamed m then
        (s.setTbu { s.tbu with syncInterval := interval, holdoverLimit := limit }, okEmpty)
      else if m = 1 ∧ ∃ e ∈ s.sct.entries, e.requireLock = true then refusing .inUse s
      else ((s.changeMode (tbModeNamed m)).setSettings interval limit, okEmpty) := by
  unfold ownSetTimebase
  simp only [argNat_setTimebase m i1 i0 l1 l0]
  rw [show argByte [m, i1, i0, l1, l0] 0 = m from rfl, tbModeOf_eq]
  by_cases unknown : 1 < m.toNat
  · simp only [unknown, if_true, true_or]
  · simp only [unknown, if_false, false_or]
    split
    · rfl
    · by_cases stays : s.tbu.mode = tbModeNamed m
      · have free : ¬ (s.tbu.mode = .disciplined ∧ tbModeNamed m = .selfTimed ∧
            s.sct.requiresLock = true) := by
          rintro ⟨old, new, -⟩
          rw [stays, new] at old
          cases old
        rw [if_neg free, if_pos stays, acting, State.changeMode, if_pos stays]
        rfl
      · rw [if_neg stays, acting]
        exact if_congr (lockForbids_iff s m stays) rfl rfl

/-! ### SET_TIME (R63) -/

theorem ownSetTime_eq (t : Nat) (s : State) (ht : t < 2 ^ 63) :
    ownSetTime (beBytes 8 t) s =
      if s.tbu.mode = .disciplined then refusing .wrongState s
      else (s.setTbu { s.tbu with localTime := some t, state := .free, slew := none }, okEmpty) := by
  rw [ownSetTime, argNat_of_bytes rfl (lt_trans ht (by norm_num))]
  cases hmode : s.tbu.mode with
  | disciplined => rfl
  | selfTimed => rfl

theorem commonOk_setTime {t : Nat} (ht : t < 2 ^ 63) : Cmd.commonOk .setTime (beBytes 8 t) = true :=
  timeOk_of_argNat_lt (le_of_eq (beBytes_length 8 t).symm)
    (lt_of_eq_of_lt (argNat_of_bytes rfl (lt_trans ht (by norm_num))) ht)

/-- Settles O25: the owners case by case, under the judgement of R130. -/
theorem timebaseCommands : Obligations.TimebaseCommands := by
  refine ⟨?_, ?_⟩
  · intro s o m i1 i0 l1 l0 hs
    show Host.Outcome.next (commitWith .setTimebase o [m, i1, i0, l1, l0] _ s) = _
    rw [commitWith_judged hs rfl rfl, ownSetTimebase_eq, leaveQueue_tbu, leaveQueue_sct]
    dsimp only
    rw [← tbModeNamed]
    congr 2
    split
    · rfl
    · split
      · rfl
      · rename_i changes
        split
        · rfl
        · rw [changeMode_setSettings _ _ _ _ (by simpa using changes), leaveQueue_tbu, leaveQueue_atn]
  · intro s o t hs ht
    show Host.Outcome.next (commitWith .setTime o (beBytes 8 t) _ s) = _
    rw [commitWith_judged hs rfl (commonOk_setTime ht), ownSetTime_eq t _ ht, leaveQueue_tbu]
    congr 2
    split <;> rfl

/-! ### What a jump of local time does to a pending sample (R194) -/

theorem outcomeOf_eq (l : Level) : outcomeOf l = if l = .high then .high else .low := by
  cases l <;> rfl

/-- The sample taken: the level of CAP0 joins the log, which keeps the eight newest (R191, R194). -/
theorem takeSample_eq (s : State) (p : Sample) (log : s.aln.log.length ≤ 8) :
    s.takeSample p =
      { s with
        aln :=
          { pending := none
            log :=
              List.drop (s.aln.log.length + 1 - 8) (s.aln.log ++
                [{ seq := p.seq,
                   outcome := if (s.cap.inputs[0]).level = .high then .high else .low }])
            total := min 255 (s.aln.total + 1) }
        cap := s.cap.update 0 fun i => { i with sampled := true } } := by
  rw [State.takeSample, logOutcome_eq _ _ _ log, outcomeOf_eq]
  rfl

theorem jumpSample_idle {s : State} (t : Nat) (h : s.aln.pending = none) : s.jumpSample t = s := by
  rw [State.jumpSample, h]

section
variable {s : State} {p : Sample} {t : Nat} (pending : s.aln.pending = some p) (align : s.stc.op = .align)
include pending align

theorem jumpSample_before (early : t < p.time) : s.jumpSample t = s := by
  rw [State.jumpSample, pending]
  dsimp only
  rw [if_pos align, if_neg (by omega), if_neg (by omega)]

theorem jumpSample_onto (now : p.time = t) : s.jumpSample t = s.takeSample p := by
  rw [State.jumpSample, pending]
  dsimp only
  rw [if_pos align, if_pos now.symm]

theorem jumpSample_beyond (log : s.aln.log.length ≤ 8) (late : p.time < t) :
    s.jumpSample t = s.setAln
      { pending := none
        log := List.drop (s.aln.log.length + 1 - 8) (s.aln.log ++ [{ seq := p.seq, outcome := .tooLate }])
        total := min 255 (s.aln.total + 1) } := by
  rw [State.jumpSample, pending]
  dsimp only
  rw [if_pos align, if_neg (by omega), if_pos late, logOutcome_eq _ _ _ log]

end

/-! ### SET_OFFSET (R64, R194, R195) -/

theorem ownSetOffset_unset {s : State} (a b : Byte) (unset : s.tbu.localTime = none) :
    ownSetOffset [a, b] s =
      (s.setTbu { s.tbu with offset := 256 * a.toNat + b.toNat }, okEmpty) := by
  rw [ownSetOffset, argNat_pair, unset]
  rfl

/-- Another offset in force, and local time shifted to `now` by it (R64). -/
def State.shift (s : State) (new now : Nat) : State :=
  s.setTbu { s.tbu with offset := new, localTime := some now }

@[simp] theorem State.shift_aln (s : State) (new now : Nat) : (s.shift new now).aln = s.aln := rfl

@[simp] theorem State.shift_stc (s : State) (new now : Nat) : (s.shift new now).stc = s.stc := rfl

@[simp] theorem State.shift_cap (s : State) (new now : Nat) : (s.shift new now).cap = s.cap := rfl

section
variable {s : State} {a b : Byte} {t : Nat} (time : s.tbu.localTime = some t)
include time

/-- A shift that would take local time out of its range is refused (R64). -/
theorem ownSetOffset_outside
    (outside : t + (256 * a.toNat + b.toNat) < s.tbu.offset ∨
      2 ^ 63 ≤ t + (256 * a.toNat + b.toNat) - s.tbu.offset) :
    ownSetOffset [a, b] s = refusing .badArgument s := by
  rw [ownSetOffset, argNat_pair, time]
  refine if_pos ?_
  rw [show (Config.timeEnd : Int) = 2 ^ 63 from rfl]
  omega

/-- Any other shifts it, and a pending sample is judged where the shift is one (R64, R195; log 30). -/
theorem ownSetOffset_shifts
    (start : s.tbu.offset ≤ t + (256 * a.toNat + b.toNat))
    (bound : t + (256 * a.toNat + b.toNat) - s.tbu.offset < 2 ^ 63) :
    let new := 256 * a.toNat + b.toNat
    let now := t + new - s.tbu.offset
    ownSetOffset [a, b] s =
      (if new = s.tbu.offset then s.shift new now else (s.shift new now).jumpSample now, okEmpty) := by
  have landed : ((t : Int) + ((256 * a.toNat + b.toNat : Nat) : Int) - (s.tbu.offset : Int)).toNat =
      t + (256 * a.toNat + b.toNat) - s.tbu.offset := by omega
  have inside : ¬ ((t : Int) + ((256 * a.toNat + b.toNat : Nat) : Int) - (s.tbu.offset : Int) < 0 ∨
      (Config.timeEnd : Int) ≤
        (t : Int) + ((256 * a.toNat + b.toNat : Nat) : Int) - (s.tbu.offset : Int)) := by
    rw [show (Config.timeEnd : Int) = 2 ^ 63 from rfl]
    omega
  rw [ownSetOffset, argNat_pair, time]
  dsimp only
  rw [if_neg inside, acting, landed]
  rfl

/-- A sample pending ahead is judged in every case: naming the offset in force leaves it ahead (R195). -/
theorem ownSetOffset_judges {p : Sample} (pending : s.aln.pending = some p) (align : s.stc.op = .align)
    (ahead : t < p.time) (start : s.tbu.offset ≤ t + (256 * a.toNat + b.toNat))
    (bound : t + (256 * a.toNat + b.toNat) - s.tbu.offset < 2 ^ 63) :
    let new := 256 * a.toNat + b.toNat
    let now := t + new - s.tbu.offset
    ownSetOffset [a, b] s = ((s.shift new now).jumpSample now, okEmpty) := by
  intro new now
  refine (ownSetOffset_shifts time start bound).trans (congrArg (·, okEmpty) ?_)
  refine ite_eq_right_iff.mpr fun same => ?_
  exact (jumpSample_before (s := s.shift new now) pending align (by omega)).symm

end

/-- Settles O26: with no sample pending a shift moves local time alone; with one pending ahead, naming the
offset in force leaves it ahead, and any other shift judges it. -/
theorem setOffsetShifts : Obligations.SetOffsetShifts := by
  refine ⟨?_, ?_⟩
  · intro s o a b hs idle
    show Host.Outcome.next (commitWith .setOffset o [a, b] _ s) = _
    rw [commitWith_judged hs rfl rfl]
    dsimp only
    congr 2
    split
    · rename_i time
      rw [← leaveQueue_tbu s o] at time
      rw [ownSetOffset_unset a b time, leaveQueue_tbu]
    · rename_i t time
      rw [← leaveQueue_tbu s o] at time
      split
      · rename_i outside
        rw [ownSetOffset_outside time (by rwa [leaveQueue_tbu])]
        rfl
      · rename_i inside
        rw [not_or, not_lt, not_le, ← leaveQueue_tbu s o] at inside
        rw [ownSetOffset_shifts time inside.1 inside.2, jumpSample_idle _ (by simpa using idle),
          ite_self, State.shift, leaveQueue_tbu]
  · intro s o a b t p u hs align time pending ahead log new now start bound run
    rw [← leaveQueue_tbu s o] at time start
    have judges := ownSetOffset_judges (a := a) (b := b) time (by simpa using pending) (by simpa using align)
      ahead start (by rw [leaveQueue_tbu]; exact bound)
    rw [leaveQueue_tbu] at judges
    have commit : exec (.setOffset o [a, b]) s = .next (commitWith .setOffset o [a, b] _ s) := rfl
    rw [run, commitWith_judged hs rfl rfl, judges, State.judged, if_pos (by rw [align]; decide)] at commit
    have left : u = (((s.leaveQueue o).shift new now).jumpSample now).deliver o okEmpty :=
      Host.Outcome.next.inj commit
    have waiting : ((s.leaveQueue o).shift new now).aln.pending = some p := by simpa using pending
    have aligned : ((s.leaveQueue o).shift new now).stc.op = .align := by simpa using align
    have room : ((s.leaveQueue o).shift new now).aln.log.length ≤ 8 := by simpa using log
    rw [left, deliver_tbu, jumpSample_tbu, deliver_aln]
    refine ⟨rfl, rfl, fun early => ?_, fun onto => ?_, fun late => ?_⟩
    · rw [jumpSample_before waiting aligned early, State.shift_aln, leaveQueue_aln]
    · rw [jumpSample_onto waiting aligned onto.symm, takeSample_eq _ _ room, State.shift_aln,
        State.shift_cap, leaveQueue_aln, leaveQueue_cap]
    · rw [jumpSample_beyond waiting aligned room late, State.setAln_aln, State.shift_aln, leaveQueue_aln]

end Sys2Proof.Machine
end

section
/-! SUPPORT. The ends of durations: the sync watch (R55 to R57), slews, pulses, windows and dead times (R53,
R74, R89, R92), and the sample that local time reaches (R194). -/

namespace Sys2Proof.Machine

/-! ### The sync watch (R55 to R57) -/

theorem Tbu.watchOver_iff (x : Tbu) : x.watchOver = true ↔ ∃ w, x.watch = some w ∧ w.left = 0 := by
  unfold Tbu.watchOver Watch.over
  cases x.watch <;> simp

/-- A watch that is idle or still runs has not reached its deadline. -/
theorem Tbu.watchOver_of_running {x : Tbu}
    (h : x.watch = none ∨ ∃ w, x.watch = some w ∧ 0 < w.left) : x.watchOver = false := by
  rw [← Bool.not_eq_true, Tbu.watchOver_iff]
  rintro ⟨w, watch, atEnd⟩
  obtain idle | ⟨v, running, left⟩ := h
  · rw [watch] at idle
    cases idle
  · rw [watch] at running
    cases running
    omega

theorem Tbu.intervalTicks_eq (x : Tbu) : x.intervalTicks = x.syncInterval * 100000 := rfl

theorem Watch.start_one (interval : Nat) :
    Watch.start interval 1 = { interval := interval, left := interval } := by
  rw [Watch.start, Nat.one_mul]

theorem expireLocked_over {s : State} {w : Watch} (watch : s.tbu.watch = some w) (atEnd : w.left = 0) :
    s.expireLocked =
      if s.tbu.state = .locked then
        { s with
          tbu :=
            { s.tbu with
              state := .holdover, holdoverCount := 0
              watch := some { interval := w.interval, left := w.interval } }
          atn := { s.atn with flags := { s.atn.flags with timebase := true } } }
      else s := by
  have due : s.tbu.watchOver = true := (Tbu.watchOver_iff _).mpr ⟨w, watch, atEnd⟩
  rw [State.expireLocked, Tbu.continueWatch, due]
  simp only [and_true, watch, Option.map_some, Watch.start_one]
  rfl

theorem expireHoldover_over {s : State} (due : s.tbu.watchOver = true) :
    s.expireHoldover =
      if s.tbu.state = .holdover then
        if s.tbu.holdoverLimit ≤ min 255 (s.tbu.holdoverCount + 1) then
          { s with
            tbu :=
              { s.tbu with
                state := .unlocked, holdoverCount := min 255 (s.tbu.holdoverCount + 1), watch := none }
            atn := { s.atn with flags := { s.atn.flags with timebase := true } } }
        else
          s.setTbu
            { s.tbu with
              holdoverCount := min 255 (s.tbu.holdoverCount + 1)
              watch := some { interval := s.tbu.syncInterval * 100000,
                              left := s.tbu.syncInterval * 100000 } }
      else s := by
  rw [State.expireHoldover, due]
  simp only [and_true, Watch.start_one, Tbu.intervalTicks_eq]
  rfl

theorem expireAcquiring_over {s : State} (due : s.tbu.watchOver = true) :
    s.expireAcquiring =
      if s.tbu.state = .acquiring then
        s.setTbu { s.tbu with state := .unlocked, acquisitionCount := 0, watch := none }
      else s := by
  rw [State.expireAcquiring, due]
  simp only [and_true]

/-- Settles O39: the three rows at a watch that runs, and at one that has reached its deadline. -/
theorem syncWatchExpires : Obligations.SyncWatchExpires := by
  intro s interval count raised
  refine ⟨fun running => ?_, fun w watch atEnd => ?_⟩
  · have early := Tbu.watchOver_of_running running
    have notDue : ∀ state : TbState, ¬ (s.tbu.state = state ∧ s.tbu.watchOver = true) := by
      simp [early]
    exact ⟨congrArg _ (if_neg (notDue _)), congrArg _ (if_neg (notDue _)),
      congrArg _ (if_neg (notDue _))⟩
  · have due : s.tbu.watchOver = true := (Tbu.watchOver_iff _).mpr ⟨w, watch, atEnd⟩
    exact ⟨congrArg _ (expireLocked_over watch atEnd), congrArg _ (expireHoldover_over due),
      congrArg _ (expireAcquiring_over due)⟩

/-! ### Slews, pulses, windows and dead times (R53, R74, R89, R92) -/

theorem ranOut_iff (d : Option Nat) : ranOut d = true ↔ d = some 0 := beq_iff_eq

/-- The sample that local time has reached in ALIGN is taken, and no other (R194; log 4). -/
theorem reachSample_eq {s : State} {p : Sample} (pending : s.aln.pending = some p) :
    s.reachSample = if s.stc.op = .align ∧ s.reached p.time then s.takeSample p else s := by
  rw [State.reachSample, pending]

/-- Settles O40: each end of a duration is its row's one test, and the sample is taken as at a jump onto it. -/
theorem durationsEndAndSamplesAreTaken : Obligations.DurationsEndAndSamplesAreTaken := by
  refine ⟨fun s n k => ⟨?_, ?_, ?_, ?_⟩, fun s p pending log => ⟨fun align reached => ?_, fun early => ?_⟩⟩
  · show Host.Outcome.next s.endSlew = _
    rw [State.endSlew]
    cases s.tbu.slew with
    | none => rfl
    | some w => exact congrArg _ (if_congr beq_iff_eq rfl rfl)
  · exact congrArg _ (if_congr (ranOut_iff _) rfl rfl)
  · exact congrArg _ (if_congr (ranOut_iff _) rfl rfl)
  · exact congrArg _ (if_congr (ranOut_iff _) rfl rfl)
  · show Host.Outcome.next s.reachSample = _
    rw [reachSample_eq pending, if_pos ⟨align, reached⟩, takeSample_eq s p log]
  · show Host.Outcome.next s.reachSample = _
    rw [reachSample_eq pending, if_neg]
    rintro ⟨align, reached⟩
    exact early.elim (· align) (by simp [reached])

end Sys2Proof.Machine
end

section
/-! SUPPORT. A SYNC at its end (R48 to R54): which one TBU processes, what its judgement leaves of the
timebase and of the part, and its counting where no command commits. -/

namespace Sys2Proof.Machine

/-! ### A SYNC heard where no command commits (R127, R144) -/

theorem accepting_of_mem {op : OpState} (h : op ∈ acceptingStates) : op.accepting = true := by
  revert h
  cases op <;> decide

/-- A change of the part that leaves the staging queue, and the counting behind it (R127, R132). -/
theorem countAndCommit_behind {s u : State} (waits : s.Waits) (cin : u.cin = s.cin) :
    u.countAndCommit = u.setCin s.counted.cin := by
  have waiting : u.Waits := fun c hc => waits c (cin ▸ hc)
  rw [countAndCommit_waiting u waiting, cin]
  rfl

/-- A SYNC frame heard from its start delimiter on, in an accepting state, at whose end no command commits. -/
structure State.HearsSync (s : State) (h : Heard) (f : Frame) : Prop where
  hears : s.Hears h
  frame : h.frame? = some f
  kind : f.kind = 0x03#8
  accepts : s.stc.op ∈ acceptingStates
  waits : s.Waits

section
variable {s : State} {h : Heard} {f : Frame} (sync : s.HearsSync h f)
include sync

theorem exec_sync_heard (order : TakenFirst) :
    exec (.sync h order) s = .next (s.heard.endSync order h.since f) := by
  show (if h.isKind 0x03#8 then Host.Outcome.next (s.hear h (State.endSync order h.since)) else _) = _
  rw [if_pos (isKind_of sync.frame sync.kind), hear_intact sync.hears sync.frame]

theorem exec_sync_commits :
    exec (.sync h .commits) s = .next (s.counted.handleSync f h.since) := by
  rw [exec_sync_heard sync, ← countAndCommit_waits s sync.waits]
  exact congrArg _ (if_pos (accepting_of_mem sync.accepts))

theorem exec_sync_handling :
    exec (.sync h .handling) s = .next ((s.heard.handleSync f h.since).setCin s.counted.cin) := by
  rw [exec_sync_heard sync, ← countAndCommit_behind sync.waits (handleSync_cin s.heard f h.since)]
  exact congrArg _ (if_pos (accepting_of_mem sync.accepts))

/-- Where handling and counting do not meet, their order does not show (R132). -/
theorem exec_sync_either (order : TakenFirst) {t : State} (counted : s.counted.handleSync f h.since = t)
    (heard : (s.heard.handleSync f h.since).setCin s.counted.cin = t) :
    exec (.sync h order) s = .next t := by
  cases order with
  | commits => rw [exec_sync_commits sync, counted]
  | handling => rw [exec_sync_handling sync, heard]

/-- A SYNC that changes TBU's record alone. -/
theorem exec_sync_setTbu (order : TakenFirst) {x : Tbu}
    (handled : ∀ u : State, u.tbu = s.tbu → u.stc = s.stc → u.handleSync f h.since = u.setTbu x) :
    exec (.sync h order) s = .next (s.counted.setTbu x) := by
  refine exec_sync_either sync order (handled _ rfl rfl) ?_
  rw [handled s.heard rfl rfl]
  rfl

end

/-! ### Which SYNC is processed (R48) -/

/-- What R48 asks of a SYNC that TBU processes. -/
structure State.Processes (s : State) (f : Frame) : Prop where
  mode : s.tbu.mode = .disciplined
  broadcast : f.dest = 0
  length : f.payload.length = 8
  time : beNat f.payload < 2 ^ 63
  target : beNat f.payload + s.tbu.offset < 2 ^ 63

theorem State.Processes.of_tbu {s u : State} {f : Frame} (h : s.Processes f) (tbu : u.tbu = s.tbu) :
    u.Processes f :=
  ⟨tbu ▸ h.mode, h.broadcast, h.length, h.time, tbu ▸ h.target⟩

theorem takeSync_eq (s : State) (f : Frame) (since : Nat) :
    s.takeSync f since =
      if s.tbu.mode = .disciplined ∧ f.payload.length = 8 ∧ beNat f.payload < 2 ^ 63 ∧
          beNat f.payload + s.tbu.offset < 2 ^ 63 then
        s.processSync (beNat f.payload) f.seq since
      else s := rfl

theorem handleSync_processed {s : State} {f : Frame} (since : Nat) (accepts : s.stc.op.accepting = true)
    (h : s.Processes f) : s.handleSync f since = s.processSync (beNat f.payload) f.seq since := by
  rw [State.handleSync, if_pos ⟨accepts, h.broadcast⟩, takeSync_eq,
    if_pos ⟨h.mode, h.length, h.time, h.target⟩]

theorem handleSync_ignored {s : State} {f : Frame} (since : Nat) (h : ¬ s.Processes f) :
    s.handleSync f since = s := by
  rw [State.handleSync]
  split
  · rename_i broadcast
    rw [takeSync_eq, if_neg]
    rintro ⟨mode, length, time, target⟩
    exact h ⟨mode, broadcast.2, length, time, target⟩
  · rfl

theorem not_processes {s : State} {f : Frame}
    (h : s.tbu.mode = .selfTimed ∨ f.dest ≠ 0 ∨ f.payload.length ≠ 8 ∨ 2 ^ 63 ≤ beNat f.payload ∨
      2 ^ 63 ≤ beNat f.payload + s.tbu.offset) : ¬ s.Processes f := by
  intro p
  obtain mode | dest | length | time | target := h
  · rw [p.mode] at mode
    cases mode
  · exact dest p.broadcast
  · exact length p.length
  · exact absurd p.time (not_lt.mpr time)
  · exact absurd p.target (not_lt.mpr target)

/-! ### What the judgement leaves (R49 to R54) -/

/-- The timebase's record once a SYNC has set or stepped local time: ACQUIRING with count 1, its watch
started (R49, R54, R57). -/
def Tbu.landed (x : Tbu) (now : Nat) (seq : Byte) (since : Nat) : Tbu :=
  { x with
    localTime := some now
    state := .acquiring
    acquisitionCount := 1
    lastSequence := some seq
    sinceArrival := some since
    slew := none
    watch := some { interval := x.syncInterval * 100000, left := 2 * (x.syncInterval * 100000) } }

theorem Tbu.acquire_noteSync (x : Tbu) (now : Nat) (seq : Byte) (since : Nat) :
    ({ x.noteSync seq since with localTime := some now }).acquire 1 = x.landed now seq since := rfl

theorem processSync_unset {s : State} {time : Nat} (seq : Byte) {since : Nat}
    (unset : s.tbu.localTime = none) (bound : time + s.tbu.offset + since < 2 ^ 63) :
    s.processSync time seq since = s.setTbu (s.tbu.landed (time + s.tbu.offset + since) seq since) := by
  rw [State.processSync, unset]
  dsimp only
  rw [landTime_of_lt bound, Tbu.acquire_noteSync]

/-- Settles O48: TBU's record alone changes while UNSET, and nothing where the SYNC is ignored. -/
theorem syncSetsOrIsIgnored : Obligations.SyncSetsOrIsIgnored := by
  intro s h f order hears frame kind accepts waits
  have sync : s.HearsSync h f := ⟨hears, frame, kind, accepts, waits⟩
  refine ⟨fun mode unset broadcast length time bound => ?_, fun ignored => ?_⟩
  · have processes : s.Processes f := ⟨mode, broadcast, length, time, by omega⟩
    refine exec_sync_setTbu sync order fun u tbu stc => ?_
    rw [handleSync_processed _ (stc ▸ accepting_of_mem accepts) (processes.of_tbu tbu),
      processSync_unset _ (tbu ▸ unset) (tbu ▸ bound), tbu]
    rfl
  · refine exec_sync_either sync order
      (handleSync_ignored _ (not_processes ignored)) ?_
    rw [handleSync_ignored _ (not_processes (s := s.heard) ignored)]
    rfl

/-! ### The slew (R50 to R53) -/

theorem syncError_cast {time offset now since : Nat} {e : Int}
    (error : e = ((time : Int) + offset) - ((now : Int) - since)) :
    ((time + offset : Nat) : Int) - ((now : Int) - since) = e := by
  rw [error, Nat.cast_add]

section
variable {s : State} {now time since : Nat} {e : Int} (running : s.tbu.localTime = some now)
  (error : e = ((time : Int) + s.tbu.offset) - ((now : Int) - since))
include running error

theorem processSync_slews (seq : Byte) {state : TbState} {count : Nat}
    (judged : s.tbu.judge e.natAbs = .slewTo state count) :
    s.processSync time seq since = s.setTbu
      { s.tbu with
        rate := s.tbu.learnedRate e since
        slew := some { amount := e, interval := s.tbu.syncInterval * 100000,
                       left := s.tbu.syncInterval * 100000 }
        state := state
        acquisitionCount := count
        lastSequence := some seq
        sinceArrival := some since
        watch := some { interval := s.tbu.syncInterval * 100000,
                        left := 2 * (s.tbu.syncInterval * 100000) } } := by
  rw [State.processSync, running]
  dsimp only
  rw [syncError_cast error, judged]
  rfl

theorem processSync_steps (seq : Byte) (bound : time + s.tbu.offset + since < 2 ^ 63)
    (judged : s.tbu.judge e.natAbs = .step) :
    s.processSync time seq since =
      s.stepTo (time + s.tbu.offset + since) e (s.tbu.noteSync seq since) := by
  rw [State.processSync, running]
  dsimp only
  rw [syncError_cast error, judged, landTime_of_lt bound]

end

/-- The state that a slew leaves (R50 to R52). -/
def Tbu.slewedState (x : Tbu) : TbState :=
  if x.state = .unlocked ∨ (x.state = .acquiring ∧ x.acquisitionCount + 1 < 4) then .acquiring
  else .locked

/-- The count that a slew leaves (R50 to R52; log 25). -/
def Tbu.slewedCount (x : Tbu) : Nat :=
  if x.state = .unlocked then 1
  else if x.state = .acquiring then (if x.acquisitionCount + 1 < 4 then x.acquisitionCount + 1 else 4)
  else x.acquisitionCount

/-- Within the window of the state an error is slewed away (R50 to R52). -/
theorem Tbu.judge_within {x : Tbu} {e : Int}
    (h : (x.state = .acquiring ∧ -16 ≤ e ∧ e ≤ 16) ∨ (x.state = .unlocked ∧ -16 ≤ e ∧ e ≤ 16) ∨
      (x.state = .locked ∧ -256 ≤ e ∧ e ≤ 256) ∨ (x.state = .holdover ∧ -256 ≤ e ∧ e ≤ 256)) :
    x.judge e.natAbs = .slewTo x.slewedState x.slewedCount := by
  unfold Tbu.judge Tbu.slewedState Tbu.slewedCount Config.lockWindow Config.slewLimit Config.lockCount
  obtain ⟨state, small⟩ | ⟨state, small⟩ | ⟨state, small⟩ | ⟨state, small⟩ := h
  · have within : e.natAbs ≤ 16 := by omega
    by_cases more : x.acquisitionCount + 1 < 4 <;> simp [state, within, more]
  · have within : e.natAbs ≤ 16 := by omega
    simp [state, within]
  · have within : e.natAbs ≤ 256 := by omega
    simp [state, within]
  · have within : e.natAbs ≤ 256 := by omega
    simp [state, within]

/-- Beyond it local time steps (R50 to R52). -/
theorem Tbu.judge_beyond {x : Tbu} {e : Int}
    (h : ((x.state = .acquiring ∨ x.state = .unlocked) ∧ (e < -16 ∨ 16 < e)) ∨
      ((x.state = .locked ∨ x.state = .holdover) ∧ (e < -256 ∨ 256 < e))) :
    x.judge e.natAbs = .step := by
  unfold Tbu.judge Config.lockWindow Config.slewLimit
  obtain ⟨state | state, large⟩ | ⟨state | state, large⟩ := h
  · have beyond : ¬ e.natAbs ≤ 16 := by omega
    simp [state, beyond]
  · have beyond : ¬ e.natAbs ≤ 16 := by omega
    simp [state, beyond]
  · have beyond : ¬ e.natAbs ≤ 256 := by omega
    simp [state, beyond]
  · have beyond : ¬ e.natAbs ≤ 256 := by omega
    simp [state, beyond]

/-- Without an earlier SYNC the rate correction stays; over a positive span it moves by the error's share,
within its bound (R47; logs 13 and 14). -/
theorem Tbu.learnedRate_span (x : Tbu) (e : Int) (since : Nat) :
    match x.sinceArrival with
    | none => x.learnedRate e since = x.rate
    | some n => since < n →
        x.learnedRate e since = max (-200000) (min 200000
          (x.rate + (e * 1000000000).tdiv ((n : Int) - since))) := by
  unfold Tbu.learnedRate
  cases x.sinceArrival with
  | none => rfl
  | some n =>
    intro span
    have positive : (0 : Int) < (n : Int) - since := by omega
    dsimp only
    rw [rateChange, if_pos positive]
    rfl

/-- Settles O49: the judgement within the window is a slew, which changes TBU's record alone. -/
theorem syncSlews : Obligations.SyncSlews := by
  intro s h f order now e hears frame kind accepts waits mode running broadcast length time target error
    agrees slewable within
  have sync : s.HearsSync h f := ⟨hears, frame, kind, accepts, waits⟩
  refine ⟨s.tbu.learnedRate e h.since, Tbu.learnedRate_span s.tbu e h.since, ?_⟩
  have processes : s.Processes f := ⟨mode, broadcast, length, time, target⟩
  refine exec_sync_setTbu sync order fun u tbu stc => ?_
  rw [handleSync_processed _ (stc ▸ accepting_of_mem accepts) (processes.of_tbu tbu),
    processSync_slews (tbu ▸ running) (tbu ▸ error) _ (tbu ▸ Tbu.judge_within within), tbu]
  rfl

/-! ### The step (R54) -/

/-- The part once a SYNC has set or stepped local time to `now`, TIMEBASE raised where it leaves LOCKED
(R54, R59), before the sample and dispatch answer. -/
def State.landed (s : State) (now : Nat) (seq : Byte) (since : Nat) : State :=
  { s with
    tbu := s.tbu.landed now seq since
    atn :=
      { s.atn with
        flags := { s.atn.flags with timebase := s.atn.flags.timebase || s.tbu.state == .locked } } }

/-- A step: the sample is judged where it lands, and forward in RUN dispatch evaluates (R37, R39, R54, R194;
log 17). -/
theorem stepTo_eq (s : State) (now : Nat) (e : Int) (seq : Byte) (since : Nat) :
    s.stepTo now e (s.tbu.noteSync seq since) =
      if 0 < e ∧ s.stc.op = .run then ((s.landed now seq since).jumpSample now).evaluate
      else (s.landed now seq since).jumpSample now := by
  rw [State.stepTo, raiseTimebase_if_locked, jumpSample_stc]
  rfl

/-- The judgement of a sample does not meet the staging queue. -/
theorem jumpSample_setCin (s : State) (x : Cin) (t : Nat) :
    (s.setCin x).jumpSample t = (s.jumpSample t).setCin x := by
  cases pending : s.aln.pending with
  | none => rw [jumpSample_idle t pending, jumpSample_idle (s := s.setCin x) t pending]
  | some p =>
    unfold State.jumpSample
    rw [State.setCin_aln, pending]
    dsimp only
    rw [State.setCin_stc]
    repeat' split
    all_goals rfl

/-- A processed SYNC of error `e` beyond the window of the state, at local time `now` (R50 to R52). -/
structure State.Steps (s : State) (f : Frame) (since now : Nat) (e : Int) : Prop where
  processes : s.Processes f
  running : s.tbu.localTime = some now
  bound : beNat f.payload + s.tbu.offset + since < 2 ^ 63
  error : e = (beNat f.payload + s.tbu.offset : Int) - ((now : Int) - since)
  beyond : ((s.tbu.state = .acquiring ∨ s.tbu.state = .unlocked) ∧ (e < -16 ∨ 16 < e)) ∨
    ((s.tbu.state = .locked ∨ s.tbu.state = .holdover) ∧ (e < -256 ∨ 256 < e))

theorem State.Steps.of_tbu {s u : State} {f : Frame} {since now : Nat} {e : Int}
    (h : s.Steps f since now e) (tbu : u.tbu = s.tbu) : u.Steps f since now e :=
  ⟨h.processes.of_tbu tbu, tbu ▸ h.running, tbu ▸ h.bound, tbu ▸ h.error, tbu ▸ h.beyond⟩

/-- The handling of a SYNC that steps local time by its error. -/
theorem handleSync_steps {s : State} {f : Frame} {since now : Nat} {e : Int}
    (accepts : s.stc.op.accepting = true) (h : s.Steps f since now e) :
    s.handleSync f since =
      if 0 < e ∧ s.stc.op = .run then
        ((s.landed (now + e).toNat f.seq since).jumpSample (now + e).toNat).evaluate
      else (s.landed (now + e).toNat f.seq since).jumpSample (now + e).toNat := by
  have lands : (now + e).toNat = beNat f.payload + s.tbu.offset + since := by
    have error := h.error
    omega
  rw [handleSync_processed _ accepts h.processes,
    processSync_steps h.running h.error _ h.bound (Tbu.judge_beyond h.beyond), stepTo_eq, lands]

section
variable {s : State} {h : Heard} {f : Frame} {now : Nat} {e : Int} (sync : s.HearsSync h f)
  (steps : s.Steps f h.since now e)
include sync steps

/-- A step that is no evaluation, in either order of handling and counting. -/
theorem exec_sync_steps (order : TakenFirst) (quiet : ¬ (0 < e ∧ s.stc.op = .run)) :
    exec (.sync h order) s = .next
      ((s.counted.landed (now + e).toNat f.seq h.since).jumpSample (now + e).toNat) := by
  have accepts := accepting_of_mem sync.accepts
  refine exec_sync_either sync order
    ((handleSync_steps (s := s.counted) accepts (steps.of_tbu rfl)).trans (if_neg quiet)) ?_
  rw [(handleSync_steps (s := s.heard) accepts (steps.of_tbu rfl)).trans (if_neg quiet),
    ← jumpSample_setCin]
  rfl

/-- A forward step in RUN is an evaluation, behind the counting or before it (R37, R39, R132). -/
theorem exec_sync_evaluates (forward : 0 < e) (run : s.stc.op = .run) :
    exec (.sync h .commits) s = .next
      ((s.counted.landed (now + e).toNat f.seq h.since).jumpSample (now + e).toNat).evaluate ∧
    exec (.sync h .handling) s = .next
      (((s.heard.landed (now + e).toNat f.seq h.since).jumpSample (now + e).toNat).evaluate.setCin
        s.counted.cin) := by
  have accepts := accepting_of_mem sync.accepts
  have evaluates : 0 < e ∧ s.stc.op = .run := ⟨forward, run⟩
  rw [exec_sync_commits sync, exec_sync_handling sync,
    (handleSync_steps (s := s.counted) accepts (steps.of_tbu rfl)).trans (if_pos evaluates),
    (handleSync_steps (s := s.heard) accepts (steps.of_tbu rfl)).trans (if_pos evaluates)]
  exact ⟨rfl, rfl⟩

end

/-- Settles O50: where the step is no evaluation, by where it lands among no sample, one still ahead, one
passed and one met; else the evaluation in its two orders. -/
theorem syncSteps : Obligations.SyncSteps := by
  intro s h f order now e hears frame kind accepts waits mode running broadcast length time bound error
    beyond landed stepped
  have sync : s.HearsSync h f := ⟨hears, frame, kind, accepts, waits⟩
  have steps : s.Steps f h.since now e :=
    ⟨⟨mode, broadcast, length, time, by omega⟩, running, bound, error, beyond⟩
  refine ⟨fun idle still => ?_, fun idle run forward => ?_, fun p pending align log => ?_⟩
  · rw [exec_sync_steps sync steps order
      (by rintro ⟨forward, run⟩; exact still.elim (· run) (by omega))]
    exact congrArg _ (jumpSample_idle _ idle)
  · obtain ⟨commits, handling⟩ := exec_sync_evaluates sync steps forward run
    rw [commits, handling, jumpSample_idle (s := s.counted.landed _ _ _) _ idle,
      jumpSample_idle (s := s.heard.landed _ _ _) _ idle]
    exact ⟨rfl, rfl⟩
  · rw [exec_sync_steps sync steps order (by simp [align])]
    refine ⟨fun ahead => congrArg _ ?_, fun passed => congrArg _ ?_, fun met => congrArg _ ?_⟩
    · exact jumpSample_before (s := s.counted.landed _ _ _) pending align ahead
    · exact jumpSample_beyond (s := s.counted.landed _ _ _) pending align log passed
    · rw [jumpSample_onto (s := s.counted.landed _ _ _) pending align met]
      exact takeSample_eq _ p log

end Sys2Proof.Machine
end

section
/-! SUPPORT. The part's own clock (logs 5, 6 and 7): which rows are due at an instant, which of them a step on
an empty queue takes, and what one oscillator tick changes (R47, R53). -/

namespace Sys2Proof.Machine

/-! ### The rows that are due -/

theorem mem_dueIf {b : Bool} {i j : Instr} : i ∈ dueIf b j ↔ b = true ∧ i = j := by
  cases b <;> simp [dueIf]

theorem mem_dueWatch {s : State} {i : Instr} :
    i ∈ s.dueWatch ↔
      ((s.tbu.state = .locked ∧ s.tbu.watchOver = true) ∧ i = .syncWatchLockedExpiry) ∨
      ((s.tbu.state = .holdover ∧ s.tbu.watchOver = true) ∧ i = .syncWatchHoldoverExpiry) ∨
      ((s.tbu.state = .acquiring ∧ s.tbu.watchOver = true) ∧ i = .syncWatchAcquiringExpiry) := by
  unfold State.dueWatch
  split
  · rename_i due
    cases s.tbu.state <;> simp [due]
  · rename_i early
    simp [early]

theorem reached_iff (s : State) (t : Nat) :
    s.reached t = true ↔ ∃ now, s.tbu.localTime = some now ∧ t ≤ now := by
  unfold State.reached
  cases s.tbu.localTime <;> simp

theorem headDue_iff (s : State) :
    s.headDue = true ↔ s.stc.op = .run ∧ ∃ e now, s.sct.entries.head? = some e ∧
      s.tbu.localTime = some now ∧ e.due ≤ now := by
  unfold State.headDue
  cases s.sct.entries <;> simp [reached_iff]

theorem sampleDue_iff (s : State) :
    s.sampleDue = true ↔ s.stc.op = .align ∧ ∃ p now, s.aln.pending = some p ∧
      s.tbu.localTime = some now ∧ p.time ≤ now := by
  unfold State.sampleDue
  cases s.aln.pending <;> simp [reached_iff]

theorem transmitDue_iff (s : State) :
    s.transmitDue = true ↔ ∃ reply age draw, s.lnk.transmitter = .waiting reply age draw ∧ 400 ≤ age ∧
      (age = 1200 ∨ 400 + Config.replyDelay draw % 801 = age) := by
  unfold State.transmitDue
  cases s.lnk.transmitter with
  | waiting reply age draw =>
    refine decide_eq_true_iff.trans ⟨fun due => ⟨reply, age, draw, rfl, due⟩, ?_⟩
    rintro ⟨_, _, _, ⟨⟩, due⟩
    exact due
  | idle => simp
  | sending reply => simp

theorem slewDue_iff (s : State) : s.slewDue = true ↔ ∃ w, s.tbu.slew = some w ∧ w.left = 0 := by
  unfold State.slewDue Slew.over
  cases s.tbu.slew <;> simp

/-- The moment of each row that the part's own durations and local time bring (R26, R53, R55 to R57, R74,
R89, R92, R118, R133, R152, R177, R194). -/
def State.Due (s : State) (i : Instr) : Prop :=
  match i with
  | .quiesceEnd => s.imn.quiesce = some 0
  | .stagingExpiry => s.cin.expiry = some 0
  | .syncWatchLockedExpiry => s.tbu.state = .locked ∧ ∃ w, s.tbu.watch = some w ∧ w.left = 0
  | .syncWatchHoldoverExpiry => s.tbu.state = .holdover ∧ ∃ w, s.tbu.watch = some w ∧ w.left = 0
  | .syncWatchAcquiringExpiry => s.tbu.state = .acquiring ∧ ∃ w, s.tbu.watch = some w ∧ w.left = 0
  | .slewEnd => ∃ w, s.tbu.slew = some w ∧ w.left = 0
  | .wakeDelayEnd => s.stc.op = .waking ∧ s.stc.wakeDelay = some 0
  | .headReached => s.stc.op = .run ∧ ∃ e now, s.sct.entries.head? = some e ∧
      s.tbu.localTime = some now ∧ e.due ≤ now
  | .sampleReached => s.stc.op = .align ∧ ∃ p now, s.aln.pending = some p ∧
      s.tbu.localTime = some now ∧ p.time ≤ now
  | .transmitStart => ∃ reply age draw, s.lnk.transmitter = .waiting reply age draw ∧ 400 ≤ age ∧
      (age = 1200 ∨ 400 + Config.replyDelay draw % 801 = age)
  | .pulseEnd n => (s.out.channels[n]).pulse = some 0
  | .windowEnd n => (s.cap.inputs[n]).window = some 0
  | .deadTimeEnd n => (s.cap.inputs[n]).lastEdge = some 0
  | _ => False

/-- The rows that the part's own durations and local time bring are those at their moment. -/
theorem mem_dueByTime (s : State) (i : Instr) : i ∈ s.dueByTime ↔ s.Due i := by
  simp only [State.dueByTime, List.mem_append, mem_dueIf, mem_dueWatch, List.mem_flatMap,
    List.mem_finRange, true_and, ranOut_iff, headDue_iff, sampleDue_iff, transmitDue_iff, slewDue_iff,
    Tbu.watchOver_iff, Bool.and_eq_true, beq_iff_eq]
  cases i <;>
    simp only [State.Due, reduceCtorEq, Instr.pulseEnd.injEq, Instr.windowEnd.injEq,
      Instr.deadTimeEnd.injEq, exists_eq_right', and_true, and_false, exists_false, or_false, false_or]

/-- The edges that wait are due where nothing else is (R99; log 26). -/
theorem mem_dueRows (s : State) (i : Instr) :
    i ∈ s.dueRows ↔ s.Due i ∨ ((∀ j, ¬ s.Due j) ∧
      ∃ w ∈ s.cap.waiting, i = .captureEdge w.input { kind := w.edge.kind, after := 0 }) := by
  have empty : s.dueByTime.isEmpty = true ↔ ∀ j, ¬ s.Due j := by
    simp only [List.isEmpty_iff, List.eq_nil_iff_forall_not_mem, mem_dueByTime]
  unfold State.dueRows
  split
  · rename_i none
    rw [empty] at none
    simp [State.dueEdges, none, eq_comm]
  · rename_i some
    rw [empty] at some
    simp [mem_dueByTime, some]

/-! ### A step on an empty queue (logs 5 and 6) -/

theorem chooseDue_mem (draw : Nat) (first : Instr) (others : List Instr) :
    chooseDue draw first others ∈ first :: others := by
  cases others with
  | nil => exact List.mem_singleton.mpr rfl
  | cons second rest =>
    have bound : Config.dueChoice draw % ((second :: rest).length + 1) <
        (first :: second :: rest).length := Nat.mod_lt _ (Nat.succ_pos _)
    show List.getD _ _ _ ∈ _
    rw [List.getD_eq_getElem _ _ bound]
    exact List.getElem_mem bound

theorem step_idle {s : State} (idle : s.pending = []) : step s = s.idleStep := by
  rw [step, idle]

theorem idleStep_due {s : State} (due : s.dueRows ≠ []) :
    ∃ i ∈ s.dueRows, s.idleStep = exec i s.draw := by
  unfold State.idleStep
  split
  · rename_i none
    exact absurd none due
  · rename_i first others rows
    exact ⟨_, rows ▸ chooseDue_mem s.draws first others, rfl⟩

theorem idleStep_tick {s : State} (quiet : s.dueRows = []) : s.idleStep = .next s.tick := by
  rw [State.idleStep, quiet]

/-! ### One oscillator tick (R47, R53) -/

theorem listens_iff (s : State) :
    s.listens = true ↔ s.lnk.receiver = .listening ∧ s.sending = false := by
  simp [State.listens]

theorem hearsStart_iff (s : State) :
    s.hearsStart = true ↔ s.imn.quiesce = none ∧ s.stc.op ≠ .waking := by
  simp [State.hearsStart]

/-- LNK at a tick: how long it has been LISTENING, outside quiesce and WAKING and in them (log 1). -/
theorem tickLnk_eq (s : State) :
    s.tickLnk =
      { s.lnk with
        reception := s.lnk.reception.map fun f => { f with age := f.age + 1 }
        transmitter := s.lnk.transmitter.tick
        freeFor :=
          if (s.lnk.receiver = .listening ∧ s.sending = false) ∧
              (s.imn.quiesce = none ∧ s.stc.op ≠ .waking) then
            s.lnk.freeFor + 1
          else 0
        quietFor :=
          if ¬ (s.lnk.receiver = .listening ∧ s.sending = false) then 0
          else if s.imn.quiesce = none ∧ s.stc.op ≠ .waking then s.lnk.quietFor
          else s.lnk.quietFor + s.lnk.freeFor + 1 } := by
  rw [State.tickLnk]
  simp only [Bool.and_eq_true, listens_iff, hearsStart_iff, ite_not]

/-- Where local time stands after a tick, had it stood at 0 while UNSET (R47; log 16). -/
def Tbu.nextTime (x : Tbu) : Nat :=
  landTime (x.localTime.getD 0 + x.advance)

theorem Tbu.nextTime_of_lt {x : Tbu} {now : Nat} (running : x.localTime = some now)
    (bound : now + x.advance < 2 ^ 63) : x.nextTime = now + x.advance := by
  rw [Tbu.nextTime, running]
  exact landTime_of_lt bound

theorem Tbu.tick_unset {x : Tbu} (unset : x.localTime = none) :
    x.tick = { x with watch := x.watch.map Watch.tick } := by
  rw [Tbu.tick, unset]

theorem Tbu.tick_running {x : Tbu} {now : Nat} (running : x.localTime = some now) :
    x.tick =
      { x with
        localTime := some x.nextTime
        fraction := x.fraction + x.increment - (x.fraction + x.increment).floor
        slew := x.slew.map fun w => { w with left := w.left - 1 }
        watch := x.watch.map Watch.tick
        sinceArrival := x.sinceArrival.map fun n => n + x.advance } := by
  rw [Tbu.tick, Tbu.nextTime, running]
  rfl

/-- Settles O2: the rows due and the one taken, and where none is due the tick, block by block. -/
theorem emptyQueueRunsTheClock : Obligations.EmptyQueueRunsTheClock := by
  intro s idle due
  refine ⟨fun rows => ?_, fun i => mem_dueRows s i, fun quiet => ?_⟩
  · rw [step_idle idle]
    exact idleStep_due rows
  · refine ⟨s.tick, s.tbu.nextTime, (step_idle idle).trans (idleStep_tick quiet), ?_⟩
    intro sum listens hears watch
    refine ⟨fun now running bound => Tbu.nextTime_of_lt running bound, ?_⟩
    refine State.ext_fields (tickLnk_eq s) rfl rfl rfl rfl ?_ rfl rfl rfl rfl rfl rfl rfl rfl rfl
    show s.tbu.tick = _
    dsimp only
    split
    · rename_i unset
      exact Tbu.tick_unset unset
    · rename_i now running
      exact Tbu.tick_running running

end Sys2Proof.Machine
end

section
/-! SUPPORT. The level each channel drives on its pin, row by row of R69's table (R69, R82), and what pulls
ATTN low (R187). -/

namespace Sys2Proof.Machine

/-! ### Output pins (R69) -/

theorem invert_eq_ite (l : Level) : invert l = if l = .low then .high else .low := by
  cases l <;> rfl

theorem Channel.pin_disabled {c : Channel} (off : c.enable = false) (op : OpState) :
    c.pin op = .highZ := by
  simp [Channel.pin, off]

theorem Channel.pin_run_quiet {c : Channel} (on : c.enable = true) (quiet : c.pulse = none) :
    c.pin .run = .driven c.base := by
  simp [Channel.pin, on, quiet]

theorem Channel.pin_run_pulse {c : Channel} (on : c.enable = true) (flying : c.pulse ≠ none) :
    c.pin .run = .driven (invert c.base) := by
  simp [Channel.pin, on, Option.isSome_iff_ne_none.mpr flying]

theorem Channel.pin_outside_run {c : Channel} (on : c.enable = true) {op : OpState}
    (outside : op ≠ .run) : c.pin op = .driven c.park := by
  simp [Channel.pin, on, outside]

theorem outPin_of_not_reset {s : State} (awake : s.lnk.receiver ≠ .off) (n : Fin 16) :
    s.outPin n = s.out.channels[n].pin s.stc.op := by
  simp [State.outPin, State.inReset, awake]

/-! ### ATTN (R187) -/

theorem OpState.accepting_iff (op : OpState) : op.accepting = true ↔ op ≠ .dormant ∧ op ≠ .waking := by
  cases op <;> decide

theorem commits_iff (s : State) :
    s.commits = true ↔ s.lnk.receiver ≠ .off ∧ s.stc.op ≠ .dormant ∧ s.stc.op ≠ .waking := by
  simp [State.commits, State.inReset, OpState.accepting_iff, and_comm]

/-- The five products of `Atn.pulls` are the five conditions' flags under their mask bits. -/
theorem Atn.pulls_iff (a : Atn) :
    a.pulls = true ↔ ∃ c : Condition, a.flags.get c = true ∧ a.mask.get c = true := by
  simp only [Atn.pulls, Bool.or_eq_true, Bool.and_eq_true]
  constructor
  · rintro ((((fault | dropped) | eventLoss) | timebase) | missed)
    · exact ⟨.fault, fault⟩
    · exact ⟨.dropped, dropped⟩
    · exact ⟨.eventLoss, eventLoss⟩
    · exact ⟨.timebase, timebase⟩
    · exact ⟨.missed, missed⟩
  · rintro ⟨c, pulled⟩
    cases c <;> simp only [Conditions.get] at pulled <;> simp [pulled]

/-- Settles O37: the pins by the rows of R69's table, and ATTN as the states in which commands commit and a
flag that the mask enables. -/
theorem pinsFollowTheState : Obligations.PinsFollowTheState := by
  refine ⟨fun s n awake => ?_, fun s => ?_⟩
  · intro c
    rw [outPin_of_not_reset awake, ← invert_eq_ite]
    refine ⟨fun off => Channel.pin_disabled off _, fun on run quiet => ?_, fun on run flying => ?_,
      fun on outside => Channel.pin_outside_run on outside⟩
    · rw [run]
      exact Channel.pin_run_quiet on quiet
    · rw [run]
      exact Channel.pin_run_pulse on flying
  · rw [State.attnLow, Bool.and_eq_true, commits_iff, Atn.pulls_iff]
    simp only [and_assoc]

end Sys2Proof.Machine
end

section
/-! SUPPORT. The event queue: the records it stores or discards keep their numbers in a run (R97, R98), and
READ_EVENTS takes the oldest of them (R100). -/

namespace Sys2Proof.Machine

/-- Settles O56: each change of the part keeps the queue sound (`Act.keeps_events`), and a step is made of
such changes. -/
theorem eventsStayConsecutive : Obligations.EventsStayConsecutive :=
  fun _ _ h hs => step_keeps_events h hs

/-! ### READ_EVENTS (R100, R200) -/

/-- A flag's place in a byte. -/
theorem mul_bit (c : Nat) (b : Bool) : c * bit b = if b then c else 0 := by
  cases b <;> simp [bit]

theorem mul_edgeCode (c : Nat) (kind : EdgeKind) :
    c * edgeCode kind = if kind = .falling then c else 0 := by
  cases kind <;> simp [edgeCode]

theorem eventBytes_edge (seq : BitVec 16) (gap : Bool) (input : Fin 4) (kind : EdgeKind) (time : Nat)
    (state : TbState) :
    eventBytes { seq := seq, gap := gap, body := .edge input kind time state } =
      beBytes 2 seq.toNat ++
        (byteOf ((if gap then 4 else 0) + 16 * state.code) ++
          byteOf (input.val + (if kind = .falling then 128 else 0)) ++ beBytes 8 time ++ beBytes 2 0) := by
  simp only [eventBytes, mul_bit, mul_edgeCode, List.append_assoc]

theorem eventBytes_fired (seq : BitVec 16) (gap : Bool) (handle time : Nat) (late : Bool) :
    eventBytes { seq := seq, gap := gap, body := .fired handle time late } =
      beBytes 2 seq.toNat ++
        (byteOf (1 + (if gap then 4 else 0) + (if late then 8 else 0)) ++ byteOf handle ++
          beBytes 8 time ++ beBytes 2 0) := by
  simp only [eventBytes, mul_bit, List.append_assoc]

theorem eventBytes_missed (seq : BitVec 16) (gap : Bool) (handle time count : Nat) :
    eventBytes { seq := seq, gap := gap, body := .missed handle time count } =
      beBytes 2 seq.toNat ++
        (byteOf (2 + (if gap then 4 else 0)) ++ byteOf handle ++ beBytes 8 time ++
          beBytes 2 count) := by
  simp only [eventBytes, mul_bit, List.append_assoc]

theorem ownReadEvents_eq (b : Byte) (s : State) :
    ownReadEvents [b] s =
      if b.toNat < 1 ∨ 3 < b.toNat then refusing .badArgument s
      else
        (s.setEvq { s.evq with records := s.evq.records.drop b.toNat, lost := 0 },
          okWith (byteOf (min b.toNat s.evq.records.length) ++ beBytes 2 s.evq.lost ++
            (s.evq.records.take b.toNat).flatMap eventBytes)) := by
  simp only [Nat.lt_one_iff, ← List.length_take]
  rfl

/-- Settles O31: the owner's two cases, and the bytes of each kind of record. -/
theorem readEventsTakes : Obligations.ReadEventsTakes := by
  intro s o b hs
  show Host.Outcome.next (commitWith .readEvents o [b] _ s) = _
  rw [commitWith_accepted hs rfl rfl rfl, ownReadEvents_eq, leaveQueue_evq]
  congr 1
  split
  · rfl
  · show State.deliver _ o (okWith _) = State.deliver _ o (okWith _)
    congr 3
    refine List.flatMap_congr fun x _ => ?_
    obtain ⟨seq, gap, body⟩ := x
    cases body with
    | edge input kind time state => exact eventBytes_edge seq gap input kind time state
    | fired handle time late => exact eventBytes_fired seq gap handle time late
    | missed handle time count => exact eventBytes_missed seq gap handle time count

end Sys2Proof.Machine
end

section
/-! SUPPORT. CONFIGURE_CHANNEL and CONFIGURE_INPUT: what each argument byte names, and the one channel or
input that is replaced (R71, R86). -/

namespace Sys2Proof.Machine

/-! ### Bytes that name one of a few values (R198) -/

/-- A byte is 0, 1, or above 1. -/
theorem byte_two_cases (b : Byte) : b = 0 ∨ b = 1 ∨ ∃ k, b.toNat = k + 2 := by
  have zero : b = 0 ↔ b.toNat = 0 := BitVec.toNat_inj.symm
  have one : b = 1 ↔ b.toNat = 1 := BitVec.toNat_inj.symm
  rw [zero, one]
  by_cases above : 2 ≤ b.toNat
  · exact .inr (.inr (Nat.exists_eq_add_of_le' above))
  · omega

/-- A byte is 0, 1, 2, or above 2. -/
theorem byte_three_cases (b : Byte) : b = 0 ∨ b = 1 ∨ b = 2 ∨ ∃ k, b.toNat = k + 3 := by
  obtain zero | one | ⟨k, above⟩ := byte_two_cases b
  · exact .inl zero
  · exact .inr (.inl one)
  · have two : b = 2 ↔ b.toNat = 2 := BitVec.toNat_inj.symm
    cases k with
    | zero => exact .inr (.inr (.inl (two.mpr above)))
    | succ k => exact .inr (.inr (.inr ⟨k, above⟩))

/-- What reads 0 and 1 as two values, and no byte above 1. -/
theorem decode_two {α : Type} {decode : Byte → Option α} {x y : α} (zero : decode 0 = some x)
    (one : decode 1 = some y) (above : ∀ b k, b.toNat = k + 2 → decode b = none) (b : Byte) :
    decode b = if 1 < b.toNat then none else some (if b = 1 then y else x) := by
  obtain rfl | rfl | ⟨k, hk⟩ := byte_two_cases b
  · exact zero
  · exact one
  · rw [above b k hk, if_pos (by omega)]

/-- What reads 0, 1 and 2 as three values, and no byte above 2. -/
theorem decode_three {α : Type} {decode : Byte → Option α} {x y z : α} (zero : decode 0 = some x)
    (one : decode 1 = some y) (two : decode 2 = some z)
    (above : ∀ b k, b.toNat = k + 3 → decode b = none) (b : Byte) :
    decode b =
      if 2 < b.toNat then none else some (if b = 0 then x else if b = 1 then y else z) := by
  obtain rfl | rfl | rfl | ⟨k, hk⟩ := byte_three_cases b
  · exact zero
  · exact one
  · exact two
  · rw [above b k hk, if_pos (by omega)]

theorem enableOf_eq (b : Byte) : enableOf b = if 1 < b.toNat then none else some (b == 1) := by
  rw [decode_two (decode := enableOf) rfl rfl (fun b k hk => by simp [enableOf, hk]) b]
  by_cases one : b = 1
  · rw [if_pos one, beq_iff_eq.mpr one]
  · rw [if_neg one, beq_eq_false_iff_ne.mpr one]

theorem levelOf_eq (b : Byte) :
    levelOf b = if 1 < b.toNat then none else some (if b = 1 then .high else .low) :=
  decode_two (decode := levelOf) rfl rfl (fun b k hk => by simp [levelOf, hk]) b

theorem policyOf_eq (b : Byte) :
    policyOf b = if 1 < b.toNat then none else some (if b = 1 then .ignore else .restart) :=
  decode_two (decode := policyOf) rfl rfl (fun b k hk => by simp [policyOf, hk]) b

theorem inputModeOf_eq (b : Byte) :
    inputModeOf b =
      if 2 < b.toNat then none
      else some (if b = 0 then .off else if b = 1 then .continuous else .windowed) :=
  decode_three (decode := inputModeOf) rfl rfl rfl (fun b k hk => by simp [inputModeOf, hk]) b

theorem edgesOf_eq (b : Byte) :
    edgesOf b =
      if 2 < b.toNat then none
      else some (if b = 0 then .rising else if b = 1 then .falling else .both) :=
  decode_three (decode := edgesOf) rfl rfl rfl (fun b k hk => by simp [edgesOf, hk]) b

theorem channelOf_eq_none_iff (args : List Byte) :
    channelOf args = none ↔ 15 < (argByte args 0).toNat := by
  simp only [channelOf, dite_eq_right_iff, reduceCtorEq, imp_false]
  omega

theorem inputOf_eq_none_iff (args : List Byte) :
    inputOf args = none ↔ 3 < (argByte args 0).toNat := by
  simp only [inputOf, dite_eq_right_iff, reduceCtorEq, imp_false]
  omega

/-! ### One channel or one input replaced -/

theorem Out.update_eq_ofFn (x : Out) (n : Fin 16) (f : Channel → Channel) :
    x.update n f =
      { channels := Vector.ofFn fun m : Fin 16 =>
          if m.val = n.val then f x.channels[m] else x.channels[m] } := by
  rw [Out.update]
  congr 1
  ext m hm
  rw [Vector.getElem_set, Vector.getElem_ofFn]
  by_cases same : m = n.val
  · subst same
    simp
  · simp [same, Ne.symm same]

theorem Cap.update_eq_ofFn (x : Cap) (n : Fin 4) (f : Input → Input) :
    x.update n f =
      { x with
        inputs := Vector.ofFn fun m : Fin 4 =>
          if m.val = n.val then f x.inputs[m] else x.inputs[m] } := by
  rw [Cap.update]
  congr 1
  ext m hm
  rw [Vector.getElem_set, Vector.getElem_ofFn]
  by_cases same : m = n.val
  · subst same
    simp
  · simp [same, Ne.symm same]

/-! ### The owners -/

/-- A byte that names nothing refuses the whole configuration (R71). -/
theorem ownConfigureChannel_refused (args : List Byte) (s : State)
    (unnamed : channelOf args = none ∨ enableOf (argByte args 1) = none ∨
      levelOf (argByte args 2) = none ∨ levelOf (argByte args 3) = none ∨
      policyOf (argByte args 4) = none) :
    ownConfigureChannel args s = refusing .badArgument s := by
  unfold ownConfigureChannel
  split
  · rename_i channel enable park initial policy
    simp [channel, enable, park, initial, policy] at unnamed
  · rfl

/-- A byte that names nothing refuses the whole configuration (R86). -/
theorem ownConfigureInput_refused (args : List Byte) (s : State)
    (unnamed : inputOf args = none ∨ inputModeOf (argByte args 1) = none ∨
      edgesOf (argByte args 2) = none) :
    ownConfigureInput args s = refusing .badArgument s := by
  unfold ownConfigureInput
  split
  · rename_i input mode edges
    simp [input, mode, edges] at unnamed
  · rfl

theorem ownConfigureChannel_eq (n e p i v : Byte) (s : State) :
    ownConfigureChannel [n, e, p, i, v] s =
      if 15 < n.toNat ∨ 1 < e.toNat ∨ 1 < p.toNat ∨ 1 < i.toNat ∨ 1 < v.toNat then
        refusing .badArgument s
      else
        (s.setOut
          { channels := Vector.ofFn fun m : Fin 16 =>
              if m.val = n.toNat then
                (s.out.channels[m]).configure (e == 1) (if p = 1 then .high else .low)
                  (if i = 1 then .high else .low) (if v = 1 then .ignore else .restart)
              else s.out.channels[m] }, okEmpty) := by
  split
  · rename_i unnamed
    apply ownConfigureChannel_refused
    simpa [channelOf_eq_none_iff, enableOf_eq, levelOf_eq, policyOf_eq, argByte] using unnamed
  · rename_i named
    simp only [not_or] at named
    obtain ⟨hn, he, hp, hi, hv⟩ := named
    have channel : channelOf [n, e, p, i, v] = some ⟨n.toNat, by omega⟩ := dif_pos _
    simp only [ownConfigureChannel, channel, argByte, List.getD_cons_zero, List.getD_cons_succ,
      enableOf_eq, levelOf_eq, policyOf_eq, he, hp, hi, hv, if_false, acting, Out.update_eq_ofFn]

theorem ownConfigureInput_eq (n m e d1 d0 : Byte) (s : State) :
    ownConfigureInput [n, m, e, d1, d0] s =
      if 3 < n.toNat ∨ 2 < m.toNat ∨ 2 < e.toNat then refusing .badArgument s
      else
        (s.setCap
          { s.cap with
            inputs := Vector.ofFn fun k : Fin 4 =>
              if k.val = n.toNat then
                (s.cap.inputs[k]).configure
                  (if m = 0 then .off else if m = 1 then .continuous else .windowed)
                  (if e = 0 then .rising else if e = 1 then .falling else .both)
                  (256 * d1.toNat + d0.toNat)
              else s.cap.inputs[k] }, okEmpty) := by
  split
  · rename_i unnamed
    apply ownConfigureInput_refused
    simpa [inputOf_eq_none_iff, inputModeOf_eq, edgesOf_eq, argByte] using unnamed
  · rename_i named
    simp only [not_or] at named
    obtain ⟨hn, hm, he⟩ := named
    have input : inputOf [n, m, e, d1, d0] = some ⟨n.toNat, by omega⟩ := dif_pos _
    have dead : argNat [n, m, e, d1, d0] 3 2 = 256 * d1.toNat + d0.toNat := argNat_pair d1 d0
    simp only [ownConfigureInput, input, dead, argByte, List.getD_cons_zero, List.getD_cons_succ,
      inputModeOf_eq, edgesOf_eq, hm, he, if_false, acting, Cap.update_eq_ofFn]

/-- Settles O24: the owner of each command by the equation of its two cases, under the judgement of
R130. -/
theorem configurationCommands : Obligations.ConfigurationCommands := by
  refine ⟨?_, ?_⟩
  · intro s o n e p i v hs
    show Host.Outcome.next (commitWith .configureChannel o [n, e, p, i, v] _ s) = _
    rw [commitWith_judged hs rfl rfl, ownConfigureChannel_eq, leaveQueue_out]
    congr 2
    split <;> rfl
  · intro s o n m e d1 d0 hs
    show Host.Outcome.next (commitWith .configureInput o [n, m, e, d1, d0] _ s) = _
    rw [commitWith_judged hs rfl rfl, ownConfigureInput_eq, leaveQueue_cap]
    congr 2
    split <;> rfl

end Sys2Proof.Machine
end

section
/-! SUPPORT. The edges of the capture pins: what CAP does with an edge that it takes (R87 to R90), where the
row of an edge that is sampled or that waits leads, and what a moment of dispatch does with the edges that
wait (R93, R99; log 26). -/

namespace Sys2Proof.Machine

/-! ### A record handed to EVQ (R97) -/

theorem handEvent_stored (s : State) (body : EventBody) (room : s.evq.records.length < 64) :
    s.handEvent body =
      s.setEvq
        { records := s.evq.records ++ [{ seq := s.evq.next, gap := s.evq.gap, body := body }]
          next := s.evq.next + 1
          lost := s.evq.lost
          gap := false } :=
  if_pos room

theorem handEvent_discarded (s : State) (body : EventBody) (full : ¬ s.evq.records.length < 64) :
    s.handEvent body =
      (s.setEvq { s.evq with lost := min 65535 (s.evq.lost + 1), gap := true }).raiseCondition
        .eventLoss :=
  if_neg full

/-- EVQ does not look at the inputs. -/
theorem handEvent_setCap (s : State) (x : Cap) (body : EventBody) :
    (s.setCap x).handEvent body = (s.handEvent body).setCap x := by
  by_cases room : s.evq.records.length < 64
  · rw [handEvent_stored _ _ room, handEvent_stored _ _ (by simpa using room)]
    rfl
  · rw [handEvent_discarded _ _ room, handEvent_discarded _ _ (by simpa using room)]
    rfl

/-! ### One input -/

theorem Cap.update_twice (x : Cap) (n : Fin 4) (f g : Input → Input) :
    (x.update n f).update n g = x.update n fun i => g (f i) := by
  simp [Cap.update]

theorem Cap.update_of_fixed {x : Cap} {n : Fin 4} {f : Input → Input}
    (fixed : f x.inputs[n] = x.inputs[n]) : x.update n f = x := by
  rw [Cap.update, fixed]
  simp

theorem edgeTarget_eq (edge : EdgeKind) : edgeTarget edge = if edge = .rising then .high else .low := by
  cases edge <;> rfl

theorem EdgeSelect.selects_iff (e : EdgeSelect) (edge : EdgeKind) :
    e.selects edge = true ↔ e = .both ∨ e = if edge = .rising then .rising else .falling := by
  cases e <;> cases edge <;> decide

theorem Input.armed_iff (i : Input) :
    i.armed = true ↔
      (i.mode = .continuous ∨ (i.mode = .windowed ∧ i.window.isSome)) ∧ i.lastEdge = none := by
  cases hmode : i.mode <;> simp [Input.armed, hmode]

theorem Input.shows_iff (i : Input) (edge : EdgeKind) :
    i.shows edge = true ↔ i.sampled = false ∧ i.level ≠ edgeTarget edge := by
  simp [Input.shows]

/-- A second edge in one tick, and none, are no edge (R87). -/
theorem Input.not_shows {i : Input} {edge : EdgeKind}
    (unshown : i.sampled = true ∨ i.level = edgeTarget edge) : ¬ i.shows edge = true := by
  rw [Input.shows_iff]
  rintro ⟨unsampled, level⟩
  obtain sampled | same := unshown
  · rw [sampled] at unsampled
    cases unsampled
  · exact level same

theorem ne_opposite_iff (l : Level) (edge : EdgeKind) :
    l ≠ (if edge = .rising then .low else .high) ↔ l = edgeTarget edge := by
  cases l <;> cases edge <;> decide

/-- The conditions of R88, and that the edge qualifies (R87). -/
theorem records_iff (s : State) (n : Fin 4) (edge : EdgeKind) :
    s.records n edge = true ↔
      (s.cap.inputs[n]).edges.selects edge = true ∧ (s.cap.inputs[n]).armed = true ∧
        s.tbu.state ≠ .unset ∧ s.stc.op ≠ .dormant ∧ s.stc.op ≠ .waking ∧
        ¬ (n = 0 ∧ s.stc.op = .align) := by
  simp only [State.records, Bool.and_eq_true, Bool.not_eq_true', Bool.and_eq_false_iff, bne_iff_ne,
    and_assoc, ne_eq, not_and_or, beq_eq_false_iff_ne]

/-- An edge that fails one condition of R88, or does not qualify, is not recorded (R87, R88). -/
theorem records_eq_false {s : State} {n : Fin 4} {edge : EdgeKind}
    (fails : ((s.cap.inputs[n]).edges = .rising ∧ edge = .falling) ∨
      ((s.cap.inputs[n]).edges = .falling ∧ edge = .rising) ∨
      (s.cap.inputs[n]).mode = .off ∨
      ((s.cap.inputs[n]).mode = .windowed ∧ (s.cap.inputs[n]).window = none) ∨
      s.tbu.state = .unset ∨ s.stc.op = .dormant ∨ s.stc.op = .waking ∨
      (n = 0 ∧ s.stc.op = .align) ∨ (s.cap.inputs[n]).lastEdge ≠ none) :
    s.records n edge = false := by
  rw [Bool.eq_false_iff, Ne, records_iff, Input.armed_iff]
  rintro ⟨selected, ⟨mode, fresh⟩, set, awake, waked, aligned⟩
  obtain ⟨rising, rfl⟩ | ⟨falling, rfl⟩ | off | ⟨windowed, closed⟩ | unset | dormant | waking | align |
    dead := fails
  · rw [rising] at selected
    cases selected
  · rw [falling] at selected
    cases selected
  · rw [off] at mode
    simp at mode
  · rw [windowed, closed] at mode
    simp at mode
  · exact set unset
  · exact awake dormant
  · exact waked waking
  · exact aligned align
  · exact dead fresh

/-! ### Taking an edge (R88 to R90) -/

theorem takeEdge_recorded {s : State} {n : Fin 4} {edge : EdgeKind} {now : Nat}
    (recorded : s.records n edge = true) (time : s.tbu.localTime = some now) :
    s.takeEdge n edge =
      (s.handEvent (.edge n edge now s.tbu.state)).setCap (s.cap.update n Input.startDead) := by
  rw [State.takeEdge, if_pos recorded, State.recordEdge, time]

/-- An edge that R88 does not let through leaves no trace (R88). -/
theorem takeEdge_unrecorded {s : State} {n : Fin 4} {edge : EdgeKind}
    (unrecorded : s.records n edge = false) : s.takeEdge n edge = s := by
  rw [State.takeEdge, unrecorded]
  rfl

theorem takeEdge_timeless {s : State} (n : Fin 4) (edge : EdgeKind)
    (timeless : s.tbu.localTime = none) : s.takeEdge n edge = s := by
  rw [State.takeEdge, State.recordEdge, timeless, ite_self]

/-! ### Edges that wait -/

/-- The part with other edges waiting. -/
def State.withWaiting (s : State) (l : List WaitingEdge) : State :=
  s.setCap { s.cap with waiting := l }

/-- Taking an edge neither looks at the edges that wait nor changes them. -/
theorem takeEdge_withWaiting (s : State) (l : List WaitingEdge) (n : Fin 4) (edge : EdgeKind) :
    (s.withWaiting l).takeEdge n edge = (s.takeEdge n edge).withWaiting l := by
  cases time : s.tbu.localTime with
  | none => rw [takeEdge_timeless n edge time, takeEdge_timeless n edge (by exact time)]
  | some now =>
    cases recorded : s.records n edge with
    | false => rw [takeEdge_unrecorded recorded, takeEdge_unrecorded (by exact recorded)]
    | true =>
      rw [takeEdge_recorded recorded time, takeEdge_recorded (by exact recorded) (by exact time),
        State.withWaiting, handEvent_setCap]
      rfl

/-- The only edge of its input and kind among those that wait, taken out of them. -/
theorem filter_not_isOf {before behind : List WaitingEdge} {w : WaitingEdge}
    (only : ∀ x ∈ before ++ behind, ¬ (x.input = w.input ∧ x.edge.kind = w.edge.kind)) :
    (before ++ w :: behind).filter (fun x => !x.isOf w.input w.edge.kind) = before ++ behind := by
  have itself : w.isOf w.input w.edge.kind = true := by simp [WaitingEdge.isOf]
  have others : (before ++ behind).filter (fun x => !x.isOf w.input w.edge.kind) = before ++ behind :=
    List.filter_eq_self.mpr fun x hx => by simpa [WaitingEdge.isOf, imp_iff_not_or] using only x hx
  rw [List.filter_append] at others ⊢
  rw [List.filter_cons_of_neg (by simp [itself]), others]

/-! ### The row of an edge (R87; logs 9 and 26) -/

/-- The part that has sampled an edge and not taken it yet (R87). -/
def State.sampling (s : State) (n : Fin 4) (edge : EdgeKind) : State :=
  s.setCap (s.cap.update n fun i => { i with level := edgeTarget edge, sampled := true })

theorem sampling_input (s : State) (n : Fin 4) (edge : EdgeKind) :
    (s.sampling n edge).cap.inputs[n] =
      { s.cap.inputs[n] with level := edgeTarget edge, sampled := true } :=
  (Cap.update_get _ _ _ _).trans (if_pos rfl)

theorem exec_captureEdge (s : State) (n : Fin 4) (edge : PinEdge) :
    exec (.captureEdge n edge) s = .next (s.captureEdge n edge) := rfl

theorem captureEdge_taken {s : State} {n : Fin 4} {edge : EdgeKind}
    (shown : (s.cap.inputs[n]).shows edge = true) :
    s.captureEdge n { kind := edge, after := 0 } = (s.sampling n edge).takeEdge n edge := by
  rw [State.captureEdge, if_pos shown]
  rfl

theorem captureEdge_waits {s : State} {n : Fin 4} {edge : EdgeKind} {k : Nat}
    (shown : (s.cap.inputs[n]).shows edge = true) (later : 1 ≤ k) :
    s.captureEdge n { kind := edge, after := k } =
      (s.sampling n edge).withWaiting
        (s.cap.waiting ++ [{ input := n, edge := { kind := edge, after := k } }]) := by
  rw [State.captureEdge, if_pos shown]
  dsimp only
  rw [if_neg (by omega)]
  rfl

theorem captureEdge_waited {s : State} {before behind : List WaitingEdge} {w : WaitingEdge}
    (unshown : ¬ (s.cap.inputs[w.input]).shows w.edge.kind = true)
    (waiting : s.cap.waiting = before ++ w :: behind)
    (only : ∀ x ∈ before ++ behind, ¬ (x.input = w.input ∧ x.edge.kind = w.edge.kind)) :
    s.captureEdge w.input { kind := w.edge.kind, after := 0 } =
      (s.withWaiting (before ++ behind)).takeEdge w.input w.edge.kind := by
  have waits : s.cap.waiting.any (WaitingEdge.isOf w.input w.edge.kind) = true :=
    List.any_eq_true.mpr ⟨w, by simp [waiting], by simp [WaitingEdge.isOf]⟩
  rw [State.captureEdge, if_neg unshown, if_pos ⟨rfl, waits⟩, waiting, filter_not_isOf only]
  rfl

/-- An edge that is none, and does not wait either, is no event. -/
theorem captureEdge_none {s : State} {n : Fin 4} {edge : EdgeKind} {k : Nat}
    (unshown : ¬ (s.cap.inputs[n]).shows edge = true)
    (absent : 1 ≤ k ∨ ∀ w ∈ s.cap.waiting, ¬ (w.input = n ∧ w.edge.kind = edge)) :
    s.captureEdge n { kind := edge, after := k } = s := by
  rw [State.captureEdge, if_neg unshown, if_neg]
  rintro ⟨now, waits⟩
  obtain ⟨w, hw, is⟩ := List.any_eq_true.mp waits
  obtain later | absent := absent
  · exact absurd now (by dsimp only; omega)
  · exact absent w hw (by simpa [WaitingEdge.isOf] using is)

/-- Sampling leaves what decides whether an edge is recorded. -/
theorem records_sampling (s : State) (n : Fin 4) (edge : EdgeKind) :
    (s.sampling n edge).records n edge = s.records n edge := by
  rw [State.records, sampling_input]
  rfl

theorem sampling_takeEdge_recorded {s : State} {n : Fin 4} {edge : EdgeKind} {now : Nat}
    (recorded : s.records n edge = true) (time : s.tbu.localTime = some now) :
    (s.sampling n edge).takeEdge n edge =
      (s.handEvent (.edge n edge now s.tbu.state)).setCap (s.cap.update n fun i =>
        { i with
          level := edgeTarget edge
          sampled := true
          lastEdge := if i.dead = 0 then none else some i.dead }) := by
  rw [takeEdge_recorded (by rw [records_sampling, recorded]) (by exact time), State.sampling,
    handEvent_setCap]
  exact congrArg _ (Cap.update_twice _ _ _ _)

/-! ### The row of an edge that waits (log 26) -/

/-- Sampling an edge again, had its tick not sampled it yet, leads to the part that has sampled it. -/
theorem sampling_unsampled {s : State} {n : Fin 4} {edge : EdgeKind} (l : Level)
    (sampled : (s.cap.inputs[n]).sampled = true)
    (level : (s.cap.inputs[n]).level = edgeTarget edge) (waiting : List WaitingEdge) :
    (s.setCap
      { s.cap.update n fun i => { i with level := l, sampled := false } with
        waiting := waiting }).sampling n edge = s.withWaiting waiting := by
  have back : (s.cap.update n fun i => { i with level := l, sampled := false }).update n
      (fun i => { i with level := edgeTarget edge, sampled := true }) = s.cap := by
    rw [Cap.update_twice]
    apply Cap.update_of_fixed
    rw [← sampled, ← level]
  exact congrArg (fun c : Cap => s.setCap { c with waiting := waiting }) back

/-- The row of an edge that is sampled already, had its tick not sampled it yet. -/
theorem captureEdge_unsampled {s : State} {n : Fin 4} {edge : EdgeKind} {l : Level}
    (opposite : l ≠ edgeTarget edge) (sampled : (s.cap.inputs[n]).sampled = true)
    (level : (s.cap.inputs[n]).level = edgeTarget edge) (waiting : List WaitingEdge) :
    (s.setCap
      { s.cap.update n fun i => { i with level := l, sampled := false } with
        waiting := waiting }).captureEdge n { kind := edge, after := 0 } =
      (s.withWaiting waiting).takeEdge n edge := by
  have input : (s.cap.update n fun i => { i with level := l, sampled := false }).inputs[n] =
      { s.cap.inputs[n] with level := l, sampled := false } :=
    (Cap.update_get _ _ _ _).trans (if_pos rfl)
  have shown : ((s.cap.update n fun i =>
      { i with level := l, sampled := false }).inputs[n]).shows edge = true := by
    rw [input, Input.shows_iff]
    exact ⟨rfl, opposite⟩
  rw [captureEdge_taken (by exact shown), sampling_unsampled l sampled level]

/-! ### A moment of dispatch (R93, R99) -/

/-- The waiting edges for which the next moment is the last to pass. -/
def takenNext (l : List WaitingEdge) : List WaitingEdge :=
  (l.map WaitingEdge.pass).filter fun w => w.edge.after == 0

/-- The waiting edges for which moments are left behind the next one. -/
def waitingOn (l : List WaitingEdge) : List WaitingEdge :=
  (l.map WaitingEdge.pass).filter fun w => w.edge.after != 0

theorem passEdges_eq (s : State) :
    s.passEdges = takeEdges (takenNext s.cap.waiting) (s.withWaiting (waitingOn s.cap.waiting)) := rfl

theorem takenNext_append (l m : List WaitingEdge) :
    takenNext (l ++ m) = takenNext l ++ takenNext m := by
  simp [takenNext]

theorem waitingOn_append (l m : List WaitingEdge) :
    waitingOn (l ++ m) = waitingOn l ++ waitingOn m := by
  simp [waitingOn]

theorem takenNext_eq_nil {l : List WaitingEdge} (later : ∀ w ∈ l, 2 ≤ w.edge.after) :
    takenNext l = [] := by
  simp only [takenNext, List.filter_eq_nil_iff, List.forall_mem_map, WaitingEdge.pass, beq_iff_eq]
  intro w hw
  have := later w hw
  omega

theorem waitingOn_eq_map {l : List WaitingEdge} (later : ∀ w ∈ l, 2 ≤ w.edge.after) :
    waitingOn l = l.map WaitingEdge.pass := by
  simp only [waitingOn, List.filter_eq_self, List.forall_mem_map, WaitingEdge.pass, bne_iff_ne]
  intro w hw
  have := later w hw
  omega

theorem takenNext_cons {w : WaitingEdge} (last : w.edge.after ≤ 1) (l : List WaitingEdge) :
    takenNext (w :: l) = w.pass :: takenNext l := by
  rw [takenNext, List.map_cons, List.filter_cons_of_pos]
  · rfl
  · exact beq_iff_eq.mpr (Nat.sub_eq_zero_of_le last)

theorem waitingOn_cons {w : WaitingEdge} (last : w.edge.after ≤ 1) (l : List WaitingEdge) :
    waitingOn (w :: l) = waitingOn l := by
  rw [waitingOn, List.map_cons, List.filter_cons_of_neg]
  · rfl
  · simp [WaitingEdge.pass, Nat.sub_eq_zero_of_le last]

/-- While every waiting edge has further moments to wait for, a moment counts down and no more. -/
theorem passEdges_of_later {s : State} (later : ∀ w ∈ s.cap.waiting, 2 ≤ w.edge.after) :
    s.passEdges = s.withWaiting (s.cap.waiting.map WaitingEdge.pass) := by
  rw [passEdges_eq, takenNext_eq_nil later, waitingOn_eq_map later, takeEdges]

/-- A moment takes the first edge that falls there, and then does with the others what it would do without
it. -/
theorem passEdges_first {s : State} {before behind : List WaitingEdge} {w : WaitingEdge}
    (waiting : s.cap.waiting = before ++ w :: behind) (last : w.edge.after ≤ 1)
    (later : ∀ x ∈ before, 2 ≤ x.edge.after) :
    s.passEdges =
      ((s.withWaiting (before ++ behind)).takeEdge w.input w.edge.kind).passEdges := by
  have taken : takenNext s.cap.waiting = w.pass :: takenNext (before ++ behind) := by
    rw [waiting, takenNext_append, takenNext_append, takenNext_cons last, takenNext_eq_nil later,
      List.nil_append, List.nil_append]
  have kept : waitingOn s.cap.waiting = waitingOn (before ++ behind) := by
    rw [waiting, waitingOn_append, waitingOn_append, waitingOn_cons last]
  calc s.passEdges
      = takeEdges (takenNext (before ++ behind))
          ((s.withWaiting (waitingOn (before ++ behind))).takeEdge w.input w.edge.kind) := by
        rw [passEdges_eq, taken, kept, takeEdges, WaitingEdge.pass]
    _ = takeEdges (takenNext (before ++ behind))
          (((s.takeEdge w.input w.edge.kind).withWaiting (before ++ behind)).withWaiting
            (waitingOn (before ++ behind))) := by
        rw [takeEdge_withWaiting]
        rfl
    _ = ((s.withWaiting (before ++ behind)).takeEdge w.input w.edge.kind).passEdges := by
        rw [takeEdge_withWaiting]
        rfl

/-- Settles O32, clause by clause: EVQ's two cases, an edge recorded, the three that are not, the row of an
edge that waits, dispatch's two moments, and what a moment does. -/
theorem captureEdges : Obligations.CaptureEdges := by
  refine ⟨?_, ?_, ?_, ?_, fun s body a => ⟨rfl, rfl⟩, fun s later => passEdges_of_later later, ?_⟩
  · intro s body
    split
    · rename_i room
      exact handEvent_stored s body room
    · rename_i full
      exact handEvent_discarded s body full
  · intro s n edge now i unsampled level edges mode set time dormant waking aligned fresh
    rw [← edgeTarget_eq] at level ⊢
    have recorded : s.records n edge = true :=
      (records_iff s n edge).mpr
        ⟨(EdgeSelect.selects_iff _ _).mpr edges, (Input.armed_iff _).mpr ⟨mode, fresh⟩, set, dormant,
          waking, aligned⟩
    rw [exec_captureEdge, captureEdge_taken ((Input.shows_iff _ _).mpr ⟨unsampled, level⟩),
      sampling_takeEdge_recorded recorded time]
  · intro s n edge k
    rw [← edgeTarget_eq]
    refine ⟨fun unshown absent => ?_, fun unsampled level fails => ?_, fun unsampled level later => ?_⟩
    · rw [exec_captureEdge, captureEdge_none (Input.not_shows unshown) absent]
    · rw [exec_captureEdge, captureEdge_taken ((Input.shows_iff _ _).mpr ⟨unsampled, level⟩),
        takeEdge_unrecorded (by rw [records_sampling, records_eq_false fails])]
      rfl
    · rw [exec_captureEdge, captureEdge_waits ((Input.shows_iff _ _).mpr ⟨unsampled, level⟩) later]
      rfl
  · intro s before behind w opposite waiting only sampled level
    have opposes : opposite ≠ edgeTarget w.edge.kind := fun same =>
      (ne_opposite_iff _ _).mpr same rfl
    have level := (ne_opposite_iff _ _).mp level
    rw [exec_captureEdge, exec_captureEdge, captureEdge_waited (Input.not_shows (.inl sampled)) waiting only,
      captureEdge_unsampled opposes sampled level]
  · intro s before behind w waiting last later only sampled
    have row := captureEdge_waited (Input.not_shows (.inl sampled)) waiting only
    exact ⟨_, (exec_captureEdge _ _ _).trans (congrArg _ row), passEdges_first waiting last later⟩

end Sys2Proof.Machine
end

section
/-! SUPPORT. The hard reset (R119): the values it leaves, which meet every invariant, and what the part does
while it lasts. -/

namespace Sys2Proof.Machine

/-! ### The values it leaves (R119, R148) -/

theorem exec_hardReset (s : State) (phase : ResetPhase) :
    exec (.hardReset phase) s = .next (s.hardReset phase) := rfl

/-- The whole of a reset, and the end of one that has begun, read the straps (R148). -/
theorem hardReset_ends {s : State} {straps : BitVec 5} {phase : ResetPhase}
    (ends : phase = .whole straps ∨ (phase = .released straps ∧ s.lnk.receiver = .off)) :
    s.hardReset phase = s.resetWith (Lnk.reset straps) := by
  rcases ends with rfl | ⟨rfl, off⟩
  · rfl
  · exact if_pos (by simp [State.inReset, off])

/-- A release where no reset has begun (log 10). -/
theorem hardReset_released_idle {s : State} (on : s.lnk.receiver ≠ .off) (straps : BitVec 5) :
    s.hardReset (.released straps) = s :=
  if_neg (by simp [State.inReset, on])

theorem resetWith_channel (s : State) (l : Lnk) (n : Fin 16) :
    (s.resetWith l).out.channels[n] = Channel.reset := by
  simp [State.resetWith, State.reset]

theorem resetWith_input (s : State) (l : Lnk) (n : Fin 4) :
    (s.resetWith l).cap.inputs[n] = Input.reset (s.cap.inputs[n]).level (s.cap.inputs[n]).sampled := by
  simp [State.resetWith]

/-- Settles O5: both forms leave `State.resetWith` with the straps read, block by block. -/
theorem hardResetLeavesResetValues : Obligations.HardResetLeavesResetValues := by
  intro s straps phase ends
  exact ⟨s.resetWith (Lnk.reset straps), congrArg _ (hardReset_ends ends), rfl, rfl, rfl, rfl, rfl, rfl,
    rfl, rfl, resetWith_channel s _, resetWith_input s _, rfl, rfl, rfl, rfl, rfl, rfl⟩

/-! ### The invariants (00 section 4.4) -/

/-- Whatever state a hard reset meets, and whatever LNK record it leaves, every invariant holds behind it. -/
theorem resetWith_sound (s : State) (l : Lnk) : (s.resetWith l).Sound where
  schedule := Sct.reset_sound
  events := Evq.empty_sound _ rfl rfl
  intake := resetWith_intake s l
  nested := ⟨⟨rfl, rfl⟩, by simp [State.resetWith, State.reset, Stc.reset]⟩
  faults := FaultSound.ofClear rfl rfl rfl rfl (by simp [State.resetWith, State.reset, Stc.reset])
  pins := idlePins_of_none (fun n => by rw [resetWith_channel]; rfl) (fun n => by rw [resetWith_input]; rfl)
  timebase := Tbu.reset_sound
  timed := timedTable_of_empty rfl
  alignment := alignSound_reset rfl

/-- The reset state is what a reset of it leaves. -/
theorem resetWith_reset : State.reset.resetWith (Lnk.reset 0) = State.reset := by
  simp [State.resetWith, State.reset, Input.reset]

/-- Settles O54: the reset state is one that a hard reset leaves. -/
theorem resetIsSound : Obligations.ResetIsSound :=
  ⟨resetWith_reset ▸ resetWith_sound State.reset (Lnk.reset 0), rfl, rfl⟩

/-! ### While it lasts, and where else no command commits (R82, R104, R119, R187) -/

theorem outPin_of_reset {s : State} (off : s.lnk.receiver = .off) (n : Fin 16) : s.outPin n = .highZ :=
  if_pos (by simp [State.inReset, off])

theorem commits_eq_false {s : State}
    (deaf : s.stc.op = .dormant ∨ s.stc.op = .waking ∨ s.lnk.receiver = .off) : s.commits = false := by
  rw [← Bool.not_eq_true, commits_iff]
  rintro ⟨on, dormant, waking⟩
  rcases deaf with h | h | h
  · exact dormant h
  · exact waking h
  · exact on h

/-- A commit where no command commits, row by row (log 3). -/
theorem commitRow_deaf {s : State} (deaf : s.commits = false) (i : Instr) : commitRow i s = s := by
  cases i with
  | hardReset | commandFrame | poll | transmitStart | transmitEnd | replyAbandoned | sync | probe | wake
  | fill | otherIntactFrame | faultReport | quiesceEnd | stagingExpiry | syncWatchLockedExpiry
  | syncWatchHoldoverExpiry | syncWatchAcquiringExpiry | slewEnd | wakeDelayEnd | headReached | pulseEnd
  | windowEnd | deadTimeEnd | captureEdge | sampleReached | discardingEnd => rfl
  | unknownCommand => exact if_neg (by simp [deaf])
  | _ =>
    rw [commitRow]
    exact commitWith_deaf deaf

/-- In a hard reset no run of symbols is heard. -/
theorem exec_heard_reset {s : State} {c : Instr} (off : s.lnk.receiver = .off) (wf : c.wf = true)
    (brings : (heardOf c).isSome) : exec c s = .next s := by
  obtain ⟨h, hc⟩ := Option.isSome_iff_exists.mp brings
  obtain ⟨onIntact, row⟩ := heardOf_exec hc wf
  rw [row, hear_deaf (.inr off)]

/-- A POLL that has an outcome is a well-formed row. -/
theorem wf_of_exec_poll {h : Heard} {order : PollOrder} {s t : State}
    (row : exec (.poll h order) s = .next t) : (Instr.poll h order).wf = true := by
  by_contra ill
  rw [show exec (.poll h order) s = .refused .illFormed from if_neg ill] at row
  cases row

/-- In a hard reset no row takes the transmitter out of IDLE: only a POLL could, and none is heard. -/
theorem transmitter_idle_of_reset {s t : State} {c : Instr} (off : s.lnk.receiver = .off)
    (idle : s.lnk.transmitter = .idle) (row : exec c s = .next t) : t.lnk.transmitter = .idle := by
  by_cases polled : IsPoll c
  · obtain ⟨h, order, rfl⟩ := polled
    rw [exec_heard_reset off (wf_of_exec_poll row) rfl] at row
    cases row
    exact idle
  · exact ((exec_acts c s t row).mono polled).keeps
      (P := fun u => u.lnk.transmitter = .idle) Act.keeps_quiet idle

/-- Settles O6, clause by clause. -/
theorem whileHardResetLasts : Obligations.WhileHardResetLasts := by
  refine ⟨fun s => ⟨_, rfl, rfl, rfl, rfl⟩, fun t off => ⟨outPin_of_reset off, ?_⟩,
    fun t u c off idle row => transmitter_idle_of_reset off idle row,
    fun t c off wf brings => exec_heard_reset off wf brings, fun s straps on => ?_,
    fun s c staged wf deaf => ?_⟩
  · rw [State.attnLow, commits_eq_false (.inr (.inr off)), Bool.false_and]
  · rw [exec_hardReset, hardReset_released_idle on]
  · obtain ⟨⟨o, bytes⟩, hc⟩ := Option.isSome_iff_exists.mp staged
    rw [exec_commitRow c o bytes s hc wf, commitRow_deaf (commits_eq_false deaf)]

end Sys2Proof.Machine
end

section
/-! SUPPORT. The commands that change the operating state (R106 to R110, R112, R114, R115), the WAKE that
ends DORMANT and the end of the wake delay (R116, R118). -/

namespace Sys2Proof.Machine

/-- Settles O58: each change of the part keeps the combinations of R113 (`Act.keeps_nested`), and a step is
made of such changes. -/
theorem rememberedStatesNest : Obligations.RememberedStatesNest :=
  fun _ _ h hs => step_keeps (P := fun s => s.stc.Nested) Act.keeps_nested (fun _ _ hs => hs) h hs

/-! ### Commits of commands without arguments (R104, R130) -/

/-- The outcome of a commit of good length and common arguments; the owner's effect is asked for only where
the operating state lets it act (R104). -/
theorem next_commitWith {c : Cmd} {o : Origin} {args : List Byte} {owner : State → State × Result}
    {s acted : State} (hs : s.commits = true) (hl : Cmd.lengthOk c args = true)
    (hc : Cmd.commonOk c args = true)
    (effect : s.stc.op ∈ Cmd.admittedIn c →
      (owner (s.leaveQueue o)).1.deliver o (owner (s.leaveQueue o)).2 = acted) :
    (Host.Outcome.next (commitWith c o args owner s) : Host.Outcome State Fault Refusal) =
      .next (s.judged o (Cmd.admittedIn c) acted) := by
  rw [commitWith_judged hs hl hc, State.judged, State.judged]
  split
  · rename_i admitted
    rw [effect admitted]
  · rfl

/-! ### RUN (R36, R79, R92, R106 to R108) -/

theorem enterRun_leaveQueue (s : State) (o : Origin) :
    (s.leaveQueue o).enterRun = ((s.leaveQueue o).setStc { s.stc with op := .run }).evaluate := by
  rw [State.enterRun, leaveQueue_stc]

/-- Settles O12: both owners are the entry into RUN, which evaluates. -/
theorem startAndResumeEnterRun : Obligations.StartAndResumeEnterRun := by
  intro s o hs
  rw [← enterRun_leaveQueue]
  exact ⟨next_commitWith hs rfl rfl fun _ => rfl, next_commitWith hs rfl rfl fun _ => rfl⟩

/-- Leaving RUN cuts the pulses and closes the windows (R79, R92). -/
theorem goTo_of_run {s : State} (run : s.stc.op = .run) (op : OpState) :
    s.goTo op =
      { s with stc := { s.stc with op := op }, out := s.out.cutPulses, cap := s.cap.closeWindows } :=
  if_pos run

theorem goTo_outside_run {s : State} (outside : s.stc.op ≠ .run) (op : OpState) :
    s.goTo op = s.setStc { s.stc with op := op } :=
  if_neg outside

/-- Settles O13: PARK is admitted in RUN alone, and leaves it. -/
theorem parkLeavesRun : Obligations.ParkLeavesRun := by
  intro s o hs
  refine next_commitWith hs rfl rfl fun admitted => ?_
  have run : (s.leaveQueue o).stc.op = .run := by
    rw [leaveQueue_stc]
    exact List.mem_singleton.mp admitted
  show ((s.leaveQueue o).goTo .parked).deliver o okEmpty = _
  rw [goTo_of_run run, leaveQueue_stc, leaveQueue_out, leaveQueue_cap]
  rfl

/-! ### ALIGN (R109, R110, R192) -/

theorem ownEnterAlignment_unset {s : State} (args : List Byte) (unset : s.tbu.state = .unset) :
    ownEnterAlignment args s = (s, refusedWith .noTime) :=
  if_pos unset

theorem ownEnterAlignment_set {s : State} (args : List Byte) (set : s.tbu.state ≠ .unset) :
    ownEnterAlignment args s =
      ({ s with
          stc := { s.stc with
            op := .align
            beforeAlign := some (if s.stc.op = .parked then .parked else .config) }
          aln := { pending := none, log := [], total := 0 } }, okEmpty) :=
  if_neg set

theorem ownExitAlignment_back {s : State} {a : AlignedFrom} (args : List Byte)
    (remembered : s.stc.beforeAlign = some a) :
    ownExitAlignment args s =
      ({ s with
          stc := { s.stc with op := a.toOp, beforeAlign := none }
          aln := { s.aln with pending := none } }, okEmpty) := by
  rw [ownExitAlignment, acting, remembered]
  rfl

/-- Settles O14: ENTER_ALIGNMENT by whether the timebase is UNSET, EXIT_ALIGNMENT by the state remembered. -/
theorem alignmentIsEnteredAndLeft : Obligations.AlignmentIsEnteredAndLeft := by
  intro s o hs
  refine ⟨next_commitWith hs rfl rfl fun _ => ?_,
    fun a remembered => next_commitWith hs rfl rfl fun _ => ?_⟩
  · split
    · rename_i unset
      rw [ownEnterAlignment_unset _ (by rwa [leaveQueue_tbu])]
      rfl
    · rename_i set
      rw [ownEnterAlignment_set _ (by rwa [leaveQueue_tbu]), leaveQueue_stc]
  · rw [ownExitAlignment_back _ (by rwa [leaveQueue_stc]), leaveQueue_stc, leaveQueue_aln]
    rfl

/-! ### FAULT_HOLD left (R112, R180) -/

theorem ownClearFault_outside_hold {s : State} (args : List Byte) (outside : s.stc.op ≠ .faultHold) :
    ownClearFault args s = (s.clearFaultState, okEmpty) := by
  unfold ownClearFault acting
  dsimp only
  split
  · rename_i hold _
    exact absurd hold outside
  · rfl

/-- The part back in the state before fault, its fault state cleared, before any evaluation. -/
def State.returnTo (s : State) (h : HeldState) : State :=
  s.clearFaultState.setStc { s.stc with op := h.toOp, beforeFault := none }

/-- Back into RUN is an entry into RUN, which evaluates (R112). -/
theorem ownClearFault_back {s : State} {h : HeldState} (args : List Byte) (hold : s.stc.op = .faultHold)
    (remembered : s.stc.beforeFault = some h) :
    ownClearFault args s =
      (if h = .run then (s.returnTo h).evaluate else s.returnTo h, okEmpty) := by
  unfold ownClearFault acting
  dsimp only
  rw [hold, remembered]
  cases h <;> rfl

theorem clearFaultState_leaveQueue (s : State) (o : Origin) :
    (s.leaveQueue o).clearFaultState =
      { s.leaveQueue o with
        imn := { s.imn with flag := false, record := none, count := 0 }
        atn := { s.atn with flags := { s.atn.flags with fault := false } } } := by
  cases o <;> rfl

/-- Settles O15: every accepting state admits CLEAR_FAULT, which only FAULT_HOLD is left by. -/
theorem clearFaultReleases : Obligations.ClearFaultReleases := by
  intro s o hs
  have committed : exec (.clearFault o []) s =
      .next ((ownClearFault [] (s.leaveQueue o)).1.deliver o (ownClearFault [] (s.leaveQueue o)).2) :=
    congrArg Host.Outcome.next (commitWith_accepted hs rfl rfl rfl)
  rw [committed]
  refine ⟨fun outside => ?_, fun h hold remembered => ?_⟩
  · rw [ownClearFault_outside_hold _ (by rwa [leaveQueue_stc]), clearFaultState_leaveQueue]
  · rw [ownClearFault_back _ (by rwa [leaveQueue_stc]) (by rwa [leaveQueue_stc]), State.returnTo,
      clearFaultState_leaveQueue, leaveQueue_stc]
    rfl

/-! ### The contents discarded (R66, R114, R115, R121) -/

/-- What SOFT_RESET and ENTER_DORMANT discard holds nothing of the queue that the command has left. -/
theorem discardContents_leaveQueue (s : State) (o : Origin) (op : OpState) :
    (s.leaveQueue o).discardContents op = s.discardContents op := by
  cases o <;> rfl

/-- A result fills a RESERVED record alone; where every record is READY it goes nowhere (R157). -/
theorem deliver_of_ready {s : State} (ready : ∀ x ∈ s.rpu.outbox, x.result ≠ none) (o : Origin)
    (r : Result) : s.deliver o r = s := by
  cases o with
  | unit seq =>
    have kept : s.rpu.outbox.map (fillRecord seq r) = s.rpu.outbox :=
      (List.map_congr_left fun x hx => if_neg fun reserved => ready x hx reserved.2).trans (List.map_id _)
    rw [State.deliver, State.fill, kept, State.setRpu_self]
  | broadcast => rfl
  | group => rfl

/-- Settles O7: every accepting state admits SOFT_RESET, and the one record it may leave is READY. -/
theorem softResetDividesTheState : Obligations.SoftResetDividesTheState := by
  intro s o hs
  refine congrArg Host.Outcome.next ((commitWith_accepted hs rfl rfl rfl).trans ?_)
  rw [ownSoftReset, acting, discardContents_leaveQueue, deliver_of_ready]
  · cases o <;> rfl
  · cases o <;> simp [State.discardContents]

/-- Settles O8: no record is left for the owner's result. -/
theorem enterDormantDividesTheState : Obligations.EnterDormantDividesTheState := by
  intro s o hs
  refine next_commitWith hs rfl rfl fun _ => ?_
  rw [ownEnterDormant, acting, discardContents_leaveQueue, leaveQueue_tbu, deliver_of_ready]
  · rfl
  · simp [State.discardContents]

/-! ### DORMANT and WAKING left (R116, R118) -/

/-- The three ways in which a WAKE matches, with the mask and the addresses spelled out. -/
theorem wakesMe_iff (s : State) (f : Frame) :
    s.wakesMe f = true ↔
      (f.dest = 0 ∧ f.payload.length = 4 ∧
          (beNat f.payload).testBit s.lnk.unitAddress.toNat = true) ∨
        (f.payload = [] ∧ 1 ≤ f.dest.toNat ∧ f.dest.toNat ≤ 31 ∧
          f.dest.toNat = s.lnk.unitAddress.toNat) ∨
        (f.payload = [] ∧ 32 ≤ f.dest.toNat ∧ f.dest.toNat ≤ 47 ∧
          s.lnk.groups.getLsbD (f.dest.toNat - 32) = true) := by
  have mask (len : f.payload.length = 4) :
      selected f.payload s = (beNat f.payload).testBit s.lnk.unitAddress.toNat := by
    rw [selected, List.take_of_length_le len.le]
  simp only [State.wakesMe, State.isOwnAddress, State.isOwnGroup, Bool.or_eq_true, Bool.and_eq_true,
    beq_iff_eq, decide_eq_true_eq, List.length_eq_zero_iff, and_or_left, and_assoc]
  refine or_congr (and_congr_right fun _ => and_congr_right fun len => ?_) Iff.rfl
  rw [mask len]

/-- A WAKE that the part hears in DORMANT, where nothing is counted (R117). -/
theorem exec_wake_dormant {s : State} {h : Heard} {f : Frame} (hears : s.Hears h)
    (frame : h.frame? = some f) (kind : f.kind = 0x05#8) (dormant : s.stc.op = .dormant) :
    exec (.wake h) s = .next
      (if s.wakesMe f then s.heard.setStc { s.stc with op := .waking, wakeDelay := some 200000 }
       else s.heard) := by
  have row : exec (.wake h) s = .next (s.hear h State.endWake) := if_pos (isKind_of frame kind)
  have asleep : s.heard.endWake f = s.heard.handleWake f :=
    if_neg (by rw [heard_accepting, dormant]; decide)
  rw [row, hear_intact hears frame, asleep, State.handleWake]
  exact congrArg _ (if_congr (and_iff_right dormant) rfl rfl)

/-- Settles O9: the WAKE by whether it matches, the end of the delay by its own condition. -/
theorem wakeAndWakeDelay : Obligations.WakeAndWakeDelay := by
  refine ⟨fun s h f hears frame kind dormant => ?_, fun s => ?_⟩
  · rw [exec_wake_dormant hears frame kind dormant]
    exact congrArg _ (if_congr (wakesMe_iff s f) rfl rfl)
  · exact congrArg Host.Outcome.next (if_congr (and_congr_right fun _ => ranOut_iff _) rfl rfl)

end Sys2Proof.Machine
end

section
/-! SUPPORT. A fault at the symbol at which it is found (R142, R173): in a frame heard from its start
delimiter on, or in the frame in reception; and what its report does to the part (R111, R136, R173 to
R179). -/

namespace Sys2Proof.Machine

/-! ### The fault is found (R142, R143) -/

/-- A run that goes on with the frame in reception, at whose last symbol a fault is found. -/
theorem hear_fault_receiving {s : State} {h : Heard} {f : Reception} {k : FaultKind} {header : List Byte}
    {onIntact : State → Frame → State} (silent : s.sending = false)
    (receiving : s.lnk.receiver = .receiving) (reception : s.lnk.reception = some f)
    (age : f.age = h.since) (found : classifyFrom .receiving (some f) h.symbols = .fault k header) :
    s.hear h onIntact = (s.afterReceiving true .discarding none).takeFault k header := by
  have heard : (s.sending || s.inReset || s.breaksOff h) = false := by
    simp [silent, State.inReset, State.breaksOff, receiving, reception, age]
  have started : s.meetsStart h = true := by simp [State.meetsStart, receiving]
  have received : s.receive h = rxSymbols false .receiving (some f) h.symbols := by
    simp [State.receive, receiving, reception]
  obtain ⟨verdict, stands⟩ := rxSymbols_classified h.symbols (some f) _ found (by simp)
  rcases hx : rxSymbols false .receiving (some f) h.symbols with ⟨r, g, v⟩
  rw [hx] at verdict stands
  cases verdict
  obtain ⟨rfl, rfl⟩ : r = .discarding ∧ g = none := stands
  unfold State.hear
  rw [heard, started, received, hx]
  rfl

/-- A row at which a fault is found, either way: the receiver discards what follows, and the fault is
taken (R142). -/
theorem exec_fault {s : State} {h : Heard} {c : Instr} {k : FaultKind} {header : List Byte}
    (found : (c = .faultReport h ∧ s.Hears h ∧ classify h.symbols = .fault k header) ∨
      (heardOf c = some h ∧ c.wf = true ∧ s.sending = false ∧ s.lnk.receiver = .receiving ∧
        ∃ f, s.lnk.reception = some f ∧ f.age = h.since ∧
          classifyFrom .receiving (some f) h.symbols = .fault k header)) :
    exec c s = .next ((s.passed .discarding none).takeFault k header) := by
  rcases found with ⟨rfl, hears, fault⟩ | ⟨brings, wf, silent, receiving, f, reception, age, fault⟩
  · have row : exec (.faultReport h) s = .next (s.hear h State.endOther) :=
      if_pos (by rw [Heard.isFault, fault])
    rw [row, hear_fault hears fault]
    rfl
  · obtain ⟨onIntact, row⟩ := heardOf_exec brings wf
    rw [row, hear_fault_receiving silent receiving reception age fault]
    rfl

/-! ### The report (R111, R136, R173 to R178) -/

/-- The part with its staging queue voided: every UNIT command staged is answered with VOIDED (R136). -/
def State.voided (s : State) : State :=
  { s with
    cin := { s.cin with queue := [], expiry := none }
    rpu :=
      { outbox := s.rpu.outbox.map fun x =>
          if x.result = none ∧ ∃ c ∈ s.cin.queue, c.origin = .unit x.seq then
            { seq := x.seq, result := some { code := .voided, payload := [] } }
          else x } }

theorem voidStaging_eq (s : State) : s.voidStaging = s.voided := by
  rw [State.voidStaging, State.emptyQueue, fillAll_rpu]
  rfl

/-- The part after the steps of R173 that every mode takes: the staging queue voided, the record or the
count, FAULT, the quiesce. -/
def State.reported (s : State) (k : FaultKind) (header : List Byte) : State :=
  { s.voided with
    imn := s.imn.report (s.faultRecord k header s.cin.queue.length)
    atn := { s.atn with flags := { s.atn.flags with fault := true } } }

/-- In LATCHED mode STC's answer follows (R173, R178). -/
theorem reportFault_eq (s : State) (k : FaultKind) (header : List Byte) :
    s.reportFault k header =
      match s.imn.mode with
      | .latched => (s.reported k header).hold
      | .persistent => s.reported k header := by
  rw [State.reportFault, voidStaging_eq]
  rfl

/-- The mode is PERSISTENT, or FAULT_HOLD holds the part already: nothing more (R111, R178). -/
theorem reportFault_stays {s : State} (k : FaultKind) (header : List Byte)
    (stays : s.imn.mode = .persistent ∨ s.stc.op = .faultHold) :
    s.reportFault k header = s.reported k header := by
  rw [reportFault_eq]
  split
  · rename_i latched
    have hold : s.stc.op = .faultHold :=
      stays.resolve_left (by rw [latched]; decide)
    have held : (s.reported k header).stc.op.held = none := by
      show s.stc.op.held = none
      rw [hold]
      rfl
    rw [State.hold, held]
  · rfl

/-- FAULT_HOLD with the state remembered, RUN left and a pending sample discarded (R111, R192). -/
theorem hold_of_held {s : State} {held : HeldState} (remembers : s.stc.op.held = some held) :
    s.hold =
      { s with
        stc := { s.stc with op := .faultHold, beforeFault := some held }
        aln := { s.aln with pending := none }
        out := if s.stc.op = .run then s.out.cutPulses else s.out
        cap := if s.stc.op = .run then s.cap.closeWindows else s.cap } := by
  rw [State.hold, remembers]
  by_cases run : s.stc.op = .run
  · rw [goTo_of_run run, if_pos run, if_pos run]
    rfl
  · rw [goTo_outside_run run, if_neg run, if_neg run]
    rfl

theorem reportFault_holds {s : State} {held : HeldState} (k : FaultKind) (header : List Byte)
    (latched : s.imn.mode = .latched) (remembers : s.stc.op.held = some held) :
    s.reportFault k header =
      { s.reported k header with
        stc := { s.stc with op := .faultHold, beforeFault := some held }
        aln := { s.aln with pending := none }
        out := if s.stc.op = .run then s.out.cutPulses else s.out
        cap := if s.stc.op = .run then s.cap.closeWindows else s.cap } := by
  rw [reportFault_eq, latched]
  exact hold_of_held (s := s.reported k header) remembers

/-- Settles O52: the fault is taken behind the receiver's move to DISCARDING, in DORMANT without effect, in
the accepting states by its report. -/
theorem faultReportActs : Obligations.FaultReportActs := by
  intro s h c k header found
  rw [exec_fault found]
  refine ⟨s.passed .discarding none, rfl, fun dormant => ?_, fun accepts => ?_⟩
  · have ignored : ¬ (s.passed .discarding none).stc.op.accepting = true := by
      show ¬ s.stc.op.accepting = true
      rw [dormant]
      decide
    rw [State.takeFault, if_neg ignored]
  · have taken : (s.passed .discarding none).takeFault k header =
        (s.passed .discarding none).reportFault k header :=
      if_pos (accepting_of_mem accepts)
    rw [taken]
    exact ⟨fun stays => congrArg _ (reportFault_stays k header stays),
      fun held latched remembers => congrArg _ (reportFault_holds k header latched remembers)⟩

end Sys2Proof.Machine
end

section
/-! SUPPORT. The commit of staged command bytes (R130): the three judgements before the owner in their
order, the delivery of the result (R131), and the command of the lag (R135). -/

namespace Sys2Proof.Machine

/-- Settles O57: every row keeps the staging queue and the outbox sound, and so does the part's own clock
(`step_intake`). -/
theorem reservationsMatchTheStaged : Obligations.ReservationsMatchTheStaged :=
  step_intake

/-! ### A code that names no command (R130 step 1) -/

theorem ofCode_eq_none {b : Byte} (unnamed : ∀ c : Cmd, Cmd.code c ≠ b) : Cmd.ofCode b = none := by
  rw [Cmd.ofCode, List.find?_eq_none]
  intro c _
  simpa using unnamed c

/-- Command bytes that are missing, or begin with a code of no command, are an UNKNOWN_COMMAND. -/
theorem ofStaged_unknown (o : Origin) {bytes : List Byte}
    (unnamed : bytes = [] ∨ ∃ b rest, bytes = b :: rest ∧ ∀ c : Cmd, Cmd.code c ≠ b) :
    Instr.ofStaged o bytes = .unknownCommand o bytes ∧ codeUnknown bytes = true := by
  rcases unnamed with rfl | ⟨b, rest, rfl, unnamed⟩
  · exact ⟨rfl, rfl⟩
  · simp [Instr.ofStaged, codeUnknown, ofCode_eq_none unnamed]

theorem exec_unknownCommand {s : State} (o : Origin) {bytes : List Byte} (hs : s.commits = true)
    (unknown : codeUnknown bytes = true) :
    exec (.unknownCommand o bytes) s = .next (s.answered o (refusedWith .unknownCommand)) := by
  show execUnknownCommand o bytes s = _
  rw [execUnknownCommand, if_pos unknown, commitUnknown, if_pos hs]
  rfl

/-! ### Length and admissibility (R130 steps 2 and 3) -/

/-- Every command's row is a commit of that command, by an owner of its own. -/
theorem exec_ofCmd_commitWith (o : Origin) (args : List Byte) (c : Cmd) :
    ∃ owner, ∀ s, exec (Instr.ofCmd o args c) s = .next (commitWith c o args owner s) := by
  cases c <;> exact ⟨_, fun _ => rfl⟩

theorem lengthOk_iff (c : Cmd) (args : List Byte) :
    Cmd.lengthOk c args = true ↔
      (c = .echo ∧ 1 ≤ args.length ∧ args.length ≤ 40) ∨
        (c ≠ .echo ∧ args.length + 1 = Cmd.byteCount c) := by
  cases c <;> simp [Cmd.lengthOk]

theorem lengthOk_of_wrong {c : Cmd} {args : List Byte}
    (wrong : (c = .echo ∧ (args.length < 1 ∨ 40 < args.length)) ∨
      (c ≠ .echo ∧ args.length + 1 ≠ Cmd.byteCount c)) : Cmd.lengthOk c args = false := by
  rw [← Bool.not_eq_true, lengthOk_iff]
  rintro (⟨echo, low, high⟩ | ⟨other, fits⟩)
  · rcases wrong with ⟨_, out⟩ | ⟨other, _⟩
    · omega
    · exact other echo
  · rcases wrong with ⟨echo, _⟩ | ⟨_, differs⟩
    · exact other echo
    · exact differs fits

theorem notAdmitted_eq (op : OpState) :
    notAdmitted op = if op = .faultHold then .faultLatched else .wrongState := by
  cases op <;> rfl

section
variable {c : Cmd} {o : Origin} {args : List Byte} {s : State} (hs : s.commits = true)
  (length : Cmd.lengthOk c args = true)
include hs length

/-- A commit of good length that the operating state does not admit (R104). -/
theorem commitWith_notAdmitted (owner : State → State × Result)
    (refuses : s.stc.op ∉ Cmd.admittedIn c) :
    commitWith c o args owner s = s.answered o
      (refusedWith (if s.stc.op = .faultHold then .faultLatched else .wrongState)) := by
  have admitted : Cmd.admitted c s.stc.op = false := by simpa [Cmd.admitted] using refuses
  rw [commitWith, if_pos hs, ← notAdmitted_eq]
  simp [length, admitted, State.answered]

/-- A commit that is admitted, with a reserved byte or a time's top bit set (R130 step 4). -/
theorem commitWith_badArgument (owner : State → State × Result) (admits : s.stc.op ∈ Cmd.admittedIn c)
    (common : Cmd.commonOk c args = false) :
    commitWith c o args owner s = s.answered o (refusedWith .badArgument) := by
  have admitted : Cmd.admitted c s.stc.op = true := by simpa [Cmd.admitted] using admits
  rw [commitWith, if_pos hs]
  simp [length, admitted, common, State.answered]

end

/-! ### Common argument checks (R130 step 4, R198) -/

theorem commonOk_addEntry_eq_false {args : List Byte}
    (bad : (args.getD 2 0).msb = true ∨ args.getD 11 0 ≠ 0) : Cmd.commonOk .addEntry args = false := by
  show (!(args.getD 2 0).msb && args.getD 11 0 == 0) = false
  rcases bad with top | reserved
  · rw [top]
    rfl
  · rw [beq_false_of_ne reserved, Bool.and_false]

theorem commonOk_setTime_eq_false {args : List Byte} (top : (args.getD 0 0).msb = true) :
    Cmd.commonOk .setTime args = false :=
  congrArg (!·) top

/-- Settles O10, step by step: the code, the length, the state, the common arguments. -/
theorem judgementOrder : Obligations.JudgementOrder := by
  intro s o hs
  refine ⟨fun bytes unnamed => ?_, fun c args => ⟨Laws.ofStaged_code o c args, fun wrong => ?_,
    fun fits refuses => ?_⟩, fun args length admits bad => ?_, fun args length admits top => ?_⟩
  · obtain ⟨row, unknown⟩ := ofStaged_unknown o unnamed
    rw [row, exec_unknownCommand o hs unknown]
  · obtain ⟨owner, row⟩ := exec_ofCmd_commitWith o args c
    rw [row, commitWith_badLength hs (lengthOk_of_wrong wrong)]
  · obtain ⟨owner, row⟩ := exec_ofCmd_commitWith o args c
    rw [row, commitWith_notAdmitted hs ((lengthOk_iff c args).mpr fits) owner refuses]
  · exact congrArg Host.Outcome.next (commitWith_badArgument (c := .addEntry) hs
      (by simp [Cmd.lengthOk, Cmd.byteCount, length]) _ admits (commonOk_addEntry_eq_false bad))
  · exact congrArg Host.Outcome.next (commitWith_badArgument (c := .setTime) hs
      (by simp [Cmd.lengthOk, Cmd.byteCount, length]) _ admits (commonOk_setTime_eq_false top))

/-! ### The result (R131, R157) -/

/-- A UNIT command that is answered has left the staging queue, and its RESERVED record is READY. -/
theorem answered_unit (s : State) (seq : Byte) (r : Result) :
    s.answered (.unit seq) r =
      { s with
        cin :=
          let queue := s.cin.queue.filter fun x => x.origin != .unit seq
          { s.cin with queue := queue, expiry := if queue = [] then none else s.cin.expiry }
        rpu :=
          { outbox := s.rpu.outbox.map fun x =>
              if x.seq = seq ∧ x.result = none then { seq := x.seq, result := some r } else x } } := by
  simp only [State.answered, State.leaveQueue, Cin.idleIfEmpty, List.isEmpty_iff]
  rfl

/-- Settles O11: UNKNOWN_COMMAND is answered and does nothing else. -/
theorem resultsAreDelivered : Obligations.ResultsAreDelivered := by
  intro s bytes hs unknown
  refine ⟨exec_unknownCommand .broadcast hs unknown, exec_unknownCommand .group hs unknown, fun seq => ?_⟩
  rw [exec_unknownCommand (.unit seq) hs unknown, answered_unit]
  rfl

/-! ### The lag (R135) -/

theorem ownSetCommitLag_eq (n : Byte) (s : State) :
    ownSetCommitLag [n] s =
      if 7 < n.toNat ∨ (s.cin.lag ≠ 0 ∧ n ≠ 0 ∧ n.toNat ≠ s.cin.lag) then refusing .badArgument s
      else (s.setCin { s.cin with lag := n.toNat }, okEmpty) := by
  have zero : n.toNat ≠ 0 ↔ n ≠ 0 := by simp [BitVec.toNat_eq]
  simp only [← zero, ne_comm (a := n.toNat) (b := s.cin.lag)]
  rfl

theorem leaveQueue_lag (s : State) (o : Origin) : (s.leaveQueue o).cin.lag = s.cin.lag := by
  cases o <;> rfl

/-- Settles O21: the owner's table of lags, at the commit that it is admitted to. -/
theorem setCommitLagTable : Obligations.SetCommitLagTable := by
  intro s o n hs
  refine next_commitWith hs rfl rfl fun _ => ?_
  rw [ownSetCommitLag_eq, leaveQueue_lag]
  split <;> rfl

end Sys2Proof.Machine
end

section
/-! SUPPORT. Frames at their end (R124 to R128): those that are counted and no more, and a COMMAND through the
tests of its intake. -/

namespace Sys2Proof.Machine

/-! ### Frames that are counted (R127, R144) -/

theorem frame_of_isKind {h : Heard} {k : Byte} (kind : h.isKind k = true) :
    ∃ f, h.frame? = some f ∧ f.kind = k := by
  unfold Heard.isKind at kind
  split at kind
  · rename_i f frame
    exact ⟨f, frame, eq_of_beq kind⟩
  · cases kind

theorem frame_of_isOther {h : Heard} (other : h.isOther = true) : ∃ f, h.frame? = some f := by
  unfold Heard.isOther at other
  split at other
  · rename_i f frame
    exact ⟨f, frame⟩
  · cases other

/-- The row of an intact frame that the part hears hands the frame on. -/
theorem row_hands_on {s : State} {h : Heard} {f : Frame} {onIntact : State → Frame → State} {spelt : Bool}
    (hears : s.Hears h) (frame : h.frame? = some f) (spells : spelt = true) :
    (if spelt then Host.Outcome.next (s.hear h onIntact) else .refused .illFormed :
      Host.Outcome State Fault Refusal) = .next (onIntact s.heard f) := by
  rw [if_pos spells, hear_intact hears frame]

/-- FILL, a frame that is routed nowhere, or WAKE, heard to its end. -/
theorem exec_counted_row {s : State} {h : Heard} {c : Instr} (hears : s.Hears h) (wf : c.wf = true)
    (row : c = .fill h ∨ c = .otherIntactFrame h ∨ (c = .wake h ∧ s.stc.op ≠ .dormant)) :
    ∃ f, exec c s = .next (s.heard.endOther f) ∨
      (exec c s = .next (s.heard.endWake f) ∧ s.stc.op ≠ .dormant) := by
  rcases row with rfl | rfl | ⟨rfl, awake⟩
  · obtain ⟨f, frame, _⟩ := frame_of_isKind wf
    exact ⟨f, Or.inl (row_hands_on hears frame wf)⟩
  · obtain ⟨f, frame⟩ := frame_of_isOther wf
    exact ⟨f, Or.inl (row_hands_on hears frame wf)⟩
  · obtain ⟨f, frame, _⟩ := frame_of_isKind wf
    exact ⟨f, Or.inr ⟨row_hands_on hears frame wf, awake⟩⟩

/-- In an accepting state such a frame is counted, and what is ready commits (R127, R128). -/
theorem exec_counted_accepting {s : State} {h : Heard} {c : Instr} (hears : s.Hears h)
    (wf : c.wf = true)
    (row : c = .fill h ∨ c = .otherIntactFrame h ∨ (c = .wake h ∧ s.stc.op ≠ .dormant))
    (accepts : s.stc.op ∈ acceptingStates) : exec c s = .next s.heard.countAndCommit := by
  have accepting := accepting_of_mem accepts
  obtain ⟨f, counted | ⟨counted, _⟩⟩ := exec_counted_row hears wf row
  · rw [counted, State.endOther, if_pos (show s.heard.stc.op.accepting = true from accepting)]
  · rw [counted, State.endWake, if_pos (show s.heard.stc.op.accepting = true from accepting)]

/-- In DORMANT nothing is counted (R117). -/
theorem exec_counted_dormant {s : State} {h : Heard} {c : Instr} (hears : s.Hears h)
    (wf : c.wf = true)
    (row : c = .fill h ∨ c = .otherIntactFrame h ∨ (c = .wake h ∧ s.stc.op ≠ .dormant))
    (dormant : s.stc.op = .dormant) : exec c s = .next s.heard := by
  obtain ⟨f, counted | ⟨_, awake⟩⟩ := exec_counted_row hears wf row
  · have refuses : ¬ s.heard.stc.op.accepting = true := by
      rw [heard_accepting, dormant]
      decide
    rw [counted, State.endOther, if_neg refuses]
  · exact absurd dormant awake

/-- Settles O44: `CountedTo` is what counting and the chain of commits compute (`CountedTo_iff`). -/
theorem countedFrames : Obligations.CountedFrames := by
  refine ⟨fun s => ⟨_, (CountedTo_iff s _).mpr rfl⟩, fun s h c hears _ wf row =>
    ⟨exec_counted_dormant hears wf row, fun accepts => ?_⟩⟩
  rw [exec_counted_accepting hears wf row accepts]
  exact ⟨fun waits => congrArg _ (countAndCommit_waits s waits),
    fun t counted => congrArg _ ((CountedTo_iff _ t).mp counted).symm⟩

/-! ### Which COMMAND matches the part (R124 test 2, R145 to R147) -/

/-- The destination is the part's own non-zero unit address. -/
def State.Addressed (s : State) (f : Frame) : Prop :=
  1 ≤ f.dest.toNat ∧ f.dest.toNat = s.lnk.unitAddress.toNat

/-- A broadcast whose select mask has the part's bit set. -/
def State.Selected (s : State) (f : Frame) : Prop :=
  f.dest.toNat = 0 ∧ 4 ≤ f.payload.length ∧
    (beNat (f.payload.take 4)).testBit s.lnk.unitAddress.toNat = true

/-- The destination is a group of which the part is a member. -/
def State.InGroup (s : State) (f : Frame) : Prop :=
  32 ≤ f.dest.toNat ∧ f.dest.toNat ≤ 47 ∧ s.lnk.groups.getLsbD (f.dest.toNat - 32) = true

theorem isOwnAddress_iff (s : State) (f : Frame) : s.isOwnAddress f.dest = true ↔ s.Addressed f := by
  have small := s.lnk.unitAddress.isLt
  simp only [State.isOwnAddress, State.Addressed, decide_eq_true_eq]
  omega

theorem isOwnGroup_iff (s : State) (f : Frame) : s.isOwnGroup f.dest = true ↔ s.InGroup f := by
  simp [State.isOwnGroup, State.InGroup, and_assoc]

theorem commandOrigin_unit {s : State} {f : Frame} (own : s.Addressed f) :
    s.commandOrigin f = some (.unit f.seq) := by
  have other : f.dest ≠ 0 := fun zero => absurd own.1 (by simp [zero])
  rw [State.commandOrigin, if_neg other, if_pos ((isOwnAddress_iff s f).mpr own)]

theorem commandOrigin_broadcast {s : State} {f : Frame} (mask : s.Selected f) :
    s.commandOrigin f = some .broadcast := by
  obtain ⟨zero, long, bit⟩ := mask
  rw [State.commandOrigin, if_pos (BitVec.eq_of_toNat_eq zero), if_pos ⟨long, bit⟩]

theorem commandOrigin_group {s : State} {f : Frame} (member : s.InGroup f) :
    s.commandOrigin f = some .group := by
  have small := s.lnk.unitAddress.isLt
  have other : f.dest ≠ 0 := fun zero => absurd member.1 (by simp [zero])
  have foreign : ¬ s.isOwnAddress f.dest = true := by
    rw [isOwnAddress_iff]
    rintro ⟨_, same⟩
    have low := member.1
    omega
  rw [State.commandOrigin, if_neg other, if_neg foreign, if_pos ((isOwnGroup_iff s f).mpr member)]

theorem commandOrigin_none {s : State} {f : Frame} (foreign : ¬ s.Addressed f)
    (unselected : ¬ s.Selected f) (outside : ¬ s.InGroup f) : s.commandOrigin f = none := by
  rw [State.commandOrigin]
  split
  · rename_i zero
    exact if_neg fun mask => unselected ⟨by rw [zero]; rfl, mask⟩
  · rw [if_neg (mt (isOwnAddress_iff s f).mp foreign), if_neg (mt (isOwnGroup_iff s f).mp outside)]

/-! ### The tests of intake (R124 to R126) -/

/-- The reservation of a UNIT command (R126). -/
def State.reserveFor (s : State) : Origin → State
  | .unit seq => s.reserve seq
  | .broadcast => s
  | .group => s

theorem stage_eq (s : State) (o : Origin) (bytes : List Byte) :
    s.stage o bytes = (s.reserveFor o).setCin
      { s.cin with
        queue := s.cin.queue ++ [{ origin := o, bytes := bytes, remaining := s.cin.lag }] } := by
  cases o <;> rfl

theorem isDuplicate_unit_iff (s : State) (seq : Byte) :
    s.isDuplicate (.unit seq) = true ↔ ∃ x ∈ s.rpu.outbox, x.seq = seq := by
  simp [State.isDuplicate, Rpu.holds]

theorem noRoom_unit_iff (s : State) (seq : Byte) :
    s.noRoom (.unit seq) = true ↔ 8 ≤ s.cin.queue.length ∨ 16 ≤ s.rpu.outbox.length := by
  simp only [State.noRoom, Bool.or_eq_true, decide_eq_true_eq]
  rfl

theorem noRoom_broadcast_iff (s : State) : s.noRoom .broadcast = true ↔ 8 ≤ s.cin.queue.length := by
  simp only [State.noRoom, Bool.or_false, decide_eq_true_eq]
  rfl

theorem noRoom_group_iff (s : State) : s.noRoom .group = true ↔ 8 ≤ s.cin.queue.length := by
  simp only [State.noRoom, Bool.or_false, decide_eq_true_eq]
  rfl

theorem intake_unmatched {s : State} {f : Frame} (origin : s.commandOrigin f = none) :
    s.intake f = s := by
  rw [State.intake, origin]

section
variable {s : State} {f : Frame} {o : Origin} (origin : s.commandOrigin f = some o)
include origin

theorem intake_duplicate (duplicate : s.isDuplicate o = true) : s.intake f = s := by
  rw [State.intake, origin]
  exact if_pos duplicate

theorem intake_dropped (fresh : ¬ s.isDuplicate o = true) (full : s.noRoom o = true) :
    s.intake f = s.raiseCondition .dropped := by
  rw [State.intake, origin]
  exact (if_neg fresh).trans (if_pos full)

theorem intake_staged (fresh : ¬ s.isDuplicate o = true) (room : ¬ s.noRoom o = true) :
    s.intake f = s.stage o (commandBytes o f.payload) := by
  rw [State.intake, origin]
  exact (if_neg fresh).trans (if_neg room)

end

/-! ### A COMMAND at its end -/

/-- A COMMAND frame heard from its start delimiter on, in an accepting state. -/
structure State.HearsCommand (s : State) (h : Heard) (f : Frame) : Prop where
  hears : s.Hears h
  frame : h.frame? = some f
  kind : f.kind = 0x01#8
  accepts : s.stc.op ∈ acceptingStates

theorem exec_command_heard {s : State} {h : Heard} {f : Frame} (command : s.HearsCommand h f) :
    exec (.commandFrame h) s = .next (s.heard.countFrame.intake f).commitAll :=
  (row_hands_on command.hears command.frame (isKind_of command.frame command.kind)).trans
    (congrArg Host.Outcome.next (if_pos (accepting_of_mem command.accepts)))

theorem countFrame_queue_length (s : State) :
    s.heard.countFrame.cin.queue.length = s.cin.queue.length := by
  simp [State.countFrame, State.heard]

theorem restartExpiry_eq (c : Cin) :
    c.restartExpiry = { c with expiry := if c.queue = [] then none else some 200000 } := by
  simp only [Cin.restartExpiry, List.isEmpty_iff]
  rfl

/-- Where the head of the staging queue waits, only the expiry timer starts again. -/
theorem commitAll_waiting {u : State} (waits : ∀ c, u.cin.queue.head? = some c → c.remaining ≠ 0) :
    u.commitAll = u.setCin u.cin.restartExpiry := by
  rw [State.commitAll, commitChain_waits _ _ waits]

/-- What was staged before the frame still waits behind its counting. -/
theorem countFrame_waits {s : State} (waits : s.Waits) :
    ∀ c, s.heard.countFrame.cin.queue.head? = some c → c.remaining ≠ 0 := by
  intro c head
  change (s.cin.queue.map _).head? = some c at head
  rw [List.head?_map] at head
  obtain ⟨d, first, rfl⟩ := Option.map_eq_some_iff.mp head
  have two := waits d first
  show d.remaining - 1 ≠ 0
  omega

theorem commitAll_dropped {s : State} (waits : s.Waits) :
    (s.heard.countFrame.raiseCondition .dropped).commitAll = s.counted.raiseCondition .dropped := by
  rw [← countAndCommit_waits s waits, State.countAndCommit, commitAll_waiting (countFrame_waits waits)]
  exact commitAll_waiting (countFrame_waits waits)

/-- A command that joins the staging queue and waits there (R126). -/
theorem commitAll_staged {s : State} (o : Origin) (bytes : List Byte) (waits : s.Waits)
    (later : s.cin.queue ≠ [] ∨ 1 ≤ s.cin.lag) :
    (s.heard.countFrame.stage o bytes).commitAll = (s.counted.reserveFor o).setCin
      { s.counted.cin with
        queue := s.counted.cin.queue ++ [{ origin := o, bytes := bytes, remaining := s.cin.lag }]
        expiry := some 200000 } := by
  have behind : ∀ c, (s.heard.countFrame.stage o bytes).cin.queue.head? = some c →
      c.remaining ≠ 0 := by
    intro c head
    rw [stage_eq, State.setCin_cin, List.head?_append, Option.or_eq_some_iff] at head
    obtain first | ⟨alone, last⟩ := head
    · exact countFrame_waits waits c first
    · have empty : s.cin.queue = [] := List.map_eq_nil_iff.mp (List.head?_eq_none_iff.mp alone)
      cases last
      exact Nat.one_le_iff_ne_zero.mp (later.resolve_left (absurd empty))
  rw [commitAll_waiting behind, restartExpiry_eq, stage_eq, State.setCin_cin,
    if_neg (List.append_ne_nil_of_right_ne_nil _ (List.cons_ne_nil _ _))]
  cases o <;> rfl

section
variable {s : State} {h : Heard} {f : Frame} (command : s.HearsCommand h f) (waits : s.Waits)
include command waits

theorem exec_command_unmatched (origin : s.commandOrigin f = none) :
    exec (.commandFrame h) s = .next s.counted := by
  rw [exec_command_heard command, intake_unmatched (s := s.heard.countFrame) origin]
  exact congrArg _ (countAndCommit_waits s waits)

variable {o : Origin} (origin : s.commandOrigin f = some o)
include origin

theorem exec_command_duplicate (duplicate : s.isDuplicate o = true) :
    exec (.commandFrame h) s = .next s.counted := by
  rw [exec_command_heard command, intake_duplicate (s := s.heard.countFrame) origin duplicate]
  exact congrArg _ (countAndCommit_waits s waits)

theorem exec_command_dropped (fresh : ¬ s.isDuplicate o = true)
    (full : s.heard.countFrame.noRoom o = true) :
    exec (.commandFrame h) s = .next (s.counted.raiseCondition .dropped) := by
  rw [exec_command_heard command, intake_dropped (s := s.heard.countFrame) origin fresh full,
    commitAll_dropped waits]

theorem exec_command_staged (fresh : ¬ s.isDuplicate o = true)
    (room : ¬ s.heard.countFrame.noRoom o = true) (later : s.cin.queue ≠ [] ∨ 1 ≤ s.cin.lag) :
    exec (.commandFrame h) s = .next ((s.counted.reserveFor o).setCin
      { s.counted.cin with
        queue := s.counted.cin.queue ++
          [{ origin := o, bytes := commandBytes o f.payload, remaining := s.cin.lag }]
        expiry := some 200000 }) := by
  rw [exec_command_heard command, intake_staged (s := s.heard.countFrame) origin fresh room,
    commitAll_staged _ _ waits later]

end

/-- Settles O42: the tests of R124 in their order, for each destination that matches. -/
theorem commandFrameIsTakenIn : Obligations.CommandFrameIsTakenIn := by
  intro s h f hears frame kind accepts waits
  have command : s.HearsCommand h f := ⟨hears, frame, kind, accepts⟩
  have length := countFrame_queue_length s
  refine ⟨fun foreign unselected outside => ?_, fun own duplicate => ?_, fun own fresh full => ?_,
    fun own fresh staging outbox later => ?_, fun mask full => ?_, fun mask staging later => ?_,
    fun member full => ?_, fun member staging later => ?_⟩
  · exact exec_command_unmatched command waits (commandOrigin_none foreign unselected outside)
  · exact exec_command_duplicate command waits (commandOrigin_unit own)
      ((isDuplicate_unit_iff s f.seq).mpr duplicate)
  · exact exec_command_dropped command waits (commandOrigin_unit own)
      (mt (isDuplicate_unit_iff s f.seq).mp fresh)
      ((noRoom_unit_iff _ _).mpr (by rwa [length]))
  · refine exec_command_staged command waits (commandOrigin_unit own)
      (mt (isDuplicate_unit_iff s f.seq).mp fresh) (fun full => ?_) later
    rcases (noRoom_unit_iff _ _).mp full with full | full
    · omega
    · exact absurd outbox (not_lt.mpr full)
  · exact exec_command_dropped command waits (commandOrigin_broadcast mask) Bool.false_ne_true
      ((noRoom_broadcast_iff _).mpr (by rwa [length]))
  · exact exec_command_staged command waits (commandOrigin_broadcast mask) Bool.false_ne_true
      (fun full => by have := (noRoom_broadcast_iff _).mp full; omega) later
  · exact exec_command_dropped command waits (commandOrigin_group member) Bool.false_ne_true
      ((noRoom_group_iff _).mpr (by rwa [length]))
  · exact exec_command_staged command waits (commandOrigin_group member) Bool.false_ne_true
      (fun full => by have := (noRoom_group_iff _).mp full; omega) later

end Sys2Proof.Machine
end

section
/-! SUPPORT. What the handlings of POLL, SYNC and PROBE do not meet (R132): the staging queue with its expiry
timer. One lemma per operation that they are made of. -/

namespace Sys2Proof.Machine

/-! ### Records, edges and actions -/

@[simp] theorem raiseCondition_setCin (s : State) (x : Cin) (c : Condition) :
    (s.setCin x).raiseCondition c = (s.raiseCondition c).setCin x := rfl

@[simp] theorem handEvent_setCin (s : State) (x : Cin) (b : EventBody) :
    (s.setCin x).handEvent b = (s.handEvent b).setCin x := by
  unfold State.handEvent
  rw [State.setCin_evq]
  split <;> rfl

@[simp] theorem recordEdge_setCin (s : State) (x : Cin) (n : Fin 4) (edge : EdgeKind) :
    (s.setCin x).recordEdge n edge = (s.recordEdge n edge).setCin x := by
  unfold State.recordEdge
  rw [State.setCin_tbu]
  split
  · rfl
  · rw [handEvent_setCin]
    rfl

@[simp] theorem takeEdge_setCin (s : State) (x : Cin) (n : Fin 4) (edge : EdgeKind) :
    (s.setCin x).takeEdge n edge = (s.takeEdge n edge).setCin x := by
  show (if s.records n edge then (s.setCin x).recordEdge n edge else s.setCin x) = _
  rw [recordEdge_setCin]
  exact (apply_ite (State.setCin · x) _ _ _).symm

@[simp] theorem takeEdges_setCin (l : List WaitingEdge) (s : State) (x : Cin) :
    takeEdges l (s.setCin x) = (takeEdges l s).setCin x := by
  induction l generalizing s with
  | nil => rfl
  | cons w l ih => rw [takeEdges, takeEdge_setCin, ih, takeEdges]

@[simp] theorem passEdges_setCin (s : State) (x : Cin) :
    (s.setCin x).passEdges = s.passEdges.setCin x := by
  unfold State.passEdges
  exact takeEdges_setCin _ (s.setCap _) x

@[simp] theorem applyAction_setCin (s : State) (x : Cin) (a : Action) :
    (s.setCin x).applyAction a = (s.applyAction a).setCin x := by
  cases a <;> rfl

@[simp] theorem handAction_setCin (s : State) (x : Cin) (a : Action) :
    (s.setCin x).handAction a = (s.handAction a).setCin x := by
  rw [State.handAction, applyAction_setCin, passEdges_setCin, State.handAction]

@[simp] theorem handRecord_setCin (s : State) (x : Cin) (b : EventBody) :
    (s.setCin x).handRecord b = (s.handRecord b).setCin x := by
  rw [State.handRecord, handEvent_setCin, passEdges_setCin, State.handRecord]

/-! ### Dispatch -/

@[simp] theorem reportFired_setCin (s : State) (x : Cin) (e : Entry) (time : Nat) (late : Bool) :
    (s.setCin x).reportFired e time late = (s.reportFired e time late).setCin x := by
  rw [State.reportFired, handRecord_setCin]
  exact (apply_ite (State.setCin · x) _ _ _).symm

@[simp] theorem reportMissed_setCin (s : State) (x : Cin) (e : Entry) (time count : Nat) :
    (s.setCin x).reportMissed e time count = (s.reportMissed e time count).setCin x := by
  rw [State.reportMissed, handRecord_setCin, raiseCondition_setCin, State.reportMissed]

@[simp] theorem consume_setCin (s : State) (x : Cin) (e : Entry) (k : Nat) (fired : Bool) :
    (s.setCin x).consume e k fired = (s.consume e k fired).setCin x := rfl

@[simp] theorem fireOnTime_setCin (s : State) (x : Cin) (e : Entry) :
    (s.setCin x).fireOnTime e = (s.fireOnTime e).setCin x := by
  rw [State.fireOnTime, handAction_setCin, reportFired_setCin, consume_setCin, reportMissed_setCin,
    consume_setCin]
  exact (apply_ite (State.setCin · x) _ _ _).symm

@[simp] theorem fireBatch_setCin (due fuel : Nat) (s : State) (x : Cin) :
    fireBatch due fuel (s.setCin x) = (fireBatch due fuel s).setCin x := by
  induction fuel generalizing s with
  | zero => rfl
  | succ fuel ih =>
    unfold fireBatch
    rw [State.setCin_sct]
    split
    · rfl
    · split
      · rw [fireOnTime_setCin, ih]
      · rfl

@[simp] theorem settleLate_setCin (s : State) (x : Cin) (e : Entry) (t : Nat) :
    (s.setCin x).settleLate e t = (s.settleLate e t).setCin x := by
  have same : (s.setCin x).firesLate e t = s.firesLate e t := rfl
  unfold State.settleLate
  rw [same]
  dsimp only
  (repeat' split) <;>
    simp only [reportMissed_setCin, handAction_setCin, reportFired_setCin, consume_setCin]

@[simp] theorem latePass_setCin (t fuel : Nat) (s : State) (x : Cin) :
    latePass t fuel (s.setCin x) = (latePass t fuel s).setCin x := by
  induction fuel generalizing s with
  | zero => rfl
  | succ fuel ih =>
    unfold latePass
    rw [State.setCin_sct]
    split
    · rfl
    · split
      · rw [settleLate_setCin, ih]
      · rfl

@[simp] theorem settleTable_setCin (s : State) (x : Cin) (t : Nat) :
    (s.setCin x).settleTable t = (s.settleTable t).setCin x := by
  rw [State.settleTable, State.setCin_sct, latePass_setCin, State.onTimePass, State.setCin_sct,
    fireBatch_setCin, State.settleTable, State.onTimePass]

@[simp] theorem evaluate_setCin (s : State) (x : Cin) :
    (s.setCin x).evaluate = s.evaluate.setCin x := by
  unfold State.evaluate
  rw [State.setCin_tbu]
  split
  · rfl
  · rw [passEdges_setCin, settleTable_setCin]

/-! ### SYNC -/

theorem stepTo_setCin (s : State) (x : Cin) (now : Nat) (e : Int) (y : Tbu) :
    (s.setCin x).stepTo now e y = (s.stepTo now e y).setCin x := by
  have raised : (if s.tbu.state = .locked then
        ((s.setCin x).setTbu (({ y with localTime := some now }).acquire 1)).raiseCondition .timebase
      else (s.setCin x).setTbu (({ y with localTime := some now }).acquire 1)) =
      (if s.tbu.state = .locked then
        (s.setTbu (({ y with localTime := some now }).acquire 1)).raiseCondition .timebase
      else s.setTbu (({ y with localTime := some now }).acquire 1)).setCin x := by
    split <;> rfl
  unfold State.stepTo
  dsimp only
  rw [State.setCin_tbu, raised, jumpSample_setCin, State.setCin_stc, evaluate_setCin]
  exact (apply_ite (State.setCin · x) _ _ _).symm

theorem processSync_setCin (s : State) (x : Cin) (time : Nat) (seq : Byte) (since : Nat) :
    (s.setCin x).processSync time seq since = (s.processSync time seq since).setCin x := by
  unfold State.processSync
  dsimp only
  rw [State.setCin_tbu]
  split
  · rfl
  · split
    · rfl
    · rfl
    · exact stepTo_setCin _ _ _ _ _

theorem takeSync_setCin (s : State) (x : Cin) (f : Frame) (since : Nat) :
    (s.setCin x).takeSync f since = (s.takeSync f since).setCin x := by
  rw [takeSync_eq, takeSync_eq, processSync_setCin, State.setCin_tbu]
  split <;> rfl

/-! ### Handlings at the end of a frame -/

/-- A handling at the end of a frame that does not meet the staging queue, and in DORMANT and WAKING does
nothing (R144). -/
structure BesideIntake (handle : State → State) : Prop where
  beside : ∀ s x, handle (s.setCin x) = (handle s).setCin x
  deaf : ∀ s, s.stc.op.accepting = false → handle s = s

theorem BesideIntake.cin {handle : State → State} (b : BesideIntake handle) (s : State) :
    (handle s).cin = s.cin := by
  have beside := b.beside s s.cin
  rw [State.setCin_self] at beside
  rw [beside, State.setCin_cin]

theorem handlePoll_beside (f : Frame) : BesideIntake (State.handlePoll · f) where
  beside s x := by
    have same : (s.setCin x).pollsMe f = s.pollsMe f := rfl
    unfold State.handlePoll
    rw [same]
    split <;> rfl
  deaf s deaf := by simp [State.handlePoll, State.pollsMe, deaf]

theorem handleSync_beside (f : Frame) (since : Nat) :
    BesideIntake (State.handleSync · f since) where
  beside s x := by
    unfold State.handleSync
    rw [State.setCin_stc, takeSync_setCin]
    split <;> rfl
  deaf s deaf := by simp [State.handleSync, deaf]

theorem takeProbe_setCin (s : State) (x : Cin) (m : Nat) (seq : Byte) :
    (s.setCin x).takeProbe m seq = (s.takeProbe m seq).setCin x := by
  unfold State.takeProbe
  rw [State.setCin_tbu]
  split
  · rfl
  · split <;> rfl

theorem handleProbe_beside (f : Frame) : BesideIntake (State.handleProbe · f) where
  beside s x := by
    have same : (s.setCin x).probesMe f = s.probesMe f := rfl
    unfold State.handleProbe
    rw [State.setCin_stc, same, takeProbe_setCin]
    split <;> rfl
  deaf s deaf := by
    refine if_neg fun align => ?_
    rw [align.1] at deaf
    cases deaf

end Sys2Proof.Machine
end

section
/-! SUPPORT. What a chain of commits leaves of the link: LISTENING, with no reply waiting and no quiesce, so
that the frame whose counting it was can be handled in the state it leaves (R128, R132). -/

namespace Sys2Proof.Machine

/-- LNK behind a frame that was heard, no quiesce, and not WAKING. -/
structure AtRest (lnk : Lnk) (quiesce : Option Nat) (op : OpState) : Prop where
  receiver : lnk.receiver = .listening
  reception : lnk.reception = none
  transmitter : lnk.transmitter = .idle
  freeFor : lnk.freeFor = 0
  quietFor : lnk.quietFor = 0
  quiesce : quiesce = none
  awake : op ≠ .waking

/-- The part is in such a state. -/
def State.Rests (s : State) : Prop := AtRest s.lnk s.imn.quiesce s.stc.op

theorem AtRest.in_op {lnk : Lnk} {quiesce : Option Nat} {op : OpState} (h : AtRest lnk quiesce op)
    (entered : OpState) (awake : entered ≠ .waking) : AtRest lnk quiesce entered :=
  { h with awake := awake }

theorem AtRest.lnk_eq {lnk : Lnk} {quiesce : Option Nat} {op : OpState} (h : AtRest lnk quiesce op) :
    { lnk with
      receiver := .listening, reception := none, transmitter := lnk.transmitter.abandon, freeFor := 0
      quietFor := 0 } = lnk := by
  obtain ⟨receiver, reception, transmitter, freeFor, quietFor, -, -⟩ := h
  cases lnk
  simp only at receiver reception transmitter freeFor quietFor
  subst receiver reception transmitter freeFor quietFor
  rfl

theorem State.Rests.of_blocks {s t : State} (hs : s.Rests) (lnk : t.lnk = s.lnk) (imn : t.imn = s.imn)
    (stc : t.stc = s.stc) : t.Rests := by
  unfold State.Rests
  rw [lnk, imn, stc]
  exact hs

theorem abandon_idle {x : Transmitter} (silent : ∀ reply, x ≠ .sending reply) : x.abandon = .idle := by
  cases x with
  | idle => rfl
  | waiting => rfl
  | sending reply => exact absurd rfl (silent reply)

theorem heard_rests {s : State} {h : Heard} (hears : s.Hears h) : s.heard.Rests where
  receiver := rfl
  reception := rfl
  transmitter := by
    refine abandon_idle fun reply sending => ?_
    have silent := hears.silent
    rw [State.sending, sending] at silent
    cases silent
  freeFor := rfl
  quietFor := rfl
  quiesce := hears.quiesce
  awake := hears.awake

/-- A frame that begins when a part at rest has listened for `since` ticks is heard. -/
theorem State.Rests.hears {t : State} (rests : t.Rests) (h : Heard) (x : Cin) :
    ((t.setLnk { t.lnk with freeFor := h.since }).setCin x).Hears h where
  receiver := rests.receiver
  quiesce := rests.quiesce
  awake := rests.awake
  silent := by
    show t.sending = false
    simp [State.sending, rests.transmitter]
  began := le_refl _

/-- Hearing that frame leaves such a part as it was. -/
theorem State.Rests.heard {t : State} (rests : t.Rests) (n : Nat) (x : Cin) :
    ((t.setLnk { t.lnk with freeFor := n }).setCin x).heard = t.setCin x :=
  congrArg (fun l => (t.setLnk l).setCin x) rests.lnk_eq

/-! ### Owners -/

theorem ownAckAttention_rests {s : State} (args : List Byte) (hs : s.Rests) :
    (ownAckAttention args s).1.Rests := by
  unfold ownAckAttention
  dsimp only
  split <;> exact hs

theorem ownSetAttentionMask_rests {s : State} (args : List Byte) (hs : s.Rests) :
    (ownSetAttentionMask args s).1.Rests := by
  unfold ownSetAttentionMask
  dsimp only
  split <;> exact hs

theorem enterRun_rests {s : State} (hs : s.Rests) : s.enterRun.Rests :=
  State.Rests.of_blocks (s := s.setStc { s.stc with op := .run }) (hs.in_op .run (by decide))
    (by simp) (by simp) (by simp [State.enterRun])

theorem ownClearFault_rests {s : State} (args : List Byte) (hs : s.Rests) :
    (ownClearFault args s).1.Rests := by
  unfold ownClearFault acting
  dsimp only
  split
  · rename_i held _ _
    have back : (s.clearFaultState.setStc
        { s.stc with op := held.toOp, beforeFault := none }).Rests :=
      hs.in_op held.toOp (by cases held <;> decide)
    split
    · exact enterRun_rests back
    · exact back
  · exact hs

theorem ownPark_rests {s : State} (args : List Byte) (hs : s.Rests) : (ownPark args s).1.Rests := by
  show (s.goTo .parked).Rests
  unfold State.goTo
  dsimp only
  split <;> exact hs.in_op .parked (by decide)

theorem ownSoftReset_rests {s : State} (o : Origin) (args : List Byte) (hs : s.Rests) :
    (ownSoftReset o args s).1.Rests := by
  have reset : (s.discardContents .config).Rests := { hs.in_op .config (by decide) with quiesce := rfl }
  cases o <;> exact reset

theorem ownEnterDormant_rests {s : State} (args : List Byte) (hs : s.Rests) :
    (ownEnterDormant args s).1.Rests where
  receiver := hs.receiver
  reception := hs.reception
  transmitter := by
    show s.lnk.transmitter.discardWaiting = .idle
    rw [hs.transmitter, Transmitter.discardWaiting]
  freeFor := hs.freeFor
  quietFor := hs.quietFor
  quiesce := rfl
  awake := by
    show OpState.dormant ≠ .waking
    decide

theorem ownEnterAlignment_rests {s : State} (args : List Byte) (hs : s.Rests) :
    (ownEnterAlignment args s).1.Rests := by
  unfold ownEnterAlignment
  split
  · exact hs
  · exact hs.in_op .align (by decide)

theorem ownExitAlignment_rests {s : State} (args : List Byte) (hs : s.Rests) :
    (ownExitAlignment args s).1.Rests := by
  unfold ownExitAlignment acting
  dsimp only
  split
  · rename_i a _
    exact hs.in_op a.toOp (by cases a <;> decide)
  · exact hs

theorem ownSetCommitLag_rests {s : State} (args : List Byte) (hs : s.Rests) :
    (ownSetCommitLag args s).1.Rests := by
  unfold ownSetCommitLag
  dsimp only
  split <;> exact hs

theorem ownSetFaultMode_rests {s : State} (args : List Byte) (hs : s.Rests) :
    (ownSetFaultMode args s).1.Rests := by
  unfold ownSetFaultMode
  split <;> exact hs

theorem ownSetGroups_rests {s : State} (args : List Byte) (hs : s.Rests) :
    (ownSetGroups args s).1.Rests :=
  ⟨hs.receiver, hs.reception, hs.transmitter, hs.freeFor, hs.quietFor, hs.quiesce, hs.awake⟩

theorem ownReadConfig_rests {s : State} (args : List Byte) (hs : s.Rests) :
    (ownReadConfig args s).1.Rests := by
  unfold ownReadConfig
  split <;> exact hs

theorem ownSetTimebase_rests {s : State} (args : List Byte) (hs : s.Rests) :
    (ownSetTimebase args s).1.Rests := by
  unfold ownSetTimebase
  dsimp only
  split
  · exact hs
  · rename_i mode _
    have changed : ((s.changeMode mode).setSettings (argNat args 1 2) (argNat args 3 2)).Rests :=
      hs.of_blocks (by simp) (by simp) (by simp)
    split
    · exact hs
    · split
      · exact hs
      · exact changed

theorem ownSetOffset_rests {s : State} (args : List Byte) (hs : s.Rests) :
    (ownSetOffset args s).1.Rests := by
  unfold ownSetOffset
  dsimp only
  split
  · exact hs
  · split
    · exact hs
    · unfold acting
      dsimp only
      split
      · exact hs
      · exact hs.of_blocks (by simp) (by simp) (by simp)

theorem ownSetTime_rests {s : State} (args : List Byte) (hs : s.Rests) :
    (ownSetTime args s).1.Rests := by
  unfold ownSetTime
  split <;> exact hs

theorem ownConfigureChannel_rests {s : State} (args : List Byte) (hs : s.Rests) :
    (ownConfigureChannel args s).1.Rests := by
  unfold ownConfigureChannel
  split <;> exact hs

theorem ownConfigureInput_rests {s : State} (args : List Byte) (hs : s.Rests) :
    (ownConfigureInput args s).1.Rests := by
  unfold ownConfigureInput
  split <;> exact hs

theorem insertNew_rests {s : State} (e : Entry) (now : Nat) (hs : s.Rests) :
    (s.insertNew e now).1.Rests := by
  unfold State.insertNew
  dsimp only
  split
  · exact hs.of_blocks (by simp) (by simp) (by simp)
  · exact hs

theorem ownAddEntry_rests {s : State} (args : List Byte) (hs : s.Rests) :
    (ownAddEntry args s).1.Rests := by
  unfold ownAddEntry
  split
  · exact hs
  · split
    · exact hs
    · split
      · exact hs
      · rename_i now _ _ _ e _
        split_ifs
        exacts [hs, hs, hs, hs, insertNew_rests e now hs]

theorem ownCancelEntry_rests {s : State} (args : List Byte) (hs : s.Rests) :
    (ownCancelEntry args s).1.Rests := by
  unfold ownCancelEntry
  dsimp only
  (repeat' split) <;> exact hs

theorem ownCancelGroup_rests {s : State} (args : List Byte) (hs : s.Rests) :
    (ownCancelGroup args s).1.Rests := by
  unfold ownCancelGroup
  dsimp only
  split <;> exact hs

theorem ownQueryEntry_rests {s : State} (args : List Byte) (hs : s.Rests) :
    (ownQueryEntry args s).1.Rests := by
  unfold ownQueryEntry
  dsimp only
  (repeat' split) <;> exact hs

theorem ownListSchedule_rests {s : State} (args : List Byte) (hs : s.Rests) :
    (ownListSchedule args s).1.Rests := by
  unfold ownListSchedule
  dsimp only
  split <;> exact hs

theorem ownReadEvents_rests {s : State} (args : List Byte) (hs : s.Rests) :
    (ownReadEvents args s).1.Rests := by
  unfold ownReadEvents
  dsimp only
  split <;> exact hs

/-! ### Commits and their chain -/

theorem deliver_rests {s : State} (o : Origin) (r : Result) (hs : s.Rests) : (s.deliver o r).Rests :=
  hs.of_blocks (by simp) (by simp) (by simp)

theorem leaveQueue_rests {s : State} (o : Origin) (hs : s.Rests) : (s.leaveQueue o).Rests :=
  hs.of_blocks (by simp) (by simp) (by simp)

theorem commitWith_rests {c : Cmd} {o : Origin} {args : List Byte} {owner : State → State × Result}
    {s : State} (hs : s.Rests) (acts : ∀ {u : State}, u.Rests → (owner u).1.Rests) :
    (commitWith c o args owner s).Rests := by
  have left := leaveQueue_rests o hs
  unfold commitWith
  dsimp only
  repeat' split
  · exact deliver_rests o _ left
  · exact deliver_rests o _ left
  · exact deliver_rests o _ left
  · exact deliver_rests o _ (acts left)
  · exact hs

theorem commitUnknown_rests {s : State} (o : Origin) (hs : s.Rests) : (commitUnknown o s).Rests := by
  unfold commitUnknown
  split
  · exact deliver_rests o _ (leaveQueue_rests o hs)
  · exact hs

theorem commitRow_rests {s : State} (i : Instr) (hs : s.Rests) : (commitRow i s).Rests := by
  cases i with
  | getStatus o args => exact commitWith_rests hs fun hu => hu
  | getFaultRecord o args => exact commitWith_rests hs fun hu => hu
  | clearFault o args => exact commitWith_rests hs (ownClearFault_rests args)
  | softReset o args => exact commitWith_rests hs (ownSoftReset_rests o args)
  | echo o args => exact commitWith_rests hs fun hu => hu
  | ackAttention o args => exact commitWith_rests hs (ownAckAttention_rests args)
  | setAttentionMask o args => exact commitWith_rests hs (ownSetAttentionMask_rests args)
  | start o args => exact commitWith_rests hs enterRun_rests
  | park o args => exact commitWith_rests hs (ownPark_rests args)
  | resume o args => exact commitWith_rests hs enterRun_rests
  | enterDormant o args => exact commitWith_rests hs (ownEnterDormant_rests args)
  | enterAlignment o args => exact commitWith_rests hs (ownEnterAlignment_rests args)
  | exitAlignment o args => exact commitWith_rests hs (ownExitAlignment_rests args)
  | getAlignment o args => exact commitWith_rests hs fun hu => hu
  | setCommitLag o args => exact commitWith_rests hs (ownSetCommitLag_rests args)
  | setFaultMode o args => exact commitWith_rests hs (ownSetFaultMode_rests args)
  | setGroups o args => exact commitWith_rests hs (ownSetGroups_rests args)
  | readConfig o args => exact commitWith_rests hs (ownReadConfig_rests args)
  | setTimebase o args => exact commitWith_rests hs (ownSetTimebase_rests args)
  | setOffset o args => exact commitWith_rests hs (ownSetOffset_rests args)
  | setTime o args => exact commitWith_rests hs (ownSetTime_rests args)
  | setLateTolerance o args => exact commitWith_rests hs fun hu => hu
  | getTime o args => exact commitWith_rests hs fun hu => hu
  | configureChannel o args => exact commitWith_rests hs (ownConfigureChannel_rests args)
  | configureInput o args => exact commitWith_rests hs (ownConfigureInput_rests args)
  | addEntry o args => exact commitWith_rests hs (ownAddEntry_rests args)
  | cancelEntry o args => exact commitWith_rests hs (ownCancelEntry_rests args)
  | cancelGroup o args => exact commitWith_rests hs (ownCancelGroup_rests args)
  | flushSchedule o args => exact commitWith_rests hs fun hu => hu
  | queryEntry o args => exact commitWith_rests hs (ownQueryEntry_rests args)
  | listSchedule o args => exact commitWith_rests hs (ownListSchedule_rests args)
  | readEvents o args => exact commitWith_rests hs (ownReadEvents_rests args)
  | unknownCommand o bytes => exact commitUnknown_rests o hs
  | _ => exact hs

theorem commitChain_rests (fuel : Nat) {s : State} (hs : s.Rests) : (commitChain fuel s).Rests := by
  induction fuel generalizing s with
  | zero => exact hs
  | succ fuel ih =>
    unfold commitChain
    split
    · exact hs
    · split
      · exact ih (commitRow_rests _ hs)
      · exact hs

/-- A part at rest is at rest behind the counting of a frame. -/
theorem countAndCommit_rests {s : State} (hs : s.Rests) : s.countAndCommit.Rests :=
  commitChain_rests _ (s := s.countFrame) hs

end Sys2Proof.Machine
end

section
/-! SUPPORT. Commits at the end of a frame (R126, R128, R132): a COMMAND that commits at its own end, two
commands that commit one after the other, and both orders around a POLL, SYNC or PROBE. -/

namespace Sys2Proof.Machine

/-! ### A COMMAND that commits at its own end (R126, R128) -/

/-- The counting of a frame while nothing is staged. -/
theorem countFrame_empty {s : State} (empty : s.cin.queue = []) : s.countFrame = s := by
  have same : { s.cin with
      queue := s.cin.queue.map fun c => { c with remaining := c.remaining - 1 } } = s.cin := by
    rw [empty, List.map_nil, ← empty]
  exact congrArg s.setCin same

/-- A command alone in the staging queue, with nothing to wait for. -/
theorem commitAll_alone {u : State} {c : Staged} (alone : u.cin.queue = [c]) (ready : c.remaining = 0) :
    u.commitAll = (commitStaged c (u.setCin { u.cin with queue := [] })).setCin
      (commitStaged c (u.setCin { u.cin with queue := [] })).cin.restartExpiry := by
  have chain : commitChain 1 u = commitStaged c (u.setCin { u.cin with queue := [] }) := by
    unfold commitChain
    rw [alone]
    exact if_pos ready
  rw [State.commitAll, alone]
  exact congrArg (fun v => v.setCin v.cin.restartExpiry) chain

/-- At lag 0 a COMMAND accepted into an empty staging queue is the commit of its bytes. -/
theorem exec_command_commits {s : State} {h : Heard} {f : Frame} {o : Origin}
    (command : s.HearsCommand h f) (empty : s.cin.queue = []) (lag : s.cin.lag = 0)
    (origin : s.commandOrigin f = some o) (fresh : ¬ s.isDuplicate o = true)
    (room : ¬ s.noRoom o = true) :
    ∃ t u : State,
      exec (Instr.ofStaged o (commandBytes o f.payload)) (s.heard.reserveFor o) = .next u ∧
      exec (.commandFrame h) s = .next t ∧
      t = u.setCin { u.cin with expiry := if u.cin.queue = [] then none else some 200000 } := by
  refine ⟨_, _, exec_ofStaged _ _ _, exec_command_heard command, ?_⟩
  have counted : s.heard.countFrame = s.heard := countFrame_empty empty
  have alone : (s.heard.stage o (commandBytes o f.payload)).cin.queue =
      [{ origin := o, bytes := commandBytes o f.payload, remaining := s.cin.lag }] := by
    rw [stage_eq]
    exact congrArg (· ++ _) empty
  have popped : (s.heard.stage o (commandBytes o f.payload)).setCin
      { (s.heard.stage o (commandBytes o f.payload)).cin with queue := [] } = s.heard.reserveFor o := by
    rw [stage_eq, ← empty]
    cases o <;> rfl
  rw [counted, intake_staged (s := s.heard) origin fresh room, commitAll_alone alone lag, popped,
    restartExpiry_eq]
  rfl

theorem noRoom_of_empty {s : State} {o : Origin} (empty : s.cin.queue = [])
    (outbox : ∀ seq, o = .unit seq → s.rpu.outbox.length < 16) : ¬ s.noRoom o = true := by
  cases o with
  | unit seq =>
    rw [noRoom_unit_iff, empty]
    have short := outbox seq rfl
    simp only [List.length_nil]
    omega
  | broadcast => simp [noRoom_broadcast_iff, empty]
  | group => simp [noRoom_group_iff, empty]

/-! ### One commit after another (R105, R128, R129) -/

theorem leaveQueue_of_gone {s : State} {seq : Byte} (more : s.cin.queue ≠ [])
    (gone : ∀ c ∈ s.cin.queue, c.origin ≠ .unit seq) : s.leaveQueue (.unit seq) = s := by
  have kept : (s.cin.queue.filter fun c => c.origin != .unit seq) = s.cin.queue :=
    List.filter_eq_self.mpr fun c staged => by simpa using gone c staged
  have running : s.cin.queue.isEmpty = false := by simpa using more
  have same : ({ s.cin with queue := s.cin.queue } : Cin).idleIfEmpty = s.cin := by
    simp [Cin.idleIfEmpty, running]
  rw [State.leaveQueue, kept, same, State.setCin_self]

/-- A UNIT ECHO at the head of the staging queue answers with its data and does nothing else (R168). -/
theorem commitsTo_echo {s t : State} {seq : Byte} {data : List Byte} {rest : List Staged}
    (hs : s.commits = true)
    (queue : s.cin.queue = { origin := .unit seq, bytes := 0x05 :: data, remaining := 0 } :: rest)
    (low : 1 ≤ data.length) (high : data.length ≤ 40) (more : rest ≠ [])
    (gone : ∀ c ∈ rest, c.origin ≠ .unit seq)
    (others : ((s.setCin { s.cin with queue := rest }).fill seq
      { code := .ok, payload := data }).CommitsTo t) : s.CommitsTo t := by
  refine .commits s _ t _ rest queue rfl ?_ others
  have length : Cmd.lengthOk .echo data = true := (lengthOk_iff _ _).mpr (Or.inl ⟨rfl, low, high⟩)
  have left : (s.setCin { s.cin with queue := rest }).leaveQueue (.unit seq) =
      s.setCin { s.cin with queue := rest } := leaveQueue_of_gone more gone
  rw [show (0x05 : Byte) = Cmd.code .echo from rfl, Laws.ofStaged_code]
  exact congrArg Host.Outcome.next ((commitWith_accepted (s := s.setCin { s.cin with queue := rest })
    (o := .unit seq) (owner := ownEcho data) hs length rfl rfl).trans
      (congrArg (State.fill · seq { code := .ok, payload := data }) left))

/-! ### Both orders of handling and counting (R132) -/

theorem exec_poll_heard {s : State} {h : Heard} {f : Frame} (hears : s.Hears h)
    (frame : h.frame? = some f) (kind : h.isKind 0x02#8 = true) (order : PollOrder) :
    exec (.poll h order) s = .next (s.heard.endPoll order f) :=
  row_hands_on hears frame kind

/-- A row that is handled behind the commits of its counting. -/
theorem exec_commits_first {h : Heard} {row : Instr}
    (commits : row ∈ [Instr.poll h .commits, .sync h .commits, .probe h .commits])
    (wf : row.wf = true) :
    ∃ handle, BesideIntake handle ∧ ∀ s : State, s.Hears h → exec row s = .next
      (if s.stc.op.accepting then handle s.heard.countAndCommit else s.heard) := by
  simp only [List.mem_cons, List.not_mem_nil, or_false] at commits
  rcases commits with rfl | rfl | rfl <;> obtain ⟨f, frame, _⟩ := frame_of_isKind wf
  · exact ⟨_, handlePoll_beside f, fun _ hears => row_hands_on hears frame wf⟩
  · exact ⟨_, handleSync_beside f h.since, fun _ hears => row_hands_on hears frame wf⟩
  · exact ⟨_, handleProbe_beside f, fun _ hears => row_hands_on hears frame wf⟩

/-- A row that is handled before the commits of its counting. -/
theorem exec_handling_first {h : Heard} {row : Instr}
    (handling : row ∈ [Instr.poll h .handling, .sync h .handling, .probe h .handling])
    (wf : row.wf = true) :
    ∃ handle, BesideIntake handle ∧ ∀ s : State, s.Hears h → exec row s = .next
      (if s.stc.op.accepting then (handle s.heard).countAndCommit else s.heard) := by
  simp only [List.mem_cons, List.not_mem_nil, or_false] at handling
  rcases handling with rfl | rfl | rfl <;> obtain ⟨f, frame, _⟩ := frame_of_isKind wf
  · exact ⟨_, handlePoll_beside f, fun _ hears => row_hands_on hears frame wf⟩
  · exact ⟨_, handleSync_beside f h.since, fun _ hears => row_hands_on hears frame wf⟩
  · exact ⟨_, handleProbe_beside f, fun _ hears => row_hands_on hears frame wf⟩

/-- The staging queue with nothing in it and its timer idle. -/
def Cin.alone (c : Cin) : Cin :=
  { c with queue := [], expiry := none }

theorem countAndCommit_alone (s : State) (c : Cin) :
    (s.setCin c.alone).countAndCommit = s.setCin c.alone := rfl

theorem setCin_hears {s : State} {h : Heard} (hears : s.Hears h) (c : Cin) : (s.setCin c).Hears h :=
  ⟨hears.receiver, hears.quiesce, hears.awake, hears.silent, hears.began⟩

section
variable {s : State} {h : Heard} (hears : s.Hears h) (accepts : s.stc.op ∈ acceptingStates)
include hears accepts

/-- With the commits first, the frame is handled as if heard in the state that they left, but for what is
staged then. -/
theorem handled_behind_commits {t : State} {row : Instr}
    (commits : row ∈ [Instr.poll h .commits, .sync h .commits, .probe h .commits])
    (wf : row.wf = true) (counted : s.heard.CountedTo t) :
    ∃ v, exec row ((t.setLnk { t.lnk with freeFor := h.since }).setCin t.cin.alone) = .next v ∧
      exec row s = .next (v.setCin t.cin) := by
  obtain ⟨handle, beside, row_eq⟩ := exec_commits_first commits wf
  obtain rfl := (CountedTo_iff _ t).mp counted
  have rests : s.heard.countAndCommit.Rests := countAndCommit_rests (heard_rests hears)
  generalize behind : s.heard.countAndCommit = t at counted rests ⊢
  refine ⟨(handle t).setCin t.cin.alone, ?_, ?_⟩
  · rw [row_eq _ (rests.hears h _), rests.heard, countAndCommit_alone, beside.beside]
    split
    · rfl
    · rename_i deaf
      rw [beside.deaf t (by simpa using deaf)]
  · rw [row_eq s hears, if_pos (accepting_of_mem accepts), behind, State.setCin_twice, ← beside.cin t,
      State.setCin_self]

/-- With the handling first, the commits are made in the state that it left. -/
theorem commits_behind_handling {row : Instr}
    (handling : row ∈ [Instr.poll h .handling, .sync h .handling, .probe h .handling])
    (wf : row.wf = true) :
    ∃ u, exec row (s.setCin s.cin.alone) = .next u ∧
      ∀ t, (u.setCin s.cin).CountedTo t → exec row s = .next t := by
  obtain ⟨handle, beside, row_eq⟩ := exec_handling_first handling wf
  have accepting := accepting_of_mem accepts
  refine ⟨(handle s.heard).setCin s.cin.alone, ?_, fun t counted => ?_⟩
  · rw [row_eq _ (setCin_hears hears _), State.setCin_stc, if_pos accepting]
    show Host.Outcome.next (handle (s.heard.setCin s.cin.alone)).countAndCommit = _
    rw [beside.beside, countAndCommit_alone]
  · have queue : s.cin = (handle s.heard).cin := (beside.cin s.heard).symm
    rw [CountedTo_iff, State.setCin_twice, queue, State.setCin_self] at counted
    rw [row_eq s hears, if_pos accepting, counted]

end

/-! ### An expiry between a POLL's handling and its counting (R164) -/

theorem expireStaging_early {s : State} (early : s.cin.expiry ≠ some 0) : s.expireStaging = s :=
  if_neg (by simpa [ranOut] using early)

theorem expireStaging_due {s : State} (due : s.cin.expiry = some 0) :
    s.expireStaging = (s.setRpu
      { outbox := s.rpu.outbox.map fun x =>
          if x.result = none ∧ ∃ c ∈ s.cin.queue, c.origin = .unit x.seq then
            { seq := x.seq, result := some { code := .expired, payload := [] } }
          else x }).setCin s.cin.alone := by
  rw [State.expireStaging, due, State.emptyQueue, fillAll_rpu]
  rfl

section
variable {s : State} {h : Heard} (hears : s.Hears h) (wf : (Instr.poll h .handlingThenExpiry).wf = true)
include hears wf

theorem exec_poll_expiry_early (early : s.cin.expiry ≠ some 0) :
    exec (.poll h .handlingThenExpiry) s = exec (.poll h .handling) s := by
  obtain ⟨f, frame, _⟩ := frame_of_isKind wf
  have cin : (s.heard.handlePoll f).cin = s.cin := handlePoll_cin _ f
  have idle : (s.heard.handlePoll f).expireStaging = s.heard.handlePoll f :=
    expireStaging_early (by rwa [cin])
  rw [exec_poll_heard hears frame wf, exec_poll_heard hears frame wf, State.endPoll, State.endPoll,
    idle]

theorem exec_poll_expiry_due (accepts : s.stc.op ∈ acceptingStates) (due : s.cin.expiry = some 0) :
    ∃ u, exec (.poll h .handling) (s.setCin s.cin.alone) = .next u ∧
      exec (.poll h .handlingThenExpiry) s = .next (u.setRpu
        { outbox := u.rpu.outbox.map fun x =>
            if x.result = none ∧ ∃ c ∈ s.cin.queue, c.origin = .unit x.seq then
              { seq := x.seq, result := some { code := .expired, payload := [] } }
            else x }) := by
  obtain ⟨f, frame, _⟩ := frame_of_isKind wf
  have accepting := accepting_of_mem accepts
  have cin : (s.heard.handlePoll f).cin = s.cin := handlePoll_cin _ f
  refine ⟨(s.heard.handlePoll f).setCin s.cin.alone, ?_, ?_⟩
  · rw [exec_poll_heard (setCin_hears hears _) frame wf, State.endPoll]
    refine congrArg _ ((if_pos accepting).trans ?_)
    show ((s.heard.setCin s.cin.alone).handlePoll f).countAndCommit = _
    rw [(handlePoll_beside f).beside, countAndCommit_alone]
  · rw [exec_poll_heard hears frame wf, State.endPoll]
    refine congrArg _ ((if_pos accepting).trans ?_)
    show (s.heard.handlePoll f).expireStaging.countAndCommit = _
    rw [expireStaging_due (by rwa [cin]), countAndCommit_alone, cin]
    rfl

end

/-- Two ECHO commands that are ready at the end of a FILL, and a broadcast behind them that is not. -/
theorem exec_fill_echoes {s : State} {h : Heard} {a b : List Byte} {x y : Byte} {third : Staged}
    (hears : s.Hears h) (wf : (Instr.fill h).wf = true) (accepts : s.stc.op ∈ acceptingStates)
    (distinct : x ≠ y) (lowA : 1 ≤ a.length) (highA : a.length ≤ 40) (lowB : 1 ≤ b.length)
    (highB : b.length ≤ 40) (waits : 2 ≤ third.remaining) (broadcast : third.origin = .broadcast)
    (queue : s.cin.queue =
      [{ origin := .unit x, bytes := 0x05 :: a, remaining := 1 },
       { origin := .unit y, bytes := 0x05 :: b, remaining := 0 }, third])
    (outbox : s.rpu.outbox = [{ seq := x, result := none }, { seq := y, result := none }]) :
    exec (.fill h) s = .next
      { s.heard with
        cin :=
          { s.cin with
            queue := [{ third with remaining := third.remaining - 1 }], expiry := some 200000 }
        rpu :=
          { outbox :=
              [{ seq := x, result := some { code := .ok, payload := a } },
               { seq := y, result := some { code := .ok, payload := b } }] } } := by
  have commits : s.heard.commits = true := by
    simp [State.commits, State.inReset, State.heard, accepting_of_mem accepts]
  have filled : (s.rpu.outbox.map (fillRecord x { code := .ok, payload := a })).map
        (fillRecord y { code := .ok, payload := b }) =
      [{ seq := x, result := some { code := .ok, payload := a } },
       { seq := y, result := some { code := .ok, payload := b } }] := by
    simp [outbox, fillRecord, distinct.symm]
  rw [exec_counted_accepting hears wf (Or.inl rfl) accepts, ← filled]
  refine congrArg _ ((CountedTo_iff _ _).mp ⟨{ s.heard with
      cin := { s.cin with queue := [{ third with remaining := third.remaining - 1 }] }
      rpu :=
        { outbox := (s.rpu.outbox.map (fillRecord x { code := .ok, payload := a })).map
            (fillRecord y { code := .ok, payload := b }) } }, ?_, rfl⟩).symm
  rw [show s.heard.cin.queue = _ from queue]
  refine commitsTo_echo commits rfl lowA highA (List.cons_ne_nil _ _) (by simp [distinct.symm, broadcast])
    (commitsTo_echo commits rfl lowB highB (List.cons_ne_nil _ _) (by simp [broadcast])
      (.waits _ fun c head => ?_))
  cases head
  show third.remaining - 1 ≠ 0
  omega

/-- Settles O43: a COMMAND that commits at its own end, both orders around the other frames, and one commit
after another. -/
theorem commitsAtTheEndOfAFrame : Obligations.CommitsAtTheEndOfAFrame := by
  refine ⟨fun s h f hears frame kind accepts empty lag low own fresh room => ?_,
    fun s h f hears frame kind accepts empty lag => ⟨fun zero long bit => ?_, fun low high bit => ?_⟩,
    fun s h hears accepts => ⟨fun row t commits wf counted =>
      handled_behind_commits hears accepts commits wf counted, fun row handling wf =>
      commits_behind_handling hears accepts handling wf, fun wf =>
      ⟨exec_poll_expiry_early hears wf, exec_poll_expiry_due hears wf accepts⟩⟩,
    fun s h a b x y third hears wf accepts distinct lowA highA lowB highB waits broadcast queue outbox =>
      exec_fill_echoes hears wf accepts distinct lowA highA lowB highB waits broadcast queue outbox⟩
  · have alone : { s.cin with queue := [] } = s.cin := by rw [← empty]
    rw [alone]
    refine exec_command_commits ⟨hears, frame, kind, accepts⟩ empty lag
      (commandOrigin_unit ⟨low, own⟩) ?_ (noRoom_of_empty empty fun _ _ => room)
    rw [isDuplicate_unit_iff]
    rintro ⟨x, held, same⟩
    exact fresh x held same
  · exact exec_command_commits ⟨hears, frame, kind, accepts⟩ empty lag
      (commandOrigin_broadcast ⟨by rw [zero]; rfl, long, bit⟩) Bool.false_ne_true
      (noRoom_of_empty empty fun _ unit => by cases unit)
  · exact exec_command_commits ⟨hears, frame, kind, accepts⟩ empty lag
      (commandOrigin_group ⟨low, high, bit⟩) Bool.false_ne_true
      (noRoom_of_empty empty fun _ unit => by cases unit)

end Sys2Proof.Machine
end

section
/-! SUPPORT. A run of bytes and the symbol that ends it: the end delimiter that closes a frame, intact or
faulted, and the other symbols at which a fault is found (R140 to R142, R172). -/

namespace Sys2Proof.Machine

/-! ### The symbol that ends a run -/

/-- What a run spells is what the receiver finds at its last symbol. -/
theorem classifyFrom_last (r : Receiver) (f : Option Reception) (x : LineSymbol) :
    classifyFrom r f [x] = (rxSymbol false r f x).2.2 := by
  unfold classifyFrom
  rcases rxSymbol false r f x with ⟨r', f', v⟩
  cases v <;> rfl

/-- The length field, where it has been received, is at most 56 (R142). -/
def lengthFieldOk (bytes : List Byte) : Prop :=
  ∀ b, bytes[3]? = some b → b.toNat ≤ 56

/-- Bytes at which nothing is found, and the symbol behind them. -/
theorem classify_ended {bytes : List Byte} (fits : bytes.length ≤ 62) (lengthOk : lengthFieldOk bytes)
    (x : LineSymbol) :
    classify (bytes.map LineSymbol.byte ++ [x]) =
      (rxSymbol false .receiving (some (Reception.after bytes)) x).2.2 := by
  rw [classify_bytes bytes _ fits lengthOk, classifyFrom_last]

/-- The same where the symbol behind them is a byte too. -/
theorem classify_byte_ended {bytes : List Byte} (fits : bytes.length ≤ 62)
    (lengthOk : lengthFieldOk bytes) (b : Byte) :
    classify ((bytes ++ [b]).map LineSymbol.byte) = ((Reception.after bytes).takeByte b).2.2 := by
  rw [List.map_append]
  exact classify_ended fits lengthOk (.byte b)

/-! ### The end delimiter (R141, R142) -/

/-- A frame's header: what stands in front of the length field, and what follows it. -/
theorem header_of_length {bytes : List Byte} {len : Byte} (field : bytes[3]? = some len) :
    ∃ dest kind seq rest, bytes = dest :: kind :: seq :: len :: rest := by
  match bytes, field with
  | dest :: kind :: seq :: b :: rest, field =>
    cases field
    exact ⟨dest, kind, seq, rest, rfl⟩

/-- Header and payload are fed into the check word, and nothing behind them (R141). -/
theorem after_check {bytes : List Byte} {len : Byte} (field : bytes[3]? = some len)
    (long : len.toNat + 4 ≤ bytes.length) :
    (Reception.after bytes).check = crc (bytes.take (len.toNat + 4)) := by
  have count : covered bytes = len.toNat + 4 := by
    rw [covered, field]
    show min bytes.length (4 + len.toNat) = _
    omega
  rw [Reception.after, count]

theorem close_short {f : Reception} (short : f.bytes.length < 4) :
    f.close.2.2 = .fault .length (f.bytes.take 4) := by
  rw [List.take_of_length_le (by omega)]
  unfold Reception.close
  split
  · rename_i header
    rw [header] at short
    simp only [List.length_cons] at short
    omega
  · rfl

section
variable {f : Reception} {dest kind seq len : Byte} {rest : List Byte}
  (header : f.bytes = dest :: kind :: seq :: len :: rest)
include header

theorem close_wrong_length (wrong : rest.length ≠ len.toNat + 2) :
    f.close.2.2 = .fault .length (f.bytes.take 4) := by
  unfold Reception.close
  rw [header]
  dsimp only
  rw [if_neg wrong]

theorem close_damaged (whole : rest.length = len.toNat + 2)
    (differs : beNat (rest.drop len.toNat) ≠ f.check.toNat) :
    f.close.2.2 = .fault .checkWord (f.bytes.take 4) := by
  unfold Reception.close
  rw [header]
  dsimp only
  rw [if_pos whole, if_neg differs]

theorem close_intact (whole : rest.length = len.toNat + 2)
    (matching : beNat (rest.drop len.toNat) = f.check.toNat) :
    f.close.2.2 =
      .intact { dest := dest, kind := kind, seq := seq, payload := rest.take len.toNat } := by
  unfold Reception.close
  rw [header]
  dsimp only
  rw [if_pos whole, if_pos matching]

end

/-! ### Frames read back (R140 to R142) -/

theorem Frame.length_toNat {f : Frame} (fits : f.payload.length ≤ 56) :
    (BitVec.ofNat 8 f.payload.length).toNat = f.payload.length := by
  rw [BitVec.toNat_ofNat]
  exact Nat.mod_eq_of_lt (by omega)

/-- The check word that a frame carries is the one over its header and payload. -/
theorem Frame.check_word (f : Frame) : beNat (beBytes 2 (crc f.covered).toNat) = (crc f.covered).toNat := by
  rw [beNat_beBytes]
  exact Nat.mod_eq_of_lt (crc f.covered).isLt

/-- Settles O41: the bytes of the frame find nothing, and its end delimiter closes it with the length and
the check word that it was sent with. -/
theorem framesAreReadBack : Obligations.FramesAreReadBack := by
  intro f fits since
  have len := Frame.length_toNat fits
  have total : f.bytes.length = f.payload.length + 6 := by
    simp [Frame.bytes, Frame.covered, beBytes_length]
  have header : f.bytes = f.dest :: f.kind :: f.seq :: BitVec.ofNat 8 f.payload.length ::
      (f.payload ++ beBytes 2 (crc f.covered).toNat) := rfl
  have field : f.bytes[3]? = some (BitVec.ofNat 8 f.payload.length) := rfl
  have lengthOk : lengthFieldOk f.bytes := fun b hb => by
    cases field.symm.trans hb
    omega
  have sent : f.bytes.take (f.payload.length + 4) = f.covered := List.take_left' rfl
  have check : (Reception.after f.bytes).check = crc f.covered := by
    rw [after_check field (by omega), len, sent]
  have closed : classify f.line = .intact f := by
    rw [Frame.line, classify_ended (by omega) lengthOk]
    refine (close_intact (f := Reception.after f.bytes) header ?_ ?_).trans ?_
    · rw [len, List.length_append, beBytes_length]
    · rw [len, check, List.drop_left, Frame.check_word]
    · rw [len, List.take_left]
  rw [Heard.frame?, closed]

/-! ### Faults (R142, R172) -/

/-- At the 63rd byte a frame is too long, whatever it holds. -/
theorem classify_oversize {bytes : List Byte} (length : bytes.length = 63)
    (lengthOk : lengthFieldOk bytes) :
    classify (bytes.map LineSymbol.byte) = .fault .oversize (bytes.take 4) := by
  obtain ⟨front, b, rfl⟩ : ∃ front b, bytes = front ++ [b] :=
    (List.eq_nil_or_concat' bytes).resolve_left (by rintro rfl; cases length)
  have long : front.length = 62 := by simpa using length
  have frontOk : lengthFieldOk front := fun len field =>
    lengthOk len (by rw [List.getElem?_append_left (by omega), field])
  have found : (Reception.after front).takeByte b =
      (.discarding, none, .fault .oversize ((front ++ [b]).take 4)) :=
    if_pos (show 62 ≤ front.length by omega)
  rw [classify_byte_ended (by omega) frontOk, found]

/-- A length field above 56 is a fault at the length byte itself. -/
theorem classify_length_above {bytes : List Byte} (length : bytes.length = 4)
    (above : ¬ lengthFieldOk bytes) :
    classify (bytes.map LineSymbol.byte) = .fault .length bytes := by
  match bytes, length with
  | [dest, kind, seq, len], _ =>
    have large : 56 < len.toNat := by
      by_contra small
      refine above fun b field => ?_
      cases field
      omega
    refine (classify_byte_ended (bytes := [dest, kind, seq]) (by simp) (by simp [lengthFieldOk])
      len).trans ?_
    have found : (Reception.after [dest, kind, seq]).takeByte len =
        (.discarding, none, .fault .length [dest, kind, seq, len]) := if_pos ⟨rfl, large⟩
    rw [found]

/-- An end delimiter behind fewer than six bytes leaves no room for header and check word. -/
theorem classify_stop_early {bytes : List Byte} (short : bytes.length < 6)
    (lengthOk : lengthFieldOk bytes) :
    classify (bytes.map LineSymbol.byte ++ [.stop]) = .fault .length (bytes.take 4) := by
  rw [classify_ended (by omega) lengthOk]
  by_cases header : bytes.length < 4
  · exact close_short (f := Reception.after bytes) header
  · obtain ⟨len, field⟩ : ∃ len, bytes[3]? = some len :=
      ⟨_, List.getElem?_eq_getElem (by omega)⟩
    obtain ⟨dest, kind, seq, rest, rfl⟩ := header_of_length field
    refine close_wrong_length (f := Reception.after _) rfl ?_
    simp only [List.length_cons] at short
    omega

/-- Settles O53, fault by fault. -/
theorem faultsAreClassified : Obligations.FaultsAreClassified := by
  intro bytes
  refine ⟨fun fits lengthOk => ⟨?_, ?_, ?_⟩, classify_length_above, classify_oversize,
    classify_stop_early, fun len field small long fits => ?_⟩
  · exact classify_ended fits lengthOk .invalid
  · exact classify_ended fits lengthOk .start
  · exact classify_ended fits lengthOk .idle
  · have lengthOk : lengthFieldOk bytes := fun b hb => by
      cases field.symm.trans hb
      exact small
    rw [classify_ended fits lengthOk]
    obtain ⟨dest, kind, seq, rest, rfl⟩ := header_of_length field
    simp only [List.length_cons] at long
    refine ⟨fun wrong => close_wrong_length (f := Reception.after _) rfl fun whole => wrong ?_,
      fun whole differs => close_damaged (f := Reception.after _) rfl ?_ ?_⟩
    · simp only [List.length_cons]
      omega
    · simp only [List.length_cons] at whole
      omega
    · rw [after_check field (by omega)]
      exact differs

end Sys2Proof.Machine
end

section
/-! SUPPORT. Runs that the part does not hear from their start delimiter on: passed over in quiesce and in
WAKING, ignored in DISCARDING, met by no LISTENING receiver (R118, R140, R143, R153; log 1), or going on with
the frame in reception; and the transmitter's own moves (R152, R153). -/

namespace Sys2Proof.Machine

/-! ### What the receiver makes of such a run (R140, R143) -/

/-- Where a run that is passed over leaves the receiver: LISTENING if its last symbol ends DISCARDING. -/
def passedMode (x : LineSymbol) : Receiver :=
  if x = .stop ∨ x = .idle then .listening else .discarding

section
variable {s : State} {h : Heard} {bytes : List Byte} {x : LineSymbol}
  (symbols : h.symbols = bytes.map .byte ++ [x])
include symbols

theorem receive_passed_over (receiver : s.lnk.receiver = .listening) (met : s.startMet h.since = true)
    (unheard : s.startHeard h.since = false) : s.receive h = (passedMode x, none, .nothing) := by
  have run : s.receive h = rxSymbols true .listening s.lnk.reception (.start :: h.symbols) := by
    simp [State.receive, receiver, met, unheard]
  rw [run, symbols]
  exact rxSymbols_discarding true bytes x none

theorem receive_discarding (receiver : s.lnk.receiver = .discarding) :
    s.receive h = (passedMode x, none, .nothing) := by
  by_cases met : s.startMet h.since = true
  · have run : s.receive h = rxSymbols (!s.startHeard h.since) .discarding s.lnk.reception
        (.start :: h.symbols) := by
      simp [State.receive, receiver, met]
    rw [run, symbols]
    exact rxSymbols_discarding _ bytes x none
  · have run : s.receive h = rxSymbols (!s.hearsStart) .discarding s.lnk.reception h.symbols := by
      simp [State.receive, receiver, met]
    rw [run, symbols]
    exact rxSymbols_discarding _ bytes x _

/-- A start delimiter that no receiver was there to take: only one at the end of the run is taken. -/
theorem receive_unmet (receiver : s.lnk.receiver = .listening) (unmet : s.startMet h.since = false) :
    s.receive h =
      if x = .start then
        if s.hearsStart then (.receiving, some .fresh, .nothing) else (.discarding, none, .nothing)
      else (.listening, none, .nothing) := by
  have run : s.receive h = rxSymbols (!s.hearsStart) .listening s.lnk.reception h.symbols := by
    simp [State.receive, receiver, unmet]
  rw [run, symbols, rxSymbols_listening]
  cases s.hearsStart <;> rfl

/-- A run whose own start delimiter was not taken brings one only at its end. -/
theorem meetsStart_unmet (receiver : s.lnk.receiver = .listening) (unmet : s.startMet h.since = false) :
    s.meetsStart h = true ↔ x = .start := by
  simp [State.meetsStart, receiver, unmet, symbols, eq_comm]

/-- What is passed over leaves the part with the receiver's mode and no reply waiting. -/
theorem hear_passed (onIntact : State → Frame → State) (silent : s.sending = false)
    (on : s.lnk.receiver ≠ .off) (whole : s.breaksOff h = false) (started : s.meetsStart h = true)
    (received : s.receive h = (passedMode x, none, .nothing)) :
    (endsRun h → s.hear h onIntact = s.passed .listening none) ∧
      (¬ endsRun h → s.hear h onIntact = s.passed .discarding none) := by
  rw [hear_nothing onIntact silent on whole received, started, endsRun_iff h bytes x symbols,
    passedMode]
  exact ⟨fun ends => by rw [if_pos ends]; rfl, fun goesOn => by rw [if_neg goesOn]; rfl⟩

end

theorem startMet_iff (s : State) (since : Nat) :
    s.startMet since = true ↔ since ≤ s.lnk.freeFor + s.lnk.quietFor := decide_eq_true_iff

theorem startHeard_eq_false {s : State} {since : Nat}
    (quiet : s.imn.quiesce.isSome ∨ s.stc.op = .waking ∨ s.lnk.freeFor < since) :
    s.startHeard since = false := by
  obtain quiet | waking | early := quiet
  · simp [State.startHeard, State.hearsStart, Option.isNone_eq_false_iff.mpr quiet]
  · simp [State.startHeard, State.hearsStart, waking]
  · simp [State.startHeard, early]

/-- A run that began before the part was there to listen changes LNK alone: a start delimiter at its end is
met as any other, and without one a waiting reply goes on waiting (R140, R143, R152). -/
theorem hear_unmet {s : State} {h : Heard} {bytes : List Byte} {x : LineSymbol}
    (symbols : h.symbols = bytes.map .byte ++ [x]) (onIntact : State → Frame → State)
    (silent : s.sending = false) (receiver : s.lnk.receiver = .listening)
    (unmet : s.startMet h.since = false) :
    s.hear h onIntact =
      if x = .start then
        if s.hearsStart then s.passed .receiving (some .fresh) else s.passed .discarding none
      else s.setLnk
        { s.lnk with receiver := .listening, reception := none, freeFor := 0, quietFor := 0 } := by
  have on : s.lnk.receiver ≠ .off := by
    rw [receiver]
    decide
  have whole : s.breaksOff h = false := by simp [State.breaksOff, receiver]
  have received := receive_unmet symbols receiver unmet
  have started := meetsStart_unmet symbols receiver unmet
  by_cases last : x = .start
  · rw [if_pos last] at received ⊢
    split at received
    · rename_i hears
      rw [hear_nothing onIntact silent on whole received, started.mpr last, if_pos hears]
      rfl
    · rename_i quiet
      rw [hear_nothing onIntact silent on whole received, started.mpr last, if_neg quiet]
      rfl
  · rw [if_neg last] at received ⊢
    rw [hear_nothing onIntact silent on whole received,
      Bool.eq_false_iff.mpr fun met => last (started.mp met)]
    rfl

/-- Settles O45: every row that brings a run of symbols brings bytes and one more symbol (`run_shape`), and
the receiver's mode decides what becomes of them. -/
theorem quietFramesArePassedOver : Obligations.QuietFramesArePassedOver := by
  intro s h c brings wf
  obtain ⟨onIntact, row⟩ := heardOf_exec brings wf
  obtain ⟨bytes, x, symbols⟩ := run_shape h.symbols _ (heardOf_classified brings wf)
  simp only [row s, Host.Outcome.next.injEq]
  refine ⟨fun sending => hear_deaf (.inl sending), fun f receiving reception age => ?_,
    fun silent listening met quiet => ?_, fun silent discarding => ?_,
    fun silent listening unmet => ?_⟩
  · exact hear_broken onIntact (by simp [State.breaksOff, receiving, reception, age.symm])
  · have met := (startMet_iff s h.since).mpr met
    exact hear_passed symbols onIntact silent (by rw [listening]; decide)
      (by simp [State.breaksOff, listening]) (by simp [State.meetsStart, listening, met])
      (receive_passed_over symbols listening met (startHeard_eq_false quiet))
  · exact hear_passed symbols onIntact silent (by rw [discarding]; decide)
      (by simp [State.breaksOff, discarding]) (by simp [State.meetsStart, discarding])
      (receive_discarding symbols discarding)
  · have unmet : s.startMet h.since = false := by
      rw [Bool.eq_false_iff, ne_eq, startMet_iff]
      omega
    have last : h.symbols.getLast? = some x := by simp [symbols]
    rw [hear_unmet symbols onIntact silent listening unmet, last, Option.some.injEq, ne_eq,
      Option.some.injEq]
    refine ⟨fun other => if_neg other, fun start => ?_⟩
    rw [if_pos start]
    refine ⟨fun quiesce awake => if_pos ((hearsStart_iff s).mpr ⟨quiesce, awake⟩), fun quiet => ?_⟩
    refine if_neg fun hears => ?_
    obtain ⟨quiesce, awake⟩ := (hearsStart_iff s).mp hears
    obtain some | waking := quiet
    · simp [quiesce] at some
    · exact awake waking

/-! ### A run that goes on with the frame in reception (R143) -/

/-- Once something is found, what was found says where the receiver stands. -/
theorem standsAfter_eq {a b : Receiver × Option Reception × Verdict} (ha : standsAfter a)
    (hb : standsAfter b) (same : a.2.2 = b.2.2) (found : b.2.2 ≠ .nothing) : a = b := by
  obtain ⟨r, f, v⟩ := a
  obtain ⟨r', f', w⟩ := b
  cases same
  cases v with
  | nothing => exact absurd rfl found
  | intact x =>
    obtain ⟨rfl, rfl⟩ : r = .listening ∧ f = none := ha
    obtain ⟨rfl, rfl⟩ : r' = .listening ∧ f' = none := hb
    rfl
  | fault k header =>
    obtain ⟨rfl, rfl⟩ : r = .discarding ∧ f = none := ha
    obtain ⟨rfl, rfl⟩ : r' = .discarding ∧ f' = none := hb
    rfl

/-- The receiver makes the same of a run whatever the ticks since its start delimiter. -/
theorem rxSymbols_age {l : List LineSymbol} {age : Nat} (found : classify l ≠ .nothing) :
    rxSymbols false .receiving (some { Reception.fresh with age := age }) l =
      rxSymbols false .receiving (some .fresh) l := by
  have spelt : classifyFrom .receiving (some { Reception.fresh with age := age }) l = classify l :=
    classifyFrom_age l _ _ _ _
  obtain ⟨verdict, stands⟩ := rxSymbols_classified l _ _ spelt found
  obtain ⟨verdict', stands'⟩ := rxSymbols_classified l _ _ rfl found
  exact standsAfter_eq stands stands' (verdict.trans verdict'.symm) (verdict' ▸ found)

/-- A run that goes on with a frame whose start delimiter alone is in reception is heard as one that the
receiver takes from that start delimiter on. -/
theorem hear_continued {s u : State} {h : Heard} (onIntact : State → Frame → State)
    (silent : s.sending = false) (receiving : s.lnk.receiver = .receiving)
    (reception : s.lnk.reception = some { Reception.fresh with age := h.since }) (hears : u.Hears h)
    (found : classify h.symbols ≠ .nothing)
    (behind : s.afterReceiving true = u.afterReceiving true) :
    s.hear h onIntact = u.hear h onIntact := by
  have heard : (s.sending || s.inReset || s.breaksOff h) = false := by
    simp [silent, State.inReset, State.breaksOff, receiving, reception]
  have started : s.meetsStart h = true := by simp [State.meetsStart, receiving]
  have received : s.receive h = u.receive h := by
    rw [receive_heard hears, ← rxSymbols_age (age := h.since) found]
    simp [State.receive, receiving, reception]
  unfold State.hear
  rw [heard, hears.on, started, hears.started, received, behind]
  rfl

/-! ### The transmitter (R152, R153) -/

section
variable {s : State} {reply : List Byte} {age draw : Nat}

theorem startTransmission_waiting (waiting : s.lnk.transmitter = .waiting reply age draw) :
    s.startTransmission =
      if 400 ≤ age ∧ age ≤ 1200 then
        s.setLnk { s.lnk with transmitter := .sending reply, freeFor := 0, quietFor := 0 }
      else s := by
  rw [State.startTransmission, waiting]
  rfl

theorem startTransmission_idle (idle : s.lnk.transmitter = .idle) : s.startTransmission = s := by
  rw [State.startTransmission, idle]

theorem startTransmission_sending (sending : s.lnk.transmitter = .sending reply) :
    s.startTransmission = s := by
  rw [State.startTransmission, sending]

theorem sending_iff (s : State) : s.sending = true ↔ ∃ reply, s.lnk.transmitter = .sending reply := by
  unfold State.sending
  cases s.lnk.transmitter with
  | idle => simp
  | waiting => simp
  | sending reply => simp

theorem endTransmission_silent (silent : s.sending = false) : s.endTransmission = s :=
  if_neg (by simp [silent])

theorem abandonReply_waiting (waiting : s.lnk.transmitter = .waiting reply age draw)
    (listening : s.lnk.receiver = .listening) (hears : s.hearsStart = true) :
    s.abandonReply = s.setLnk
      { s.lnk with
        receiver := .receiving, reception := some .fresh, transmitter := .idle, freeFor := 0
        quietFor := 0 } := by
  rw [State.abandonReply, waiting, listening, hears]
  simp [State.afterReceiving, rxSymbol, waiting, Transmitter.abandon]

theorem abandonReply_none (none : ∀ reply age draw, s.lnk.transmitter ≠ .waiting reply age draw) :
    s.abandonReply = s := by
  unfold State.abandonReply
  split
  · rename_i reply age draw waiting
    exact absurd waiting (none reply age draw)
  · rfl
  · rfl

end

/-! ### The end of DISCARDING (R143) -/

theorem endDiscarding_discarding {s : State} (discarding : s.lnk.receiver = .discarding)
    (ending : RunEnd) :
    s.endDiscarding ending = s.setLnk
      { s.lnk with receiver := .listening, reception := none, freeFor := 0, quietFor := 0 } := by
  unfold State.endDiscarding
  rw [discarding]
  cases ending <;> rfl

theorem endDiscarding_elsewhere {s : State} (elsewhere : s.lnk.receiver ≠ .discarding)
    (ending : RunEnd) : s.endDiscarding ending = s := by
  unfold State.endDiscarding
  split
  · rename_i discarding
    exact absurd discarding elsewhere
  all_goals rfl

/-- Settles O47: the transmitter mode by mode, DISCARDING, and the frame in reception (`hear_continued`). -/
theorem transmitterAndDiscarding : Obligations.TransmitterAndDiscarding := by
  intro s reply age draw ending
  refine ⟨fun waiting => ⟨congrArg _ (startTransmission_waiting waiting), ?_,
      fun listening quiesce awake => congrArg Host.Outcome.next
        (abandonReply_waiting waiting listening ((hearsStart_iff s).mpr ⟨quiesce, awake⟩))⟩,
    fun sending => ⟨congrArg Host.Outcome.next (if_pos ((sending_iff s).mpr ⟨reply, sending⟩)),
      congrArg _ (startTransmission_sending sending), ?_⟩,
    fun idle => ⟨congrArg _ (startTransmission_idle idle), ?_, ?_⟩,
    fun discarding => congrArg _ (endDiscarding_discarding discarding ending),
    fun elsewhere => congrArg _ (endDiscarding_elsewhere elsewhere ending),
    fun h c brings wf silent quiesce awake receiving reception => ?_⟩
  · exact congrArg _ (endTransmission_silent (by simp [State.sending, waiting]))
  · exact congrArg _ (abandonReply_none (by simp [sending]))
  · exact congrArg _ (endTransmission_silent (by simp [State.sending, idle]))
  · exact congrArg _ (abandonReply_none (by simp [idle]))
  · obtain ⟨onIntact, row⟩ := heardOf_exec brings wf
    rw [row, row]
    exact congrArg _ (hear_continued onIntact silent receiving reception
      ⟨rfl, quiesce, awake, silent, le_refl _⟩ (heardOf_classified brings wf) rfl)

end Sys2Proof.Machine
end

section
/-! SUPPORT. A PROBE at its end (R146, R193), and who is answered: the transmitter leaves IDLE only for a
POLL that RPU handles (R151). -/

namespace Sys2Proof.Machine

/-! ### A PROBE heard where no command commits (R127, R144) -/

/-- In either order, the PROBE is handled in the part that has counted it: handling does not meet the
staging queue (R132, R196). -/
theorem exec_probe_heard {s : State} {h : Heard} {f : Frame} (order : TakenFirst) (hears : s.Hears h)
    (frame : h.frame? = some f) (kind : f.kind = 0x04#8) (accepts : s.stc.op ∈ acceptingStates)
    (waits : s.Waits) : exec (.probe h order) s = .next (s.counted.handleProbe f) := by
  have row : exec (.probe h order) s = .next (s.hear h (State.endProbe order)) :=
    if_pos (isKind_of frame kind)
  have beside := handleProbe_beside f
  have accepting : s.heard.stc.op.accepting = true := accepting_of_mem accepts
  rw [row, hear_intact hears frame]
  cases order with
  | commits =>
    rw [← countAndCommit_waits s waits]
    exact congrArg _ (if_pos accepting)
  | handling =>
    have behind : (s.heard.handleProbe f).countAndCommit = s.counted.handleProbe f := by
      rw [countAndCommit_behind waits (beside.cin s.heard)]
      exact (beside.beside s.heard s.counted.cin).symm
    rw [← behind]
    exact congrArg _ (if_pos accepting)

/-! ### The pending sample (R146, R193) -/

/-- What matches: the payload of a valid time, to all units, to the part's own address, or to a group of
which it is a member. -/
theorem probesMe_iff (s : State) (f : Frame) :
    s.probesMe f = true ↔
      f.payload.length = 8 ∧ beNat f.payload < 2 ^ 63 ∧
        (f.dest = 0 ∨
          (1 ≤ f.dest.toNat ∧ f.dest.toNat ≤ 31 ∧ f.dest.toNat = s.lnk.unitAddress.toNat) ∨
          (32 ≤ f.dest.toNat ∧ f.dest.toNat ≤ 47 ∧
            s.lnk.groups.getLsbD (f.dest.toNat - 32) = true)) := by
  have timeEnd : Config.timeEnd = 2 ^ 63 := rfl
  simp only [State.probesMe, State.isOwnAddress, State.isOwnGroup, Bool.and_eq_true,
    Bool.or_eq_true, beq_iff_eq, decide_eq_true_eq, or_assoc, and_assoc]
  rw [timeEnd]
  exact ⟨fun ⟨dest, length, time⟩ => ⟨length, time, dest⟩,
    fun ⟨length, time, dest⟩ => ⟨dest, length, time⟩⟩

theorem takeProbe_late {s : State} {m now : Nat} {seq : Byte} (time : s.tbu.localTime = some now)
    (late : m ≤ now) : s.takeProbe m seq = s.setAln (s.aln.logOutcome seq .tooLate) := by
  rw [State.takeProbe, time]
  exact if_pos late

theorem takeProbe_first {s : State} {m now : Nat} {seq : Byte} (time : s.tbu.localTime = some now)
    (future : ¬ m ≤ now) (free : s.aln.pending = none) :
    s.takeProbe m seq = s.setAln { s.aln with pending := some { time := m, seq := seq } } := by
  rw [State.takeProbe, time, free]
  exact if_neg future

theorem takeProbe_supersedes {s : State} {m now : Nat} {seq : Byte} {p : Sample}
    (time : s.tbu.localTime = some now) (future : ¬ m ≤ now) (pending : s.aln.pending = some p) :
    s.takeProbe m seq = s.setAln
      { s.aln.logOutcome p.seq .superseded with pending := some { time := m, seq := seq } } := by
  rw [State.takeProbe, time, pending]
  exact if_neg future

/-- Settles O51: the counted part handles the PROBE, which matches in ALIGN or has no effect. -/
theorem probeSetsTheSample : Obligations.ProbeSetsTheSample := by
  intro s h f order now hears frame kind accepts waits time log
  rw [exec_probe_heard order hears frame kind accepts waits]
  have same : s.counted.probesMe f = s.probesMe f := rfl
  refine ⟨fun idle => congrArg _ (if_neg ?_), fun align matching => congrArg _ ?_⟩
  · rintro ⟨align, matches_⟩
    rw [same, probesMe_iff] at matches_
    exact idle.elim (fun outside => outside align) (fun foreign => foreign matches_)
  · rw [State.handleProbe, if_pos ⟨align, same.trans ((probesMe_iff s f).mpr matching)⟩]
    split
    · rename_i late
      rw [takeProbe_late (s := s.counted) time late]
      exact congrArg _ (logOutcome_eq s.aln f.seq .tooLate log)
    · rename_i future
      split
      · rename_i free
        exact takeProbe_first (s := s.counted) time future free
      · rename_i p pending
        rw [takeProbe_supersedes (s := s.counted) time future pending]
        exact congrArg _ (congrArg
          (fun a : Aln => { a with pending := some { time := beNat f.payload, seq := f.seq } })
          (logOutcome_eq s.aln p.seq .superseded log))

/-! ### Who is answered (R144, R151) -/

/-- The part's answer to a POLL: to its own non-zero address, one byte long, in an accepting state. -/
def State.Answers (s : State) (f : Frame) : Prop :=
  f.payload.length = 1 ∧ s.Addressed f ∧ s.stc.op ∈ acceptingStates

theorem OpState.mem_accepting {op : OpState} (h : op.accepting = true) : op ∈ acceptingStates := by
  revert h
  cases op <;> decide

/-- A POLL that the part does not answer is not handled, before its counting or behind it. -/
theorem handlePoll_unanswered {s u : State} {f : Frame} (accepts : s.stc.op ∈ acceptingStates)
    (unanswered : ¬ s.Answers f) (address : u.lnk.unitAddress = s.lnk.unitAddress) :
    u.handlePoll f = u := by
  refine if_neg fun polls => unanswered ?_
  simp only [State.pollsMe, Bool.and_eq_true, decide_eq_true_eq, isOwnAddress_iff] at polls
  obtain ⟨⟨_, own⟩, length⟩ := polls
  exact ⟨length, ⟨own.1, address ▸ own.2⟩, accepts⟩

/-- Changes that hand no reply to the transmitter leave it IDLE. -/
theorem Acts.keeps_quiet {s t : State} (h : Acts False s t) (idle : s.lnk.transmitter = .idle) :
    t.lnk.transmitter = .idle :=
  h.keeps (P := fun u => u.lnk.transmitter = .idle) Act.keeps_quiet idle

/-- In each order, the end of a POLL that is not answered is its counting, with the staging expiry where
that falls between. -/
theorem endPoll_unanswered {s : State} {f : Frame} (order : PollOrder) (unanswered : ¬ s.Answers f)
    (idle : s.lnk.transmitter = .idle) : (s.endPoll order f).lnk.transmitter = .idle := by
  unfold State.endPoll
  split
  · rename_i accepting
    have accepts := OpState.mem_accepting accepting
    cases order with
    | commits =>
      dsimp only
      rw [handlePoll_unanswered accepts unanswered (countAndCommit_address s)]
      exact (countAndCommit_acts s).keeps_quiet idle
    | handling =>
      dsimp only
      rw [handlePoll_unanswered accepts unanswered rfl]
      exact (countAndCommit_acts s).keeps_quiet idle
    | handlingThenExpiry =>
      dsimp only
      rw [handlePoll_unanswered accepts unanswered rfl]
      exact ((expireStaging_acts s).trans (countAndCommit_acts _)).keeps_quiet idle
  · exact idle

/-- Hearing takes the transmitter out of IDLE only by what the end of an intact frame does. -/
theorem hear_leaves_idle {s : State} {h : Heard} {onIntact : State → Frame → State}
    (idle : s.lnk.transmitter = .idle) (left : (s.hear h onIntact).lnk.transmitter ≠ .idle) :
    s.sending = false ∧ s.lnk.receiver ≠ .off ∧
      ∃ r g f, s.receive h = (r, g, .intact f) ∧
        s.hear h onIntact = onIntact (s.afterReceiving (s.meetsStart h) r g) f := by
  have on : s.lnk.receiver ≠ .off := fun off => left (by rw [hear_deaf (.inr off), idle])
  have silent : s.sending = false := by simp [State.sending, idle]
  have whole : s.breaksOff h = false := by
    by_contra broken
    exact left (by rw [hear_broken onIntact (by simpa using broken), idle])
  rcases received : s.receive h with ⟨r, g, v⟩
  have after : Acts False s (s.afterReceiving (s.meetsStart h) r g) :=
    (afterReceiving_act s _ r g fun off => receive_on s h (by rw [received, off])).acts
  have heard : (s.sending || s.inReset || s.breaksOff h) = false := by
    simp [silent, whole, State.inReset, on]
  cases v with
  | nothing =>
    rw [hear_nothing onIntact silent on whole received] at left
    exact absurd (after.keeps_quiet idle) left
  | intact f =>
    refine ⟨silent, on, r, g, f, rfl, ?_⟩
    unfold State.hear
    rw [heard, received]
    rfl
  | fault k header =>
    have taken : s.hear h onIntact =
        (s.afterReceiving (s.meetsStart h) r g).takeFault k header := by
      unfold State.hear
      rw [heard, received]
      rfl
    rw [taken] at left
    exact absurd ((after.trans (takeFault_acts _ k header)).keeps_quiet idle) left

/-- Settles O59: no row but a POLL hands over a reply (`exec_acts`), and a POLL that is not answered does
not either. -/
theorem onlyAPollIsAnswered : Obligations.OnlyAPollIsAnswered := by
  intro c s t row idle left
  by_cases polled : IsPoll c
  · obtain ⟨h, order, rfl⟩ := polled
    have kind : h.isKind 0x02#8 = true := wf_of_exec_poll row
    have heard : exec (.poll h order) s = .next (s.hear h (State.endPoll order)) := if_pos kind
    obtain rfl := Host.Outcome.next.inj (heard.symm.trans row)
    obtain ⟨silent, on, r, g, f, received, ended⟩ := hear_leaves_idle idle left
    have answered : (s.afterReceiving (s.meetsStart h) r g).Answers f := by
      by_contra unanswered
      rw [ended] at left
      refine left (endPoll_unanswered order unanswered ?_)
      simp [State.afterReceiving, idle, Transmitter.abandon]
    obtain ⟨length, ⟨nonzero, own⟩, accepts⟩ := answered
    exact ⟨h, order, f, rfl, kind, by rw [received], length, nonzero, own, accepts, silent, on⟩
  · exact absurd (((exec_acts c s t row).mono polled).keeps_quiet idle) left

end Sys2Proof.Machine
end

section
/-! SUPPORT. The commands that replace one setting of LNK, DPU or IMN (R25, R149, R182). -/

namespace Sys2Proof.Machine

theorem argNat_quad (a b c d : Byte) :
    argNat [a, b, c, d] 0 4 =
      16777216 * a.toNat + 65536 * b.toNat + 256 * c.toNat + d.toNat := by
  show (((0 * 256 + a.toNat) * 256 + b.toNat) * 256 + c.toNat) * 256 + d.toNat = _
  omega

theorem ownSetFaultMode_eq (b : Byte) (s : State) :
    ownSetFaultMode [b] s =
      if b = 0 then (s.setImn { s.imn with mode := .latched }, okEmpty)
      else if b = 1 then (s.setImn { s.imn with mode := .persistent }, okEmpty)
      else refusing .badArgument s := by
  obtain rfl | rfl | ⟨k, above⟩ := byte_two_cases b
  · rfl
  · rfl
  · have unnamed : faultModeOf (argByte [b] 0) = none := by simp [faultModeOf, argByte, above]
    have other : b ≠ 0 ∧ b ≠ 1 := by constructor <;> rintro rfl <;> simp at above
    rw [ownSetFaultMode, unnamed, if_neg other.1, if_neg other.2]

/-- Settles O22, setting by setting. -/
theorem singleSettings : Obligations.SingleSettings := by
  intro s o a b c d hs
  refine ⟨next_commitWith hs rfl rfl fun _ => ?_, next_commitWith hs rfl rfl fun _ => ?_,
    next_commitWith hs rfl rfl fun _ => ?_⟩
  · rw [ownSetGroups, acting, argNat_pair, leaveQueue_lnk]
  · rw [ownSetLateTolerance, acting, argNat_quad]
  · rw [ownSetFaultMode_eq, leaveQueue_imn]
    split
    · rfl
    · split <;> rfl

end Sys2Proof.Machine
end

section
/-! SUPPORT. The reports of the whole part: ECHO, GET_STATUS with the overlap flags as one mask, and the four
sections of READ_CONFIG (R166 to R168, R200). -/

namespace Sys2Proof.Machine

/-! ### ECHO (R168) -/

/-- Settles O20: data of a good length come back by the owner, and another length is refused before it. -/
theorem echoReturnsItsData : Obligations.EchoReturnsItsData := by
  intro s o data accepts on
  have hs : s.commits = true :=
    commits_of_accepting (accepting_of_mem accepts) (by simpa [State.inReset] using on)
  refine congrArg Host.Outcome.next ?_
  split
  · rename_i fits
    exact commitWith_accepted (owner := ownEcho data) hs
      ((lengthOk_iff .echo data).mpr (.inl ⟨rfl, fits⟩)) rfl rfl
  · rename_i wrong
    exact commitWith_badLength (owner := ownEcho data) hs
      (lengthOk_of_wrong (.inl ⟨rfl, by omega⟩))

/-! ### GET_STATUS (R81, R166) -/

/-- Bit `n` of the mask is the overlap flag of channel `n`. -/
theorem Out.overlapMask_eq_ofBits (x : Out) :
    x.overlapMask = Nat.ofBits fun n : Fin 16 => x.channels[n].overlap := by
  have listed : x.channels.toList = (List.finRange 16).map (x.channels[·]) := by
    refine List.ext_getElem (by simp) fun n _ _ => ?_
    simp
  have bits : bit = Bool.toNat := by
    funext b
    cases b <;> rfl
  rw [Out.overlapMask, listed, List.foldr_map, bits, Nat.ofBits, Fin.foldr_eq_foldr_finRange]

theorem Out.testBit_overlapMask (x : Out) (n : Fin 16) :
    x.overlapMask.testBit n.val = x.channels[n].overlap := by
  rw [Out.overlapMask_eq_ofBits, Nat.testBit_ofBits_lt _ _ n.isLt]

theorem Out.overlapMask_lt (x : Out) : x.overlapMask < 65536 := by
  rw [Out.overlapMask_eq_ofBits]
  exact Nat.ofBits_lt_two_pow _

theorem statusPayload_leaveQueue (s : State) (o : Origin) :
    statusPayload (s.leaveQueue o) =
      byteOf s.sct.entries.length ++ byteOf s.evq.records.length ++ byteOf s.rpu.outbox.length ++
        byteOf (s.leaveQueue o).cin.queue.length ++ byteOf s.cin.lag ++ byteOf s.imn.mode.code ++
        byteOf s.imn.count ++ beBytes 2 s.out.overlapMask := by
  simp only [statusPayload, leaveQueue_sct, leaveQueue_evq, leaveQueue_rpu, leaveQueue_lag,
    leaveQueue_imn, leaveQueue_out]

/-- Settles O16: the mask is the one that the owner's payload carries. -/
theorem getStatusReports : Obligations.GetStatusReports := by
  intro s o hs
  refine ⟨s.out.overlapMask, s.out.testBit_overlapMask, s.out.overlapMask_lt,
    congrArg Host.Outcome.next ((commitWith_accepted hs rfl rfl rfl).trans ?_)⟩
  rw [ownGetStatus, statusPayload_leaveQueue, leaveQueue_out]
  rfl

/-! ### READ_CONFIG (R167, R200) -/

/-- A byte is 0, 1, 2, 3, or above 3. -/
theorem byte_four_cases (b : Byte) : b = 0 ∨ b = 1 ∨ b = 2 ∨ b = 3 ∨ 3 < b.toNat := by
  obtain zero | one | two | ⟨k, above⟩ := byte_three_cases b
  · exact .inl zero
  · exact .inr (.inl one)
  · exact .inr (.inr (.inl two))
  · have three : b = 3 ↔ b.toNat = 3 := BitVec.toNat_inj.symm
    rw [three]
    omega

/-- The condition byte, condition by condition (R198). -/
theorem Conditions.toNat_eq (c : Conditions) :
    c.toNat = (if c.fault then 1 else 0) + (if c.dropped then 2 else 0) +
      (if c.eventLoss then 4 else 0) + (if c.timebase then 8 else 0) + (if c.missed then 16 else 0) := by
  simp only [Conditions.toNat, mul_bit]
  rfl

/-- What READ_CONFIG reports of a section behind its number (R200). -/
def configSection (s : State) (b : Byte) : List Byte :=
  if b = 0 then
    beBytes 2 s.lnk.groups.toNat ++ byteOf s.cin.lag ++ byteOf s.imn.mode.code ++ byteOf s.atn.mask.toNat
  else if b = 1 then
    byteOf s.tbu.mode.code ++ beBytes 2 s.tbu.syncInterval ++ byteOf s.tbu.holdoverLimit ++
      beBytes 2 s.tbu.offset ++ beBytes 4 s.dpu.lateTolerance
  else if b = 2 then s.out.channels.toList.flatMap Channel.configByte
  else s.cap.inputs.toList.flatMap Input.configBytes

theorem configPayload_eq (s : State) (b : Byte) :
    configPayload s b.toNat =
      if 3 < b.toNat then none else some (byteOf b.toNat ++ configSection s b) := by
  obtain rfl | rfl | rfl | rfl | above := byte_four_cases b
  · simp [configPayload, configSection]
  · simp [configPayload, configSection]
  · rfl
  · rfl
  · rw [if_pos above, configPayload]
    all_goals omega

theorem configSection_leaveQueue (s : State) (o : Origin) (b : Byte) :
    configSection (s.leaveQueue o) b = configSection s b := by
  simp only [configSection, leaveQueue_lnk, leaveQueue_lag, leaveQueue_imn, leaveQueue_atn,
    leaveQueue_tbu, leaveQueue_dpu, leaveQueue_out, leaveQueue_cap]

theorem ownReadConfig_eq (b : Byte) (s : State) :
    ownReadConfig [b] s =
      if 3 < b.toNat then refusing .badArgument s
      else (s, okWith (byteOf b.toNat ++ configSection s b)) := by
  have payload : configPayload s (argByte [b] 0).toNat = _ := configPayload_eq s b
  rw [ownReadConfig, payload]
  by_cases above : 3 < b.toNat
  · rw [if_pos above, if_pos above]
  · rw [if_neg above, if_neg above]

/-- Settles O19: the owner by its section. -/
theorem readConfigReports : Obligations.ReadConfigReports := by
  intro s o b hs
  refine next_commitWith hs rfl rfl fun _ => ?_
  rw [ownReadConfig_eq, configSection_leaveQueue, configSection, Conditions.toNat_eq]
  split <;> rfl

end Sys2Proof.Machine
end

section
/-! SUPPORT. A POLL at whose end no command commits: the acknowledge, and the one REPLY frame built from
the head that it leaves (R159 to R162, R200). -/

namespace Sys2Proof.Machine

/-! ### A POLL heard where no command commits (R127, R144) -/

/-- In each order, the POLL is handled in the part that has counted it: handling does not meet the staging
queue, and the expiry timer has not run out (R132, R164). -/
theorem exec_poll_waiting {s : State} {h : Heard} {f : Frame} (order : PollOrder) (hears : s.Hears h)
    (frame : h.frame? = some f) (kind : f.kind = 0x02#8) (accepts : s.stc.op ∈ acceptingStates)
    (waits : s.Waits) (early : s.cin.expiry ≠ some 0) :
    exec (.poll h order) s = .next (s.counted.handlePoll f) := by
  have wf := isKind_of frame kind
  have accepting : s.heard.stc.op.accepting = true := accepting_of_mem accepts
  have beside := handlePoll_beside f
  have handling : exec (.poll h .handling) s = .next (s.counted.handlePoll f) := by
    have behind : (s.heard.handlePoll f).countAndCommit = s.counted.handlePoll f := by
      rw [countAndCommit_behind waits (beside.cin s.heard)]
      exact (beside.beside s.heard s.counted.cin).symm
    rw [exec_poll_heard hears frame wf, ← behind]
    exact congrArg _ (if_pos accepting)
  cases order with
  | commits =>
    rw [exec_poll_heard hears frame wf, ← countAndCommit_waits s waits]
    exact congrArg _ (if_pos accepting)
  | handling => exact handling
  | handlingThenExpiry => rw [exec_poll_expiry_early hears wf early, handling]

/-! ### The acknowledge (R159) -/

theorem acknowledge_eq (r : Rpu) (valid : Bool) (seq : Byte) :
    r.acknowledge valid seq =
      { outbox := match r.outbox with
          | [] => []
          | x :: rest =>
            if valid = true ∧ x.result ≠ none ∧ x.seq = seq then rest else x :: rest } := by
  obtain ⟨outbox⟩ := r
  cases outbox with
  | nil => rfl
  | cons x rest =>
    simp only [Rpu.acknowledge, Option.isSome_iff_ne_none]
    split <;> rfl

/-! ### The REPLY frame (R160 to R162, R200) -/

theorem byteOf_eq (v : Nat) : byteOf v = [BitVec.ofNat 8 v] := by
  simp [byteOf, beBytes]

/-- The status summary, flag by flag (R162, R198). -/
theorem summary_eq (s : State) :
    s.summary =
      [BitVec.ofNat 8 (s.stc.op.code + 8 * s.tbu.mode.code + 16 * s.tbu.state.code +
          (if s.imn.flag then 128 else 0)),
       BitVec.ofNat 8 ((if s.atn.flags.fault then 1 else 0) + (if s.atn.flags.dropped then 2 else 0) +
          (if s.atn.flags.eventLoss then 4 else 0) + (if s.atn.flags.timebase then 8 else 0) +
          (if s.atn.flags.missed then 16 else 0)),
       BitVec.ofNat 8 s.rpu.outbox.length,
       BitVec.ofNat 8 ((if s.evq.records = [] then 0 else 1) +
          (if 128 ≤ s.sct.entries.length then 2 else 0))] := by
  have events : bit (!s.evq.records.isEmpty) = if s.evq.records = [] then 0 else 1 := by
    cases s.evq.records <;> rfl
  have full : s.sct.full = decide (128 ≤ s.sct.entries.length) := rfl
  simp only [State.summary, Conditions.toNat_eq, mul_bit, events, full, decide_eq_true_eq]

section
variable {s : State} {x : ReplyRecord} {rest : List ReplyRecord}

theorem replyFrame_empty (empty : s.rpu.outbox = []) :
    s.replyFrame =
      { dest := 63, kind := 0x81, seq := 0
        payload := [0, BitVec.ofNat 8 s.lnk.unitAddress.toNat, 0] ++ s.summary } := by
  simp [State.replyFrame, Rpu.answer, empty, byteOf_eq]

theorem replyFrame_reserved (head : s.rpu.outbox = x :: rest) (reserved : x.result = none) :
    s.replyFrame =
      { dest := 63, kind := 0x81, seq := x.seq
        payload := [1, BitVec.ofNat 8 s.lnk.unitAddress.toNat, 0] ++ s.summary } := by
  simp [State.replyFrame, Rpu.answer, head, reserved, byteOf_eq]

theorem replyFrame_ready {y : Result} (head : s.rpu.outbox = x :: rest) (ready : x.result = some y) :
    s.replyFrame =
      { dest := 63, kind := 0x81, seq := x.seq
        payload := [2, BitVec.ofNat 8 s.lnk.unitAddress.toNat, BitVec.ofNat 8 y.code.code] ++
          s.summary ++ y.payload } := by
  simp [State.replyFrame, Rpu.answer, head, ready, byteOf_eq]

end

/-- A POLL that is answered: the acknowledge, and the reply that waits, built behind it. -/
theorem handlePoll_answered {s : State} {f : Frame} {b : Byte} (accepts : s.stc.op ∈ acceptingStates)
    (own : s.Addressed f) (one : f.payload = [b]) :
    let acked := s.setRpu (s.rpu.acknowledge (b.getLsbD 0) f.seq)
    s.handlePoll f =
      (acked.setLnk { s.lnk with transmitter := .waiting acked.replyFrame.bytes 0 s.draws }).draw := by
  have polls : s.pollsMe f = true := by
    simp [State.pollsMe, accepting_of_mem accepts, (isOwnAddress_iff s f).mpr own, one]
  rw [State.handlePoll, if_pos polls, one]
  rfl

/-- Settles O46: the counted part handles the POLL, which it answers from the head left by the acknowledge,
or which is not its own. -/
theorem pollDrawsOneReply : Obligations.PollDrawsOneReply := by
  intro s h f order hears frame kind accepts waits early
  rw [exec_poll_waiting order hears frame kind accepts waits early]
  refine ⟨fun b one low _ own => ?_, fun foreign => congrArg _ ?_⟩
  · intro outbox summary unit reply
    have acked : s.counted.rpu.acknowledge (b.getLsbD 0) f.seq = { outbox := outbox } :=
      acknowledge_eq s.rpu _ _
    have summed : (s.counted.setRpu { outbox := outbox }).summary = summary := summary_eq _
    have built : (s.counted.setRpu { outbox := outbox }).replyFrame = reply := by
      clear_value outbox summary
      cases outbox with
      | nil => rw [replyFrame_empty rfl, summed]; rfl
      | cons x rest =>
        obtain ⟨seq, _ | y⟩ := x
        · rw [replyFrame_reserved rfl rfl, summed]; rfl
        · rw [replyFrame_ready rfl rfl, summed]; rfl
    rw [handlePoll_answered (s := s.counted) accepts ⟨low, own⟩ one, acked, built]
    rfl
  · refine handlePoll_unanswered (s := s) accepts ?_ rfl
    rintro ⟨length, ⟨nonzero, own⟩, _⟩
    have small := s.lnk.unitAddress.isLt
    omega

end Sys2Proof.Machine
end

section
/-! SUPPORT. The ends of the quiesce and of the staging expiry timer (R133, R177), each with what it leaves
before its time (log 4). -/

namespace Sys2Proof.Machine

theorem endQuiesce_early {s : State} (early : s.imn.quiesce ≠ some 0) : s.endQuiesce = s :=
  if_neg (by rwa [ranOut_iff])

theorem endQuiesce_due {s : State} (due : s.imn.quiesce = some 0) :
    s.endQuiesce =
      (s.setImn { s.imn with quiesce := none }).setLnk { s.lnk with freeFor := 0 } :=
  if_pos ((ranOut_iff _).mpr due)

/-- Settles O38: each of the two rows by whether its timer has run out. -/
theorem quiesceEndAndStagingExpiry : Obligations.QuiesceEndAndStagingExpiry := by
  intro s
  constructor
  · show Host.Outcome.next s.endQuiesce = _
    by_cases due : s.imn.quiesce = some 0
    · rw [if_pos due, endQuiesce_due due]
      rfl
    · rw [if_neg due, endQuiesce_early due]
  · show Host.Outcome.next s.expireStaging = _
    by_cases due : s.cin.expiry = some 0
    · rw [if_pos due, expireStaging_due due]
      rfl
    · rw [if_neg due, expireStaging_early due]

end Sys2Proof.Machine
end

section
/-! SUPPORT. The commands on the mask and the flags of ATN (R188, R189). -/

namespace Sys2Proof.Machine

/-- Both commands refuse first the byte with an unused bit set. -/
theorem ite_conditionByteOk {α : Type} (b : Byte) (act refuse : α) :
    (if conditionByteOk b then act else refuse) = if 32 ≤ b.toNat then refuse else act := by
  simp only [conditionByteOk, decide_eq_true_eq, ← not_le, ite_not]

theorem ownSetAttentionMask_eq (b : Byte) (s : State) :
    ownSetAttentionMask [b] s =
      if 32 ≤ b.toNat then refusing .badArgument s
      else (s.setAtn { s.atn with mask := .ofByte b }, okEmpty) :=
  ite_conditionByteOk b _ _

theorem ownAckAttention_eq (b : Byte) (s : State) :
    ownAckAttention [b] s =
      if 32 ≤ b.toNat then refusing .badArgument s
      else (s.setAtn { s.atn with flags := s.atn.flags.acknowledge (.ofByte b) }, okEmpty) :=
  ite_conditionByteOk b _ _

/-- Settles O23: both owners by their two cases; every accepting state admits ACK_ATTENTION. -/
theorem attentionCommands : Obligations.AttentionCommands := by
  intro s o b hs
  constructor
  · refine next_commitWith hs rfl rfl fun _ => ?_
    rw [ownSetAttentionMask_eq, leaveQueue_atn]
    split <;> rfl
  · refine congrArg Host.Outcome.next ((commitWith_accepted hs rfl rfl rfl).trans ?_)
    rw [ownAckAttention_eq, leaveQueue_atn]
    split <;> rfl

end Sys2Proof.Machine
end

section
/-! SUPPORT. One step at the front of the queue, and what every row does to the queue and to the counter of
free values (logs 6 and 7): there is a next state for each well-formed row. -/

namespace Sys2Proof.Machine

/-- Settles O1, by the branch of `step` for a queue that holds a row. -/
theorem stepRunsTheFront : Obligations.StepRunsTheFront := by
  intro s c rest front
  rw [step, front]

/-- No row touches the queue: each is made of changes that keep it (`exec_acts`). -/
theorem exec_keeps_pending {c : Instr} {s t : State} (row : exec c s = .next t) :
    t.pending = s.pending :=
  (exec_acts c s t row).keeps (P := fun u => u.pending = s.pending)
    (fun act kept => act.keeps_pending.trans kept) rfl

/-- A row that is no POLL draws no free value. -/
theorem exec_keeps_draws {c : Instr} {s t : State} (row : exec c s = .next t)
    (unpolled : ¬ IsPoll c) : t.draws = s.draws :=
  ((exec_acts c s t row).mono unpolled).keeps (P := fun u => u.draws = s.draws)
    (fun act kept => act.keeps_draws.trans kept) rfl

/-- A well-formed row has a next state: it hears what it brings, or is an event of the part itself, or is
a commit. -/
theorem exists_next_of_wf {c : Instr} (s : State) (wf : c.wf = true) : ∃ t, exec c s = .next t := by
  cases c with
  | commandFrame | poll | sync | probe | wake | fill | otherIntactFrame | faultReport =>
    obtain ⟨onIntact, row⟩ := heardOf_exec rfl wf
    exact ⟨_, row s⟩
  | hardReset | transmitStart | transmitEnd | replyAbandoned | quiesceEnd | stagingExpiry
  | syncWatchLockedExpiry | syncWatchHoldoverExpiry | syncWatchAcquiringExpiry | slewEnd | wakeDelayEnd
  | headReached | pulseEnd | windowEnd | deadTimeEnd | captureEdge | sampleReached | discardingEnd =>
    exact ⟨_, rfl⟩
  | _ => exact ⟨_, exec_commitRow _ _ _ s rfl wf⟩

/-- Settles O3: what no row touches from the changes that it is made of, and the next state by the kind of
row. -/
theorem rowsCompleteAndKeepTheQueue : Obligations.RowsCompleteAndKeepTheQueue :=
  ⟨fun _ _ _ row => ⟨exec_keeps_pending row, fun unpolled =>
      exec_keeps_draws row fun ⟨h, order, polled⟩ => unpolled h order polled⟩,
    fun _ s wf => exists_next_of_wf s wf⟩

end Sys2Proof.Machine
end

section
/-! SUPPORT. The report of the fault record, its header filled up to four bytes (R181), and the report of
alignment, its outcomes filled up to eight slots (R197, R200). -/

namespace Sys2Proof.Machine

/-! ### GET_FAULT_RECORD (R181, R200) -/

/-- Filling up with zeros and cutting at `n` is padding to `n`. -/
theorem take_append_replicate {α : Type} (n : Nat) (l : List α) (a : α) (fits : l.length ≤ n) :
    (l ++ List.replicate n a).take n = l ++ List.replicate (n - l.length) a := by
  rw [List.take_append, List.take_of_length_le fits, List.take_replicate,
    Nat.min_eq_left (Nat.sub_le _ _)]

/-- The payload while the fault record is empty. -/
theorem faultPayload_empty {x : Imn} (flag : x.flag = false) (record : x.record = none)
    (count : x.count = 0) : faultPayload x = List.replicate 18 0 := by
  rw [faultPayload, flag, record, count]
  decide

/-- The payload while a fault record stands. -/
theorem faultPayload_of_record {x : Imn} {r : FaultRecord} (flag : x.flag = true)
    (record : x.record = some r) (header : r.header.length ≤ 4) :
    faultPayload x =
      byteOf 1 ++ byteOf x.count ++ byteOf (faultKindCode r.kind) ++ timeOrMarker r.time ++
        byteOf r.op.code ++ byteOf r.header.length ++
        (r.header ++ List.replicate (4 - r.header.length) 0) ++ byteOf r.voided := by
  rw [faultPayload, flag, record, faultRecordBytes, take_append_replicate 4 r.header 0 header]
  simp only [List.append_assoc]
  rfl

/-! ### GET_ALIGNMENT (R197, R200) -/

/-- The eight slots: two bytes for each outcome, and zeros behind. -/
theorem logSlots_eq {log : List LogEntry} (fits : log.length ≤ 8) :
    logSlots log =
      log.flatMap (fun x => [x.seq, BitVec.ofNat 8 x.outcome.code]) ++
        List.replicate (16 - 2 * log.length) 0 := by
  have bytes : logEntryBytes = fun x => [x.seq, BitVec.ofNat 8 x.outcome.code] := by
    funext x
    rw [logEntryBytes, byteOf_eq]
    rfl
  have length : (log.flatMap logEntryBytes).length = 2 * log.length := by
    simp [bytes, List.length_flatMap, Nat.mul_comm]
  rw [logSlots, take_append_replicate 16 _ 0 (by omega), length, bytes]

/-- The payload of GET_ALIGNMENT, the two bytes of the pending sample taken together. -/
theorem alignmentPayload_eq {x : Aln} (offset : Nat) (fits : x.log.length ≤ 8) :
    alignmentPayload x offset =
      byteOf x.log.length ++
        (x.log.flatMap (fun y => [y.seq, BitVec.ofNat 8 y.outcome.code]) ++
          List.replicate (16 - 2 * x.log.length) 0) ++
        byteOf x.total ++
        (match x.pending with
          | some p => [1, p.seq]
          | none => [0, 0]) ++
        beBytes 2 offset := by
  rw [alignmentPayload, logSlots_eq fits]
  cases x.pending with
  | none => simp [byteOf_eq, bit]
  | some p => simp [byteOf_eq, bit]

/-- Settles O17: both owners report, GET_FAULT_RECORD in every accepting state. -/
theorem faultRecordAndAlignmentReports : Obligations.FaultRecordAndAlignmentReports := by
  refine ⟨fun s o hs => ⟨fun flag record count => ?_, fun r flag record header => ?_⟩,
    fun s o hs fits => next_commitWith hs rfl rfl fun _ => ?_⟩
  · refine congrArg Host.Outcome.next ((commitWith_accepted hs rfl rfl rfl).trans ?_)
    rw [ownGetFaultRecord, reporting, leaveQueue_imn, faultPayload_empty flag record count]
    rfl
  · refine congrArg Host.Outcome.next ((commitWith_accepted hs rfl rfl rfl).trans ?_)
    rw [ownGetFaultRecord, reporting, leaveQueue_imn, faultPayload_of_record flag record header]
    rfl
  · rw [ownGetAlignment, reporting, leaveQueue_aln, leaveQueue_tbu, alignmentPayload_eq _ fits]
    rfl

end Sys2Proof.Machine
end

section
/-! SUPPORT. The codes of R165, R198 and R199, and the check word of the FILL frame of 13.2. -/

namespace Sys2Proof.Machine

/-- The check word of a FILL frame to destination 0, one byte after another (13.2). -/
theorem crcFeed_fill :
    crcFeed 0xFFFF#16 0x00 = 0xE1F0#16 ∧ crcFeed 0xE1F0#16 0x06 = 0x7DC9#16 ∧
      crcFeed 0x7DC9#16 0x00 = 0x663A#16 ∧ crcFeed 0x663A#16 0x00 = 0x3660#16 := by
  decide

theorem crc_fill : crc [0x00, 0x06, 0x00, 0x00] = 0x3660#16 := by
  obtain ⟨dest, kind, seq, length⟩ := crcFeed_fill
  simp only [crc, List.foldl_cons, List.foldl_nil]
  rw [dest, kind, seq, length]

/-- The frame as it is sent ends with that check word (R140, R141). -/
theorem bytes_fill :
    ({ dest := 0, kind := 0x06, seq := 0, payload := [] } : Frame).bytes =
      [0x00, 0x06, 0x00, 0x00, 0x36, 0x60] := by
  have covered : ({ dest := 0, kind := 0x06, seq := 0, payload := [] } : Frame).covered =
      [0x00, 0x06, 0x00, 0x00] := rfl
  rw [Frame.bytes, covered, crc_fill]
  rfl

/-- Settles O4: each code by its definition, the example by its check word. -/
theorem codesAndCheckWordExample : Obligations.CodesAndCheckWordExample := by
  obtain ⟨dest, kind, seq, length⟩ := crcFeed_fill
  exact ⟨rfl, rfl, rfl, rfl, rfl, rfl, fun _ => rfl, rfl, rfl, rfl, rfl, rfl, rfl, rfl, rfl,
    rfl, rfl, rfl, rfl, rfl, rfl, rfl, rfl, dest, kind, seq, length, bytes_fill⟩

end Sys2Proof.Machine
end
